-- ==== Sys2Proof/Word.lean ====
section
/-! DEFINITION. Words of the Grivik G4 and their plainest readings (R3, R5, R251). -/

namespace Sys2Proof

/-- One byte. -/
abbrev Byte := BitVec 8
/-- A 16-bit value. -/
abbrev W16 := BitVec 16
/-- A lane word (R251), and one word of an instruction (R3). -/
abbrev W32 := BitVec 32
/-- A scalar register word (R251). -/
abbrev W64 := BitVec 64
/-- A set of lanes: bit `L` is lane `L`, 0 to 95 (R116). -/
abbrev LaneMask := BitVec 96

/-- The lanes of a group, ascending (R1: 96 lanes). -/
def laneList : List Nat := List.range 96

/-- Every lane. -/
def allLanes : LaneMask := BitVec.allOnes 96

/-- SEXT of the low `n` bits of a word to 64 bits (R5). -/
def sext64 {n : Nat} (x : BitVec n) : W64 := x.signExtend 64

/-- ZEXT of a field to 64 bits (R5). -/
def zext64 {n : Nat} (x : BitVec n) : W64 := x.setWidth 64

/-- A truth value as a word. -/
def boolWord (n : Nat) (b : Bool) : BitVec n := if b then 1#n else 0#n

end Sys2Proof
end

