-- ==== Sys2Proof/Config.lean ====
section
/-! DEFINITION. What an implementation or the surroundings fix and the manual leaves open: free values, as opaque
constants that no proof can look into. Each is named in notes/assumptions. -/

namespace Sys2Proof

/-- What Root reads from the header of a firmware or hypervisor image (R24): the public key's modulus bytes, the bytes
the signature covers, the signature, the security version, and the version the status word shows (R13). -/
structure ImageHeader where
  key       : List Byte
  signed    : List Byte
  signature : List Byte
  version   : Nat
  major     : Byte
  minor     : Byte
  tildin    : List Byte
  bowline   : List Byte
  deriving DecidableEq, Repr, Inhabited

/-- The header of an image: the manual says what it holds and not where (R24). Log entry 3. -/
opaque Config.imageHeader : List Byte → ImageHeader

/-- Modulus and exponent of a public key's bytes: the manual gives the modulus' size and no form (R31). Log entry 3. -/
opaque Config.publicKey : List Byte → Nat × Nat

/-- The management nonces that Root's random bit generator draws, in order (R64). Log entry 4. -/
opaque Config.nonce : Nat → BitVec 512

/-- An RSA key pair: modulus, public and private exponent (R27). -/
structure RsaKey where
  modulus : Nat
  verify  : Nat
  sign    : Nat
  deriving DecidableEq, Repr, Inhabited

/-- The primes of an RSA modulus with the two exponents, as RSA key generation makes them (R27, R31: PKCS #1 v2.2). -/
structure RsaPrimes where
  primes : List Nat
  verify : Nat
  sign   : Nat
  deriving DecidableEq, Repr, Inhabited

/-- The modulus. -/
def RsaPrimes.modulus (k : RsaPrimes) : Nat := k.primes.foldl (· * ·) 1

/-- The least common multiple of the primes less 1. -/
def RsaPrimes.lambda (k : RsaPrimes) : Nat := k.primes.foldl (fun n p => Nat.lcm n (p - 1)) 1

/-- A prime number. -/
def isPrime (p : Nat) : Bool := 2 ≤ p && decide (∀ m, m < p → m ∣ p → m = 1)

/-- A 4,096-bit RSA key pair (R27, R31): two or more distinct odd primes, and exponents whose product is 1 modulo `lambda`. -/
def RsaPrimes.isPair (k : RsaPrimes) : Bool :=
  2 ≤ k.primes.length && decide k.primes.Nodup && k.primes.all (fun p => isPrime p && p != 2) && 2 ^ 4095 ≤ k.modulus &&
  k.modulus < 2 ^ 4096 && 3 ≤ k.verify && k.verify < k.modulus && k.sign < k.modulus && k.verify * k.sign % k.lambda == 1

/-- What the n-th run of the key generator draws (R27). Log entry 4. -/
opaque Config.keyDraw : Nat → RsaPrimes

/-- A key pair of the standard's form: four Mersenne primes, whose exponents make 4,096 bits. It stands where the draw is none. Log entry 4. -/
def mersennePair : RsaPrimes :=
  let p : List Nat := [2 ^ 7 - 1, 2 ^ 607 - 1, 2 ^ 1279 - 1, 2 ^ 2203 - 1]
  { primes := p, verify := 65537, sign := (1 + 3584 * p.foldl (fun n q => Nat.lcm n (q - 1)) 1) / 65537 }

/-- The identity key pair that the n-th generation makes: a draw that is a 4,096-bit RSA key pair (R27). Log entry 4. -/
def Config.identityKey (n : Nat) : RsaKey :=
  let k := if (Config.keyDraw n).isPair then Config.keyDraw n else mersennePair
  { modulus := k.modulus, verify := k.verify, sign := k.sign }

/-- The certificate issued for a public key, its modulus and exponent (R27). Log entry 4. -/
opaque Config.certificate : Nat → Nat → List Byte

/-- The n-th salt of a signature the device makes (R31). Log entry 4. -/
opaque Config.salt : Nat → BitVec 512

/-- PTBASE of a tenant whose supervisor is Bowline: where in the tenant's windows Bowline keeps its page tables (R170, R287). Log entry
81. -/
opaque Config.bowlineTable : Nat → BitVec 64

/-- The variant bytes into which Tildin translates a Sarxis module, or none where it cannot (R288, R289). Log entry 5. -/
opaque Config.translate : List Byte → Option (List Byte)

/-- Whether the k-th aligned 8-byte part of an engine command that was stopped has been written, for the n-th stop
(R234: any mix of old and new). Log entry 6. -/
opaque Config.partWritten : Nat → Nat → Bool

/-- How many rows an engine command that was stopped has reached, for the n-th stop (R234). Log entry 6. -/
opaque Config.rowsReached : Nat → Nat

/-- Which of the failing addresses of an engine command stops it, for the n-th stop (R234). Log entry 6. -/
opaque Config.failPick : Nat → Nat

/-- For the n-th command, the rank of its k-th byte: a byte that the command both reads and writes may be read as what a byte of lower
rank writes there (R315). Log entry 8. -/
opaque Config.overlapRank : Nat → Nat → Nat

/-- The same: which of those values the k-th byte reads, or the value from before the command (R315). Log entry 8. -/
opaque Config.overlapPick : Nat → Nat → Nat

/-- The k-th byte that the n-th gather reads from a scratch row beyond its team's range: the manual states no value
(R313, R314). Log entry 8. -/
opaque Config.gatherByte : Nat → Nat → Byte

/-- What a frame of an rcopy says (R316): bytes to store at a window address of the receiver, a request for bytes of the
receiver, bytes asked for, or a refusal with the address refused. The first three numbers name the command: team, context,
sequence number. -/
inductive RcopyMsg where
  | put (team ctx seq addr : Nat) (bytes : List Byte)
  | ask (team ctx seq addr len : Nat)
  | reply (team ctx seq off : Nat) (bytes : List Byte)
  | stored (team ctx seq : Nat)
  | refuse (team ctx seq addr : Nat)
  | other
  deriving DecidableEq, Repr, Inhabited

/-- OFFSET and payload of the frame that carries a message of an rcopy: the manual gives only its INST (R316). Log entry 9. -/
opaque Config.rcopyFrame : RcopyMsg → Nat × List Byte

/-- What OFFSET and payload of a received frame of an rcopy say (R316). Log entry 9. -/
opaque Config.rcopyRead : Nat → List Byte → RcopyMsg

/-- Which of the free staging segments the n-th starting instance takes, segment by segment (R75). Log entry 10. -/
opaque Config.segmentPick : Nat → Nat → Nat

/-- Whether the k-th element of the destination of the n-th failed collective instance is new (R77). Log entry 6. -/
opaque Config.elementWritten : Nat → Nat → Bool

/-- The SENDs' contents by which Bowline reaches the file service are its own (R239): the byte form of one request.
Log entry 7. -/
opaque Config.serviceRequest : Nat → List Byte → List Byte

/-- Where in the DRAM reserve the hypervisor puts the n-th save area (R241: the manual gives no place). Log entry 70. -/
opaque Config.savePlace : Nat → Nat

/-- Byte k of the n-th save area where the entry it belongs to holds nothing, or holds what the model has no state for, the pass
counts of R100 (R241 to R243). Log entry 70. -/
opaque Config.saveByte : Nat → Nat → Byte

end Sys2Proof
end

