-- ==== Sys2Proof/Machine/Map.lean ====
section
/-! DEFINITION. Sparse tables: lists of (key, value) pairs with strictly rising keys, and byte memory kept in
the same form with no entry that holds what an unlisted address reads as (0, the value the wipe of R35 leaves). -/

namespace Sys2Proof.Machine

/-- A sparse table. -/
abbrev AList (β : Type) := List (Nat × β)

/-- The entry at key `k`. -/
def aget {β : Type} : AList β → Nat → Option β
  | [], _ => none
  | (j, v) :: t, k => if j = k then some v else aget t k

/-- The table with `v` at key `k`. -/
def aset {β : Type} : AList β → Nat → β → AList β
  | [], k, v => [(k, v)]
  | (j, w) :: t, k, v =>
    if k < j then (k, v) :: (j, w) :: t
    else if k = j then (k, v) :: t
    else (j, w) :: aset t k v

/-- The table without key `k`. -/
def adel {β : Type} : AList β → Nat → AList β
  | [], _ => []
  | (j, w) :: t, k => if j = k then adel t k else (j, w) :: adel t k

/-- The lowest key at or above `n` that is free, within `fuel` tries. -/
def afree {β : Type} (m : AList β) : Nat → Nat → Option Nat
  | 0, _ => none
  | fuel + 1, n => if (aget m n).isNone then some n else afree m fuel (n + 1)

/-- The keys rise strictly. -/
def keysRise {β : Type} : AList β → Bool
  | [] => true
  | [_] => true
  | (j, _) :: (k, w) :: t => j < k && keysRise ((k, w) :: t)

/-- Byte memory: (address, byte) pairs. -/
abbrev Memory := List Host.Cell

/-- What an address that no entry lists reads as: the zero left by the wipe (R35, R206). -/
def unlisted : Byte := 0#8

/-- The canonical form of a memory: addresses rise strictly, and no entry equals what an unlisted address reads as. -/
def Memory.wf (m : Memory) : Bool := keysRise m && m.all (fun c => c.2 != unlisted)

/-- One byte of a memory. -/
def memGet (m : Memory) (a : Nat) : Byte := (aget m a).getD unlisted

/-- A memory with byte `b` at address `a`. -/
def memSet (m : Memory) (a : Nat) (b : Byte) : Memory :=
  if b = unlisted then adel m a else aset m a b

/-- `n` bytes from address `a` upward. -/
def memGetN (m : Memory) (a : Nat) : Nat → List Byte
  | 0 => []
  | n + 1 => memGet m a :: memGetN m (a + 1) n

/-- A memory with the bytes of the list stored from address `a` upward. -/
def memSetN (m : Memory) (a : Nat) : List Byte → Memory
  | [] => m
  | b :: bs => memSetN (memSet m a b) (a + 1) bs

/-- The bytes of a memory outside `[a, a + n)`. -/
def memClear (m : Memory) (a n : Nat) : Memory := m.filter (fun c => c.1 < a || a + n ≤ c.1)

/-- A little-endian number of its bytes (R3). -/
def leNat : List Byte → Nat
  | [] => 0
  | b :: bs => b.toNat + 256 * leNat bs

/-- The low `n` bytes of a number, little-endian (R3). -/
def leBytes : Nat → Nat → List Byte
  | 0, _ => []
  | n + 1, x => BitVec.ofNat 8 x :: leBytes n (x / 256)

/-- `n` bytes of a byte string from offset `off`, as a little-endian number; bytes past its end count as 0. -/
def fieldAt (bs : List Byte) (off n : Nat) : Nat := leNat ((bs.drop off).take n)

/-- Every one of the `n` bytes from offset `off` is zero. -/
def zeroAt (bs : List Byte) (off n : Nat) : Bool := ((bs.drop off).take n).all (· == 0#8)

/-- A number put in ascending order among others. -/
def insertNat (n : Nat) : List Nat → List Nat
  | [] => [n]
  | m :: r => if n < m then n :: m :: r else m :: insertNat n r

/-- Numbers in ascending order. -/
def sortNats (l : List Nat) : List Nat := l.foldl (fun r n => insertNat n r) []

end Sys2Proof.Machine
end

