-- ==== Sys2Proof/Machine/Crypto.lean ====
section
/-! DEFINITION. SHA-512, and the making and the check of an RSASSA-PSS signature with a 4,096-bit modulus, MGF1 with SHA-512 and a 64-byte salt
(R31). The manual names the algorithms; their text is that of FIPS 180-4 and PKCS #1 v2.2. PRESUMED (notes/assumptions/4.md). -/

namespace Sys2Proof.Machine

/-- The eight words with which SHA-512 begins. -/
def shaInit : List W64 :=
  [0x6a09e667f3bcc908#64, 0xbb67ae8584caa73b#64, 0x3c6ef372fe94f82b#64, 0xa54ff53a5f1d36f1#64,
   0x510e527fade682d1#64, 0x9b05688c2b3e6c1f#64, 0x1f83d9abfb41bd6b#64, 0x5be0cd19137e2179#64]

/-- The eighty constants of SHA-512. -/
def shaK : List W64 :=
  [0x428a2f98d728ae22#64, 0x7137449123ef65cd#64, 0xb5c0fbcfec4d3b2f#64, 0xe9b5dba58189dbbc#64,
   0x3956c25bf348b538#64, 0x59f111f1b605d019#64, 0x923f82a4af194f9b#64, 0xab1c5ed5da6d8118#64,
   0xd807aa98a3030242#64, 0x12835b0145706fbe#64, 0x243185be4ee4b28c#64, 0x550c7dc3d5ffb4e2#64,
   0x72be5d74f27b896f#64, 0x80deb1fe3b1696b1#64, 0x9bdc06a725c71235#64, 0xc19bf174cf692694#64] ++
  [0xe49b69c19ef14ad2#64, 0xefbe4786384f25e3#64, 0x0fc19dc68b8cd5b5#64, 0x240ca1cc77ac9c65#64,
   0x2de92c6f592b0275#64, 0x4a7484aa6ea6e483#64, 0x5cb0a9dcbd41fbd4#64, 0x76f988da831153b5#64,
   0x983e5152ee66dfab#64, 0xa831c66d2db43210#64, 0xb00327c898fb213f#64, 0xbf597fc7beef0ee4#64,
   0xc6e00bf33da88fc2#64, 0xd5a79147930aa725#64, 0x06ca6351e003826f#64, 0x142929670a0e6e70#64] ++
  [0x27b70a8546d22ffc#64, 0x2e1b21385c26c926#64, 0x4d2c6dfc5ac42aed#64, 0x53380d139d95b3df#64,
   0x650a73548baf63de#64, 0x766a0abb3c77b2a8#64, 0x81c2c92e47edaee6#64, 0x92722c851482353b#64,
   0xa2bfe8a14cf10364#64, 0xa81a664bbc423001#64, 0xc24b8b70d0f89791#64, 0xc76c51a30654be30#64,
   0xd192e819d6ef5218#64, 0xd69906245565a910#64, 0xf40e35855771202a#64, 0x106aa07032bbd1b8#64] ++
  [0x19a4c116b8d2d0c8#64, 0x1e376c085141ab53#64, 0x2748774cdf8eeb99#64, 0x34b0bcb5e19b48a8#64,
   0x391c0cb3c5c95a63#64, 0x4ed8aa4ae3418acb#64, 0x5b9cca4f7763e373#64, 0x682e6ff3d6b2b8a3#64,
   0x748f82ee5defb2fc#64, 0x78a5636f43172f60#64, 0x84c87814a1f0ab72#64, 0x8cc702081a6439ec#64,
   0x90befffa23631e28#64, 0xa4506cebde82bde9#64, 0xbef9a3f7b2c67915#64, 0xc67178f2e372532b#64] ++
  [0xca273eceea26619c#64, 0xd186b8c721c0c207#64, 0xeada7dd6cde0eb1e#64, 0xf57d4f7fee6ed178#64,
   0x06f067aa72176fba#64, 0x0a637dc5a2c898a6#64, 0x113f9804bef90dae#64, 0x1b710b35131c471b#64,
   0x28db77f523047d84#64, 0x32caab7b40c72493#64, 0x3c9ebe0a15c9bebc#64, 0x431d67c49c100d4c#64,
   0x4cc5d4becb3e42b6#64, 0x597f299cfc657e2a#64, 0x5fcb6fab3ad6faec#64, 0x6c44198c4a475817#64]

/-- A big-endian number of its bytes. -/
def beNat (l : List Byte) : Nat := l.foldl (fun n b => n * 256 + b.toNat) 0

/-- The low `n` bytes of a number, big-endian. -/
def beBytes (n x : Nat) : List Byte := (leBytes n x).reverse

/-- The message padded to whole blocks of 128 bytes. -/
def shaPad (m : List Byte) : List Byte :=
  m ++ [0x80#8] ++ List.replicate ((239 - m.length % 128) % 128) 0#8 ++ beBytes 16 (8 * m.length)

/-- The words of a block. -/
def shaWords : Nat → List Byte → List W64
  | 0, _ => []
  | n + 1, l => BitVec.ofNat 64 (beNat (l.take 8)) :: shaWords n (l.drop 8)

/-- The message schedule: newest word first, `n` more words. -/
def shaSchedule : Nat → List W64 → List W64
  | 0, w => w
  | n + 1, w =>
    let a := w.getD 1 0#64
    let b := w.getD 14 0#64
    let s1 := a.rotateRight 19 ^^^ a.rotateRight 61 ^^^ (a >>> 6)
    let s0 := b.rotateRight 1 ^^^ b.rotateRight 8 ^^^ (b >>> 7)
    shaSchedule n ((s1 + w.getD 6 0#64 + s0 + w.getD 15 0#64) :: w)

/-- One round on the eight working words. -/
def shaRound (v : List W64) (kw : W64) : List W64 :=
  match v with
  | [a, b, c, d, e, f, g, h] =>
    let t1 := h + (e.rotateRight 14 ^^^ e.rotateRight 18 ^^^ e.rotateRight 41) + ((e &&& f) ^^^ (~~~e &&& g)) + kw
    let t2 := (a.rotateRight 28 ^^^ a.rotateRight 34 ^^^ a.rotateRight 39) + ((a &&& b) ^^^ (a &&& c) ^^^ (b &&& c))
    [t1 + t2, a, b, c, d + t1, e, f, g]
  | _ => v

/-- One block. -/
def shaBlock (h : List W64) (block : List Byte) : List W64 :=
  let w := (shaSchedule 64 (shaWords 16 block).reverse).reverse
  let v := (List.zipWith (· + ·) shaK w).foldl shaRound h
  List.zipWith (· + ·) h v

/-- `n` blocks. -/
def shaBlocks : Nat → List W64 → List Byte → List W64
  | 0, h, _ => h
  | n + 1, h, l => shaBlocks n (shaBlock h (l.take 128)) (l.drop 128)

/-- The 64 bytes of a message's SHA-512 digest. -/
def shaBytes (m : List Byte) : List Byte :=
  let p := shaPad m
  ((shaBlocks (p.length / 128) shaInit p).map fun w => beBytes 8 w.toNat).flatten

/-- A digest as a number: its bytes in order, the first the lowest. -/
def sha512 (m : List Byte) : BitVec 512 := BitVec.ofNat 512 (leNat (shaBytes m))

/-! ## RSASSA-PSS -/

/-- `b ^ e` modulo `n`, by the bits of `e` from the top. -/
def powMod (n b e : Nat) : Nat → Nat
  | 0 => 1 % n
  | k + 1 =>
    let half := powMod n b (e / 2) k
    if e = 0 then 1 % n else if e % 2 = 1 then half * half % n * b % n else half * half % n

/-- MGF1 with SHA-512: `k` blocks from counter `i`. -/
def mgf1 (seed : List Byte) : Nat → Nat → List Byte
  | _, 0 => []
  | i, k + 1 => shaBytes (seed ++ beBytes 4 i) ++ mgf1 seed (i + 1) k

/-- Bytes combined by exclusive or. -/
def xorBytes (a b : List Byte) : List Byte := List.zipWith (· ^^^ ·) a b

/-- The encoded message of 512 bytes (4,095 bits) carries the message's hash with a salt of 64 bytes. -/
def pssMatches (em m : List Byte) : Bool :=
  let masked := em.take 447
  let h := (em.drop 447).take 64
  let db := xorBytes masked (mgf1 h 0 7)
  let db := match db with | [] => [] | b :: r => (b &&& 0x7F#8) :: r
  let salt := db.drop 383
  em.length == 512 && em.getD 511 0#8 == 0xBC#8 && (em.headD 0#8).toNat < 128 && (db.take 382).all (· == 0#8) &&
  db.getD 382 0#8 == 1#8 && shaBytes (List.replicate 8 0#8 ++ shaBytes m ++ salt) == h

/-- A signature of 512 bytes over a message verifies under a modulus and an exponent (R31). -/
def pssVerify (n e : Nat) (m sig : List Byte) : Bool :=
  sig.length == 512 && beNat sig < n && 2 ^ 4095 ≤ n && n < 2 ^ 4096 &&
  pssMatches (beBytes 512 (powMod n (beNat sig) e (e.log2 + 1))) m

/-- The 512 bytes that carry a message's hash with a salt (PKCS #1 v2.2, EMSA-PSS). -/
def pssEncode (m salt : List Byte) : List Byte :=
  let h := shaBytes (List.replicate 8 0#8 ++ shaBytes m ++ salt)
  let masked := xorBytes (List.replicate 382 0#8 ++ [1#8] ++ salt) (mgf1 h 0 7)
  (match masked with | [] => [] | b :: r => (b &&& 0x7F#8) :: r) ++ h ++ [0xBC#8]

/-- The signature that the device makes over a message with its identity key and a salt (R29, R31). -/
def pssSign (k : RsaKey) (salt m : List Byte) : List Byte :=
  beBytes 512 (powMod k.modulus (beNat (pssEncode m salt)) k.sign (k.sign.log2 + 1))

/-- The same under a public key's bytes. -/
def signatureOk (key m sig : List Byte) : Bool := pssVerify (Config.publicKey key).1 (Config.publicKey key).2 m sig

end Sys2Proof.Machine
end

