-- ==== Sys2Proof/Syntax.lean ====
section
/-! DEFINITION. The steps of the Grivik G4: one constructor of `Instr` per row of spec/opcode_table.json.
A scalar or lane instruction carries the fields of its encoding (R291 to R302) and runs on the stream the
machine has selected; a device step carries what comes to it from outside the device, or names the place
in the machine where it happens. -/

namespace Sys2Proof

/-- A scalar register field, s0 to s63 (R291). -/
abbrev SReg := BitVec 6
/-- A lane register, v0 to v1023 (R292). -/
abbrev VReg := BitVec 10
/-- A predicate register, p0 to p15. -/
abbrev PReg := BitVec 4

/-- A lane source field that names a lane value (R293). -/
inductive Src where
  | v (n : VReg)
  | latch (n : BitVec 2)
  | k (n : BitVec 5)
  | sq
  deriving DecidableEq, Repr

/-- The guard of a lane instruction and its write-back fields (R292): PR, PN, WBS, CC. -/
structure LHdr where
  pr  : PReg
  pn  : Bool
  wbs : Bool
  cc  : BitVec 3
  deriving DecidableEq, Repr

/-- The scopes of R196, in the code order of R299. -/
inductive Scope where
  | grp | team | clu | dev | sys
  deriving DecidableEq, Repr

/-- The orders of R197. -/
inductive Order where
  | plain | acq | rel | ar
  deriving DecidableEq, Repr

/-- The MOD field of a memory instruction (R299). -/
structure MemMod where
  scope   : Scope
  order   : Order
  promote : Bool
  ord     : Bool
  deriving DecidableEq, Repr

/-- Load widths of R358. -/
inductive LdWidth where
  | z8 | s8 | z16 | s16 | b32 | b64 | b128
  deriving DecidableEq, Repr

/-- Store widths of R358. -/
inductive StWidth where
  | b8 | b16 | b32 | b64 | b128
  deriving DecidableEq, Repr

/-- The operations of atom and atoms (R360). -/
inductive AtomOp where
  | add | and | or | xor | min | max | minu | maxu | xchg | cas | fadd | fmin | fmax
  deriving DecidableEq, Repr

/-- The operations of the scalar amo (R296). -/
inductive AmoOp where
  | add | and | or | xor | min | max | minu | maxu | xchg
  deriving DecidableEq, Repr

/-- The operations of redux and scan (R349). -/
inductive FoldOp where
  | add | and | or | xor | min | max | minu | maxu | fadd | fmin | fmax
  deriving DecidableEq, Repr

/-- The conditions of icmp (R334). -/
inductive ICond where
  | eq | ne | lt | le | gt | ge | ltu | leu | gtu | geu
  deriving DecidableEq, Repr

/-- The conditions of fcmp (R338). -/
inductive FCond where
  | eq | ne | lt | le | gt | ge | unord
  deriving DecidableEq, Repr

/-- The rounding selection of R300. -/
inductive RndSel where
  | dyn | rne | rtz | rup | rdn
  deriving DecidableEq, Repr

/-- The conversions of R341. -/
inductive CvtKind where
  | bf16F32 | fp16F32 | i32F32 | u32F32 | f32Bf16 | f32Fp16 | fp16Bf16 | bf16Fp16 | f32I32 | f32U32
  deriving DecidableEq, Repr

/-- The kinds of vote (R346). -/
inductive VoteKind where
  | all | any | uni
  deriving DecidableEq, Repr

/-- An access size of the scalar stream, SZ (R291). -/
inductive SSize where
  | b | h | w | d
  deriving DecidableEq, Repr

/-- The path codes of R158. -/
inductive Path where
  | ld | st | sx | kv
  deriving DecidableEq, Repr

/-- The two spellings of a special register write: the scalar swr, and the lane swr with its half (R323, R387). -/
inductive SwrForm where
  | scalar (d a : SReg)
  | lane (h : LHdr) (hi : Bool) (a : Src)
  deriving DecidableEq, Repr

/-- A command queue: queue `q` of tenant `t`, or the queue of the management channel (R63). -/
inductive QRef where
  | tenant (t q : Nat)
  | mgmt
  deriving DecidableEq, Repr

/-- An RC connection: queue pair `qp` of tenant `t`, or management connection `i` (R62). -/
inductive Conn where
  | tenant (t qp : Nat)
  | mgmt (i : Nat)
  deriving DecidableEq, Repr

/-- A group of a resident team: the machine's key of the team, and the group's number in it (R117). -/
structure GRef where
  team  : Nat
  group : Nat
  deriving DecidableEq, Repr

/-- A communicator held by tenant `t` on this device, by the index of its handle (R46, R66). -/
structure CRef where
  tenant : Nat
  comm   : Nat
  deriving DecidableEq, Repr

/-- A flow of a communicator (R68, R82), seen from this device: the tenant that holds the member here, the communicator by its coordinator
and key (R66), and the member at the other end, as device and tenant. -/
structure FlowRef where
  tenant : Nat
  coord  : W16
  ckey   : W32
  peer   : Nat × Nat
  deriving DecidableEq, Repr

/-- One window descriptor (R39). -/
structure Window where
  wstart : Nat
  wend   : Nat
  reloc  : Nat
  perm   : BitVec 4
  deriving DecidableEq, Repr

/-- What the surroundings decide at a boot: which links train, the hottest junction (R13, R24), and what the hypervisor sets up as its
image and configuration say: the BANKMODE of clusters (R240), TVEC_H (R223) and its own window table (R22). -/
structure BootEnv where
  frontLink : BitVec 2
  fabUp     : W16
  tjmax     : Byte
  bankModes : List (Nat × W64)
  tvecH     : W64
  hvWindows : List Window
  deriving DecidableEq, Repr

/-- What a request for a connection of the management channel names (R62): the front port, the address, and the retry limit agreed on. -/
structure MgmtRequest where
  front   : Nat
  ip      : Nat
  vlan    : Nat
  retries : Nat
  deriving DecidableEq, Repr

/-- The fields of a received Splice frame's header that its delivery uses (R81). -/
structure FrameHdr where
  src   : W16
  dst   : W16
  coord : W16
  ckey  : W32
  psn   : W32
  deriving DecidableEq, Repr

/-- A frame of any type: its header, and its FTYPE (R81). -/
structure AnyFrame where
  hdr   : FrameHdr
  ftype : Nat
  deriving DecidableEq, Repr

/-- A FAIL, BUILD or REBUILD frame: its header, and its INST (R67, R80, R81). -/
structure BuildFrame where
  hdr  : FrameHdr
  inst : Nat
  deriving DecidableEq, Repr

/-- The signature of a collective's instance (R71), with KIND, DTYPE and ROP as the codes of R69 and R70. -/
structure Sig where
  kind  : Nat
  dtype : Nat
  rop   : Nat
  count : Nat
  root  : Nat
  deriving DecidableEq, Repr

/-- A tenant's quota record (R38). -/
structure Quota where
  groveq   : Nat
  accq     : Nat
  scratchq : Nat
  slotq    : Nat
  commq    : Nat
  qpq      : Nat
  tcacheq  : Nat
  deriving DecidableEq, Repr

/-- What the hypervisor's configuration gives a tenant at its creation (R19, R37 to R41, R91, R112, R151, R239, R240, R287,
R289). -/
structure TenantCfg where
  num      : Nat
  windows  : List Window
  quota    : Quota
  cores    : List Nat
  quantum  : Nat
  ips      : List Nat
  vlans    : List Nat
  objArea  : Nat
  cacheArea : Nat
  signKey  : Option Nat
  supvBase : W64
  bankModes : List (Nat × W64)
  bankOwn  : List (Nat × W32)
  deriving DecidableEq, Repr

/-- What a hypervisor request to pre-empt names (R113). -/
inductive PreemptTarget where
  | team (key : Nat)
  | launch (id : Nat)
  | tenant (t : Nat)
  deriving DecidableEq, Repr

/-- A stream of a group: the scalar stream, or the fragment at a split-table entry. -/
inductive StreamRef where
  | scalar
  | lane (frag : Nat)
  deriving DecidableEq, Repr

/-- What the services behind Bowline (host file service, sockets, console) answer to one call (R239):
the bytes of a READ, or acceptance with a length, or a negative Bowline code. -/
inductive Reply where
  | bytes (bs : List Byte)
  | done (n : Nat)
  | error (code : Int)
  deriving DecidableEq, Repr

/-- The steps of the machine. -/
inductive Instr where
  -- scalar arithmetic (R305, R306)
  | add (d a b : SReg)
  | sub (d a b : SReg)
  | mul (d a b : SReg)
  | mulhi (d a b : SReg)
  | mulhu (d a b : SReg)
  | and (d a b : SReg)
  | or (d a b : SReg)
  | xor (d a b : SReg)
  | andn (d a b : SReg)
  | shl (d a b : SReg)
  | shr (d a b : SReg)
  | sar (d a b : SReg)
  | min (d a b : SReg)
  | max (d a b : SReg)
  | minu (d a b : SReg)
  | maxu (d a b : SReg)
  | slt (d a b : SReg)
  | sltu (d a b : SReg)
  | seq (d a b : SReg)
  | sne (d a b : SReg)
  | scalarClz (d a : SReg)
  | scalarPopc (d a : SReg)
  | scalarSel (d a b : SReg)
  | addi (d a : SReg) (i : BitVec 14)
  | andi (d a : SReg) (i : BitVec 14)
  | ori (d a : SReg) (i : BitVec 14)
  | xori (d a : SReg) (i : BitVec 14)
  | shli (d a : SReg) (i : BitVec 6)
  | shri (d a : SReg) (i : BitVec 6)
  | sari (d a : SReg) (i : BitVec 6)
  | slti (d a : SReg) (i : BitVec 14)
  | lui (d : SReg) (i : BitVec 20)
  -- scalar memory (R307, R308)
  | scalarLd (d a : SReg) (z : SSize) (i : BitVec 12)
  | scalarLds (d a : SReg) (z : SSize) (i : BitVec 12)
  | scalarSt (d a : SReg) (z : SSize) (i : BitVec 12)
  | amo (op : AmoOp) (d a : SReg) (i : BitVec 8)
  -- branches and jumps (R309)
  | j (o : BitVec 26)
  | jal (o : BitVec 26)
  | jr (d a : SReg)
  | beq (a b : SReg) (o : BitVec 14)
  | bne (a b : SReg) (o : BitVec 14)
  | blt (a b : SReg) (o : BitVec 14)
  | bge (a b : SReg) (o : BitVec 14)
  | bltu (a b : SReg) (o : BitVec 14)
  | bgeu (a b : SReg) (o : BitVec 14)
  -- queues, dispatch, engines, waits, knots (R310 to R320)
  | sqpush (a : SReg)
  | lqpop (d : SReg)
  | lrun (a : SReg)
  | lsync
  | fmt (a : SReg)
  | acopy (d a : SReg)
  | acopyx (d a : SReg)
  | agath (d a : SReg)
  | rcopy (d a : SReg)
  | scalarWait (p : Path) (a : SReg)
  | twait (d a : SReg)
  | tread (d a : SReg)
  | knotArrive (a : SReg)
  | knotWait (d a : SReg)
  | knotExpect (d a : SReg)
  | knotInit (d a : SReg)
  | tarm (d a : SReg)
  | tset (a : SReg)
  | tclr (a : SReg)
  | cpost (d a : SReg)
  | cstat (d a : SReg)
  | kcfgDefine (d a : SReg)
  | kcfgStream (d a : SReg)
  | kcfgClear (d a : SReg)
  | kcfgStatus (d a : SReg)
  | kcfgAttach (d a : SReg)
  | kdrain (a : SReg)
  -- the system group of the scalar stream (R321 to R328)
  | scalarSysc (a : SReg)
  | scalarHcall (a : SReg)
  | scalarTret
  | scalarSrd (d a : SReg)
  | scalarSwr (d a : SReg)
  | feat (d a : SReg)
  | role (a : SReg)
  | yield
  | mwait (d a : SReg)
  | fence (s : Scope) (o : Order)
  | exit
  | scalarBrk (a : SReg)
  | scalarNop
  -- lane integer arithmetic (R332 to R335)
  | iadd (h : LHdr) (d : VReg) (a b : Src)
  | isub (h : LHdr) (d : VReg) (a b : Src)
  | imul (h : LHdr) (d : VReg) (a b : Src)
  | imulhi (h : LHdr) (d : VReg) (a b : Src)
  | imulhu (h : LHdr) (d : VReg) (a b : Src)
  | imad (h : LHdr) (d : VReg) (a b c : Src)
  | iand (h : LHdr) (d : VReg) (a b : Src)
  | ior (h : LHdr) (d : VReg) (a b : Src)
  | ixor (h : LHdr) (d : VReg) (a b : Src)
  | iandn (h : LHdr) (d : VReg) (a b : Src)
  | ishl (h : LHdr) (d : VReg) (a b : Src)
  | ishr (h : LHdr) (d : VReg) (a b : Src)
  | isar (h : LHdr) (d : VReg) (a b : Src)
  | imin (h : LHdr) (d : VReg) (a b : Src)
  | imax (h : LHdr) (d : VReg) (a b : Src)
  | iminu (h : LHdr) (d : VReg) (a b : Src)
  | imaxu (h : LHdr) (d : VReg) (a b : Src)
  | iabs (h : LHdr) (d : VReg) (a : Src)
  | laneSel (h : LHdr) (d : VReg) (a b c : Src)
  | mov (h : LHdr) (d : VReg) (a : Src)
  | laneClz (h : LHdr) (d : VReg) (a : Src)
  | lanePopc (h : LHdr) (d : VReg) (a : Src)
  | brev (h : LHdr) (d : VReg) (a : Src)
  | bfx (h : LHdr) (d : VReg) (a b : Src)
  | bfxs (h : LHdr) (d : VReg) (a b : Src)
  | bfi (h : LHdr) (d : VReg) (a b c : Src)
  | icmp (h : LHdr) (cond : ICond) (d : PReg) (a b : Src)
  | movk (h : LHdr) (hi : Bool) (d : VReg) (i : BitVec 21)
  -- lane float arithmetic and conversions (R336 to R343)
  | fadd (h : LHdr) (m : RndSel) (d : VReg) (a b : Src)
  | fsub (h : LHdr) (m : RndSel) (d : VReg) (a b : Src)
  | fmul (h : LHdr) (m : RndSel) (d : VReg) (a b : Src)
  | fma (h : LHdr) (m : RndSel) (d : VReg) (a b c : Src)
  | fmin (h : LHdr) (d : VReg) (a b : Src)
  | fmax (h : LHdr) (d : VReg) (a b : Src)
  | fabs (h : LHdr) (d : VReg) (a : Src)
  | fneg (h : LHdr) (d : VReg) (a : Src)
  | fcmp (h : LHdr) (cond : FCond) (d : PReg) (a b : Src)
  | frcp (h : LHdr) (d : VReg) (a : Src)
  | frsq (h : LHdr) (d : VReg) (a : Src)
  | fsqrt (h : LHdr) (d : VReg) (a : Src)
  | fexp2 (h : LHdr) (d : VReg) (a : Src)
  | flog2 (h : LHdr) (d : VReg) (a : Src)
  | fln (h : LHdr) (d : VReg) (a : Src)
  | fcls (h : LHdr) (d : VReg) (a : Src)
  | cvt (h : LHdr) (k : CvtKind) (m : RndSel) (d : VReg) (a : Src)
  | npenc (h : LHdr) (d : VReg) (a : Src)
  | npdec (h : LHdr) (planes : BitVec 4) (f32 : Bool) (d : VReg) (a : Src)
  | plx (h : LHdr) (plane : BitVec 3) (d : VReg) (a : Src)
  | pli (h : LHdr) (plane : BitVec 3) (d : VReg) (a b : Src)
  -- predicates and cross-lane movement (R344 to R350)
  | pand (h : LHdr) (d a b : PReg)
  | por (h : LHdr) (d a b : PReg)
  | pxor (h : LHdr) (d a b : PReg)
  | pnot (h : LHdr) (d a : PReg)
  | pmov (h : LHdr) (d a : PReg)
  | ballot (h : LHdr) (d : VReg) (a : PReg)
  | ballotLq (h : LHdr) (a : PReg)
  | vote (h : LHdr) (k : VoteKind) (d a : PReg)
  | shfl (h : LHdr) (d : VReg) (a b : Src)
  | xchg (h : LHdr) (d : VReg) (a b : Src)
  | redux (h : LHdr) (op : FoldOp) (d : VReg) (a : Src)
  | reduxLq (h : LHdr) (op : FoldOp) (a : Src)
  | scan (h : LHdr) (op : FoldOp) (excl : Bool) (d : VReg) (a : Src)
  | welf (h : LHdr) (d a : VReg) (b : Src)
  | wmerge (h : LHdr) (d a b : VReg)
  -- control of fragments (R385)
  | lbr (h : LHdr) (inv : Bool) (a : PReg) (i : BitVec 21)
  | ljmp (i : BitVec 21)
  | mark (i : BitVec 21)
  | join
  | lend
  | lfmt (i : W16)
  | mkrd (cc : BitVec 3) (n : BitVec 2) (d : VReg)
  | mkwr (n : BitVec 2) (a : Src)
  -- lane memory (R358 to R363)
  | laneLd (h : LHdr) (m : MemMod) (a64 : Bool) (w : LdWidth) (d : VReg) (a : Src) (i : BitVec 21)
  | laneSt (h : LHdr) (m : MemMod) (a64 : Bool) (w : StWidth) (a b : Src) (i : BitVec 21)
  | laneLds (h : LHdr) (m : MemMod) (w : LdWidth) (d : VReg) (a : Src) (i : BitVec 21)
  | sts (h : LHdr) (m : MemMod) (w : StWidth) (a b : Src) (i : BitVec 21)
  | atom (h : LHdr) (m : MemMod) (a64 ret w64 : Bool) (op : AtomOp) (d : VReg) (a b c : Src) (i : BitVec 21)
  | atoms (h : LHdr) (m : MemMod) (ret w64 : Bool) (op : AtomOp) (d : VReg) (a b c : Src) (i : BitVec 21)
  | smaxpk (h : LHdr) (m : MemMod) (a64 ret : Bool) (d : VReg) (a b c : Src) (i : BitVec 21)
  | pst (h : LHdr) (m : MemMod) (a64 each : Bool) (a : Src) (b : PReg) (i : BitVec 21)
  | pld (h : LHdr) (m : MemMod) (a64 each : Bool) (d : PReg) (a : Src) (i : BitVec 21)
  | lfence (s : Scope) (o : Order)
  -- Grove (R364 to R368)
  | kacc (h : LHdr) (p : BitVec 5) (f : BitVec 4) (key64 val64 : Bool) (a b : Src)
  | klook (h : LHdr) (p : BitVec 5) (f : BitVec 4) (key64 : Bool) (d : VReg) (a : Src) (hit : PReg)
  | klookLq (h : LHdr) (p : BitVec 5) (f : BitVec 4) (key64 : Bool) (a : Src) (hit : PReg)
  | kread (h : LHdr) (p : BitVec 5) (f : BitVec 4) (d : VReg) (a : Src) (valid : PReg)
  | kclr (h : LHdr) (p : BitVec 5) (key64 : Bool) (a : Src)
  -- proposals (R371 to R374)
  | propose
  | accept (h : LHdr) (d : PReg) (a : Src)
  | pabort
  | rand (h : LHdr) (k : Bool) (d : VReg)
  -- matrix and accumulators (R378 to R384)
  | mma (h : LHdr) (a : VReg) (b : BitVec 11) (acc : BitVec 4)
  | accrd (h : LHdr) (d : VReg) (a : Src) (acc : BitVec 4)
  | accwr (h : LHdr) (a b : Src) (acc : BitVec 4)
  | accst (h : LHdr) (t r c : VReg) (acc : BitVec 4)
  | accver (h : LHdr) (d : VReg) (acc : BitVec 4)
  -- lane ends of the queues, special registers, system (R386 to R390)
  | lqpush (h : LHdr) (b64 : Bool) (a : Src)
  | sqpop (cc : BitVec 3) (write : Bool) (d : VReg)
  | laneSrd (h : LHdr) (hi : Bool) (d : VReg) (sel : BitVec 14)
  | laneSwr (h : LHdr) (hi : Bool) (a : Src) (sel : BitVec 14)
  | kmov (h : LHdr) (d : BitVec 5) (a : Src)
  | laneSysc (h : LHdr) (n : BitVec 21)
  | laneHcall (h : LHdr) (n : BitVec 21)
  | laneBrk (h : LHdr) (n : BitVec 21)
  | laneNop (h : LHdr)
  | laneTret (h : LHdr) (write fin : Bool) (d : VReg) (a : Src)
  -- special register writes with a row of their own (R130, R145, R152, R172, R265, R369)
  | fmtrWrite (w : SwrForm)
  | gangWrite (w : SwrForm)
  | ptbaseWrite (w : SwrForm)
  | winbaseWrite (w : SwrForm)
  | winlimWrite (w : SwrForm)
  | bankmodeWrite (w : SwrForm)
  | bankownWrite (w : SwrForm)
  | gnanClear (w : SwrForm)
  | pnanClear (w : SwrForm)
  -- teams (R89 to R114, R233)
  | teamPlace
  | teamRetire (team : Nat)
  | preemptQuantum (team : Nat)
  | preemptRequest (which : PreemptTarget)
  | teamHaltEnd (team : Nat)
  -- inside a core (R122, R108, R146, R158, R326, R356, R381)
  | blockStart (g : GRef)
  | memoryAccessReturn (g : GRef) (id : Nat)
  | orderedOperationPerform (g : GRef) (stream : StreamRef)
  | gangRendezvous (team gang : Nat)
  | mmaUpdate (g : GRef) (id : Nat)
  -- engines, knots, armed operations, the Grove (R168, R188, R234, R315, R85)
  | engineCommandComplete (team ctx seq : Nat)
  | engineFault (team ctx seq : Nat)
  | knotRemoteArrival (launch index : Nat)
  | armedCopyFire (t entry : Nat)
  | armedChunkFire (t entry : Nat)
  | groveStreamRoom (core part : Nat)
  | mwaitWritten (g : GRef)
  | mwaitTimeout (g : GRef)
  -- the remaining device steps (R20, R33, R47, R82, R158, R307)
  | powerFail
  | rcTransportTimeout (t : Option Nat) (qp : Nat)
  | spliceFrameWrongPsn (f : FrameHdr) (ftype : Nat)
  | commandComplete (q : QRef) (seq : Nat)
  | scalarLoadReturn (g : GRef) (id : Nat)
  | storePerformed (g : GRef) (id : Nat)
  -- Root, links and power (R11 to R20)
  | powerOn (env : BootEnv)
  | thermalTrip (env : BootEnv)
  | clockThrottle (aclk fclk : Byte)
  | clockRaise (aclk fclk : Byte)
  | rootWatchdogExpiry (env : BootEnv)
  | frontLinkUp (port : Nat)
  | frontLinkDown (port : Nat)
  | rcRetryExhausted (t : Option Nat) (qp : Nat)
  | fabricLinkUp (port : Nat)
  | fabricLinkDown (port : Nat)
  -- the network engine (R16 to R19, R62)
  | rcConnectionSetup (t front retries : Nat)
  | mgmtConnectionSetup (req : MgmtRequest)
  | rdmaWrite (c : Conn) (keyOk : Bool) (addr : Nat) (data : List Byte) (imm : Option W32)
  | rdmaRead (c : Conn) (keyOk : Bool) (addr len : Nat)
  | rdmaSend (c : Conn) (place : Option Nat) (data : List Byte) (imm : Option W32)
  | rdmaAtomicRequest (c : Conn)
  | unsupportedTransportPacket
  | icrcFailPacket
  | noTenantPacket (front ip vlan : Nat)
  | socketPacket (front ip vlan : Nat) (data : List Byte)
  | pauseFrame (port : Nat)
  | timeSyncFrame (port : Nat)
  | ecnMarkedPacket (c : Conn)
  | cnp (c : Conn)
  | fabricTypeDiscard (port ethertype : Nat)
  -- Splice frames and timers (R67 to R82)
  | spliceFrameDiscard (f : AnyFrame)
  | splicePostFrame (f : FrameHdr) (rank index : Nat) (sig : Sig) (l : Nat)
  | spliceTicketFrame (f : FrameHdr) (index value : Nat)
  | spliceDataFrame (f : FrameHdr) (rank : Nat) (inst : W64) (offset : Nat) (data : List Byte)
  | spliceAckFrame (w : FlowRef) (next : W32)
  | spliceFailFrame (f : BuildFrame) (status : Nat)
  | spliceBuildFrame (f : BuildFrame) (rank : Nat) (digest : BitVec 512)
  | spliceRebuildFrame (f : BuildFrame) (rank : Nat)
  | spliceResendTimeout (w : FlowRef) (oldest : W32)
  | commBuildTimeout (c : CRef)
  | commRebuildTimeout (c : CRef)
  | collectiveStart (c : CRef) (seq : Nat)
  | collectiveComplete (c : CRef) (seq : Nat)
  -- recovery (R25)
  | recoveryImageWrite (addr : Nat) (data : List Byte)
  | recoverySend (data : List Byte) (env : BootEnv)
  -- queues, events and commands (R42 to R65)
  | queueNotification (q : QRef)
  | qenableWrite (q : QRef)
  | eventHeldWrite (t : Option Nat)
  | launch (q : QRef) (seq : Nat)
  | launchCollPost (id : Nat)
  | launchComplete (id : Nat)
  | copy (q : QRef) (seq : Nat)
  | fill (q : QRef) (seq : Nat)
  | signal (q : QRef) (seq : Nat)
  | wait (q : QRef) (seq : Nat)
  | commBuild (q : QRef) (seq : Nat)
  | commRebuild (q : QRef) (seq : Nat)
  | loadObject (q : QRef) (seq : Nat)
  | translate (q : QRef) (seq : Nat)
  | queryDeviceStatus (q : QRef) (seq : Nat)
  | queryFabricLink (q : QRef) (seq : Nat)
  | queryAttestation (q : QRef) (seq : Nat)
  | queryCertificate (q : QRef) (seq : Nat)
  | queryQuota (q : QRef) (seq : Nat)
  | queryFeatures (q : QRef) (seq : Nat)
  | queryMgmtNonce (q : QRef) (seq : Nat)
  | queryDiscardCounters (q : QRef) (seq : Nat)
  | queryTenantCounters (q : QRef) (seq : Nat)
  | reset (seq : Nat) (env : BootEnv)
  | lcTransitionProvisioned (seq : Nat) (env : BootEnv)
  | lcTransitionDeployed (seq : Nat) (env : BootEnv)
  | lcTransitionReturned (seq : Nat) (env : BootEnv)
  | fwUpdate (seq : Nat)
  | badKindCommand (q : QRef) (seq : Nat)
  -- tenants (R37, R61, R36, R240)
  | tenantCreate (cfg : TenantCfg)
  | tenantTeardown (t : Nat)
  | tenantScrub (t : Nat)
  | supvInstallActivate (t : Nat)
  -- calls served by the vendor hypervisor and by Bowline (R226, R239)
  | supvInstall (g : GRef) (stream : StreamRef)
  | teamEndCall (g : GRef) (stream : StreamRef)
  | bowlineRead (g : GRef) (stream : StreamRef) (replies : List Reply)
  | bowlineWrite (g : GRef) (stream : StreamRef) (replies : List Reply)
  | bowlineOpen (g : GRef) (stream : StreamRef) (replies : List Reply)
  | bowlineClose (g : GRef) (stream : StreamRef) (replies : List Reply)
  | bowlineSocket (g : GRef) (stream : StreamRef) (replies : List Reply)
  | bowlineConnect (g : GRef) (stream : StreamRef) (replies : List Reply)
  | bowlineBind (g : GRef) (stream : StreamRef) (replies : List Reply)
  | bowlineAccept (g : GRef) (stream : StreamRef) (replies : List Reply)
  | supvLoad (g : GRef) (stream : StreamRef) (replies : List Reply)
  deriving DecidableEq, Repr

end Sys2Proof
end

