-- ==== Sys2Proof/WellFormed.lean ====
section
/-! DEFINITION. Which instructions an encoding can name: the field rules of R293, R294 (steps 3 and 4), R197 and R298 that
the types of `Instr` do not carry. A device step has no encoding and is always well formed. -/

namespace Sys2Proof

/-- The field can name a pair: v(n) with n even (R293). -/
def Src.isPair : Src → Bool
  | .v n => n.toNat % 2 == 0
  | _ => false

/-- A register that can begin a pair, a triple or a quad (R293). -/
def pairReg (n : VReg) : Bool := n.toNat % 2 == 0
def tripleReg (n : VReg) : Bool := n.toNat ≤ 1021
def quadReg (n : VReg) : Bool := n.toNat % 4 == 0

/-- A source that must be a pair when `p` holds. -/
def Src.pairIf (p : Bool) (s : Src) : Bool := !p || s.isPair

/-- WBS is 0, as outside OP 0x01 to 0x0C and on forms with no plain register destination (R294). -/
def LHdr.noWbs (h : LHdr) : Bool := !h.wbs
/-- WBS and CC are 0: a form that writes no lane register (R294). -/
def LHdr.plain (h : LHdr) : Bool := !h.wbs && h.cc == 0#3

/-- The combinations R197 allows, for an access that reads and writes as told. -/
def MemMod.ok (m : MemMod) (reads writes : Bool) : Bool :=
  (reads || !(m.order == .acq || m.order == .ar)) &&
  (writes || !(m.order == .rel || m.order == .ar)) &&
  (!m.promote || ((m.order == .acq || m.order == .ar) && (m.scope == .dev || m.scope == .sys))) &&
  (!m.ord || m.scope == .clu || m.scope == .dev)

/-- Registers that a load of the width fills (R358). -/
def LdWidth.regOk (w : LdWidth) (d : VReg) : Bool :=
  match w with
  | .b64 => pairReg d
  | .b128 => quadReg d
  | _ => true

/-- Store data of the width (R358). -/
def StWidth.srcOk (w : StWidth) (b : Src) : Bool :=
  match w, b with
  | .b64, .v n => pairReg n
  | .b128, .v n => quadReg n
  | .b64, _ => false
  | .b128, _ => false
  | _, _ => true

/-- The operations that W64 refuses (R299). -/
def AtomOp.isFloat : AtomOp → Bool
  | .fadd | .fmin | .fmax => true
  | _ => false

/-- An atomic's fields (R299, R360); absent fields hold v0. -/
def atomOk (h : LHdr) (m : MemMod) (ret w64 : Bool) (op : AtomOp) (d : VReg) (b c : Src) : Bool :=
  h.noWbs && m.ok true true && !(w64 && op.isFloat) && (ret || (d == 0#10 && h.cc == 0#3 && op != .cas)) &&
  (op == .cas || c == .v 0#10) && b.pairIf w64 && (!(op == .cas) || c.pairIf w64) && (!(ret && w64) || pairReg d)

/-- The selectors whose writes have a row of their own: FMTR, PNAN, GANG, GNAN, PTBASE, WINBASE, WINLIM, BANKMODE,
BANKOWN (R303). -/
def ownRowSel (sel : BitVec 14) : Bool :=
  sel == 0x010#14 || sel == 0x016#14 || sel == 0x017#14 || sel == 0x01A#14 || sel == 0x107#14 || sel == 0x108#14 ||
  sel == 0x109#14 || sel == 0x10B#14 || sel == 0x10C#14

/-- The instruction's fields are such as an encoding that passes steps 1 to 4 of R294 gives. -/
def Instr.wellFormed : Instr → Bool
  | .fence _ o => o != .plain
  | .icmp h _ d _ _ => h.plain && d != 0#4
  | .fcmp h _ d _ _ => h.plain && d != 0#4
  | .npdec _ k _ _ _ => 2 ≤ k.toNat && k.toNat ≤ 8
  | .cvt _ _ _ _ _ => true
  | .pand h d _ _ => h.plain && d != 0#4
  | .por h d _ _ => h.plain && d != 0#4
  | .pxor h d _ _ => h.plain && d != 0#4
  | .pnot h d _ => h.plain && d != 0#4
  | .pmov h d _ => h.plain && d != 0#4
  | .ballot h d _ => h.noWbs && tripleReg d
  | .ballotLq h _ => h.plain
  | .vote h _ d _ => h.plain && d != 0#4
  | .reduxLq h _ _ => h.plain
  | .welf h d a _ => h.noWbs && tripleReg d && tripleReg a
  | .wmerge h d a b => h.noWbs && tripleReg d && tripleReg a && tripleReg b
  | .lbr h _ _ _ => h.plain
  | .mkrd _ n _ => n != 3#2
  | .mkwr n _ => n != 3#2
  | .laneLd h m a64 w d a _ => h.noWbs && m.ok true false && a.pairIf a64 && w.regOk d
  | .laneSt h m a64 w a b _ => h.plain && m.ok false true && a.pairIf a64 && w.srcOk b
  | .laneLds h m w d _ _ => h.noWbs && m.ok true false && w.regOk d
  | .sts h m w _ b _ => h.plain && m.ok false true && w.srcOk b
  | .atom h m a64 ret w64 op d a b c _ => atomOk h m ret w64 op d b c && a.pairIf a64
  | .atoms h m ret w64 op d _ b c _ => atomOk h m ret w64 op d b c
  | .smaxpk h m a64 ret d a _ _ _ =>
    h.noWbs && m.ok true true && a.pairIf a64 && (if ret then pairReg d else d == 0#10 && h.cc == 0#3)
  | .pst h m a64 _ a _ _ => h.plain && m.ok false true && a.pairIf a64
  | .pld h m a64 _ d a _ => h.plain && m.ok true false && a.pairIf a64 && d != 0#4
  | .lfence _ o => o != .plain
  | .kacc h _ _ key64 val64 a b => h.plain && a.pairIf key64 && b.pairIf val64
  | .klook h _ _ key64 _ a _ => h.noWbs && a.pairIf key64
  | .klookLq h _ _ key64 a _ => h.plain && a.pairIf key64
  | .kread h _ _ d _ _ => h.noWbs && quadReg d
  | .kclr h _ key64 a => h.plain && a.pairIf key64
  | .accept h d _ => h.plain && d != 0#4
  | .rand h _ _ => h.noWbs
  | .mma h a _ _ => h.plain && pairReg a
  | .accrd h _ _ _ => h.noWbs
  | .accwr h _ _ _ => h.plain
  | .accst h t r c _ => h.plain && pairReg t && pairReg r && pairReg c
  | .accver h _ _ => h.noWbs
  | .lqpush h b64 a => h.plain && a.pairIf b64
  | .sqpop cc write d => write || (cc == 0#3 && d == 0#10)
  | .laneSrd h _ _ _ => h.noWbs
  | .laneSwr h _ _ sel => h.plain && !ownRowSel sel
  | .fmtrWrite w => swrOk w
  | .gangWrite w => swrOk w
  | .ptbaseWrite w => swrOk w
  | .winbaseWrite w => swrOk w
  | .winlimWrite w => swrOk w
  | .bankmodeWrite w => swrOk w
  | .bankownWrite w => swrOk w
  | .gnanClear w => swrOk w
  | .pnanClear w => swrOk w
  | .kmov h _ _ => h.noWbs
  | .laneSysc h _ => h.plain
  | .laneHcall h _ => h.plain
  | .laneBrk h _ => h.plain
  | .laneNop h => h.plain
  | .laneTret h write _ d a => h.plain && (write || (d == 0#10 && a == .v 0#10))
  | _ => true
where
  /-- A special register write's own fields. -/
  swrOk : SwrForm → Bool
    | .scalar _ _ => true
    | .lane h _ _ => h.plain

end Sys2Proof
end

