-- ==== Sys2Proof/Decode.lean ====
section
/-! DEFINITION. Decoding and encoding (R291 to R303). Decoding is total: a word that names no instruction is rejected as
`illegal` (ILLEGAL_INSTRUCTION, steps 1 to 3 of R294) or `badOperand` (ILLEGAL_OPERAND, step 4). -/

namespace Sys2Proof

/-- What a word decodes to. -/
inductive Dec where
  | ok (i : Instr)
  | illegal
  | badOperand
  deriving DecidableEq, Repr

/-- Go on if a step 1 to 3 check of R294 holds. -/
def Dec.chk (b : Bool) (k : Dec) : Dec := if b then k else .illegal

/-- Go on if a step 4 check of R294 holds. -/
def Dec.opnd (b : Bool) (k : Dec) : Dec := if b then k else .badOperand

/-- The instruction, if the word names one. -/
def Dec.instr? : Dec → Option Instr
  | .ok i => some i
  | _ => none

/-! ## Fields -/

/-- The fields of a scalar word (R291): every format divides its low 14 bits, or joins register fields to them. -/
structure SFields where
  op  : BitVec 6
  sd  : BitVec 6
  sa  : BitVec 6
  low : BitVec 14
  deriving DecidableEq, Repr

/-- The fields of a scalar word. -/
def unpackS (w : W32) : SFields :=
  { op := w.extractLsb' 26 6, sd := w.extractLsb' 20 6, sa := w.extractLsb' 14 6, low := w.extractLsb' 0 14 }

/-- The scalar word of its fields. -/
def packS (f : SFields) : W32 := f.op ++ f.sd ++ f.sa ++ f.low

/-- The fields of a lane instruction (R292). -/
structure LFields where
  op  : Byte
  fn  : Byte
  pr  : BitVec 4
  pn  : BitVec 1
  wbs : BitVec 1
  cc  : BitVec 3
  mod : BitVec 7
  sa  : BitVec 11
  sb  : BitVec 11
  dst : BitVec 10
  sc  : BitVec 11
  imm : BitVec 21
  deriving DecidableEq, Repr

/-- The fields of the three words w0, w1, w2. -/
def unpackL (w0 w1 w2 : W32) : LFields :=
  { op := w0.extractLsb' 24 8, fn := w0.extractLsb' 16 8, pr := w0.extractLsb' 12 4, pn := w0.extractLsb' 11 1,
    wbs := w0.extractLsb' 10 1, cc := w0.extractLsb' 7 3, mod := w0.extractLsb' 0 7,
    sa := w1.extractLsb' 21 11, sb := w1.extractLsb' 10 11, dst := w1.extractLsb' 0 10,
    sc := w2.extractLsb' 21 11, imm := w2.extractLsb' 0 21 }

/-- The word w0 of a lane instruction's fields. -/
def LFields.w0 (f : LFields) : W32 := f.op ++ f.fn ++ f.pr ++ f.pn ++ f.wbs ++ f.cc ++ f.mod
/-- The word w1 of a lane instruction's fields. -/
def LFields.w1 (f : LFields) : W32 := f.sa ++ f.sb ++ f.dst
/-- The word w2 of a lane instruction's fields. -/
def LFields.w2 (f : LFields) : W32 := f.sc ++ f.imm

/-! ## Codes -/

/-- A source field (R293). -/
def decSrc (f : BitVec 11) : Option Src :=
  if f.extractLsb' 10 1 = 0#1 then some (.v (f.extractLsb' 0 10))
  else if f.extractLsb' 2 9 = 0b100000000#9 then some (.latch (f.extractLsb' 0 2))
  else if f.extractLsb' 5 6 = 0b101000#6 then some (.k (f.extractLsb' 0 5))
  else if f = 0b11000000000#11 then some .sq
  else none

/-- The code of a source (R272, R293). -/
def encSrc : Src → BitVec 11
  | .v n => 0#1 ++ n
  | .latch n => 0b100000000#9 ++ n
  | .k n => 0b101000#6 ++ n
  | .sq => 0b11000000000#11

/-- Go on with the source a field names (step 4 of R294). -/
def Dec.src (f : BitVec 11) (k : Src → Dec) : Dec :=
  match decSrc f with
  | some s => k s
  | none => .badOperand

/-- Go on with the first register of a group field (R293): a lane register that the group rule accepts. -/
def Dec.group (f : BitVec 11) (ok : VReg → Bool) (k : VReg → Dec) : Dec :=
  if f.extractLsb' 10 1 = 0#1 ∧ ok (f.extractLsb' 0 10) = true then k (f.extractLsb' 0 10) else .badOperand

/-- Go on with a source that must name a pair when `p` holds. -/
def Dec.srcPair (p : Bool) (f : BitVec 11) (k : Src → Dec) : Dec :=
  Dec.src f fun s => Dec.opnd (s.pairIf p) (k s)

/-- Go on with a predicate source (R293). -/
def Dec.psrc (f : BitVec 11) (k : PReg → Dec) : Dec :=
  if f.extractLsb' 4 7 = 0#7 then k (f.extractLsb' 0 4) else .badOperand

/-- Go on with a predicate destination (R293). -/
def Dec.pdst (f : BitVec 10) (k : PReg → Dec) : Dec :=
  if f.extractLsb' 4 6 = 0#6 ∧ f.extractLsb' 0 4 ≠ 0#4 then k (f.extractLsb' 0 4) else .badOperand

/-- The code of a predicate source or destination. -/
def encP11 (p : PReg) : BitVec 11 := 0#7 ++ p
def encP10 (p : PReg) : BitVec 10 := 0#6 ++ p

/-- A scope code (R299). -/
def decScope (c : BitVec 3) : Option Scope :=
  match c.toNat with
  | 0 => some .grp
  | 1 => some .team
  | 2 => some .clu
  | 3 => some .dev
  | 4 => some .sys
  | _ => none

/-- The code of R299 to R302. -/
def encScope : Scope → BitVec 3
  | .grp => 0#3
  | .team => 1#3
  | .clu => 2#3
  | .dev => 3#3
  | .sys => 4#3

/-- An order code (R299). -/
def decOrder (c : BitVec 2) : Option Order :=
  match c.toNat with
  | 0 => some .plain
  | 1 => some .acq
  | 2 => some .rel
  | 3 => some .ar
  | _ => none

/-- The code of R299 to R302. -/
def encOrder : Order → BitVec 2
  | .plain => 0#2
  | .acq => 1#2
  | .rel => 2#2
  | .ar => 3#2

/-- A load width (R299). -/
def decLd (c : BitVec 4) : Option LdWidth :=
  match c.toNat with
  | 0 => some .z8
  | 1 => some .s8
  | 2 => some .z16
  | 3 => some .s16
  | 4 => some .b32
  | 5 => some .b64
  | 6 => some .b128
  | _ => none

/-- The code of R299 to R302. -/
def encLd : LdWidth → BitVec 4
  | .z8 => 0#4
  | .s8 => 1#4
  | .z16 => 2#4
  | .s16 => 3#4
  | .b32 => 4#4
  | .b64 => 5#4
  | .b128 => 6#4

/-- A store width (R299). -/
def decSt (c : BitVec 4) : Option StWidth :=
  match c.toNat with
  | 0 => some .b8
  | 2 => some .b16
  | 4 => some .b32
  | 5 => some .b64
  | 6 => some .b128
  | _ => none

/-- The code of R299 to R302. -/
def encSt : StWidth → BitVec 4
  | .b8 => 0#4
  | .b16 => 2#4
  | .b32 => 4#4
  | .b64 => 5#4
  | .b128 => 6#4

/-- An atomic operation (R299). -/
def decAtom (c : BitVec 4) : Option AtomOp :=
  match c.toNat with
  | 0 => some .add
  | 1 => some .and
  | 2 => some .or
  | 3 => some .xor
  | 4 => some .min
  | 5 => some .max
  | 6 => some .minu
  | 7 => some .maxu
  | 8 => some .xchg
  | 9 => some .cas
  | 10 => some .fadd
  | 11 => some .fmin
  | 12 => some .fmax
  | _ => none

/-- The code of R299 to R302. -/
def encAtom : AtomOp → BitVec 4
  | .add => 0#4
  | .and => 1#4
  | .or => 2#4
  | .xor => 3#4
  | .min => 4#4
  | .max => 5#4
  | .minu => 6#4
  | .maxu => 7#4
  | .xchg => 8#4
  | .cas => 9#4
  | .fadd => 10#4
  | .fmin => 11#4
  | .fmax => 12#4

/-- A scalar atomic operation (R296). -/
def decAmo (c : BitVec 4) : Option AmoOp :=
  match c.toNat with
  | 0 => some .add
  | 1 => some .and
  | 2 => some .or
  | 3 => some .xor
  | 4 => some .min
  | 5 => some .max
  | 6 => some .minu
  | 7 => some .maxu
  | 8 => some .xchg
  | _ => none

/-- The code of R299 to R302. -/
def encAmo : AmoOp → BitVec 4
  | .add => 0#4
  | .and => 1#4
  | .or => 2#4
  | .xor => 3#4
  | .min => 4#4
  | .max => 5#4
  | .minu => 6#4
  | .maxu => 7#4
  | .xchg => 8#4

/-- An operation of redux and scan (R302). -/
def decFold (c : BitVec 4) : Option FoldOp :=
  match c.toNat with
  | 0 => some .add
  | 1 => some .and
  | 2 => some .or
  | 3 => some .xor
  | 4 => some .min
  | 5 => some .max
  | 6 => some .minu
  | 7 => some .maxu
  | 8 => some .fadd
  | 9 => some .fmin
  | 10 => some .fmax
  | _ => none

/-- The code of R299 to R302. -/
def encFold : FoldOp → BitVec 4
  | .add => 0#4
  | .and => 1#4
  | .or => 2#4
  | .xor => 3#4
  | .min => 4#4
  | .max => 5#4
  | .minu => 6#4
  | .maxu => 7#4
  | .fadd => 8#4
  | .fmin => 9#4
  | .fmax => 10#4

/-- A condition of icmp (R297). -/
def decICond (c : BitVec 8) : Option ICond :=
  match c.toNat with
  | 0 => some .eq
  | 1 => some .ne
  | 2 => some .lt
  | 3 => some .le
  | 4 => some .gt
  | 5 => some .ge
  | 6 => some .ltu
  | 7 => some .leu
  | 8 => some .gtu
  | 9 => some .geu
  | _ => none

/-- The code of R299 to R302. -/
def encICond : ICond → BitVec 8
  | .eq => 0#8
  | .ne => 1#8
  | .lt => 2#8
  | .le => 3#8
  | .gt => 4#8
  | .ge => 5#8
  | .ltu => 6#8
  | .leu => 7#8
  | .gtu => 8#8
  | .geu => 9#8

/-- A condition of fcmp (R297). -/
def decFCond (c : BitVec 8) : Option FCond :=
  match c.toNat with
  | 0 => some .eq
  | 1 => some .ne
  | 2 => some .lt
  | 3 => some .le
  | 4 => some .gt
  | 5 => some .ge
  | 6 => some .unord
  | _ => none

/-- The code of R299 to R302. -/
def encFCond : FCond → BitVec 8
  | .eq => 0#8
  | .ne => 1#8
  | .lt => 2#8
  | .le => 3#8
  | .gt => 4#8
  | .ge => 5#8
  | .unord => 6#8

/-- A rounding selection (R300). -/
def decRnd (c : BitVec 3) : Option RndSel :=
  match c.toNat with
  | 0 => some .dyn
  | 1 => some .rne
  | 2 => some .rtz
  | 3 => some .rup
  | 4 => some .rdn
  | _ => none

/-- The code of R299 to R302. -/
def encRnd : RndSel → BitVec 3
  | .dyn => 0#3
  | .rne => 1#3
  | .rtz => 2#3
  | .rup => 3#3
  | .rdn => 4#3

/-- A conversion (R301). -/
def decCvt (c : BitVec 8) : Option CvtKind :=
  match c.toNat with
  | 1 => some .bf16F32
  | 2 => some .fp16F32
  | 3 => some .i32F32
  | 4 => some .u32F32
  | 16 => some .f32Bf16
  | 32 => some .f32Fp16
  | 18 => some .fp16Bf16
  | 33 => some .bf16Fp16
  | 48 => some .f32I32
  | 64 => some .f32U32
  | _ => none

/-- The code of R299 to R302. -/
def encCvt : CvtKind → BitVec 8
  | .bf16F32 => 1#8
  | .fp16F32 => 2#8
  | .i32F32 => 3#8
  | .u32F32 => 4#8
  | .f32Bf16 => 16#8
  | .f32Fp16 => 32#8
  | .fp16Bf16 => 18#8
  | .bf16Fp16 => 33#8
  | .f32I32 => 48#8
  | .f32U32 => 64#8

/-- A kind of vote (R302). -/
def decVote (c : BitVec 2) : Option VoteKind :=
  match c.toNat with
  | 0 => some .all
  | 1 => some .any
  | 2 => some .uni
  | _ => none

/-- The code of R299 to R302. -/
def encVote : VoteKind → BitVec 2
  | .all => 0#2
  | .any => 1#2
  | .uni => 2#2

/-- An access size SZ (R291). -/
def decSize (c : BitVec 2) : Option SSize :=
  match c.toNat with
  | 0 => some .b
  | 1 => some .h
  | 2 => some .w
  | 3 => some .d
  | _ => none

/-- The code of R299 to R302. -/
def encSize : SSize → BitVec 2
  | .b => 0#2
  | .h => 1#2
  | .w => 2#2
  | .d => 3#2

/-- A path code (R158). -/
def decPath (c : BitVec 14) : Option Path :=
  match c.toNat with
  | 0 => some .ld
  | 1 => some .st
  | 2 => some .sx
  | 3 => some .kv
  | _ => none

/-- The code of R299 to R302. -/
def encPath : Path → BitVec 14
  | .ld => 0#14
  | .st => 1#14
  | .sx => 2#14
  | .kv => 3#14

/-- Go on with the value of a code that must be listed (step 3 of R294). -/
def Dec.code {α : Type} (o : Option α) (k : α → Dec) : Dec :=
  match o with
  | some x => k x
  | none => .illegal

/-- One bit of a field as a truth value. -/
def bitOf {n : Nat} (x : BitVec n) (i : Nat) : Bool := x.getLsbD i

/-- A truth value as one bit. -/
def bit1 (b : Bool) : BitVec 1 := if b then 1#1 else 0#1

/-- The guard and write-back fields. -/
def LFields.hdr (f : LFields) : LHdr := { pr := f.pr, pn := f.pn == 1#1, wbs := f.wbs == 1#1, cc := f.cc }

/-- No guard (R298). -/
def LFields.noGuard (f : LFields) : Bool := f.pr == 0#4 && f.pn == 0#1
/-- WBS is 0. -/
def LFields.noWbs (f : LFields) : Bool := f.wbs == 0#1
/-- WBS and CC are 0. -/
def LFields.noDst (f : LFields) : Bool := f.wbs == 0#1 && f.cc == 0#3

/-- The MOD field of the memory family (R299), with the refusals of R197. -/
def LFields.memMod (f : LFields) : Option MemMod :=
  match decScope (f.mod.extractLsb' 4 3), decOrder (f.mod.extractLsb' 2 2) with
  | some s, some o => some { scope := s, order := o, promote := bitOf f.mod 1, ord := bitOf f.mod 0 }
  | _, _ => none

/-- The MOD field of a memory instruction. -/
def encMod (m : MemMod) : BitVec 7 := encScope m.scope ++ encOrder m.order ++ bit1 m.promote ++ bit1 m.ord

/-! ## The scalar stream -/

/-- OP 0x01 (R295, R296). -/
def decSR (f : SFields) : Option Instr :=
  let b : SReg := f.low.extractLsb' 8 6
  match (f.low.extractLsb' 0 8).toNat with
  | 0 => some (.add f.sd f.sa b)
  | 1 => some (.sub f.sd f.sa b)
  | 2 => some (.mul f.sd f.sa b)
  | 3 => some (.mulhi f.sd f.sa b)
  | 4 => some (.mulhu f.sd f.sa b)
  | 5 => some (.and f.sd f.sa b)
  | 6 => some (.or f.sd f.sa b)
  | 7 => some (.xor f.sd f.sa b)
  | 8 => some (.andn f.sd f.sa b)
  | 9 => some (.shl f.sd f.sa b)
  | 10 => some (.shr f.sd f.sa b)
  | 11 => some (.sar f.sd f.sa b)
  | 12 => some (.min f.sd f.sa b)
  | 13 => some (.max f.sd f.sa b)
  | 14 => some (.minu f.sd f.sa b)
  | 15 => some (.maxu f.sd f.sa b)
  | 16 => some (.slt f.sd f.sa b)
  | 17 => some (.sltu f.sd f.sa b)
  | 18 => some (.seq f.sd f.sa b)
  | 19 => some (.sne f.sd f.sa b)
  | 20 => if b = 0#6 then some (.scalarClz f.sd f.sa) else none
  | 21 => if b = 0#6 then some (.scalarPopc f.sd f.sa) else none
  | 22 => some (.scalarSel f.sd f.sa b)
  | _ => none

/-- The shift amount of shli, shri and sari: IMM 0 to 63 (R296). -/
def decShift (low : BitVec 14) (k : BitVec 6 → Instr) : Option Instr :=
  if low.extractLsb' 6 8 = 0#8 then some (k (low.extractLsb' 0 6)) else none

/-- A form with SD unused. -/
def noSd (f : SFields) (i : Instr) : Option Instr := if f.sd = 0#6 then some i else none
/-- A form with SA unused. -/
def noSa (f : SFields) (i : Instr) : Option Instr := if f.sa = 0#6 then some i else none
/-- A form with SD and SA unused. -/
def noSdSa (f : SFields) (i : Instr) : Option Instr := if f.sd = 0#6 ∧ f.sa = 0#6 then some i else none

/-- OP 0x38, the system group (R295, R296). -/
def decSys (f : SFields) : Option Instr :=
  match f.low.toNat with
  | 0 => noSd f (.scalarSysc f.sa)
  | 1 => noSd f (.scalarHcall f.sa)
  | 2 => noSdSa f .scalarTret
  | 3 => some (.scalarSrd f.sd f.sa)
  | 4 => some (.scalarSwr f.sd f.sa)
  | 5 => some (.feat f.sd f.sa)
  | 6 => noSd f (.role f.sa)
  | 7 => noSdSa f .yield
  | 8 => some (.mwait f.sd f.sa)
  | 9 =>
    match decScope (f.sa.extractLsb' 3 3), decOrder (f.sa.extractLsb' 1 2) with
    | some s, some o => if f.sd = 0#6 ∧ f.sa.extractLsb' 0 1 = 0#1 ∧ o ≠ .plain then some (.fence s o) else none
    | _, _ => none
  | 10 => noSdSa f .exit
  | 11 => noSd f (.scalarBrk f.sa)
  | 12 => noSdSa f .scalarNop
  | _ => none

/-- The scalar forms that a SEL code tells apart (R295). -/
def decSX (f : SFields) : Option Instr :=
  match f.op.toNat, f.low.toNat with
  | 0x1A, 0 => some (.jr f.sd f.sa)
  | 0x24, 0 => noSd f (.sqpush f.sa)
  | 0x24, 1 => noSa f (.lqpop f.sd)
  | 0x24, 2 => noSd f (.lrun f.sa)
  | 0x24, 3 => noSdSa f .lsync
  | 0x28, 0 => noSd f (.fmt f.sa)
  | 0x2C, 0 => some (.acopy f.sd f.sa)
  | 0x2C, 1 => some (.acopyx f.sd f.sa)
  | 0x2C, 2 => some (.agath f.sd f.sa)
  | 0x2C, 3 => some (.rcopy f.sd f.sa)
  | 0x2E, 0 => some (.twait f.sd f.sa)
  | 0x2E, 1 => some (.tread f.sd f.sa)
  | 0x2F, 0 => noSd f (.knotArrive f.sa)
  | 0x2F, 1 => some (.knotWait f.sd f.sa)
  | 0x2F, 2 => some (.knotExpect f.sd f.sa)
  | 0x2F, 3 => some (.knotInit f.sd f.sa)
  | 0x30, 0 => some (.tarm f.sd f.sa)
  | 0x30, 1 => noSd f (.tset f.sa)
  | 0x30, 2 => noSd f (.tclr f.sa)
  | 0x31, 0 => some (.cpost f.sd f.sa)
  | 0x31, 1 => some (.cstat f.sd f.sa)
  | 0x32, 0 => some (.kcfgDefine f.sd f.sa)
  | 0x32, 1 => noSd f (.kdrain f.sa)
  | _, _ => none

/-- The instruction of a scalar word's fields. -/
def decodeSF (f : SFields) : Option Instr :=
  match f.op.toNat with
  | 0x01 => decSR f
  | 2 => some (.addi f.sd f.sa f.low)
  | 3 => some (.andi f.sd f.sa f.low)
  | 4 => some (.ori f.sd f.sa f.low)
  | 5 => some (.xori f.sd f.sa f.low)
  | 6 => decShift f.low (.shli f.sd f.sa ·)
  | 7 => decShift f.low (.shri f.sd f.sa ·)
  | 8 => decShift f.low (.sari f.sd f.sa ·)
  | 9 => some (.slti f.sd f.sa f.low)
  | 0x0A => some (.lui f.sd (f.sa ++ f.low))
  | 16 => (decSize (f.low.extractLsb' 12 2)).map (.scalarLd f.sd f.sa · (f.low.extractLsb' 0 12))
  | 17 => (decSize (f.low.extractLsb' 12 2)).map (.scalarLds f.sd f.sa · (f.low.extractLsb' 0 12))
  | 18 => (decSize (f.low.extractLsb' 12 2)).map (.scalarSt f.sd f.sa · (f.low.extractLsb' 0 12))
  | 0x13 =>
    if f.low.extractLsb' 12 2 = 3#2 then (decAmo (f.low.extractLsb' 8 4)).map (.amo · f.sd f.sa (f.low.extractLsb' 0 8))
    else none
  | 0x18 => some (.j (f.sd ++ f.sa ++ f.low))
  | 0x19 => some (.jal (f.sd ++ f.sa ++ f.low))
  | 27 => some (.beq f.sd f.sa f.low)
  | 28 => some (.bne f.sd f.sa f.low)
  | 29 => some (.blt f.sd f.sa f.low)
  | 30 => some (.bge f.sd f.sa f.low)
  | 31 => some (.bltu f.sd f.sa f.low)
  | 32 => some (.bgeu f.sd f.sa f.low)
  | 0x2D => (decPath f.low).bind fun p => noSd f (.scalarWait p f.sa)
  | 0x38 => decSys f
  | _ => decSX f

/-- The instruction of a scalar word; none raises ILLEGAL_INSTRUCTION (R294). A swr word decodes to the general row, and a
kcfg word to DEFINE: which row it is depends on the selector register (R323) or on the record (R179). -/
def decodeScalar (w : W32) : Option Instr := decodeSF (unpackS w)

/-! ## The lane stream -/

/-- OP 0x01, integer arithmetic (R297, R298). -/
def decInt (f : LFields) : Dec :=
  Dec.chk (f.mod == 0#7 && f.imm == 0#21) <|
  match f.fn.toNat with
  | 0 => Dec.chk (f.sc == 0#11) <| Dec.src f.sa fun a => Dec.src f.sb fun b => .ok (.iadd f.hdr f.dst a b)
  | 1 => Dec.chk (f.sc == 0#11) <| Dec.src f.sa fun a => Dec.src f.sb fun b => .ok (.isub f.hdr f.dst a b)
  | 2 => Dec.chk (f.sc == 0#11) <| Dec.src f.sa fun a => Dec.src f.sb fun b => .ok (.imul f.hdr f.dst a b)
  | 3 => Dec.chk (f.sc == 0#11) <| Dec.src f.sa fun a => Dec.src f.sb fun b => .ok (.imulhi f.hdr f.dst a b)
  | 4 => Dec.chk (f.sc == 0#11) <| Dec.src f.sa fun a => Dec.src f.sb fun b => .ok (.imulhu f.hdr f.dst a b)
  | 5 => Dec.src f.sa fun a => Dec.src f.sb fun b => Dec.src f.sc fun c => .ok (.imad f.hdr f.dst a b c)
  | 6 => Dec.chk (f.sc == 0#11) <| Dec.src f.sa fun a => Dec.src f.sb fun b => .ok (.iand f.hdr f.dst a b)
  | 7 => Dec.chk (f.sc == 0#11) <| Dec.src f.sa fun a => Dec.src f.sb fun b => .ok (.ior f.hdr f.dst a b)
  | 8 => Dec.chk (f.sc == 0#11) <| Dec.src f.sa fun a => Dec.src f.sb fun b => .ok (.ixor f.hdr f.dst a b)
  | 9 => Dec.chk (f.sc == 0#11) <| Dec.src f.sa fun a => Dec.src f.sb fun b => .ok (.iandn f.hdr f.dst a b)
  | 10 => Dec.chk (f.sc == 0#11) <| Dec.src f.sa fun a => Dec.src f.sb fun b => .ok (.ishl f.hdr f.dst a b)
  | 11 => Dec.chk (f.sc == 0#11) <| Dec.src f.sa fun a => Dec.src f.sb fun b => .ok (.ishr f.hdr f.dst a b)
  | 12 => Dec.chk (f.sc == 0#11) <| Dec.src f.sa fun a => Dec.src f.sb fun b => .ok (.isar f.hdr f.dst a b)
  | 13 => Dec.chk (f.sc == 0#11) <| Dec.src f.sa fun a => Dec.src f.sb fun b => .ok (.imin f.hdr f.dst a b)
  | 14 => Dec.chk (f.sc == 0#11) <| Dec.src f.sa fun a => Dec.src f.sb fun b => .ok (.imax f.hdr f.dst a b)
  | 15 => Dec.chk (f.sc == 0#11) <| Dec.src f.sa fun a => Dec.src f.sb fun b => .ok (.iminu f.hdr f.dst a b)
  | 16 => Dec.chk (f.sc == 0#11) <| Dec.src f.sa fun a => Dec.src f.sb fun b => .ok (.imaxu f.hdr f.dst a b)
  | 17 => Dec.chk (f.sb == 0#11 && f.sc == 0#11) <| Dec.src f.sa fun a => .ok (.iabs f.hdr f.dst a)
  | 18 => Dec.src f.sa fun a => Dec.src f.sb fun b => Dec.src f.sc fun c => .ok (.laneSel f.hdr f.dst a b c)
  | 19 => Dec.chk (f.sb == 0#11 && f.sc == 0#11) <| Dec.src f.sa fun a => .ok (.mov f.hdr f.dst a)
  | 20 => Dec.chk (f.sb == 0#11 && f.sc == 0#11) <| Dec.src f.sa fun a => .ok (.laneClz f.hdr f.dst a)
  | 21 => Dec.chk (f.sb == 0#11 && f.sc == 0#11) <| Dec.src f.sa fun a => .ok (.lanePopc f.hdr f.dst a)
  | 22 => Dec.chk (f.sb == 0#11 && f.sc == 0#11) <| Dec.src f.sa fun a => .ok (.brev f.hdr f.dst a)
  | 23 => Dec.chk (f.sc == 0#11) <| Dec.src f.sa fun a => Dec.src f.sb fun b => .ok (.bfx f.hdr f.dst a b)
  | 24 => Dec.chk (f.sc == 0#11) <| Dec.src f.sa fun a => Dec.src f.sb fun b => .ok (.bfxs f.hdr f.dst a b)
  | 25 => Dec.src f.sa fun a => Dec.src f.sb fun b => Dec.src f.sc fun c => .ok (.bfi f.hdr f.dst a b c)
  | _ => .illegal

/-- OP 0x02, icmp. -/
def decIcmp (f : LFields) : Dec :=
  Dec.code (decICond f.fn) fun c =>
  Dec.chk (f.mod == 0#7 && f.imm == 0#21 && f.sc == 0#11 && f.noDst) <|
  Dec.src f.sa fun a => Dec.src f.sb fun b => Dec.pdst f.dst fun d => .ok (.icmp f.hdr c d a b)

/-- OP 0x03, movk. -/
def decMovk (f : LFields) : Dec :=
  Dec.chk (f.fn == 0#8 && f.mod.extractLsb' 1 6 == 0#6 && f.sa == 0#11 && f.sb == 0#11 && f.sc == 0#11) <|
  .ok (.movk f.hdr (bitOf f.mod 0) f.dst f.imm)

/-- The rounding selection of a form that takes one (R300). -/
def LFields.rnd (f : LFields) : Option RndSel :=
  if f.mod.extractLsb' 3 4 = 0#4 then decRnd (f.mod.extractLsb' 0 3) else none

/-- OP 0x04, float arithmetic. -/
def decFloat (f : LFields) : Dec :=
  Dec.chk (f.imm == 0#21) <|
  match f.fn.toNat with
  | 0 => Dec.code f.rnd fun m => Dec.chk (f.sc == 0#11) <| Dec.src f.sa fun a => Dec.src f.sb fun b => .ok (.fadd f.hdr m f.dst a b)
  | 1 => Dec.code f.rnd fun m => Dec.chk (f.sc == 0#11) <| Dec.src f.sa fun a => Dec.src f.sb fun b => .ok (.fsub f.hdr m f.dst a b)
  | 2 => Dec.code f.rnd fun m => Dec.chk (f.sc == 0#11) <| Dec.src f.sa fun a => Dec.src f.sb fun b => .ok (.fmul f.hdr m f.dst a b)
  | 3 => Dec.code f.rnd fun m => Dec.src f.sa fun a => Dec.src f.sb fun b => Dec.src f.sc fun c => .ok (.fma f.hdr m f.dst a b c)
  | 4 => Dec.chk (f.mod == 0#7 && f.sc == 0#11) <| Dec.src f.sa fun a => Dec.src f.sb fun b => .ok (.fmin f.hdr f.dst a b)
  | 5 => Dec.chk (f.mod == 0#7 && f.sc == 0#11) <| Dec.src f.sa fun a => Dec.src f.sb fun b => .ok (.fmax f.hdr f.dst a b)
  | 6 => Dec.chk (f.mod == 0#7 && f.sb == 0#11 && f.sc == 0#11) <| Dec.src f.sa fun a => .ok (.fabs f.hdr f.dst a)
  | 7 => Dec.chk (f.mod == 0#7 && f.sb == 0#11 && f.sc == 0#11) <| Dec.src f.sa fun a => .ok (.fneg f.hdr f.dst a)
  | _ => .illegal

/-- OP 0x05, fcmp. -/
def decFcmp (f : LFields) : Dec :=
  Dec.code (decFCond f.fn) fun c =>
  Dec.chk (f.mod == 0#7 && f.imm == 0#21 && f.sc == 0#11 && f.noDst) <|
  Dec.src f.sa fun a => Dec.src f.sb fun b => Dec.pdst f.dst fun d => .ok (.fcmp f.hdr c d a b)

/-- The checks of a form with one source and no MOD or IMM. -/
def LFields.one (f : LFields) : Bool := f.mod == 0#7 && f.imm == 0#21 && f.sb == 0#11 && f.sc == 0#11

/-- OP 0x06, the correctly rounded functions. -/
def decSfu (f : LFields) : Dec :=
  Dec.chk f.one <|
  match f.fn.toNat with
  | 0 => Dec.src f.sa fun a => .ok (.frcp f.hdr f.dst a)
  | 1 => Dec.src f.sa fun a => .ok (.frsq f.hdr f.dst a)
  | 2 => Dec.src f.sa fun a => .ok (.fsqrt f.hdr f.dst a)
  | 3 => Dec.src f.sa fun a => .ok (.fexp2 f.hdr f.dst a)
  | 4 => Dec.src f.sa fun a => .ok (.flog2 f.hdr f.dst a)
  | 5 => Dec.src f.sa fun a => .ok (.fln f.hdr f.dst a)
  | _ => .illegal

/-- OP 0x07, fcls. -/
def decFcls (f : LFields) : Dec :=
  Dec.chk (f.fn == 0#8 && f.one) <| Dec.src f.sa fun a => .ok (.fcls f.hdr f.dst a)

/-- OP 0x08, cvt. -/
def decCvtF (f : LFields) : Dec :=
  Dec.code (decCvt f.fn) fun k => Dec.code f.rnd fun m =>
  Dec.chk (f.imm == 0#21 && f.sb == 0#11 && f.sc == 0#11) <| Dec.src f.sa fun a => .ok (.cvt f.hdr k m f.dst a)

/-- OP 0x09, NP codes. -/
def decNp (f : LFields) : Dec :=
  Dec.chk (f.imm == 0#21 && f.sc == 0#11) <|
  match f.fn.toNat with
  | 0 => Dec.chk (f.mod == 0#7 && f.sb == 0#11) <| Dec.src f.sa fun a => .ok (.npenc f.hdr f.dst a)
  | 1 =>
    let k := f.mod.extractLsb' 0 4
    Dec.chk (f.mod.extractLsb' 5 2 == 0#2 && 2 ≤ k.toNat && k.toNat ≤ 8 && f.sb == 0#11) <|
    Dec.src f.sa fun a => .ok (.npdec f.hdr k (bitOf f.mod 4) f.dst a)
  | 2 => Dec.chk (f.mod.extractLsb' 3 4 == 0#4 && f.sb == 0#11) <|
    Dec.src f.sa fun a => .ok (.plx f.hdr (f.mod.extractLsb' 0 3) f.dst a)
  | 3 => Dec.chk (f.mod.extractLsb' 3 4 == 0#4) <|
    Dec.src f.sa fun a => Dec.src f.sb fun b => .ok (.pli f.hdr (f.mod.extractLsb' 0 3) f.dst a b)
  | _ => .illegal

/-- OP 0x0A, predicates. -/
def decPred (f : LFields) : Dec :=
  Dec.chk (f.imm == 0#21 && f.sc == 0#11 && f.noWbs) <|
  match f.fn.toNat with
  | 0 => Dec.chk (f.mod == 0#7 && f.noDst) <| Dec.psrc f.sa fun a => Dec.psrc f.sb fun b => Dec.pdst f.dst fun d => .ok (.pand f.hdr d a b)
  | 1 => Dec.chk (f.mod == 0#7 && f.noDst) <| Dec.psrc f.sa fun a => Dec.psrc f.sb fun b => Dec.pdst f.dst fun d => .ok (.por f.hdr d a b)
  | 2 => Dec.chk (f.mod == 0#7 && f.noDst) <| Dec.psrc f.sa fun a => Dec.psrc f.sb fun b => Dec.pdst f.dst fun d => .ok (.pxor f.hdr d a b)
  | 3 => Dec.chk (f.mod == 0#7 && f.noDst && f.sb == 0#11) <| Dec.psrc f.sa fun a => Dec.pdst f.dst fun d => .ok (.pnot f.hdr d a)
  | 4 => Dec.chk (f.mod == 0#7 && f.noDst && f.sb == 0#11) <| Dec.psrc f.sa fun a => Dec.pdst f.dst fun d => .ok (.pmov f.hdr d a)
  | 5 =>
    Dec.chk (f.mod.extractLsb' 1 6 == 0#6 && f.sb == 0#11) <|
    if bitOf f.mod 0 then Dec.chk (f.noDst && f.dst == 0#10) <| Dec.psrc f.sa fun a => .ok (.ballotLq f.hdr a)
    else Dec.psrc f.sa fun a => Dec.opnd (tripleReg f.dst) <| .ok (.ballot f.hdr f.dst a)
  | 6 =>
    Dec.chk (f.mod.extractLsb' 2 5 == 0#5 && f.noDst && f.sb == 0#11) <|
    Dec.code (decVote (f.mod.extractLsb' 0 2)) fun k =>
    Dec.psrc f.sa fun a => Dec.pdst f.dst fun d => .ok (.vote f.hdr k d a)
  | _ => .illegal

/-- OP 0x0B, cross-lane movement. -/
def decXlane (f : LFields) : Dec :=
  Dec.chk (f.imm == 0#21 && f.sc == 0#11) <|
  match f.fn.toNat with
  | 0 => Dec.chk (f.mod == 0#7) <| Dec.src f.sa fun a => Dec.src f.sb fun b => .ok (.shfl f.hdr f.dst a b)
  | 1 => Dec.chk (f.mod == 0#7) <| Dec.src f.sa fun a => Dec.src f.sb fun b => .ok (.xchg f.hdr f.dst a b)
  | 2 =>
    Dec.code (decFold (f.mod.extractLsb' 0 4)) fun op => Dec.chk (f.mod.extractLsb' 5 2 == 0#2 && f.sb == 0#11) <|
    if bitOf f.mod 4 then Dec.chk (f.noDst && f.dst == 0#10) <| Dec.src f.sa fun a => .ok (.reduxLq f.hdr op a)
    else Dec.src f.sa fun a => .ok (.redux f.hdr op f.dst a)
  | 3 =>
    Dec.code (decFold (f.mod.extractLsb' 0 4)) fun op => Dec.chk (f.mod.extractLsb' 5 2 == 0#2 && f.sb == 0#11) <|
    Dec.src f.sa fun a => .ok (.scan f.hdr op (bitOf f.mod 4) f.dst a)
  | _ => .illegal

/-- OP 0x0C, Welford statistics. -/
def decWelf (f : LFields) : Dec :=
  Dec.chk (f.mod == 0#7 && f.imm == 0#21 && f.sc == 0#11 && f.noWbs) <|
  match f.fn.toNat with
  | 0 => Dec.group f.sa tripleReg fun a => Dec.src f.sb fun b => Dec.opnd (tripleReg f.dst) <| .ok (.welf f.hdr f.dst a b)
  | 1 => Dec.group f.sa tripleReg fun a => Dec.group f.sb tripleReg fun b =>
    Dec.opnd (tripleReg f.dst) <| .ok (.wmerge f.hdr f.dst a b)
  | _ => .illegal

/-- OP 0x10, control of fragments (R385). -/
def decCtrl (f : LFields) : Dec :=
  Dec.chk (f.sb == 0#11 && f.sc == 0#11 && f.noWbs) <|
  match f.fn.toNat with
  | 0 => Dec.chk (f.mod.extractLsb' 1 6 == 0#6 && f.noDst && f.dst == 0#10) <|
    Dec.psrc f.sa fun a => .ok (.lbr f.hdr (bitOf f.mod 0) a f.imm)
  | 1 => Dec.chk (f.mod == 0#7 && f.noGuard && f.noDst && f.dst == 0#10 && f.sa == 0#11) <| .ok (.ljmp f.imm)
  | 2 => Dec.chk (f.mod == 0#7 && f.noGuard && f.noDst && f.dst == 0#10 && f.sa == 0#11) <| .ok (.mark f.imm)
  | 3 => Dec.chk (f.mod == 0#7 && f.noGuard && f.noDst && f.dst == 0#10 && f.sa == 0#11 && f.imm == 0#21) <| .ok .join
  | 4 => Dec.chk (f.mod == 0#7 && f.noGuard && f.noDst && f.dst == 0#10 && f.sa == 0#11 && f.imm == 0#21) <| .ok .lend
  | 5 => Dec.chk (f.mod == 0#7 && f.noGuard && f.noDst && f.dst == 0#10 && f.sa == 0#11 && f.imm.extractLsb' 16 5 == 0#5) <|
    .ok (.lfmt (f.imm.extractLsb' 0 16))
  | 6 =>
    let n := f.imm.extractLsb' 0 2
    Dec.chk (f.mod == 0#7 && f.noGuard && f.sa == 0#11 && f.imm.extractLsb' 2 19 == 0#19 && n != 3#2) <|
    .ok (.mkrd f.cc n f.dst)
  | 7 =>
    let n := f.imm.extractLsb' 0 2
    Dec.chk (f.mod == 0#7 && f.noGuard && f.noDst && f.dst == 0#10 && f.imm.extractLsb' 2 19 == 0#19 && n != 3#2) <|
    Dec.src f.sa fun a => .ok (.mkwr n a)
  | _ => .illegal

/-- The MOD of a memory form that reads and writes as told. -/
def Dec.mem (f : LFields) (reads writes : Bool) (k : MemMod → Dec) : Dec :=
  Dec.code f.memMod fun m => Dec.chk (m.ok reads writes && f.noWbs) (k m)

/-- OP 0x14 and 0x16, ld and lds. -/
def decLoad (f : LFields) (scr : Bool) : Dec :=
  Dec.code (decLd (f.fn.extractLsb' 0 4)) fun w =>
  Dec.chk (f.fn.extractLsb' 4 3 == 0#3 && f.sb == 0#11 && f.sc == 0#11 && !(scr && bitOf f.fn 7)) <|
  Dec.mem f true false fun m =>
  Dec.srcPair (bitOf f.fn 7) f.sa fun a => Dec.opnd (w.regOk f.dst) <|
  .ok (if scr then .laneLds f.hdr m w f.dst a f.imm else .laneLd f.hdr m (bitOf f.fn 7) w f.dst a f.imm)

/-- OP 0x15 and 0x17, st and sts. -/
def decStore (f : LFields) (scr : Bool) : Dec :=
  Dec.code (decSt (f.fn.extractLsb' 0 4)) fun w =>
  Dec.chk (f.fn.extractLsb' 4 3 == 0#3 && f.sc == 0#11 && f.dst == 0#10 && f.cc == 0#3 && !(scr && bitOf f.fn 7)) <|
  Dec.mem f false true fun m =>
  Dec.srcPair (bitOf f.fn 7) f.sa fun a => Dec.src f.sb fun b => Dec.opnd (w.srcOk b) <|
  .ok (if scr then .sts f.hdr m w a b f.imm else .laneSt f.hdr m (bitOf f.fn 7) w a b f.imm)

/-- OP 0x18 and 0x19, atom and atoms. -/
def decAtomF (f : LFields) (scr : Bool) : Dec :=
  Dec.code (decAtom (f.fn.extractLsb' 0 4)) fun op =>
  let ret := bitOf f.fn 6
  let w64 := bitOf f.fn 4
  Dec.chk (!bitOf f.fn 5 && !(w64 && op.isFloat) && (ret || (f.dst == 0#10 && f.cc == 0#3 && op != .cas)) &&
    (op == .cas || f.sc == 0#11) && !(scr && bitOf f.fn 7)) <|
  Dec.mem f true true fun m =>
  Dec.srcPair (bitOf f.fn 7) f.sa fun a => Dec.srcPair w64 f.sb fun b => Dec.srcPair (op == .cas && w64) f.sc fun c =>
  Dec.opnd (!(ret && w64) || pairReg f.dst) <|
  .ok (if scr then .atoms f.hdr m ret w64 op f.dst a b c f.imm else .atom f.hdr m (bitOf f.fn 7) ret w64 op f.dst a b c f.imm)

/-- OP 0x1A, smaxpk. -/
def decSmaxpk (f : LFields) : Dec :=
  let ret := bitOf f.fn 6
  Dec.chk (f.fn.extractLsb' 0 6 == 0#6 && (ret || (f.dst == 0#10 && f.cc == 0#3))) <|
  Dec.mem f true true fun m =>
  Dec.srcPair (bitOf f.fn 7) f.sa fun a => Dec.src f.sb fun b => Dec.src f.sc fun c =>
  Dec.opnd (!ret || pairReg f.dst) <| .ok (.smaxpk f.hdr m (bitOf f.fn 7) ret f.dst a b c f.imm)

/-- OP 0x1B, pst. -/
def decPst (f : LFields) : Dec :=
  Dec.chk (f.fn.extractLsb' 0 6 == 0#6 && f.dst == 0#10 && f.cc == 0#3 && f.sc == 0#11) <|
  Dec.mem f false true fun m =>
  Dec.srcPair (bitOf f.fn 7) f.sa fun a => Dec.psrc f.sb fun b => .ok (.pst f.hdr m (bitOf f.fn 7) (bitOf f.fn 6) a b f.imm)

/-- OP 0x1C, pld. -/
def decPld (f : LFields) : Dec :=
  Dec.chk (f.fn.extractLsb' 0 6 == 0#6 && f.cc == 0#3 && f.sb == 0#11 && f.sc == 0#11) <|
  Dec.mem f true false fun m =>
  Dec.srcPair (bitOf f.fn 7) f.sa fun a => Dec.pdst f.dst fun d => .ok (.pld f.hdr m (bitOf f.fn 7) (bitOf f.fn 6) d a f.imm)

/-- OP 0x1D, lfence (R363). -/
def decLfence (f : LFields) : Dec :=
  Dec.chk (f.fn == 0#8 && f.noGuard && f.noDst && f.dst == 0#10 && f.sa == 0#11 && f.sb == 0#11 && f.sc == 0#11 &&
    f.imm == 0#21 && f.mod.extractLsb' 0 2 == 0#2) <|
  Dec.code (decScope (f.mod.extractLsb' 4 3)) fun s => Dec.code (decOrder (f.mod.extractLsb' 2 2)) fun o =>
  Dec.chk (o != .plain) <| .ok (.lfence s o)

/-- OP 0x20, the Grove (R364). -/
def decGrove (f : LFields) : Dec :=
  let p := f.mod.extractLsb' 0 5
  let k64 := bitOf f.mod 5
  let fld := f.imm.extractLsb' 0 4
  let pr : PReg := f.imm.extractLsb' 4 4
  Dec.chk (f.sc == 0#11 && f.noWbs && f.imm.extractLsb' 9 12 == 0#12) <|
  match f.fn.toNat with
  | 0 => Dec.chk (f.imm.extractLsb' 4 5 == 0#5 && f.dst == 0#10 && f.cc == 0#3) <|
    Dec.srcPair k64 f.sa fun a => Dec.srcPair (bitOf f.mod 6) f.sb fun b => .ok (.kacc f.hdr p fld k64 (bitOf f.mod 6) a b)
  | 1 => Dec.chk (!bitOf f.mod 6 && f.sb == 0#11) <|
    if bitOf f.imm 8 then Dec.chk (f.dst == 0#10 && f.cc == 0#3) <|
      Dec.srcPair k64 f.sa fun a => .ok (.klookLq f.hdr p fld k64 a pr)
    else Dec.srcPair k64 f.sa fun a => .ok (.klook f.hdr p fld k64 f.dst a pr)
  | 2 => Dec.chk (f.mod.extractLsb' 5 2 == 0#2 && !bitOf f.imm 8 && f.sb == 0#11) <|
    Dec.src f.sa fun a => Dec.opnd (quadReg f.dst) <| .ok (.kread f.hdr p fld f.dst a pr)
  | 3 => Dec.chk (!bitOf f.mod 6 && f.imm == 0#21 && f.dst == 0#10 && f.cc == 0#3 && f.sb == 0#11) <|
    Dec.srcPair k64 f.sa fun a => .ok (.kclr f.hdr p k64 a)
  | _ => .illegal

/-- OP 0x24, proposals (R371 to R374). -/
def decProp (f : LFields) : Dec :=
  Dec.chk (f.imm == 0#21 && f.sb == 0#11 && f.sc == 0#11 && f.noWbs) <|
  match f.fn.toNat with
  | 0 => Dec.chk (f.mod == 0#7 && f.noGuard && f.noDst && f.dst == 0#10 && f.sa == 0#11) <| .ok .propose
  | 1 => Dec.chk (f.mod == 0#7 && f.noDst) <| Dec.src f.sa fun a => Dec.pdst f.dst fun d => .ok (.accept f.hdr d a)
  | 2 => Dec.chk (f.mod == 0#7 && f.noGuard && f.noDst && f.dst == 0#10 && f.sa == 0#11) <| .ok .pabort
  | 3 => Dec.chk (f.mod.extractLsb' 1 6 == 0#6 && f.sa == 0#11) <| .ok (.rand f.hdr (bitOf f.mod 0) f.dst)
  | _ => .illegal

/-- OP 0x28, matrix and accumulators (R378 to R384). -/
def decMat (f : LFields) : Dec :=
  let n := f.imm.extractLsb' 0 4
  Dec.chk (f.mod == 0#7 && f.imm.extractLsb' 4 17 == 0#17 && f.noWbs) <|
  match f.fn.toNat with
  | 0 => Dec.chk (f.sc == 0#11 && f.dst == 0#10 && f.cc == 0#3) <| Dec.group f.sa pairReg fun a => .ok (.mma f.hdr a f.sb n)
  | 1 => Dec.chk (f.sb == 0#11 && f.sc == 0#11) <| Dec.src f.sa fun a => .ok (.accrd f.hdr f.dst a n)
  | 2 => Dec.chk (f.sc == 0#11 && f.dst == 0#10 && f.cc == 0#3) <|
    Dec.src f.sa fun a => Dec.src f.sb fun b => .ok (.accwr f.hdr a b n)
  | 3 => Dec.chk (f.dst == 0#10 && f.cc == 0#3) <| Dec.group f.sa pairReg fun t => Dec.group f.sb pairReg fun r =>
    Dec.group f.sc pairReg fun c => .ok (.accst f.hdr t r c n)
  | 4 => Dec.chk (f.sa == 0#11 && f.sb == 0#11 && f.sc == 0#11) <| .ok (.accver f.hdr f.dst n)
  | _ => .illegal

/-- OP 0x2C, the lane ends of the queues (R386). -/
def decQueue (f : LFields) : Dec :=
  Dec.chk (f.imm == 0#21 && f.sb == 0#11 && f.sc == 0#11 && f.noWbs && f.mod.extractLsb' 1 6 == 0#6) <|
  match f.fn.toNat with
  | 0 => Dec.chk (f.noDst && f.dst == 0#10) <| Dec.srcPair (bitOf f.mod 0) f.sa fun a => .ok (.lqpush f.hdr (bitOf f.mod 0) a)
  | 1 => Dec.chk (f.noGuard && f.sa == 0#11 && (bitOf f.mod 0 || (f.cc == 0#3 && f.dst == 0#10))) <|
    .ok (.sqpop f.cc (bitOf f.mod 0) f.dst)
  | _ => .illegal

/-- The row of a write to the special register with a selector (R303). -/
def swrRow (w : SwrForm) (sel : BitVec 14) : Option Instr :=
  match sel.toNat with
  | 0x010 => some (.fmtrWrite w)
  | 0x016 => some (.pnanClear w)
  | 0x017 => some (.gangWrite w)
  | 0x01A => some (.gnanClear w)
  | 0x107 => some (.ptbaseWrite w)
  | 0x108 => some (.winbaseWrite w)
  | 0x109 => some (.winlimWrite w)
  | 0x10B => some (.bankmodeWrite w)
  | 0x10C => some (.bankownWrite w)
  | _ => none

/-- OP 0x2D, special and supervisor registers (R387, R388). -/
def decSpec (f : LFields) : Dec :=
  Dec.chk (f.sb == 0#11 && f.sc == 0#11 && f.noWbs) <|
  match f.fn.toNat with
  | 0 => Dec.chk (f.mod.extractLsb' 1 6 == 0#6 && f.imm.extractLsb' 14 7 == 0#7 && f.sa == 0#11) <|
    .ok (.laneSrd f.hdr (bitOf f.mod 0) f.dst (f.imm.extractLsb' 0 14))
  | 1 => Dec.chk (f.mod.extractLsb' 1 6 == 0#6 && f.imm.extractLsb' 14 7 == 0#7 && f.noDst && f.dst == 0#10) <|
    Dec.src f.sa fun a =>
    .ok ((swrRow (.lane f.hdr (bitOf f.mod 0) a) (f.imm.extractLsb' 0 14)).getD
      (.laneSwr f.hdr (bitOf f.mod 0) a (f.imm.extractLsb' 0 14)))
  | 2 => Dec.chk (f.mod == 0#7 && f.imm == 0#21 && f.dst.extractLsb' 5 5 == 0#5) <|
    Dec.src f.sa fun a => .ok (.kmov f.hdr (f.dst.extractLsb' 0 5) a)
  | _ => .illegal

/-- OP 0x30, calls and returns (R389, R390). -/
def decCall (f : LFields) : Dec :=
  Dec.chk (f.sb == 0#11 && f.sc == 0#11 && f.noDst) <|
  match f.fn.toNat with
  | 0 => Dec.chk (f.mod == 0#7 && f.sa == 0#11 && f.dst == 0#10) <| .ok (.laneSysc f.hdr f.imm)
  | 1 =>
    Dec.chk (f.mod.extractLsb' 2 5 == 0#5 && f.imm == 0#21 && (bitOf f.mod 0 || (f.sa == 0#11 && f.dst == 0#10))) <|
    Dec.src f.sa fun a => .ok (.laneTret f.hdr (bitOf f.mod 0) (bitOf f.mod 1) f.dst a)
  | 2 => Dec.chk (f.mod == 0#7 && f.sa == 0#11 && f.dst == 0#10) <| .ok (.laneHcall f.hdr f.imm)
  | 3 => Dec.chk (f.mod == 0#7 && f.sa == 0#11 && f.dst == 0#10) <| .ok (.laneBrk f.hdr f.imm)
  | 4 => Dec.chk (f.mod == 0#7 && f.sa == 0#11 && f.dst == 0#10 && f.imm == 0#21) <| .ok (.laneNop f.hdr)
  | _ => .illegal

/-- The instruction of a lane instruction's fields (R297). -/
def decodeLF (f : LFields) : Dec :=
  match f.op.toNat with
  | 0x01 => decInt f
  | 0x02 => decIcmp f
  | 0x03 => decMovk f
  | 0x04 => decFloat f
  | 0x05 => decFcmp f
  | 0x06 => decSfu f
  | 0x07 => decFcls f
  | 0x08 => decCvtF f
  | 0x09 => decNp f
  | 0x0A => decPred f
  | 0x0B => decXlane f
  | 0x0C => decWelf f
  | 0x10 => decCtrl f
  | 0x14 => decLoad f false
  | 0x15 => decStore f false
  | 0x16 => decLoad f true
  | 0x17 => decStore f true
  | 0x18 => decAtomF f false
  | 0x19 => decAtomF f true
  | 0x1A => decSmaxpk f
  | 0x1B => decPst f
  | 0x1C => decPld f
  | 0x1D => decLfence f
  | 0x20 => decGrove f
  | 0x24 => decProp f
  | 0x28 => decMat f
  | 0x2C => decQueue f
  | 0x2D => decSpec f
  | 0x30 => decCall f
  | _ => .illegal

/-- The instruction of the three words of a lane instruction. -/
def decodeLane (w0 w1 w2 : W32) : Dec := decodeLF (unpackL w0 w1 w2)

/-! ## Encoding -/

/-- Fields of an SX form. -/
def sx (op : BitVec 6) (sd sa : SReg) (sel : BitVec 14) : SFields := { op := op, sd := sd, sa := sa, low := sel }

/-- The scalar fields of an instruction of the scalar stream (R291, R295, R296); none for the rest. A register write with a
row of its own and every kcfg row have the words of swr and kcfg. -/
def scalarFields : Instr → Option SFields
  | .add d a b => some (sx 0x01#6 d a (b ++ 0#8))
  | .sub d a b => some (sx 0x01#6 d a (b ++ 1#8))
  | .mul d a b => some (sx 0x01#6 d a (b ++ 2#8))
  | .mulhi d a b => some (sx 0x01#6 d a (b ++ 3#8))
  | .mulhu d a b => some (sx 0x01#6 d a (b ++ 4#8))
  | .and d a b => some (sx 0x01#6 d a (b ++ 5#8))
  | .or d a b => some (sx 0x01#6 d a (b ++ 6#8))
  | .xor d a b => some (sx 0x01#6 d a (b ++ 7#8))
  | .andn d a b => some (sx 0x01#6 d a (b ++ 8#8))
  | .shl d a b => some (sx 0x01#6 d a (b ++ 9#8))
  | .shr d a b => some (sx 0x01#6 d a (b ++ 10#8))
  | .sar d a b => some (sx 0x01#6 d a (b ++ 11#8))
  | .min d a b => some (sx 0x01#6 d a (b ++ 12#8))
  | .max d a b => some (sx 0x01#6 d a (b ++ 13#8))
  | .minu d a b => some (sx 0x01#6 d a (b ++ 14#8))
  | .maxu d a b => some (sx 0x01#6 d a (b ++ 15#8))
  | .slt d a b => some (sx 0x01#6 d a (b ++ 16#8))
  | .sltu d a b => some (sx 0x01#6 d a (b ++ 17#8))
  | .seq d a b => some (sx 0x01#6 d a (b ++ 18#8))
  | .sne d a b => some (sx 0x01#6 d a (b ++ 19#8))
  | .scalarClz d a => some (sx 0x01#6 d a (0#6 ++ 20#8))
  | .scalarPopc d a => some (sx 0x01#6 d a (0#6 ++ 21#8))
  | .scalarSel d a b => some (sx 0x01#6 d a (b ++ 22#8))
  | .addi d a i => some (sx 2#6 d a i)
  | .andi d a i => some (sx 3#6 d a i)
  | .ori d a i => some (sx 4#6 d a i)
  | .xori d a i => some (sx 5#6 d a i)
  | .shli d a i => some (sx 6#6 d a (0#8 ++ i))
  | .shri d a i => some (sx 7#6 d a (0#8 ++ i))
  | .sari d a i => some (sx 8#6 d a (0#8 ++ i))
  | .slti d a i => some (sx 9#6 d a i)
  | .lui d i => some { op := 0x0A#6, sd := d, sa := i.extractLsb' 14 6, low := i.extractLsb' 0 14 }
  | .scalarLd d a z i => some (sx 0x10#6 d a (encSize z ++ i))
  | .scalarLds d a z i => some (sx 0x11#6 d a (encSize z ++ i))
  | .scalarSt d a z i => some (sx 0x12#6 d a (encSize z ++ i))
  | .amo op d a i => some (sx 0x13#6 d a (3#2 ++ encAmo op ++ i))
  | .j o => some { op := 0x18#6, sd := o.extractLsb' 20 6, sa := o.extractLsb' 14 6, low := o.extractLsb' 0 14 }
  | .jal o => some { op := 0x19#6, sd := o.extractLsb' 20 6, sa := o.extractLsb' 14 6, low := o.extractLsb' 0 14 }
  | .jr d a => some (sx 0x1A#6 d a 0)
  | .beq a b o => some (sx 0x1B#6 a b o)
  | .bne a b o => some (sx 0x1C#6 a b o)
  | .blt a b o => some (sx 0x1D#6 a b o)
  | .bge a b o => some (sx 0x1E#6 a b o)
  | .bltu a b o => some (sx 0x1F#6 a b o)
  | .bgeu a b o => some (sx 0x20#6 a b o)
  | .sqpush a => some (sx 0x24#6 0 a 0#14)
  | .lqpop d => some (sx 0x24#6 d 0 1#14)
  | .lrun a => some (sx 0x24#6 0 a 2#14)
  | .lsync => some (sx 0x24#6 0 0 3#14)
  | .fmt a => some (sx 0x28#6 0 a 0#14)
  | .acopy d a => some (sx 0x2C#6 d a 0#14)
  | .acopyx d a => some (sx 0x2C#6 d a 1#14)
  | .agath d a => some (sx 0x2C#6 d a 2#14)
  | .rcopy d a => some (sx 0x2C#6 d a 3#14)
  | .twait d a => some (sx 0x2E#6 d a 0#14)
  | .tread d a => some (sx 0x2E#6 d a 1#14)
  | .knotArrive a => some (sx 0x2F#6 0 a 0#14)
  | .knotWait d a => some (sx 0x2F#6 d a 1#14)
  | .knotExpect d a => some (sx 0x2F#6 d a 2#14)
  | .knotInit d a => some (sx 0x2F#6 d a 3#14)
  | .tarm d a => some (sx 0x30#6 d a 0#14)
  | .tset a => some (sx 0x30#6 0 a 1#14)
  | .tclr a => some (sx 0x30#6 0 a 2#14)
  | .cpost d a => some (sx 0x31#6 d a 0#14)
  | .cstat d a => some (sx 0x31#6 d a 1#14)
  | .kcfgDefine d a => some (sx 0x32#6 d a 0#14)
  | .kcfgStream d a => some (sx 0x32#6 d a 0#14)
  | .kcfgClear d a => some (sx 0x32#6 d a 0#14)
  | .kcfgStatus d a => some (sx 0x32#6 d a 0#14)
  | .kcfgAttach d a => some (sx 0x32#6 d a 0#14)
  | .kdrain a => some (sx 0x32#6 0 a 1#14)
  | .scalarSysc a => some (sx 0x38#6 0 a 0#14)
  | .scalarHcall a => some (sx 0x38#6 0 a 1#14)
  | .scalarTret => some (sx 0x38#6 0 0 2#14)
  | .scalarSrd d a => some (sx 0x38#6 d a 3#14)
  | .scalarSwr d a => some (sx 0x38#6 d a 4#14)
  | .feat d a => some (sx 0x38#6 d a 5#14)
  | .role a => some (sx 0x38#6 0 a 6#14)
  | .yield => some (sx 0x38#6 0 0 7#14)
  | .mwait d a => some (sx 0x38#6 d a 8#14)
  | .exit => some (sx 0x38#6 0 0 10#14)
  | .scalarBrk a => some (sx 0x38#6 0 a 11#14)
  | .scalarNop => some (sx 0x38#6 0 0 12#14)
  | .scalarWait p a => some (sx 0x2D#6 0 a (encPath p))
  | .fence s o => some (sx 0x38#6 0 (encScope s ++ encOrder o ++ 0#1) 9#14)
  | .fmtrWrite (.scalar d a) => some (sx 0x38#6 d a 4#14)
  | .gangWrite (.scalar d a) => some (sx 0x38#6 d a 4#14)
  | .ptbaseWrite (.scalar d a) => some (sx 0x38#6 d a 4#14)
  | .winbaseWrite (.scalar d a) => some (sx 0x38#6 d a 4#14)
  | .winlimWrite (.scalar d a) => some (sx 0x38#6 d a 4#14)
  | .bankmodeWrite (.scalar d a) => some (sx 0x38#6 d a 4#14)
  | .bankownWrite (.scalar d a) => some (sx 0x38#6 d a 4#14)
  | .gnanClear (.scalar d a) => some (sx 0x38#6 d a 4#14)
  | .pnanClear (.scalar d a) => some (sx 0x38#6 d a 4#14)
  | _ => none

/-- Lane fields with a guard and write-back fields, and zeros elsewhere. -/
def lf (h : LHdr) (op fn : Byte) : LFields :=
  { op := op, fn := fn, pr := h.pr, pn := bit1 h.pn, wbs := bit1 h.wbs, cc := h.cc, mod := 0, sa := 0, sb := 0, dst := 0,
    sc := 0, imm := 0 }

/-- The header of a form that takes no guard and writes no register. -/
def noHdr : LHdr := { pr := 0, pn := false, wbs := false, cc := 0 }

/-- A group field's code: the register with bit 10 clear. -/
def encV (n : VReg) : BitVec 11 := 0#1 ++ n

/-- The fields of a lane swr. -/
def swrFields (h : LHdr) (hi : Bool) (a : Src) (sel : BitVec 14) : LFields :=
  { lf h 0x2D 0x01 with mod := 0#6 ++ bit1 hi, sa := encSrc a, imm := 0#7 ++ sel }

/-- The lane fields of an instruction of the lane stream (R292, R297 to R302); none for the rest. -/
def laneFields : Instr → Option LFields
  | .iadd h d a b => some { lf h 0x01 0 with dst := d, sa := encSrc a, sb := encSrc b }
  | .isub h d a b => some { lf h 0x01 1 with dst := d, sa := encSrc a, sb := encSrc b }
  | .imul h d a b => some { lf h 0x01 2 with dst := d, sa := encSrc a, sb := encSrc b }
  | .imulhi h d a b => some { lf h 0x01 3 with dst := d, sa := encSrc a, sb := encSrc b }
  | .imulhu h d a b => some { lf h 0x01 4 with dst := d, sa := encSrc a, sb := encSrc b }
  | .imad h d a b c => some { lf h 0x01 5 with dst := d, sa := encSrc a, sb := encSrc b, sc := encSrc c }
  | .iand h d a b => some { lf h 0x01 6 with dst := d, sa := encSrc a, sb := encSrc b }
  | .ior h d a b => some { lf h 0x01 7 with dst := d, sa := encSrc a, sb := encSrc b }
  | .ixor h d a b => some { lf h 0x01 8 with dst := d, sa := encSrc a, sb := encSrc b }
  | .iandn h d a b => some { lf h 0x01 9 with dst := d, sa := encSrc a, sb := encSrc b }
  | .ishl h d a b => some { lf h 0x01 10 with dst := d, sa := encSrc a, sb := encSrc b }
  | .ishr h d a b => some { lf h 0x01 11 with dst := d, sa := encSrc a, sb := encSrc b }
  | .isar h d a b => some { lf h 0x01 12 with dst := d, sa := encSrc a, sb := encSrc b }
  | .imin h d a b => some { lf h 0x01 13 with dst := d, sa := encSrc a, sb := encSrc b }
  | .imax h d a b => some { lf h 0x01 14 with dst := d, sa := encSrc a, sb := encSrc b }
  | .iminu h d a b => some { lf h 0x01 15 with dst := d, sa := encSrc a, sb := encSrc b }
  | .imaxu h d a b => some { lf h 0x01 16 with dst := d, sa := encSrc a, sb := encSrc b }
  | .iabs h d a => some { lf h 0x01 17 with dst := d, sa := encSrc a }
  | .laneSel h d a b c => some { lf h 0x01 18 with dst := d, sa := encSrc a, sb := encSrc b, sc := encSrc c }
  | .mov h d a => some { lf h 0x01 19 with dst := d, sa := encSrc a }
  | .laneClz h d a => some { lf h 0x01 20 with dst := d, sa := encSrc a }
  | .lanePopc h d a => some { lf h 0x01 21 with dst := d, sa := encSrc a }
  | .brev h d a => some { lf h 0x01 22 with dst := d, sa := encSrc a }
  | .bfx h d a b => some { lf h 0x01 23 with dst := d, sa := encSrc a, sb := encSrc b }
  | .bfxs h d a b => some { lf h 0x01 24 with dst := d, sa := encSrc a, sb := encSrc b }
  | .bfi h d a b c => some { lf h 0x01 25 with dst := d, sa := encSrc a, sb := encSrc b, sc := encSrc c }
  | .icmp h c d a b => some { lf h 0x02 (encICond c) with dst := encP10 d, sa := encSrc a, sb := encSrc b }
  | .movk h hi d i => some { lf h 0x03 0 with mod := 0#6 ++ bit1 hi, dst := d, imm := i }
  | .fadd h m d a b => some { lf h 0x04 0 with mod := 0#4 ++ encRnd m, dst := d, sa := encSrc a, sb := encSrc b }
  | .fsub h m d a b => some { lf h 0x04 1 with mod := 0#4 ++ encRnd m, dst := d, sa := encSrc a, sb := encSrc b }
  | .fmul h m d a b => some { lf h 0x04 2 with mod := 0#4 ++ encRnd m, dst := d, sa := encSrc a, sb := encSrc b }
  | .fma h m d a b c => some { lf h 0x04 3 with mod := 0#4 ++ encRnd m, dst := d, sa := encSrc a, sb := encSrc b, sc := encSrc c }
  | .fmin h d a b => some { lf h 0x04 4 with dst := d, sa := encSrc a, sb := encSrc b }
  | .fmax h d a b => some { lf h 0x04 5 with dst := d, sa := encSrc a, sb := encSrc b }
  | .fabs h d a => some { lf h 0x04 6 with dst := d, sa := encSrc a }
  | .fneg h d a => some { lf h 0x04 7 with dst := d, sa := encSrc a }
  | .fcmp h c d a b => some { lf h 0x05 (encFCond c) with dst := encP10 d, sa := encSrc a, sb := encSrc b }
  | .frcp h d a => some { lf h 0x06 0 with dst := d, sa := encSrc a }
  | .frsq h d a => some { lf h 0x06 1 with dst := d, sa := encSrc a }
  | .fsqrt h d a => some { lf h 0x06 2 with dst := d, sa := encSrc a }
  | .fexp2 h d a => some { lf h 0x06 3 with dst := d, sa := encSrc a }
  | .flog2 h d a => some { lf h 0x06 4 with dst := d, sa := encSrc a }
  | .fln h d a => some { lf h 0x06 5 with dst := d, sa := encSrc a }
  | .fcls h d a => some { lf h 0x07 0 with dst := d, sa := encSrc a }
  | .cvt h k m d a => some { lf h 0x08 (encCvt k) with mod := 0#4 ++ encRnd m, dst := d, sa := encSrc a }
  | .npenc h d a => some { lf h 0x09 0 with dst := d, sa := encSrc a }
  | .npdec h k f d a => some { lf h 0x09 1 with mod := 0#2 ++ bit1 f ++ k, dst := d, sa := encSrc a }
  | .plx h p d a => some { lf h 0x09 2 with mod := 0#4 ++ p, dst := d, sa := encSrc a }
  | .pli h p d a b => some { lf h 0x09 3 with mod := 0#4 ++ p, dst := d, sa := encSrc a, sb := encSrc b }
  | .pand h d a b => some { lf h 0x0A 0 with dst := encP10 d, sa := encP11 a, sb := encP11 b }
  | .por h d a b => some { lf h 0x0A 1 with dst := encP10 d, sa := encP11 a, sb := encP11 b }
  | .pxor h d a b => some { lf h 0x0A 2 with dst := encP10 d, sa := encP11 a, sb := encP11 b }
  | .pnot h d a => some { lf h 0x0A 3 with dst := encP10 d, sa := encP11 a }
  | .pmov h d a => some { lf h 0x0A 4 with dst := encP10 d, sa := encP11 a }
  | .ballot h d a => some { lf h 0x0A 5 with dst := d, sa := encP11 a }
  | .ballotLq h a => some { lf h 0x0A 5 with mod := 1, sa := encP11 a }
  | .vote h k d a => some { lf h 0x0A 6 with mod := 0#5 ++ encVote k, dst := encP10 d, sa := encP11 a }
  | .shfl h d a b => some { lf h 0x0B 0 with dst := d, sa := encSrc a, sb := encSrc b }
  | .xchg h d a b => some { lf h 0x0B 1 with dst := d, sa := encSrc a, sb := encSrc b }
  | .redux h op d a => some { lf h 0x0B 2 with mod := 0#3 ++ encFold op, dst := d, sa := encSrc a }
  | .reduxLq h op a => some { lf h 0x0B 2 with mod := 1#3 ++ encFold op, sa := encSrc a }
  | .scan h op e d a => some { lf h 0x0B 3 with mod := 0#2 ++ bit1 e ++ encFold op, dst := d, sa := encSrc a }
  | .welf h d a b => some { lf h 0x0C 0 with dst := d, sa := encV a, sb := encSrc b }
  | .wmerge h d a b => some { lf h 0x0C 1 with dst := d, sa := encV a, sb := encV b }
  | .lbr h inv a i => some { lf h 0x10 0 with mod := 0#6 ++ bit1 inv, sa := encP11 a, imm := i }
  | .ljmp i => some { lf noHdr 0x10 1 with imm := i }
  | .mark i => some { lf noHdr 0x10 2 with imm := i }
  | .join => some (lf noHdr 0x10 3)
  | .lend => some (lf noHdr 0x10 4)
  | .lfmt i => some { lf noHdr 0x10 5 with imm := 0#5 ++ i }
  | .mkrd cc n d => some { lf noHdr 0x10 6 with cc := cc, dst := d, imm := 0#19 ++ n }
  | .mkwr n a => some { lf noHdr 0x10 7 with sa := encSrc a, imm := 0#19 ++ n }
  | .laneLd h m a64 w d a i =>
    some { lf h 0x14 (bit1 a64 ++ 0#3 ++ encLd w) with mod := encMod m, dst := d, sa := encSrc a, imm := i }
  | .laneSt h m a64 w a b i =>
    some { lf h 0x15 (bit1 a64 ++ 0#3 ++ encSt w) with mod := encMod m, sa := encSrc a, sb := encSrc b, imm := i }
  | .laneLds h m w d a i => some { lf h 0x16 (0#4 ++ encLd w) with mod := encMod m, dst := d, sa := encSrc a, imm := i }
  | .sts h m w a b i => some { lf h 0x17 (0#4 ++ encSt w) with mod := encMod m, sa := encSrc a, sb := encSrc b, imm := i }
  | .atom h m a64 ret w64 op d a b c i =>
    some { lf h 0x18 (bit1 a64 ++ bit1 ret ++ 0#1 ++ bit1 w64 ++ encAtom op) with
      mod := encMod m, dst := d, sa := encSrc a, sb := encSrc b, sc := encSrc c, imm := i }
  | .atoms h m ret w64 op d a b c i =>
    some { lf h 0x19 (0#1 ++ bit1 ret ++ 0#1 ++ bit1 w64 ++ encAtom op) with
      mod := encMod m, dst := d, sa := encSrc a, sb := encSrc b, sc := encSrc c, imm := i }
  | .smaxpk h m a64 ret d a b c i =>
    some { lf h 0x1A (bit1 a64 ++ bit1 ret ++ 0#6) with
      mod := encMod m, dst := d, sa := encSrc a, sb := encSrc b, sc := encSrc c, imm := i }
  | .pst h m a64 each a b i =>
    some { lf h 0x1B (bit1 a64 ++ bit1 each ++ 0#6) with mod := encMod m, sa := encSrc a, sb := encP11 b, imm := i }
  | .pld h m a64 each d a i =>
    some { lf h 0x1C (bit1 a64 ++ bit1 each ++ 0#6) with mod := encMod m, dst := encP10 d, sa := encSrc a, imm := i }
  | .lfence s o => some { lf noHdr 0x1D 0 with mod := encScope s ++ encOrder o ++ 0#2 }
  | .kacc h p f k64 v64 a b =>
    some { lf h 0x20 0 with mod := bit1 v64 ++ bit1 k64 ++ p, sa := encSrc a, sb := encSrc b, imm := 0#17 ++ f }
  | .klook h p f k64 d a hit =>
    some { lf h 0x20 1 with mod := 0#1 ++ bit1 k64 ++ p, dst := d, sa := encSrc a, imm := 0#13 ++ hit ++ f }
  | .klookLq h p f k64 a hit =>
    some { lf h 0x20 1 with mod := 0#1 ++ bit1 k64 ++ p, sa := encSrc a, imm := 1#13 ++ hit ++ f }
  | .kread h p f d a v => some { lf h 0x20 2 with mod := 0#2 ++ p, dst := d, sa := encSrc a, imm := 0#13 ++ v ++ f }
  | .kclr h p k64 a => some { lf h 0x20 3 with mod := 0#1 ++ bit1 k64 ++ p, sa := encSrc a }
  | .propose => some (lf noHdr 0x24 0)
  | .accept h d a => some { lf h 0x24 1 with dst := encP10 d, sa := encSrc a }
  | .pabort => some (lf noHdr 0x24 2)
  | .rand h k d => some { lf h 0x24 3 with mod := 0#6 ++ bit1 k, dst := d }
  | .mma h a b n => some { lf h 0x28 0 with sa := encV a, sb := b, imm := 0#17 ++ n }
  | .accrd h d a n => some { lf h 0x28 1 with dst := d, sa := encSrc a, imm := 0#17 ++ n }
  | .accwr h a b n => some { lf h 0x28 2 with sa := encSrc a, sb := encSrc b, imm := 0#17 ++ n }
  | .accst h t r c n => some { lf h 0x28 3 with sa := encV t, sb := encV r, sc := encV c, imm := 0#17 ++ n }
  | .accver h d n => some { lf h 0x28 4 with dst := d, imm := 0#17 ++ n }
  | .lqpush h b64 a => some { lf h 0x2C 0 with mod := 0#6 ++ bit1 b64, sa := encSrc a }
  | .sqpop cc w d => some { lf noHdr 0x2C 1 with cc := cc, mod := 0#6 ++ bit1 w, dst := d }
  | .laneSrd h hi d sel => some { lf h 0x2D 0 with mod := 0#6 ++ bit1 hi, dst := d, imm := 0#7 ++ sel }
  | .laneSwr h hi a sel => some (swrFields h hi a sel)
  | .fmtrWrite (.lane h hi a) => some (swrFields h hi a 0x010)
  | .pnanClear (.lane h hi a) => some (swrFields h hi a 0x016)
  | .gangWrite (.lane h hi a) => some (swrFields h hi a 0x017)
  | .gnanClear (.lane h hi a) => some (swrFields h hi a 0x01A)
  | .ptbaseWrite (.lane h hi a) => some (swrFields h hi a 0x107)
  | .winbaseWrite (.lane h hi a) => some (swrFields h hi a 0x108)
  | .winlimWrite (.lane h hi a) => some (swrFields h hi a 0x109)
  | .bankmodeWrite (.lane h hi a) => some (swrFields h hi a 0x10B)
  | .bankownWrite (.lane h hi a) => some (swrFields h hi a 0x10C)
  | .kmov h d a => some { lf h 0x2D 2 with dst := 0#5 ++ d, sa := encSrc a }
  | .laneSysc h n => some { lf h 0x30 0 with imm := n }
  | .laneTret h w e d a => some { lf h 0x30 1 with mod := 0#5 ++ bit1 e ++ bit1 w, dst := d, sa := encSrc a }
  | .laneHcall h n => some { lf h 0x30 2 with imm := n }
  | .laneBrk h n => some { lf h 0x30 3 with imm := n }
  | .laneNop h => some (lf h 0x30 4)
  | _ => none

/-- The words of an instruction, the one at the lowest address first; none for a device step. -/
def encode (i : Instr) : Option (List W32) :=
  match scalarFields i with
  | some f => some [packS f]
  | none =>
    match laneFields i with
    | some f => some [f.w0, f.w1, f.w2]
    | none => none

/-- The instruction of a list of words: one of the scalar stream, three of the lane stream. -/
def decodeWords : List W32 → Option Instr
  | [w] => decodeScalar w
  | [w0, w1, w2] => (decodeLane w0 w1 w2).instr?
  | _ => none

/-- The instruction as its words alone tell it: a scalar swr names its register, and kcfg its record, by a register's value (R179,
R323), so that every scalar row of swr reads as the general row and every row of kcfg as DEFINE. -/
def Instr.wordForm : Instr → Instr
  | .kcfgStream d a => .kcfgDefine d a
  | .kcfgClear d a => .kcfgDefine d a
  | .kcfgStatus d a => .kcfgDefine d a
  | .kcfgAttach d a => .kcfgDefine d a
  | .fmtrWrite (.scalar d a) => .scalarSwr d a
  | .gangWrite (.scalar d a) => .scalarSwr d a
  | .ptbaseWrite (.scalar d a) => .scalarSwr d a
  | .winbaseWrite (.scalar d a) => .scalarSwr d a
  | .winlimWrite (.scalar d a) => .scalarSwr d a
  | .bankmodeWrite (.scalar d a) => .scalarSwr d a
  | .bankownWrite (.scalar d a) => .scalarSwr d a
  | .gnanClear (.scalar d a) => .scalarSwr d a
  | .pnanClear (.scalar d a) => .scalarSwr d a
  | i => i

/-- The instruction the decoder reads from an instruction whose bits are `w`, bit 0 the least significant of the first
word. The table gives bits to the rows of the scalar stream (one word); three words are a lane instruction. -/
def decodeTableWord (nbits w : Nat) : Option Instr :=
  if nbits ≤ 32 then decodeScalar (BitVec.ofNat 32 w)
  else (decodeLane (BitVec.ofNat 32 w) (BitVec.ofNat 32 (w / 2 ^ 32)) (BitVec.ofNat 32 (w / 2 ^ 64))).instr?

end Sys2Proof
end

