-- ==== Sys2Proof/Machine/Float.lean ====
section
/-! DEFINITION. Exact arithmetic on float words (R244 to R268): a finite value is a sign, a natural number and a power of two, an
operation is exact on those, and one rounding ends it. -/

namespace Sys2Proof.Machine

/-- Rounding modes (R246). -/
inductive Rnd where
  | rne | rtz | rup | rdn
  deriving DecidableEq, Repr

/-- A float format (R244): fraction bits, exponent bits. -/
structure Fmt where
  fb : Nat
  eb : Nat
  deriving DecidableEq, Repr

def f32 : Fmt := ⟨23, 8⟩
def bf16 : Fmt := ⟨7, 8⟩
def fp16 : Fmt := ⟨10, 5⟩

/-- The exponent of the smallest subnormal. -/
def Fmt.emin (f : Fmt) : Int := 2 - (2 ^ (f.eb - 1) : Nat) - f.fb
/-- The bits of the infinity, which is also one more than the largest finite magnitude's. -/
def Fmt.infBits (f : Fmt) : Nat := (2 ^ f.eb - 1) * 2 ^ f.fb
/-- The canonical NaN (R244). -/
def Fmt.nanBits (f : Fmt) : Nat := f.infBits + 2 ^ (f.fb - 1)
/-- The sign bit. -/
def Fmt.signBits (f : Fmt) (neg : Bool) : Nat := if neg then 2 ^ (f.fb + f.eb) else 0

/-- What the bits of a float word say: `fin neg m e` is m × 2^e with its sign. -/
inductive FVal where
  | nan
  | inf (neg : Bool)
  | fin (neg : Bool) (m : Nat) (e : Int)
  deriving DecidableEq, Repr

/-- Reading a word of a format. -/
def Fmt.read (f : Fmt) (x : Nat) : FVal :=
  let neg := x / 2 ^ (f.fb + f.eb) % 2 = 1
  let ex := x / 2 ^ f.fb % 2 ^ f.eb
  let fr := x % 2 ^ f.fb
  if ex = 2 ^ f.eb - 1 then (if fr = 0 then .inf neg else .nan)
  else if ex = 0 then .fin neg fr f.emin
  else .fin neg (2 ^ f.fb + fr) (f.emin + (ex - 1 : Nat))

/-- Whether the discarded part rounds the magnitude up, in a mode (R246): `odd` of the kept part, the rest, its modulus. -/
def roundsUp (m : Rnd) (neg odd : Bool) (rest modulus : Nat) : Bool :=
  match m with
  | .rne => modulus < 2 * rest || (2 * rest == modulus && odd)
  | .rtz => false
  | .rup => rest != 0 && !neg
  | .rdn => rest != 0 && neg

/-- The bits of an overflow (R246). -/
def Fmt.overflow (f : Fmt) (m : Rnd) (neg : Bool) : Nat :=
  match m, neg with
  | .rne, _ => f.infBits
  | .rtz, _ => f.infBits - 1
  | .rup, false => f.infBits
  | .rup, true => f.infBits - 1
  | .rdn, false => f.infBits - 1
  | .rdn, true => f.infBits

/-- ROUND of (−1)^neg × n × 2^e (R246); a zero keeps the sign given. -/
def Fmt.round (f : Fmt) (m : Rnd) (neg : Bool) (n : Nat) (e : Int) : Nat :=
  if n = 0 then f.signBits neg
  else
    let q : Int := max f.emin (e + (n.log2 : Int) - f.fb)
    let k : Nat :=
      if q ≤ e then n * 2 ^ (e - q).toNat
      else
        let w := 2 ^ (q - e).toNat
        n / w + (if roundsUp m neg (n / w % 2 = 1) (n % w) w then 1 else 0)
    let bits := (q - f.emin).toNat * 2 ^ f.fb + k
    f.signBits neg + (if f.infBits ≤ bits then f.overflow m neg else bits)

/-- ROUND of the number n × 2^e with its sign in `n`; `zneg` is the sign of an exact zero. -/
def Fmt.roundInt (f : Fmt) (m : Rnd) (n : Int) (e : Int) (zneg : Bool) : Nat :=
  f.round m (if n = 0 then zneg else n < 0) n.natAbs e

/-- RNE of the positive number strictly between n × 2^e and (n + 1) × 2^e, or n × 2^e itself when `exact`. -/
def roundBetween (neg : Bool) (n : Nat) (e : Int) (exact : Bool) : Nat :=
  if exact then f32.round .rne neg n e else f32.round .rne neg (2 * n + 1) (e - 1)

/-- The signed integer of a magnitude. -/
def signed (neg : Bool) (m : Nat) : Int := if neg then -(m : Int) else m

/-- n × 2^e as an integer multiple of 2^e0, for e0 ≤ e. -/
def scaleTo (e0 : Int) (n e : Int) : Int := n * (2 ^ (e - e0).toNat : Nat)

/-- A sum's zero sign (R247). -/
def sumZero (m : Rnd) (a b : Bool) : Bool := if a = b then a else decide (m = .rdn)

/-- The exact sum of two values, rounded once (R247, R336). -/
def addVal (f : Fmt) (m : Rnd) : FVal → FVal → Nat
  | .nan, _ => f.nanBits
  | _, .nan => f.nanBits
  | .inf a, .inf b => if a = b then f.signBits a + f.infBits else f.nanBits
  | .inf a, .fin _ _ _ => f.signBits a + f.infBits
  | .fin _ _ _, .inf b => f.signBits b + f.infBits
  | .fin a x d, .fin b y e =>
    let g := min d e
    f.roundInt m (scaleTo g (signed a x) d + scaleTo g (signed b y) e) g (sumZero m a b)

/-- The exact product of two values (R247, R336). -/
def mulVal : FVal → FVal → FVal
  | .nan, _ => .nan
  | _, .nan => .nan
  | .inf a, .inf b => .inf (a != b)
  | .inf a, .fin b y _ => if y = 0 then .nan else .inf (a != b)
  | .fin a x _, .inf b => if x = 0 then .nan else .inf (a != b)
  | .fin a x d, .fin b y e => .fin (a != b) (x * y) (d + e)

/-- The bits of a value rounded to a format. -/
def Fmt.ofVal (f : Fmt) (m : Rnd) : FVal → Nat
  | .nan => f.nanBits
  | .inf a => f.signBits a + f.infBits
  | .fin a x e => f.round m a x e

/-- An FP32 word's value. -/
def val32 (a : W32) : FVal := f32.read a.toNat
/-- An FP32 word of its bits. -/
def word32 (n : Nat) : W32 := BitVec.ofNat 32 n

/-- Is the word a NaN? -/
def isNan (a : W32) : Bool := val32 a == .nan

/-- A value with its sign inverted. -/
def negVal : FVal → FVal
  | .nan => .nan
  | .inf a => .inf (!a)
  | .fin a x e => .fin (!a) x e

def fAdd (m : Rnd) (a b : W32) : W32 := word32 (addVal f32 m (val32 a) (val32 b))
def fSub (m : Rnd) (a b : W32) : W32 := word32 (addVal f32 m (val32 a) (negVal (val32 b)))
def fMul (m : Rnd) (a b : W32) : W32 := word32 (f32.ofVal m (mulVal (val32 a) (val32 b)))
def fFma (m : Rnd) (a b c : W32) : W32 := word32 (addVal f32 m (mulVal (val32 a) (val32 b)) (val32 c))

/-- The canonical NaN of FP32. -/
def nan32 : W32 := 0x7FC00000#32

/-- fabs and fneg (R249, R337). -/
def fAbs (a : W32) : W32 := if isNan a then nan32 else a &&& 0x7FFFFFFF#32
def fNeg (a : W32) : W32 := if isNan a then nan32 else a ^^^ 0x80000000#32

/-- A word's place in the select order (R250): −0 below +0. -/
def selectKey (a : W32) : Int := if a.msb then -1 - ((a &&& 0x7FFFFFFF#32).toNat : Int) else a.toNat

/-- SELMIN and SELMAX (R250, R269). -/
def selMin (a b : W32) : W32 := if isNan a || isNan b then nan32 else if selectKey b < selectKey a then b else a
def selMax (a b : W32) : W32 := if isNan a || isNan b then nan32 else if selectKey a < selectKey b then b else a

/-- A word's place in the compare order (R250): −0 equals +0. -/
def compareKey (a : W32) : Int := signed a.msb (a &&& 0x7FFFFFFF#32).toNat

/-- The conditions of fcmp (R338). -/
def fCompare (c : FCond) (a b : W32) : Bool :=
  if isNan a || isNan b then c == .unord || c == .ne
  else
    match c with
    | .eq => compareKey a == compareKey b
    | .ne => compareKey a != compareKey b
    | .lt => compareKey a < compareKey b
    | .le => compareKey a ≤ compareKey b
    | .gt => compareKey b < compareKey a
    | .ge => compareKey b ≤ compareKey a
    | .unord => false

/-- fcls (R340). -/
def fClass (a : W32) : W32 :=
  match val32 a with
  | .nan => if a.getLsbD 22 then 2#32 else 1#32
  | .inf neg => if neg then 4#32 else 0x200#32
  | .fin neg m _ =>
    if m = 0 then (if neg then 0x20#32 else 0x40#32)
    else if m < 2 ^ 23 then (if neg then 0x10#32 else 0x80#32)
    else (if neg then 8#32 else 0x100#32)

/-! ## Conversions (R252, R255 to R258) -/

/-- A value rounded to an integer in a mode. -/
def roundToInt (m : Rnd) (neg : Bool) (n : Nat) (e : Int) : Int :=
  if 0 ≤ e then signed neg (n * 2 ^ e.toNat)
  else
    let w := 2 ^ (-e).toNat
    signed neg (n / w + (if roundsUp m neg (n / w % 2 = 1) (n % w) w then 1 else 0))

/-- CVTI (R252). -/
def cvtI (m : Rnd) (lo hi : Int) (a : W32) : Int :=
  match val32 a with
  | .nan => 0
  | .inf neg => if neg then lo else hi
  | .fin neg n e => max lo (min hi (roundToInt m neg n e))

/-- cvt (R252, R341). -/
def fCvt (k : CvtKind) (m : Rnd) (a : W32) : W32 :=
  match k with
  | .bf16F32 => word32 (bf16.ofVal m (val32 a))
  | .fp16F32 => word32 (fp16.ofVal m (val32 a))
  | .i32F32 => BitVec.ofInt 32 (cvtI m (-2 ^ 31) (2 ^ 31 - 1) a)
  | .u32F32 => BitVec.ofInt 32 (cvtI m 0 (2 ^ 32 - 1) a)
  | .f32Bf16 => word32 (f32.ofVal m (bf16.read (a.toNat % 2 ^ 16)))
  | .f32Fp16 => word32 (f32.ofVal m (fp16.read (a.toNat % 2 ^ 16)))
  | .fp16Bf16 => word32 (fp16.ofVal m (bf16.read (a.toNat % 2 ^ 16)))
  | .bf16Fp16 => word32 (bf16.ofVal m (fp16.read (a.toNat % 2 ^ 16)))
  | .f32I32 => word32 (f32.roundInt m a.toInt 0 false)
  | .f32U32 => word32 (f32.roundInt m a.toNat 0 false)

/-- NPVAL (R257). -/
def npVal (c : Byte) (k : Nat) : Int := signed c.msb ((c &&& 0x7F#8).toNat / 2 ^ (8 - k))

/-- NPENC (R258): to nearest with ties away from zero. -/
def npEnc (a : W32) : Byte :=
  match val32 a with
  | .nan => 0#8
  | .inf neg => if neg then 0xFF#8 else 0x7F#8
  | .fin neg n e =>
    let r := if 0 ≤ e then n * 2 ^ e.toNat else (2 * n + 2 ^ (-e).toNat) / (2 * 2 ^ (-e).toNat)
    let mag := min 127 r
    if mag = 0 then 0#8 else BitVec.ofNat 8 (mag + if neg then 0x80 else 0)

/-- An integer as an FP32 word, rounded to nearest even; 0 is +0. -/
def intToF32 (n : Int) : W32 := word32 (f32.roundInt .rne n 0 false)

/-! ## The correctly rounded functions (R253) -/

/-- The largest r with r × r ≤ n, found from its highest bit downward. -/
def isqrtFrom (n : Nat) : Nat → Nat → Nat
  | 0, r => r
  | b + 1, r => isqrtFrom n b (if (r + 2 ^ b) * (r + 2 ^ b) ≤ n then r + 2 ^ b else r)

/-- The integer square root. -/
def isqrt (n : Nat) : Nat := isqrtFrom n (n.log2 / 2 + 1) 0

/-- frcp. -/
def fRcp (a : W32) : W32 :=
  match val32 a with
  | .nan => nan32
  | .inf neg => word32 (f32.signBits neg)
  | .fin neg n e =>
    if n = 0 then word32 (f32.signBits neg + f32.infBits)
    else
      let k := n.log2 + 40
      word32 (roundBetween neg (2 ^ k / n) (-(k : Int) - e) (2 ^ k % n = 0))

/-- A finite value with an even exponent. -/
def evenExp (n : Nat) (e : Int) : Nat × Int := if e % 2 = 0 then (n, e) else (2 * n, e - 1)

/-- fsqrt. -/
def fSqrt (a : W32) : W32 :=
  match val32 a with
  | .nan => nan32
  | .inf neg => if neg then nan32 else word32 f32.infBits
  | .fin neg n e =>
    if n = 0 then a
    else if neg then nan32
    else
      let (n, e) := evenExp n e
      let r := isqrt (n * 2 ^ 64)
      word32 (roundBetween false r (e / 2 - 32) (r * r = n * 2 ^ 64))

/-- frsq. -/
def fRsq (a : W32) : W32 :=
  match val32 a with
  | .nan => nan32
  | .inf neg => if neg then nan32 else 0#32
  | .fin neg n e =>
    if n = 0 then word32 (f32.signBits neg + f32.infBits)
    else if neg then nan32
    else
      let (n, e) := evenExp n e
      let r := isqrt (2 ^ 128 / n)
      word32 (roundBetween false r (-64 - e / 2) (r * r * n = 2 ^ 128))

/-- Fraction bits of the fixed-point numbers below. -/
def fixBits : Nat := 256

/-- The sum of 2 × z^(2i+1) / (2i+1) over `fuel` terms from term i, where `p` is z^(2i+1) and `zz` is z²: it tends to
ln((1 + z) / (1 − z)). -/
def atanhSum (zz : Nat) : Nat → Nat → Nat → Nat
  | 0, _, _ => 0
  | fuel + 1, i, p => 2 * p / (2 * i + 1) + atanhSum zz fuel (i + 1) (p * zz / 2 ^ fixBits)

/-- ln of y / 2^fixBits for y from 2^fixBits to 2 × 2^fixBits, with an error below 2^−240. -/
def lnFix (y : Nat) : Nat :=
  let z := (y - 2 ^ fixBits) * 2 ^ fixBits / (y + 2 ^ fixBits)
  atanhSum (z * z / 2 ^ fixBits) 90 0 z

/-- ln 2. -/
def ln2Fix : Nat := lnFix (2 * 2 ^ fixBits)

/-- The sum of z^i / i! over `fuel` terms from term i, where `t` is the term. -/
def expSum (z : Nat) : Nat → Nat → Nat → Nat
  | 0, _, _ => 0
  | fuel + 1, i, t => t + expSum z fuel (i + 1) (t * z / 2 ^ fixBits / (i + 1))

/-- RNE of a fixed-point number that is known not to be exact or close to a rounding boundary: its low 40 bits carry the
error of the series and are dropped. -/
def roundFix (v : Int) (e : Int) : W32 := word32 (roundBetween (v < 0) (v.natAbs / 2 ^ 40) (40 - fixBits + e) false)

/-- fexp2. -/
def fExp2 (a : W32) : W32 :=
  match val32 a with
  | .nan => nan32
  | .inf neg => if neg then 0#32 else word32 f32.infBits
  | .fin neg n e =>
    let x := scaleTo (-149) (signed neg n) e
    let i := x.fdiv (2 ^ 149)
    let f := (x - i * 2 ^ 149).toNat
    if 128 ≤ i then word32 f32.infBits
    else if i < -160 then 0#32
    else if f = 0 then word32 (f32.round .rne false 1 i)
    else roundFix (expSum (f * 2 ^ (fixBits - 149) * ln2Fix / 2 ^ fixBits) 70 0 (2 ^ fixBits)) i

/-- The logarithm of a positive finite number, in fixed point: k × ln 2 + ln y. -/
def lnVal (n : Nat) (e : Int) : Int :=
  ((n.log2 : Int) + e) * ln2Fix + lnFix (n * 2 ^ (fixBits - n.log2))

/-- flog2. -/
def fLog2 (a : W32) : W32 :=
  match val32 a with
  | .nan => nan32
  | .inf neg => if neg then nan32 else word32 f32.infBits
  | .fin neg n e =>
    if n = 0 then word32 (f32.signBits true + f32.infBits)
    else if neg then nan32
    else if n = 2 ^ n.log2 then intToF32 ((n.log2 : Int) + e)
    else roundFix (lnVal n e * (2 ^ fixBits : Nat) / ln2Fix) 0

/-- fln. -/
def fLn (a : W32) : W32 :=
  match val32 a with
  | .nan => nan32
  | .inf neg => if neg then nan32 else word32 f32.infBits
  | .fin neg n e =>
    if n = 0 then word32 (f32.signBits true + f32.infBits)
    else if neg then nan32
    else if n = 2 ^ n.log2 ∧ (n.log2 : Int) + e = 0 then 0#32
    else roundFix (lnVal n e) 0

/-! ## Matrix sums and stores (R259 to R261) -/

/-- The exact sum of a list of products, at the exponent 2^−600 below which no product reaches; whether every product is
a negative zero. -/
def sumFin : List FVal → Int
  | [] => 0
  | .fin a x e :: r => scaleTo (-600) (signed a x) e + sumFin r
  | _ :: r => sumFin r

/-- S of R259. -/
def mmaSum (ps : List FVal) : FVal :=
  if ps.any (· == .nan) || (ps.contains (.inf false) && ps.contains (.inf true)) then .nan
  else if ps.contains (.inf false) then .inf false
  else if ps.contains (.inf true) then .inf true
  else
    let s := sumFin ps
    let negz := ps.all fun p => match p with | .fin a x _ => a && x == 0 | _ => false
    .fin (if s = 0 then negz else s < 0) s.natAbs (-600)

/-- The float update of one element (R259). -/
def mmaFloat (c : W32) (ps : List FVal) : W32 := word32 (addVal f32 .rne (val32 c) (mmaSum ps))

/-- The NP update of one element: the new word, and whether it was clamped (R260). -/
def mmaInt (c : W32) (s : Int) : W32 × Bool :=
  let x := c.toInt + s
  let y := max (-(2 ^ 31 - 1)) (min (2 ^ 31 - 1) x)
  (BitVec.ofInt 32 y, x != y)

/-- accst's value (R261). -/
def accstValue (isInt : Bool) (scale : BitVec 2) (a sa sb : W32) : W32 :=
  let f := if isInt then intToF32 a.toInt else a
  match scale.toNat with
  | 0 => a
  | 1 => fMul .rne f sa
  | 2 => fMul .rne f sb
  | _ => fMul .rne (fMul .rne f sa) sb

/-! ## Welford statistics, gate keys and draws (R262 to R268) -/

/-- WELF (R262). -/
def welf3 (t : W32 × W32 × W32) (x : W32) : W32 × W32 × W32 :=
  let n := fAdd .rne t.1 0x3F800000#32
  let d := fSub .rne x t.2.1
  let q := fRcp n
  let mean := fAdd .rne t.2.1 (fMul .rne d q)
  (n, mean, fAdd .rne t.2.2 (fMul .rne d (fSub .rne x mean)))

/-- WMERGE (R263). -/
def wmerge3 (a b : W32 × W32 × W32) : W32 × W32 × W32 :=
  if fCompare .eq a.1 0#32 then b
  else if fCompare .eq b.1 0#32 then a
  else
    let n := fAdd .rne a.1 b.1
    let d := fSub .rne b.2.1 a.2.1
    let w := fMul .rne b.1 (fRcp n)
    let m := fAdd .rne a.2.1 (fMul .rne d w)
    (n, m, fAdd .rne (fAdd .rne a.2.2 b.2.2) (fMul .rne (fMul .rne d d) (fMul .rne a.1 w)))

/-- KEY (R264), without the GNAN it sets for a NaN. -/
def gateKey (s : W32) : W32 :=
  match val32 s with
  | .nan => 0#32
  | .inf neg => if neg then ~~~0xFF7FFFFF#32 else 0xFF7FFFFF#32
  | .fin neg n _ => if n = 0 then 0x80000000#32 else if neg then ~~~s else s ||| 0x80000000#32

/-- DRAW's k (R266). -/
def drawK (seed g c : W32) : W32 :=
  let x := seed ^^^ (g * 0x9E3779B9#32) ^^^ (c * 0x85EBCA6B#32)
  let x := (x ^^^ (x >>> 16)) * 0x7FEB352D#32
  let x := (x ^^^ (x >>> 15)) * 0x846CA68B#32
  (x ^^^ (x >>> 16)) >>> 8

/-- DRAW's u (R266). -/
def drawU (k : W32) : W32 := word32 (f32.round .rne false (k.toNat + 1) (-24))

end Sys2Proof.Machine
end

