-- ==== Sys2Proof/Machine/State.lean ====
section
/-! DEFINITION. The state of the device, as plain data: Root, the tenants, the clusters, the cores, the launches,
the resident teams with their groups, device memory, and what happens next. -/

namespace Sys2Proof.Machine

/-- Why the machine stops. -/
inductive Fault where
  /-- Raised by the stage-two translation when a window names a physical address above 0x2F_FFFF_FFFF, which R9 says
  does not exist. Safe: the hypervisor refuses such a window (R40), so no run reaches it. -/
  | noSuchAddress
  deriving DecidableEq, Repr

/-- Why a step has no meaning. -/
inductive Refusal where
  /-- Raised by an arm of `exec` whose instruction has no meaning yet. Safe. -/
  | notModelled (mnemonic : String)
  deriving DecidableEq, Repr

/-- The modes of R221. -/
inductive Mode where
  | user | supervisor | hypervisor
  deriving DecidableEq, Repr

/-- The causes of R225. -/
inductive Cause where
  | syscall | hcall | brk | xlate | engineFault
  | illegalInstruction | illegalOperand | privOperand | privInstruction | misaligned | shapeMismatch | regReleased
  | slotExhausted | latchInvalid | queueOrphan | splitOverflow | stackOverflow | joinUnmatched | lendUnbalanced
  | tretUnbalanced | fmtInvalid | roleBusy | roleSlots | blockRange | gangConfig | gangOrphan | badHandle
  | scoreboardRange | orderedScope | bankMode | bankBusy | knotRange | knotBusy | knotOverarrive | grovePartition
  | groveField | groveConfig | groveNostream | groveStream | groveIndex | proposalNested | proposalMode | sregRange
  | accRange | mmaFormat | proposalNone
  deriving DecidableEq, Repr

/-- A lane register's shape tag with its value (R131). -/
inductive Tag where
  | released
  | uniform (w : W32)
  | affine (b s : W32)
  | general (ws : List W32)
  deriving DecidableEq, Repr

/-- A lane register: its tag, its consumer count (R136), and whether its slot was taken from the spare pool (R224). -/
structure LaneReg where
  tag   : Tag
  cc    : Nat
  spare : Bool
  deriving DecidableEq, Repr

/-- The shadow of a window register (R370): the shadow words and the written bits. -/
structure Shadow where
  words   : List W32
  written : LaneMask
  deriving DecidableEq, Repr

/-- Why a fragment is not a candidate, beside being parked (R128, R146, R229); `orphan` is the wait at a rendezvous of a fragment whose group
is due a GANG_ORPHAN (R147). -/
inductive FragWait where
  | none | join | tret | rendezvous | orphan
  deriving DecidableEq, Repr

/-- A fragment of the lane stream (R125). `handler` is the trap frame whose handler it runs, `parkedBy` the trap
frame that parked it (R227). -/
structure Fragment where
  pc       : W64
  mask     : LaneMask
  span     : LaneMask
  fmtr     : W64
  mode     : Mode
  frame    : Option Nat
  wait     : FragWait
  handler  : Option Nat
  parkedBy : Option Nat
  deriving DecidableEq, Repr

/-- A reconvergence frame (R127). -/
structure Frame where
  rejoin : W64
  mask   : LaneMask
  span   : LaneMask
  fmtr   : W64
  link   : Option Nat
  deriving DecidableEq, Repr

/-- A trap frame (R228). `frag` is the split-table entry of the trapping fragment, none for the scalar stream;
`prev` is the frame that was current in the scalar stream before. -/
structure TrapFrame where
  cause    : Cause
  causeWord : W64
  epc      : W64
  badaddr  : W64
  callmask : LaneMask
  frag     : Option Nat
  pmode    : Mode
  prop     : Bool
  fin      : Bool
  fmtr     : W64
  prev     : Option Nat
  deriving DecidableEq, Repr

/-- One lane's part of an outstanding access: its address (physical, or a scratch offset), whether it lies inside
the storage it names (R354), the bytes it stores or offers, and the compare value of a cas. -/
structure LaneAcc where
  lane : Nat
  addr : Nat
  live : Bool
  size : Nat
  data : List Byte
  cmp  : List Byte
  deriving DecidableEq, Repr

/-- Where the values of an access go when it returns. -/
inductive AccKind where
  /-- ld and lds: width, first destination register, whether one read serves every lane (R356). -/
  | load (w : LdWidth) (d : VReg) (unif : Bool)
  /-- st and sts. -/
  | store
  /-- atom and atoms. -/
  | atom (op : AtomOp) (w64 ret : Bool) (d : VReg)
  /-- smaxpk. -/
  | smaxpk (ret : Bool) (d : VReg)
  /-- pld: destination predicate; packed or one byte a lane. -/
  | pld (d : PReg) (each : Bool)
  /-- klook and kread, performed at issue: the values to deliver, register by register, and the predicate (an entry for lq
  has entered it at issue). -/
  | deliver (regs : List (VReg × Bool × List (Nat × W32))) (p : PReg) (bits : LaneMask)
  /-- The place that a klook or kread of a fragment has among its group's accesses while it waits at its Grove port (R159, R188). -/
  | reserved (fid : Nat)
  /-- scalar ld, lds. -/
  | scalarLoad (d : SReg) (signed : Bool)
  /-- scalar amo. -/
  | amo (op : AmoOp) (d : SReg)
  /-- mma, after its pairing: accumulator, formats, the B words of each lane written, and the update (group, access) of its
  gang that comes before it at the same accumulator (R382). -/
  | mma (acc : Nat) (fmtr : W64) (cols : List (Nat × List W32)) (after : Option (Nat × Nat))
  deriving DecidableEq, Repr

/-- An issued access that has not returned (R158, R159, R356, R380). `home` says that it is an ordered access, which is performed at
the home slices whatever its scope (R108). -/
structure Access where
  id      : Nat
  path    : Option Path
  kind    : AccKind
  scratch : Bool
  scope   : Scope
  order   : Order
  promote : Bool
  active  : LaneMask
  items   : List LaneAcc
  shadow  : Bool
  home    : Bool
  done    : Bool
  deriving DecidableEq, Repr

/-- The open latch run of a group (R138 to R140): the fragment that issues it, its length, and the pushes, newest first. -/
structure LatchRun where
  frag   : Nat
  length : Nat
  pushes : List Tag
  deriving DecidableEq, Repr

/-- A watch of mwait (R326): the line, the number of writes to it seen when it was armed, the core's cycle count then, and
the status once the wait has ended: 0 WRITTEN, 1 TIMEOUT, 2 RESTORED (R238). -/
structure MWatch where
  line   : Nat
  seen   : Nat
  armed  : W64
  result : Option Nat
  deriving DecidableEq, Repr

/-- An ordered operation that waits for its turn, and whether the turn has come (R108). -/
structure OrderedWait where
  stream  : StreamRef
  instr   : Instr
  stamp   : Nat
  granted : Bool
  deriving DecidableEq, Repr

/-- A group (R117, R119, R242), with the issue slot of its core (R95). -/
structure Group where
  exited    : Bool
  slot      : Nat
  role      : Nat
  prio      : Nat
  allot     : Nat
  -- the scalar stream
  pc        : W64
  mode      : Mode
  sregs     : AList W64
  fmtr      : W64
  trap      : Option Nat
  syncing   : Bool
  fault     : Option (W32 × W64)
  -- the supervisor bank (R224)
  ks        : AList W64
  kregs     : AList LaneReg
  -- lane registers and predicates
  vregs     : AList LaneReg
  preds     : AList LaneMask
  -- queues (R121, R123)
  sq        : List W64
  lq        : List W64
  dispatch  : List (W32 × W64)
  -- the lane stream
  frags     : AList Fragment
  frames    : AList Frame
  run       : Option LatchRun
  -- trap frames of both streams (R230)
  traps     : AList TrapFrame
  -- the fragment that runs, in an ordered launch, until it reaches a join, lend or exit (R110)
  running   : Option Nat
  -- the latch runs under which instructions that wait after their issue read their latches (R140)
  latched   : AList LatchRun
  -- outstanding accesses in issue order
  accesses  : List Access
  nextId    : Nat
  -- the instruction of a fragment that waits at a rendezvous, for its turn or at a Grove port, with the lane registers it
  -- still has to read or to write (R108, R188, R330, R382)
  waiting   : AList (Instr × List VReg)
  -- the proposal bank (R369, R370)
  proposal  : Bool
  shadows   : AList Shadow
  rseed     : W32
  rctr      : W32
  pacc      : W64
  pprop     : W64
  pnan      : Bool
  -- gang, clocks and waits; `held` says that the scalar stream waits in a queue access, wait, twait or for an engine context, and
  -- `heldLanes` names the fragments that wait in a queue access (R232, R234)
  gang      : W64
  lclock    : W64
  held      : Bool
  heldLanes : List Nat
  blocked   : Option (Nat × Bool)
  mwait     : Option MWatch
  ordered   : Option OrderedWait
  -- in an ordered launch, whether the lane stream has the turn (R110)
  laneTurn  : Bool
  -- the halt record (R232, R242): whether the scalar stream has stopped, and the skid counts
  stopped   : Bool
  scalarSkid : Nat
  laneSkid   : Nat
  deriving DecidableEq, Repr

/-- A knot (R165). `wide` says that a release or a copy at device or system scope has reached it in the present phase, `last` the same of
the last phase completed: the scopes at which knot.wait acquires (R167). `stamp` is 1 above the highest stamp of the present phase's
arrivals, 0 with none, and `lastStamp` the same of the last phase completed (R109, R220). -/
structure Knot where
  phase  : Bool
  expect : Nat
  pend   : Nat
  bytes  : Int
  wide   : Bool
  last   : Bool
  stamp  : Nat
  lastStamp : Nat
  deriving DecidableEq, Repr

/-- The engine descriptor of R313, with which of the four instructions queued it. -/
structure EngineDesc where
  kind    : Nat
  src     : Nat
  dst     : Nat
  bytes   : Nat
  rows    : Nat
  ctx     : Nat
  knot    : Nat
  flags   : Nat
  scope   : Nat
  sstride : Nat
  dstride : Nat
  comm    : Nat
  peer    : Nat
  idx     : Nat
  deriving DecidableEq, Repr

/-- A queued engine command (R314): its descriptor, the issuing group and its mode; for rcopy, whether it has begun, how
many frames its PUT has sent and how many of them its peer has stored, the bytes that have arrived for it, and the address its peer has
refused (R316). -/
structure EngineCmd where
  seq     : Nat
  desc    : EngineDesc
  group   : Nat
  mode    : Mode
  begun   : Bool
  sent    : Nat
  stored  : Nat
  got     : AList Byte
  refused : Option Nat
  deriving DecidableEq, Repr

/-- An asynchronous engine context (R162): commands issued, the timeline, the commands above it that have completed,
the commands not yet completed, and the number of the first command issued at device or system scope, which tells at what scope a wait
acquires (R163). -/
structure Ctx where
  issued   : Nat
  timeline : Nat
  wide     : Option Nat
  finished : List Nat
  cmds     : List EngineCmd
  deriving DecidableEq, Repr

/-- An accumulator (R375): words by 96 × row + column, ACCSAT, the version and the kind. -/
structure Acc where
  words   : AList W32
  sat     : Bool
  version : W16
  int     : Bool
  deriving DecidableEq, Repr

/-- A halt of a team in progress (R232): whether a popped frame carried END, and whether every such frame was TEAM_END's. -/
structure Halt where
  fin    : Bool
  teamEnd : Bool
  deriving DecidableEq, Repr

/-- A role as a team sees it (R119, R121): entry address, lane block table, slots, priority class and starting groups. -/
structure Role where
  entry   : W64
  table   : List W32
  slots   : Nat
  prio    : Nat
  rgroups : Nat
  deriving DecidableEq, Repr

/-- A team that holds resources (R92, R241). `latches` holds, by gang, the ganged mma issued and not paired, as (group, fragment, address),
in the order of their issue (R146). -/
structure Team where
  launch   : Option Nat
  tid      : Nat
  tenant   : Nat
  core     : Nat
  ngroups  : Nat
  gx       : Nat
  gy       : Nat
  gz       : Nat
  isOrdered : Bool
  preempt  : Bool
  roles    : List Role
  lcode    : W64
  pbase    : Nat
  argptr   : W64
  granules : List (Nat × Nat)
  scratchBytes : Nat
  scratch  : Memory
  spare    : Nat
  parts    : List Nat
  attach   : AList Nat
  accs     : List Acc
  groups   : AList Group
  knots    : List Knot
  ctxs     : List Ctx
  latches  : AList (List (Nat × Nat × W64))
  quantum  : Nat
  halt     : Option Halt
  isInit   : Bool
  hv       : Option Window
  ended    : Bool
  deriving DecidableEq, Repr

/-- A Grove entry (R175). -/
structure GEntry where
  key     : W64
  stamp   : Nat
  payload : List Byte
  deriving DecidableEq, Repr

/-- The eviction stream of a partition (R186). -/
structure GStream where
  sbase : W64
  slog  : Nat
  p     : W32
  pidx  : W64
  cidx  : W64
  deriving DecidableEq, Repr

/-- An operation that waits at a partition's port (R188), whether FULLCNT has counted it, and the configuration record that a kcfg has
loaded (R179). -/
structure GToken where
  g       : GRef
  stream  : StreamRef
  instr   : Instr
  counted : Bool
  record  : List Byte
  deriving DecidableEq, Repr

/-- A granted Grove partition (R176): the owner team's key, the settings of R51, the entries by set × 16 + way, the
stamp the next entry takes, the counters of R181, the stream, the teams attached, the operations waiting, and the places that a victim
has left invalid, whose payload the manual does not give (R184). -/
structure Partition where
  owner    : Nat
  width    : Nat
  gop      : Nat
  evict    : Bool
  limit    : Nat
  entries  : AList GEntry
  stamp    : Nat
  fullcnt  : Nat
  ovfcnt   : Nat
  stream   : Option GStream
  attached : List Nat
  tokens   : List GToken
  stale    : List Nat
  deriving DecidableEq, Repr

/-- A core: its cycle counter (R115) and its granted partitions (R174). -/
structure Core where
  cyc   : W64
  parts : AList Partition
  deriving DecidableEq, Repr

/-- A byte a cluster cache holds dirty (R154, R155): its value, the groups that have written it since it was last written
back, and whether a narrow release has covered it. -/
structure DirtyByte where
  val      : Byte
  owners   : List GRef
  released : Bool
  deriving DecidableEq, Repr

/-- A cluster: bank modes (R150), the tenants' BANKOWN copies (R151), the cluster cache's dirty and clean bytes, and the home slices' record
of the lines that have been team-released from this cluster (R155, R156), kept while the cluster holds a released dirty byte. -/
structure Cluster where
  bankmode : W64
  bankown  : AList W32
  dirty    : AList DirtyByte
  clean    : AList Byte
  relLines : List Nat
  deriving DecidableEq, Repr

/-- The launch record of R51, without its role, wait, signal and Grove tables. -/
structure LaunchRec where
  lflags   : Nat
  gridx    : Nat
  gridy    : Nat
  gridz    : Nat
  groups   : Nat
  nroles   : Nat
  spare    : Nat
  scratch  : Nat
  nacc     : Nat
  ngrove   : Nat
  pbase    : Nat
  argptr   : Nat
  indptr   : Nat
  roles    : List (Nat × Nat × Nat × Nat × Nat)
  waits    : List (Nat × Nat)
  signals  : List (Nat × Nat)
  groves   : List (Nat × Nat × Nat × Nat)
  comm     : Nat
  tilebase : Nat
  chunkmap : Nat
  deriving DecidableEq, Repr

/-- How far a launch has come (R53, R86, R89): its record waits, the posting of its collective, the placing of its teams. -/
inductive LaunchPhase where
  | waiting | posting | placing
  deriving DecidableEq, Repr

/-- The collective that a launch has posted (R86): its sequence number, BITBASE, TPB, and FIRST and COUNT of each chunk. -/
structure CollBind where
  seq     : Nat
  bitbase : Nat
  tpb     : Nat
  chunks  : List (Nat × Nat)
  deriving DecidableEq, Repr

/-- A launch in progress. `order` ranks the starts of LAUNCH commands (R89); `next` is the lowest team never placed, `keys` the
machine's keys of the teams placed, `exited` the identifiers of those retired; `saved` and `savedParts` are its pre-empted teams
and their partitions (R114, R241); `arrivals` are the knot arrivals on their way to another team and `held` those for teams not
resident, as (team, knot, stamp) (R168); `tiled` are the teams that have exited, in the order of their exits, newest first, and `bits` the
scoreboard bits that those of a bound launch have set, from BITBASE (R87);
`coll` is its collective once posted and `armed` how many of its chunks are armed (R86); `fault` is the first team ended (R55). -/
structure Launch where
  tenant   : Nat
  queue    : Nat
  seq      : Nat
  prio     : Nat
  order    : Nat
  object   : Nat
  record   : LaunchRec
  phase    : LaunchPhase
  gx       : Nat
  gy       : Nat
  gz       : Nat
  next     : Nat
  passes   : Nat
  keys     : List Nat
  exited   : List Nat
  tiled    : List Nat
  bits     : List Nat
  saved    : AList Team
  savedParts : AList Partition
  held     : List (Nat × Nat × Nat)
  arrivals : List (Nat × Nat × Nat)
  coll     : Option CollBind
  armed    : Nat
  fault    : Option Nat
  gnan     : Bool
  deriving DecidableEq, Repr

/-- A command record fetched or running (R43, R45): its sequence number and its 64 bytes; behind them, for a running LOAD_OBJECT,
the bytes of the object as it read them (R287). -/
structure Cmd where
  seq   : Nat
  bytes : List Byte
  deriving DecidableEq, Repr

/-- A completed command whose event the queue has not produced yet (R59). -/
structure CmdDone where
  status : Nat
  result : Nat
  evec   : Nat
  tag    : Nat
  intr   : Bool
  deriving DecidableEq, Repr

/-- A command queue (R42 to R44). `waiting` holds fetched commands that have not started; `running` those that have
started and not completed; `finished` those completed above the timeline. -/
structure Queue where
  enabled  : Bool
  latch    : Bool
  qbase    : Nat
  qlog     : Nat
  qprio    : Nat
  head     : W32
  fetched  : Nat
  started  : Nat
  waiting  : List Cmd
  running  : List Cmd
  timeline : Nat
  finished : AList CmdDone
  deriving DecidableEq, Repr

/-- One item among the held events (R58): a record of R57 without its PHASE byte, with the interrupt to send, or a mark
that counts dropped events. -/
inductive Held where
  | event (bytes : List Byte) (intr : Option Nat)
  | mark (n : Nat)
  deriving DecidableEq, Repr

/-- The event region's state of a tenant or of the management channel (R56 to R58): events written so far, and those held. -/
structure Events where
  next : Nat
  held : List Held
  deriving DecidableEq, Repr

/-- A queue pair (R18, R20): retries used and allowed, the error state, and rate reductions taken. -/
structure Qp where
  front   : Nat
  retries : Nat
  limit   : Nat
  error   : Bool
  cuts    : Nat
  retrying : Bool
  deriving DecidableEq, Repr

/-- A symbol of a loaded variant (R284). -/
structure Sym where
  bind    : Nat
  kind    : Nat
  section_ : Nat
  value   : Nat
  size    : Nat
  name    : List Byte
  deriving DecidableEq, Repr

/-- A loaded code object (R287): the chosen generation (0 when translated), the placed sections as (TYPE, address, size),
the symbols, the block tables, and the signed and module digests its cache use rests on. -/
structure CodeObj where
  gen      : Nat
  sections : List (Nat × Nat × Nat)
  syms     : List Sym
  btab     : List Byte
  digest   : BitVec 512
  module   : Option (BitVec 512)
  sarx     : List Byte
  deriving DecidableEq, Repr

/-- A translation in the tenant's cache (R289): the module digest, where in the tenant's windows the variant's bytes lie, and its last
use. -/
structure TCache where
  digest : BitVec 512
  addr   : Nat
  size   : Nat
  used   : Nat
  deriving DecidableEq, Repr

/-- An armed operation (R84): a COPY, or a CHUNK of the instance `dst` of communicator `src`, chunk `bytes`. `team` is the machine's key
of the team that armed it, none for a launch's own binding; `due` says that its bits have all been set, so that it fires (R85). -/
structure Armed where
  chunk  : Bool
  first  : Nat
  count  : Nat
  src    : Nat
  dst    : Nat
  bytes  : Nat
  sig    : Nat
  sigval : Nat
  team   : Option Nat
  group  : Nat
  due    : Bool
  deriving DecidableEq, Repr

/-- The state of an instance at a member (R72). -/
inductive InstState where
  | posted | ticketed | started | complete | failed
  deriving DecidableEq, Repr

/-- A collective instance at this member (R69, R71, R75): the chunks released, what each rank has sent, and the staging
segments reserved, as (cluster, bank, segment). -/
structure Inst where
  index   : Nat
  sig     : Sig
  evec    : Nat
  nchunk  : Nat
  sbuf    : Nat
  dbuf    : Nat
  l       : Nat
  state   : InstState
  ticket  : Nat
  status  : Nat
  chunks  : List Nat
  got     : AList (AList Byte)
  staging : List (Nat × Nat × Nat)
  deriving DecidableEq, Repr

/-- A frame a flow has sent and not seen acknowledged (R82). -/
structure SentFrame where
  psn     : W32
  ftype   : Nat
  inst    : Nat
  offset  : Nat
  payload : List Byte
  deriving DecidableEq, Repr

/-- A flow's sender and receiver state (R68, R82): the port and the destination MAC address of its frames, the next PSN to send and to
accept, the resends since the last advance, and the frames not acknowledged, oldest first. -/
structure Flow where
  ref     : FlowRef
  port    : Nat
  dmac    : Nat
  sendPsn : W32
  recvPsn : W32
  resends : Nat
  unacked : List SentFrame
  deriving DecidableEq, Repr

/-- How far the building of a communicator has come (R67, R80). -/
inductive CommPhase where
  | building | ready | rebuilding
  deriving DecidableEq, Repr

/-- A communicator at this member (R66 to R80). `broken` holds the status, `failed` the first failed sequence number since, and
`failures` those of earlier breaks, as (first, last, status). The coordinator's own records, when this device is rank 0: the
digests received, the posts received as (rank, index, signature, clock), the ranks that have sent REBUILD, and which BUILD or REBUILD of
each rank it last received. `asked` is this member's own last one. -/
structure Comm where
  coord    : W16
  ckey     : W32
  members  : List (Nat × Nat)
  rank     : Nat
  digest   : BitVec 512
  routes   : List (Nat × Nat)
  phase    : CommPhase
  queue    : Nat
  cmd      : Nat
  seq      : Nat
  index    : Nat
  broken   : Option Nat
  failed   : Option Nat
  failures : List (Nat × Nat × Nat)
  timeline : Nat
  finished : List Nat
  insts    : AList Inst
  digests  : AList (BitVec 512)
  posts    : List (Nat × Nat × Sig × Nat)
  rebuilt  : List Nat
  asked    : Nat
  asks     : AList Nat
  deriving DecidableEq, Repr

/-- A tenant supervisor (R240): the vector base, the measurement, the initialisation entry (none for Bowline), the pending
installation, the image to fall back to, whether that image's initialisation entry has to run (again), and the BANKMODE values of the
tenant's configuration. -/
structure Supv where
  tvecS    : W64
  meas     : BitVec 512
  init     : Option W64
  pending  : Option Nat
  previous : Option (W64 × BitVec 512 × Option W64)
  rerun    : Bool
  banks    : List (Nat × W64)
  deriving DecidableEq, Repr

/-- A Bowline descriptor (R239): 0 console in, 1 console out, 2 a file, 3 a TCP socket, 4 a UDP socket. -/
structure Fd where
  kind : Nat
  deriving DecidableEq, Repr

/-- The TLB of a core, or of a cluster (R173). -/
inductive TlbHolder where
  | core (k : Nat)
  | cluster (k : Nat)
  deriving DecidableEq, Repr

/-- A stage-one and stage-two translation a TLB holds (R172, R173): which TLB, page number of 64 KiB, for a stream of the given
mode, and what the walk of that moment allowed. -/
structure TlbEntry where
  holder : TlbHolder
  page  : Nat
  mode  : Mode
  phys  : Nat
  r     : Bool
  w     : Bool
  x     : Bool
  deriving DecidableEq, Repr

/-- A tenant (R37). `objBase` is its object area, `cacheBase` where its translations are kept (R287, R289); `vendorMap` says that Bowline's
page tables are in force (R287). -/
structure Tenant where
  quota     : Quota
  cores     : List Nat
  quantum   : Nat
  ips       : List Nat
  vlans     : List Nat
  cfgBase   : W64
  cfgLim    : W64
  winbase   : W64
  winlim    : W64
  ptbase    : W64
  tlb       : List TlbEntry
  queues    : AList Queue
  signals   : AList Nat
  events    : Events
  qps       : AList Qp
  board     : BitVec 4096
  armed     : AList Armed
  comms     : AList Comm
  objects   : AList CodeObj
  objBase   : Nat
  objTop    : Nat
  cacheBase : Nat
  vendorMap : Bool
  tcache    : List TCache
  signKey   : Option Nat
  supv      : Supv
  fds       : AList Fd
  sockets   : List (List Byte)
  knotdisc  : W64
  rdmanak   : W64
  evlost    : W64
  deriving DecidableEq, Repr

/-- Where the device is in its life (R24, R25). -/
inductive Phase where
  | off | recovery | running
  deriving DecidableEq, Repr

/-- What the fuses hold (R15, R24 to R26, R32, R62). -/
structure Fuses where
  lcstate   : BitVec 2
  vendorKey : BitVec 512
  ownerKey  : BitVec 512
  fwFloor   : Nat
  hvFloor   : Nat
  macBase   : BitVec 48
  localMac  : BitVec 48
  recIp     : Nat
  recVlan   : Nat
  serial    : W64
  revoked   : Bool
  deriving DecidableEq, Repr

/-- What flash and the sealed key store hold (R21, R26, R27); `newest` says that slot B was written last. -/
structure Flash where
  slotA   : List Byte
  slotB   : List Byte
  newest  : Bool
  hv      : List Byte
  cert    : List Byte
  key     : Option RsaKey
  deriving DecidableEq, Repr

/-- The device's discard counters (R50). -/
structure Counters where
  pause0    : W64
  pause1    : W64
  tsync0    : W64
  tsync1    : W64
  fabtype   : W64
  splice    : W64
  transp    : W64
  icrc      : W64
  notenant  : W64
  deriving DecidableEq, Repr

/-- A write that the command processor has to act on (R43): to QENABLE, or to TAIL. -/
structure Notice where
  q      : QRef
  enable : Bool
  deriving DecidableEq, Repr

/-- Root (R13, R14, R21 to R34, R44, R50, R62 to R64, R73). -/
structure Root where
  phase     : Phase
  fwmajor   : Byte
  fwminor   : Byte
  aclk      : Byte
  fclk      : Byte
  tjmax     : Byte
  rstcause  : BitVec 4
  hvstate   : BitVec 4
  frontlink : BitVec 2
  fabup     : W16
  faberr    : W16
  fuses     : Fuses
  flash     : Flash
  slot      : Bool
  fwMeas    : BitVec 512
  hvMeas    : BitVec 512
  tildinMeas : BitVec 512
  bowlineMeas : BitVec 512
  nonce     : BitVec 512
  staging   : Memory
  reserve   : Nat × Nat
  windows   : AList Window
  scrubbing : List (Nat × Window)
  tvecH     : W64
  hvWindows : List Window
  counters  : Counters
  devid     : W16
  ticket    : Nat
  flows     : List Flow
  mgmtMem   : Memory
  mgmtQueue : Queue
  mgmtEvents : Events
  mgmtConns : AList Qp
  notices   : List Notice
  lastTenant : AList Nat
  lastQueue : AList Nat
  order     : Nat
  deriving DecidableEq, Repr

/-- What the device has sent to the outside, newest first: RDMA WRITEs of event records and interrupt messages, under a remote key (R58),
RDMA answers (R19), congestion notifications (R18), Splice frames (R81), what Bowline hands to its services, and the bytes of the console
(R239). -/
inductive Output where
  | rdmaWrite (c : Conn) (rkey addr : Nat) (bytes : List Byte)
  | nak (c : Conn) (atomicOp : Bool)
  | ack (c : Conn)
  | readData (c : Conn) (bytes : List Byte)
  | opError
  | cnp (c : Conn)
  | retransmit (c : Conn)
  | frame (port : Nat) (bytes : List Byte)
  | service (t call fd : Nat) (bytes : List Byte)
  | console (t fd : Nat) (bytes : List Byte)
  | doubleFault (team : Nat)
  deriving DecidableEq, Repr

/-- What may happen next: a step of the table, a stream that issues its next instruction, or one of the moves that the
manual leaves to the implementation: a cluster cache taking or dropping bytes (R154), a TLB taking or dropping a translation (R172, R173),
the vendor's handlers answering a trap that has no row of its own (R226, R239), the passing of core cycles (R115), the
temperature of the hottest junction (R13), a hypervisor team that Tildin asks for (R22), and an
rcopy sending its frames (R316), and the scoreboard taking the exit of a team whose accesses have been performed (R87). -/
inductive Choice where
  | event (i : Instr)
  | run (g : GRef) (stream : StreamRef)
  | cacheFill (cluster addr : Nat)
  | cacheEvict (cluster addr : Nat)
  | tlbFill (h : TlbHolder) (t : Nat) (mode : Mode) (addr : Nat)
  | tlbEvict (h : TlbHolder) (t : Nat) (mode : Mode) (addr : Nat)
  | vendorAnswer (g : GRef) (stream : StreamRef)
  | cycles (core n : Nat)
  | engineBegin (team ctx seq : Nat)
  | tile (team : Nat)
  | temperature (degrees : Nat)
  | hvTeam (t core : Nat) (w : Window) (entry : W64)
  deriving DecidableEq, Repr

/-- The whole device. `agenda` says what happens next; when it is empty, the stream in `focus` issues. `watch` counts
the writes performed at the home slice of each line some mwait watches (R326). `free` numbers the free values drawn. -/
structure State where
  root     : Root
  tenants  : AList Tenant
  clusters : AList Cluster
  cores    : AList Core
  launches : AList Launch
  teams    : AList Team
  nextKey  : Nat
  mem      : Memory
  watch    : AList Nat
  sent     : List Output
  agenda   : List Choice
  focus    : GRef
  stream   : StreamRef
  free     : Nat
  deriving DecidableEq, Repr

/-- A queue at tenant creation and after each reset (R44, R63). -/
def emptyQueue : Queue :=
  { enabled := false, latch := false, qbase := 0, qlog := 0, qprio := 0, head := 0, fetched := 0, started := 0,
    waiting := [], running := [], timeline := 0, finished := [] }

/-- Counters at reset (R50). -/
def zeroCounters : Counters :=
  { pause0 := 0, pause1 := 0, tsync0 := 0, tsync1 := 0, fabtype := 0, splice := 0, transp := 0, icrc := 0, notenant := 0 }

/-- The fuses of the model's device as it leaves the factory. DESIGN CHOICE (notes/assumptions/2.md): the manual gives
their meaning and no contents. -/
def resetFuses : Fuses :=
  { lcstate := 1, vendorKey := 0, ownerKey := 0, fwFloor := 0, hvFloor := 0, macBase := 0, localMac := 0x020000000000,
    recIp := 0, recVlan := 0, serial := 0, revoked := false }

/-- The flash of the model's device. DESIGN CHOICE (notes/assumptions/2.md). -/
def resetFlash : Flash := { slotA := [], slotB := [], newest := false, hv := [], cert := [], key := none }

/-- The physical range of Root's DRAM reserve, as base and size. DESIGN CHOICE (notes/assumptions/2.md): the manual gives no
place. -/
def rootReserve : Nat × Nat := (0x2FC0000000, 0x40000000)

/-- Root after a power-on reset whose boot has finished, with no tenant configured (R13, R14, R24, R35, R50). -/
def Root.reset : Root :=
  { phase := .running, fwmajor := 0, fwminor := 0, aclk := 0x21, fclk := 0x16, tjmax := 0, rstcause := 0, hvstate := 0,
    frontlink := 0, fabup := 0, faberr := 0, fuses := resetFuses, flash := resetFlash, slot := false, fwMeas := 0,
    hvMeas := 0, tildinMeas := 0, bowlineMeas := 0, nonce := Config.nonce 0, staging := [], reserve := rootReserve,
    windows := [], scrubbing := [], tvecH := 0, hvWindows := [],
    counters := zeroCounters, devid := 0, ticket := 0, flows := [], mgmtMem := [], mgmtQueue := emptyQueue,
    mgmtEvents := { next := 0, held := [] }, mgmtConns := [], notices := [], lastTenant := [], lastQueue := [], order := 0 }

/-- The device right after reset: wiped (R35), no tenant, no team, nothing sent, nothing due. -/
def State.reset : State :=
  { root := Root.reset, tenants := [], clusters := [], cores := [], launches := [], teams := [], nextKey := 0, mem := [],
    watch := [], sent := [], agenda := [], focus := ⟨0, 0⟩, stream := .scalar, free := 1 }

end Sys2Proof.Machine
end

