-- ==== Sys2Proof/Machine/Lookup.lean ====
section
/-! DEFINITION. Finding and replacing the parts of the state, and how a meaning is written: a function of the state that
answers a value with a new state, or stops. -/

namespace Sys2Proof.Machine

/-- What a trap carries beside its cause (R223, R227): the lane it concerns where that is not the lowest lane of the trap's
lane set, CAUSE.INFO, BADADDR, and the call set of a lane call. -/
structure TrapInfo where
  cause : Cause
  lane  : Option Nat
  info  : W32
  bad   : W64
  set   : Option LaneMask
  deriving DecidableEq, Repr

/-- Why an instruction does not go on: a trap (R6), a trap that keeps what was done before it (R173, kdrain), a wait with
nothing done, a wait that leaves a mark in the state, or a fault of the machine. -/
inductive Stop where
  | trap (t : TrapInfo)
  | keep (s : State) (t : TrapInfo)
  | stall
  | hold (s : State)
  | fault (f : Fault)
  deriving DecidableEq, Repr

/-- A piece of a meaning. -/
abbrev M (α : Type) := StateT State (Except Stop) α

/-- Stop here. -/
def stop {α : Type} (x : Stop) : M α := fun _ => .error x

/-- Wait: the instruction issues again later. -/
def stall {α : Type} : M α := stop .stall

/-- Wait, keeping the changes made so far. -/
def hold {α : Type} : M α := fun s => .error (.hold s)

/-- TRAP(c) (R6), concerning the lowest lane of the trap's lane set. -/
def trap {α : Type} (c : Cause) : M α := stop (.trap { cause := c, lane := none, info := 0, bad := 0, set := none })

/-- TRAP(c) with the lane, the reason and the address it concerns (R223). -/
def trapAt {α : Type} (c : Cause) (lane : Option Nat) (info : W32) (bad : W64) : M α :=
  stop (.trap { cause := c, lane := lane, info := info, bad := bad, set := none })

/-- TRAP(c) unless the condition holds. -/
def unlessTrap (ok : Bool) (c : Cause) : M Unit := if ok then pure () else trap c

/-- Wait unless the condition holds. -/
def need (ok : Bool) : M Unit := if ok then pure () else stall

/-- The value, or wait for want of it. -/
def must {α : Type} (o : Option α) : M α :=
  match o with
  | some x => pure x
  | none => stall

/-- The value, or TRAP(c) for want of it. -/
def orTrap {α : Type} (o : Option α) (c : Cause) : M α :=
  match o with
  | some x => pure x
  | none => trap c

/-- A part of the state. -/
def look {α : Type} (f : State → α) : M α := fun s => .ok (f s, s)

/-- A change of the state. -/
def change (f : State → State) : M Unit := fun s => .ok ((), f s)

/-- The table with the entry at `k`, where there is one, changed. -/
def aupd {β : Type} (m : AList β) (k : Nat) (f : β → β) : AList β :=
  match aget m k with
  | some v => aset m k (f v)
  | none => m

/-- The table with every entry changed. -/
def amap {β γ : Type} (m : AList β) (f : Nat → β → γ) : AList γ := m.map fun e => (e.1, f e.1 e.2)

/-- A list with its entry at `i`, where there is one, changed. -/
def lupd {β : Type} : List β → Nat → (β → β) → List β
  | [], _, _ => []
  | x :: xs, 0, f => f x :: xs
  | x :: xs, i + 1, f => x :: lupd xs i f

/-! ## Parts of the state -/

/-- The mode in which the streams of a team start: user, or supervisor for an initialisation team, or hypervisor for one of the hypervisor's
own (R22, R221, R240). -/
def Team.homeMode (t : Team) : Mode := if t.isInit then .supervisor else if t.hv.isSome then .hypervisor else .user

/-- A resident team. -/
def State.team? (s : State) (k : Nat) : Option Team := aget s.teams k
/-- A group of a resident team. -/
def State.group? (s : State) (r : GRef) : Option Group := (s.team? r.team).bind fun t => aget t.groups r.group
/-- A tenant. -/
def State.tenant? (s : State) (t : Nat) : Option Tenant := aget s.tenants t
/-- A launch in progress. -/
def State.launch? (s : State) (l : Nat) : Option Launch := aget s.launches l

/-- The state with a team replaced. -/
def State.setTeam (s : State) (k : Nat) (t : Team) : State := { s with teams := aset s.teams k t }
/-- The state with a team changed. -/
def State.updTeam (s : State) (k : Nat) (f : Team → Team) : State := { s with teams := aupd s.teams k f }
/-- The state with a group changed. -/
def State.updGroup (s : State) (r : GRef) (f : Group → Group) : State :=
  s.updTeam r.team fun t => { t with groups := aupd t.groups r.group f }
/-- The state with a tenant changed. -/
def State.updTenant (s : State) (t : Nat) (f : Tenant → Tenant) : State := { s with tenants := aupd s.tenants t f }
/-- The state with a launch changed. -/
def State.updLaunch (s : State) (l : Nat) (f : Launch → Launch) : State := { s with launches := aupd s.launches l f }
/-- The state with something more sent to the outside. -/
def State.send (s : State) (o : Output) : State := { s with sent := o :: s.sent }

/-- A cluster's memory modes and cache; a cluster no entry lists has every bank as a cache way and an empty cache (R150). -/
def freshCluster : Cluster := { bankmode := 0, bankown := [], dirty := [], clean := [], relLines := [] }
/-- A cluster. -/
def State.cluster (s : State) (c : Nat) : Cluster := (aget s.clusters c).getD freshCluster
/-- The state with a cluster replaced. -/
def State.setCluster (s : State) (c : Nat) (x : Cluster) : State := { s with clusters := aset s.clusters c x }
/-- A core; one no entry lists has counted no cycle and granted no partition. -/
def State.core (s : State) (c : Nat) : Core := (aget s.cores c).getD { cyc := 0, parts := [] }
/-- The state with a core replaced. -/
def State.setCore (s : State) (c : Nat) (x : Core) : State := { s with cores := aset s.cores c x }

/-- The cluster of a core (R1: 8 cores a cluster). -/
def clusterOf (core : Nat) : Nat := core / 8
/-- The die of a core (R1: 12 clusters a die). -/
def dieOf (core : Nat) : Nat := core / 96

/-- The token of an operation of a stream that waits at one of a core's ports (R188). -/
def State.waitingOp (s : State) (core : Nat) (r : GRef) (st : StreamRef) : Option GToken :=
  ((s.core core).parts.map fun e => e.2.tokens.filter fun x => x.g == r && x.stream == st).flatten.head?

/-! ## The same in a meaning -/

/-- The team with key `k`. -/
def getTeam (k : Nat) : M Team := fun s =>
  match s.team? k with
  | some t => .ok (t, s)
  | none => .error .stall
/-- The group `r`. -/
def getGroup (r : GRef) : M Group := fun s =>
  match s.group? r with
  | some g => .ok (g, s)
  | none => .error .stall
/-- Tenant `t`. -/
def getTenant (t : Nat) : M Tenant := fun s =>
  match s.tenant? t with
  | some x => .ok (x, s)
  | none => .error .stall
/-- Launch `l`. -/
def getLaunch (l : Nat) : M Launch := fun s =>
  match s.launch? l with
  | some x => .ok (x, s)
  | none => .error .stall
/-- Change the group `r`. -/
def modGroup (r : GRef) (f : Group → Group) : M Unit := change fun s => s.updGroup r f
/-- Change the team `k`. -/
def modTeam (k : Nat) (f : Team → Team) : M Unit := change fun s => s.updTeam k f
/-- Change the tenant `t`. -/
def modTenant (t : Nat) (f : Tenant → Tenant) : M Unit := change fun s => s.updTenant t f

/-- The next free value's number (State.free is the model's own counter). -/
def freshFree : M Nat := fun s => .ok (s.free, { s with free := s.free + 1 })

end Sys2Proof.Machine
end

