-- ==== Sys2Proof/Machine/Mem.lean ====
section
/-! DEFINITION. Device memory as cores, engines and Root reach it (R9, R39, R148 to R156, R169 to R173, R196 to R206): the home
slices' bytes, the cluster caches in front of them, and the two stages of translation. -/

namespace Sys2Proof.Machine

/-! ## Windows (R39, R40) -/

/-- The tenants' windows stand in Root SRAM, 32 bytes each: the `n` descriptors from byte offset `base` (R39). -/
def windowList (tab : AList Window) (base n : Nat) : List Window :=
  (List.range n).filterMap fun i => aget tab (base / 32 + i)

/-- The windows by which a tenant's cores translate: those WINBASE and WINLIM name (R39, R223). -/
def State.coreWindows (s : State) (t : Tenant) : List Window := windowList s.root.windows t.winbase.toNat t.winlim.toNat

/-- The windows Root holds for a tenant (R39). -/
def State.rootWindows (s : State) (t : Tenant) : List Window := windowList s.root.windows t.cfgBase.toNat t.cfgLim.toNat

/-- Physical addresses end below this one (R9). -/
def physEnd : Nat := 0x3000000000

/-- What an access needs of a page and a window: read, write, instruction fetch (R39, R171), as PERM's low bits. -/
abbrev Need := BitVec 4

def needR : Need := 1#4
def needW : Need := 2#4
def needRW : Need := 3#4
def needX : Need := 4#4

/-- The permissions grant what is needed. -/
def grants (perm need : BitVec 4) : Bool := perm &&& need == need

/-- How a translation ends: a physical address, or a reason of R171 with the address BADADDR holds, or a physical address
that does not exist (R9). -/
inductive Xlate where
  | ok (pa : Nat)
  | fail (reason : Nat) (bad : Nat)
  | gone
  deriving DecidableEq, Repr

/-- Stage two: a window address to a physical address (R39, R171). -/
def stageTwo (ws : List Window) (wa : Nat) (need : Need) : Xlate :=
  match ws.find? fun w => w.wstart ≤ wa && wa < w.wend with
  | none => .fail 5 wa
  | some w =>
    if grants w.perm need then
      (if w.reloc + (wa - w.wstart) < physEnd then .ok (w.reloc + (wa - w.wstart)) else .gone)
    else .fail 6 wa

/-- An 8-byte word at a home slice. -/
def State.homeWord (s : State) (pa : Nat) : Nat := leNat (memGetN s.mem pa 8)

/-- The levels of a page table: the address bits below the index, the index's width, and whether a leaf may stand there
and whether one must (R169). -/
def walkLevels : List (Nat × Nat × Bool × Bool) :=
  [(39, 9, false, false), (30, 9, true, false), (21, 9, true, false), (16, 5, true, true)]

/-- Why a leaf does not allow an access (R171): 0 when it does. -/
def leafReason (entry : Nat) (mode : Mode) (need : Need) : Nat :=
  let perm : BitVec 4 := BitVec.ofNat 4 (entry / 4 % 8)
  let u := entry / 32 % 2 = 1
  if !grants perm need then 3
  else if (mode == .user && !u) || (mode == .supervisor && u && need == needX) then 4
  else 0

/-- Stage one's walk from the table at window address `table` (R169 to R172): a window address, or a failure. A walker reads
the entries at the home slices. -/
def walk (s : State) (ws : List Window) (mode : Mode) (va : Nat) (need : Need) :
    List (Nat × Nat × Bool × Bool) → Nat → Xlate
  | [], _ => .fail 2 va
  | (shift, bits, mayLeaf, mustLeaf) :: rest, table =>
    match stageTwo ws (table + 8 * (va / 2 ^ shift % 2 ^ bits)) needR with
    | .fail r b => .fail r b
    | .gone => .gone
    | .ok pa =>
      let e := s.homeWord pa
      let leaf := e / 2 % 2 = 1
      let addr := e / 256 % 2 ^ 40 * 256
      if e % 2 = 0 then .fail 1 va
      else if e / 2 ^ 48 ≠ 0 ∨ e / 64 % 4 ≠ 0 ∨ (leaf ∧ !mayLeaf) ∨ (!leaf ∧ mustLeaf) ∨ (!leaf ∧ e / 4 % 16 ≠ 0) ∨
          (leaf ∧ addr % 2 ^ shift ≠ 0) then .fail 2 va
      else if leaf then
        (match leafReason e mode need with
         | 0 => .ok (addr + va % 2 ^ shift)
         | r => .fail r va)
      else walk s ws mode va need rest addr

/-- What a TLB entry allows. -/
def TlbEntry.allows (e : TlbEntry) (need : Need) : Bool :=
  grants (((boolWord 1 e.x : BitVec 1) ++ (boolWord 1 e.w : BitVec 1) ++ (boolWord 1 e.r : BitVec 1)).setWidth 4) need

/-- The entry is that of a TLB for a page and a mode. -/
def TlbEntry.isAt (e : TlbEntry) (h : TlbHolder) (mode : Mode) (va : Nat) : Bool :=
  e.holder == h && e.page == va / 65536 && e.mode == mode

/-- The translation that a core's TLB, or else its cluster's, holds (R173). -/
def Tenant.tlbHit (x : Tenant) (core : Nat) (mode : Mode) (va : Nat) (need : Need) : Option Nat :=
  let hit (h : TlbHolder) : Option TlbEntry := x.tlb.find? fun e => e.isAt h mode va && e.allows need
  ((hit (.core core)).or (hit (.cluster (clusterOf core)))).map fun e => e.phys + va % 65536

/-- Some section of a loaded object, of a TYPE that the test accepts, has a byte in the page of 64 KiB of an address. -/
def Tenant.areaPage (x : Tenant) (p : Nat → Bool) (va : Nat) : Bool :=
  x.objects.any fun o => o.2.sections.any fun e =>
    p e.1 && e.2.2 != 0 && e.2.1 / 65536 ≤ va / 65536 && va / 65536 ≤ (e.2.1 + e.2.2 - 1) / 65536

/-- The reason of R171 for which an access fails under Bowline's page tables, or 0 (R287): every window address is mapped at the equal virtual
address for user mode; the pages of the object area can be read and fetched, those of .data and .bss written as well, and supervisor mode
fetches none of them (R170). What Bowline maps outside the object area is the model's choice. Log entry 81. -/
def Tenant.vendorReason (x : Tenant) (mode : Mode) (va : Nat) (need : Need) : Nat :=
  if !x.areaPage (fun _ => true) va then 0
  else if need &&& needW != 0#4 && !x.areaPage (fun t => t == 4 || t == 6) va then 3
  else if mode == .supervisor && need == needX then 4
  else 0

/-- The translation of an address below 2^48 that a walker makes now for a stream of a tenant, both stages (R169 to R172). -/
def State.walkNow (s : State) (x : Tenant) (mode : Mode) (va : Nat) (need : Need) : Xlate :=
  let ws := s.coreWindows x
  if x.vendorMap then
    match x.vendorReason mode va need with
    | 0 => stageTwo ws va need
    | r => .fail r va
  else if x.ptbase.getLsbD 0 then
    match walk s ws mode va need walkLevels (x.ptbase.toNat / 4096 % 2 ^ 36 * 4096) with
    | .ok wa => stageTwo ws wa need
    | r => r
  else stageTwo ws va need

/-- The translation of one address for a stream of tenant `t` on a core in a mode (R169 to R173). -/
def State.translate (s : State) (t core : Nat) (mode : Mode) (va : Nat) (need : Need) : Xlate :=
  if 2 ^ 48 ≤ va then .fail 7 (va % 2 ^ 48)
  else if mode = .hypervisor then stageTwo s.root.hvWindows va need
  else
    match s.tenant? t with
    | none => .fail 5 va
    | some x =>
      match x.tlbHit core mode va need with
      | some pa => .ok pa
      | none => s.walkNow x mode va need

/-- The translation of the pages of `[va, va + n)`, from the lowest: pieces (physical address, length), none longer than a
page of 64 KiB. A range that reaches 2^48 fails as a whole (R169). -/
def State.translatePages (s : State) (t core : Nat) (mode : Mode) (need : Need) :
    Nat → Nat → Nat → Except (Nat × Nat) (Option (List (Nat × Nat)))
  | 0, _, _ => .ok (some [])
  | fuel + 1, va, n =>
    if n = 0 then .ok (some [])
    else
      let k := min n (65536 - va % 65536)
      match s.translate t core mode va need with
      | .fail r b => .error (r, b)
      | .gone => .ok none
      | .ok pa =>
        match s.translatePages t core mode need fuel (va + k) (n - k) with
        | .error e => .error e
        | .ok none => .ok none
        | .ok (some l) => .ok (some ((pa, k) :: l))

/-- The translation of a whole range. -/
def State.translateRange (s : State) (t core : Nat) (mode : Mode) (va n : Nat) (need : Need) :
    Except (Nat × Nat) (Option (List (Nat × Nat))) :=
  if n = 0 then .ok (some [])
  else if 2 ^ 48 < va + n then .error (7, va % 2 ^ 48)
  else s.translatePages t core mode need (n / 65536 + 2) va n

/-- The physical addresses of a list of pieces, byte by byte. -/
def pieceAddrs (l : List (Nat × Nat)) : List Nat := (l.map fun p => (List.range p.2).map (p.1 + ·)).flatten

/-- A range of a tenant's window addresses (R40): pieces, or none where a part lies in no window or lacks a permission. -/
def windowRange (ws : List Window) (need : BitVec 4) : Nat → Nat → Nat → Option (List (Nat × Nat))
  | 0, _, _ => some []
  | fuel + 1, wa, n =>
    if n = 0 then some []
    else
      match ws.find? fun w => w.wstart ≤ wa && wa < w.wend with
      | none => none
      | some w =>
        if grants w.perm need then
          let k := min n (w.wend - wa)
          (windowRange ws need fuel (wa + k) (n - k)).map ((w.reloc + (wa - w.wstart), k) :: ·)
        else none

/-- The same for a tenant's whole range. -/
def State.rootRange (s : State) (t : Tenant) (need : BitVec 4) (wa n : Nat) : Option (List (Nat × Nat)) :=
  windowRange (s.rootWindows t) need ((s.rootWindows t).length + 1) wa n

/-! ## Home slices (R148, R149) -/

/-- The die of a line's home slice (R148): the memory stack of its physical address, and the die above it. -/
def homeDie (pa : Nat) : Nat := pa / 2 ^ 14 % 4

/-- The place of a line's home slice on its die (R148). -/
def homeIndex (pa : Nat) : Nat := Nat.xor (pa / 2 ^ 7 % 32) (pa / 2 ^ 16 % 32)

/-- The home slice of the line of a physical address, 0 to 127 (R148). The model performs the accesses of every slice on one memory, one
event at a time, so that each slice gives each of its lines one order (R149). -/
def homeSlice (pa : Nat) : Nat := 32 * homeDie pa + homeIndex pa

/-- Count a write at every watched line that the bytes touch (R326). -/
def bumpWatch (w : AList Nat) (l : List (Nat × Byte)) : AList Nat :=
  amap w fun line n => if l.any fun b => b.1 / 128 == line then n + 1 else n

/-- The bytes stored into a memory. -/
def storeAll (m : Memory) : List (Nat × Byte) → Memory
  | [] => m
  | (a, b) :: l => storeAll (memSet m a b) l

/-- Writes performed at the home slices. -/
def State.homeWrite (s : State) (l : List (Nat × Byte)) : State :=
  { s with mem := storeAll s.mem l, watch := bumpWatch s.watch l }

/-- Bytes with their addresses, from address `a` upward. -/
def bytesAt (a : Nat) (bs : List Byte) : List (Nat × Byte) := (List.range bs.length).map (a + ·) |>.zip bs

/-- The first byte of tenant t's control block (R41): window 0's first physical byte. -/
def State.controlBase (s : State) (t : Tenant) : Option Nat := ((s.rootWindows t).head?).map (·.reloc)

/-- The notifications a write to bytes of a control block makes (R43): one that covers a QENABLE byte, then one that covers the whole of a
TAIL word, queue by queue. -/
def noticesOf (owner : Option Nat) (base : Nat) (l : List (Nat × Byte)) : List Notice :=
  ((List.range (if owner.isSome then 32 else 1)).map fun q =>
    let at_ (lo n : Nat) : Bool := (List.range n).all fun i => l.any fun b => b.1 == base + 32 * q + lo + i
    let r : QRef := match owner with | some t => .tenant t q | none => .mgmt
    (if at_ 0xA 1 then [{ q := r, enable := true }] else []) ++ (if at_ 0x10 4 then [{ q := r, enable := false }] else []))
    |>.flatten

/-- A device-scope store or an RDMA WRITE to tenant `t`'s memory is noticed where it covers a QENABLE byte or a TAIL word
(R43). -/
def State.notice (s : State) (t : Nat) (l : List (Nat × Byte)) : State :=
  match s.tenant? t with
  | none => s
  | some x =>
    match s.controlBase x with
    | none => s
    | some base =>
      if l.any (fun b => base ≤ b.1 && b.1 < base + 4096) then
        { s with root := { s.root with notices := s.root.notices ++ noticesOf (some t) base l } }
      else s

/-! ## The cluster cache (R152 to R156) -/

/-- Some bank is a cache way (R152). -/
def Cluster.hasCache (c : Cluster) : Bool := (List.range 32).any fun i => c.bankmode.extractLsb' (2 * i) 2 == 0#2

/-- Bytes of the dirty table picked by a test, with their values. -/
def pickDirty (d : AList DirtyByte) (p : Nat → DirtyByte → Bool) : List (Nat × Byte) :=
  (d.filter fun e => p e.1 e.2).map fun e => (e.1, e.2.val)

/-- The dirty bytes of the 16-byte words in which a test picks one. -/
def pickWords (d : AList DirtyByte) (p : Nat → DirtyByte → Bool) : List (Nat × Byte) :=
  let words := (pickDirty d p).map (·.1 / 16)
  pickDirty d fun a _ => words.contains (a / 16)

/-- A cluster's bytes without those of some 16-byte words, dirty and clean. The record of the lines released from it goes with its last
released byte. -/
def Cluster.dropWords (x : Cluster) (l : List (Nat × Byte)) : Cluster :=
  let out (a : Nat) : Bool := l.any fun b => b.1 / 16 == a / 16
  let dirty := x.dirty.filter fun e => !out e.1
  { x with dirty := dirty, clean := x.clean.filter (fun e => !out e.1),
           relLines := if dirty.any (·.2.released) then x.relLines else [] }

/-- Write back the dirty bytes of cluster `c` that the test picks, each with the dirty bytes of its 16-byte word (R154), so that no store
of up to 8 bytes reaches its home slice in parts; and no clean byte of such a word stays, so that an aligned access never mixes bytes of
two moments (R204). -/
def State.writeBack (s : State) (c : Nat) (p : Nat → DirtyByte → Bool) : State :=
  let x := s.cluster c
  match pickWords x.dirty p with
  | [] => s
  | l => (s.setCluster c (x.dropWords l)).homeWrite l

/-- Before an access at the home slices: the cluster's own dirty bytes of those addresses go there first, and no clean copy
of their lines stays (R155, R205, R207). -/
def State.openLines (s : State) (c : Nat) (addrs : List Nat) : State :=
  let s := s.writeBack c fun a _ => addrs.contains a
  let x := s.cluster c
  if x.clean.any (fun e => addrs.any fun a => a / 128 == e.1 / 128) then
    s.setCluster c { x with clean := x.clean.filter fun e => !(addrs.any fun a => a / 128 == e.1 / 128) }
  else s

/-- A byte as a plain access of cluster `c` finds it: dirty, else clean, else at the home slice. -/
def State.cachedByte (s : State) (c a : Nat) : Byte :=
  let x := s.cluster c
  match aget x.dirty a with
  | some d => d.val
  | none => (aget x.clean a).getD (memGet s.mem a)

/-- A scope whose point of coherence is the home slices (R196). -/
def scopeWide : Scope → Bool
  | .dev | .sys => true
  | .grp | .team | .clu => false

/-- The bytes of a load by cluster `c`. -/
def State.loadBytes (s : State) (c : Nat) (wide : Bool) (addrs : List Nat) : List Byte × State :=
  if wide then
    let s := s.openLines c addrs
    (addrs.map (memGet s.mem), s)
  else (addrs.map (s.cachedByte c), s)

/-- A byte written into the cluster cache by group `r`. -/
def putDirty (r : GRef) (d : AList DirtyByte) (a : Nat) (b : Byte) : AList DirtyByte :=
  match aget d a with
  | some e => aset d a { e with val := b, owners := r :: e.owners.filter (· != r) }
  | none => aset d a { val := b, owners := [r], released := false }

/-- The bytes of a store by group `r` of cluster `c`: at the home slices for a wide scope or a cluster without a cache way,
into the cluster cache otherwise (R152, R155, R205). -/
def State.storeBytes (s : State) (r : GRef) (c : Nat) (wide : Bool) (l : List (Nat × Byte)) : State :=
  let x := s.cluster c
  if wide || !x.hasCache then (s.openLines c (l.map (·.1))).homeWrite l
  else s.setCluster c { x with dirty := l.foldl (fun d b => putDirty r d b.1 b.2) x.dirty
                               clean := x.clean.filter fun e => !(l.any fun b => b.1 == e.1) }

/-- A cluster after a narrow release by group `r` (R155): its dirty bytes are released, and the home slices record their lines and the
`lines` of the releasing access. -/
def Cluster.released (x : Cluster) (r : GRef) (lines : List Nat) : Cluster :=
  let dirty := amap x.dirty fun _ d => if d.owners.contains r then { d with released := true } else d
  let own := (x.dirty.filter fun e => e.2.owners.contains r).map (·.1 / 128)
  { x with dirty := dirty, relLines := if dirty.any (·.2.released) then (lines ++ own ++ x.relLines).dedup else [] }

/-- The narrow release of group `r` that its access to some lines makes (R155). -/
def State.markReleased (s : State) (r : GRef) (c : Nat) (lines : List Nat) : State :=
  let x := s.cluster c
  if x.dirty.any (fun e => e.2.owners.contains r || e.2.released) then s.setCluster c (x.released r lines) else s

/-- A release by group `r` (R155, R200): wide, its dirty bytes and every byte released before go to the home slices; narrow,
its dirty bytes are marked released. -/
def State.release (s : State) (r : GRef) (c : Nat) (wide : Bool) : State :=
  if wide then s.writeBack c fun _ d => d.owners.contains r || d.released else s.markReleased r c []

/-- An acquire by cluster `c` (R155): wide, its clean blocks go. -/
def State.acquire (s : State) (c : Nat) (wide : Bool) : State :=
  let x := s.cluster c
  if wide && !x.clean.isEmpty then s.setCluster c { x with clean := [] } else s

/-- A promoting read (R156): each other cluster from which one of the lines is recorded as released first writes back every byte
released there. -/
def State.promote (s : State) (c : Nat) (addrs : List Nat) : State :=
  (List.range 48).foldl (fun s k =>
    if k != c && (s.cluster k).relLines.any (fun l => addrs.any fun a => a / 128 == l)
    then s.writeBack k fun _ d => d.released else s) s

/-- The cluster cache takes the 16-byte word at `a` from its home slice (R154). -/
def State.cacheFill (s : State) (c a : Nat) : State :=
  let x := s.cluster c
  if x.hasCache && a < physEnd then
    s.setCluster c { x with clean := (List.range 16).foldl (fun m i =>
      let b := a / 16 * 16 + i
      if (aget x.dirty b).isSome then m else aset m b (memGet s.mem b)) x.clean }
  else s

/-- The cluster cache gives up the 16-byte word at `a`, writing its dirty bytes back (R154). -/
def State.cacheEvict (s : State) (c a : Nat) : State :=
  let s := s.writeBack c fun b _ => b / 16 == a / 16
  let x := s.cluster c
  s.setCluster c { x with clean := x.clean.filter fun e => e.1 / 16 != a / 16 }

/-- Every byte a cluster holds dirty goes to the home slices, and its clean blocks go. -/
def State.flushCluster (s : State) (c : Nat) : State :=
  let s := s.writeBack c fun _ _ => true
  s.setCluster c { s.cluster c with clean := [] }

/-! ## TLBs (R172, R173) -/

/-- The entry that a walk of this moment makes for one page of 64 KiB: none where it allows no access. -/
def State.tlbEntry (s : State) (h : TlbHolder) (x : Tenant) (mode : Mode) (va : Nat) : Option TlbEntry :=
  let try_ (need : Need) : Option Nat := match s.walkNow x mode va need with | .ok p => some p | _ => none
  (((try_ needR).or (try_ needW)).or (try_ needX)).map fun p =>
    { holder := h, page := va / 65536, mode := mode, phys := p / 65536 * 65536, r := (try_ needR).isSome, w := (try_ needW).isSome,
      x := (try_ needX).isSome }

/-- What a TLB takes for a page (R173): a core's, its cluster's entry where there is one; otherwise what a walk finds now. -/
def State.tlbSource (s : State) (h : TlbHolder) (x : Tenant) (mode : Mode) (va : Nat) : Option TlbEntry :=
  match h with
  | .core k =>
    match x.tlb.find? fun e => e.isAt (.cluster (clusterOf k)) mode va with
    | some e => some { e with holder := h }
    | none => s.tlbEntry h x mode va
  | .cluster _ => s.tlbEntry h x mode va

/-- A TLB gives up its entry for a page (R173). -/
def State.tlbEvict (s : State) (h : TlbHolder) (t : Nat) (mode : Mode) (va : Nat) : State :=
  s.updTenant t fun x => { x with tlb := x.tlb.filter fun e => !e.isAt h mode va }

/-- A TLB takes a translation for one page of 64 KiB (R172, R173). -/
def State.tlbFill (s : State) (h : TlbHolder) (t : Nat) (mode : Mode) (va : Nat) : State :=
  match s.tenant? t with
  | none => s
  | some x =>
    if mode = .hypervisor ∨ 2 ^ 48 ≤ va then s
    else
      match s.tlbSource h x mode va with
      | some e => (s.tlbEvict h t mode va).updTenant t fun y => { y with tlb := e :: y.tlb }
      | none => s

/-- Every TLB entry of a tenant goes. -/
def State.tlbClear (s : State) (t : Nat) : State := s.updTenant t fun x => { x with tlb := [] }

end Sys2Proof.Machine
end

