-- ==== Sys2Proof/Machine/Reduce.lean ====
section
/-! DEFINITION. What a collective computes (R70, R76): how many elements each side holds, which of them an element of the
destination depends on, and the fold in rank order. -/

namespace Sys2Proof.Machine

/-- Bytes of an element of a DTYPE (R69). -/
def dtypeBytes : Nat → Nat
  | 0 => 4
  | 1 => 8
  | 2 => 4
  | 3 => 2
  | 4 => 2
  | _ => 1

/-- The kinds that reduce (R70). -/
def kindReduces (k : Nat) : Bool := k == 0 || k == 1

/-- Elements of SBUF at a rank of a communicator of `p` members (R70). -/
def sbufCount (g : Sig) (p : Nat) : Nat :=
  match g.kind with
  | 1 => p * g.count
  | 3 => p * g.count
  | 6 => 0
  | _ => g.count

/-- Elements of DBUF that a rank writes (R70). -/
def dbufCount (g : Sig) (p : Nat) : Nat :=
  match g.kind with
  | 2 => p * g.count
  | 3 => p * g.count
  | 5 => 0
  | _ => g.count

/-- The (rank, element of its SBUF) on which element `k` of rank `rank`'s DBUF depends, in rank order (R70). -/
def elementSources (g : Sig) (p rank k : Nat) : List (Nat × Nat) :=
  match g.kind with
  | 0 => (List.range p).map fun j => (j, k)
  | 1 => (List.range p).map fun j => (j, rank * g.count + k)
  | 2 => [(k / g.count, k % g.count)]
  | 3 => [(k / g.count, rank * g.count + k % g.count)]
  | _ => [(g.root, k)]

/-- Two integer words of `n` bits combined by a ROP (R70, R76). -/
def intCombine (rop n a b : Nat) : Nat :=
  let x := (BitVec.ofNat n a)
  let y := (BitVec.ofNat n b)
  match rop with
  | 0 => (x + y).toNat
  | 1 => if x.slt y then y.toNat else x.toNat
  | 2 => if y.slt x then y.toNat else x.toNat
  | _ => (x ||| y).toNat

/-- Two FP32 words combined by a ROP (R76). -/
def floatCombine (rop : Nat) (a b : W32) : W32 :=
  match rop with
  | 0 => fAdd .rne a b
  | 1 => selMax a b
  | _ => selMin a b

/-- The reduction of one element over its operands in rank order (R76): 16-bit floats are widened, folded as FP32 and
rounded once. -/
def reduceElement (dtype rop : Nat) (xs : List Nat) : Nat :=
  match dtype with
  | 0 => match xs with | [] => 0 | x :: r => r.foldl (intCombine rop 32) x
  | 1 => match xs with | [] => 0 | x :: r => r.foldl (intCombine rop 64) x
  | 2 => match xs.map word32 with | [] => 0 | x :: r => (r.foldl (floatCombine rop) x).toNat
  | 3 =>
    match xs.map fun x => word32 (f32.ofVal .rne (bf16.read x)) with
    | [] => 0
    | x :: r => bf16.ofVal .rne (val32 (r.foldl (floatCombine rop) x))
  | 4 =>
    match xs.map fun x => word32 (f32.ofVal .rne (fp16.read x)) with
    | [] => 0
    | x :: r => fp16.ofVal .rne (val32 (r.foldl (floatCombine rop) x))
  | _ => xs.headD 0

/-- Bytes that have arrived, all or none. -/
def arrived (m : AList Byte) (a : Nat) : Nat → Option (List Byte)
  | 0 => some []
  | n + 1 =>
    match aget m a, arrived m (a + 1) n with
    | some b, some l => some (b :: l)
    | _, _ => none

/-- The bytes of element `i` of rank `j`'s SBUF, once they are here. -/
def Inst.operand (x : Inst) (j i : Nat) : Option (List Byte) :=
  arrived ((aget x.got j).getD []) (i * dtypeBytes x.sig.dtype) (dtypeBytes x.sig.dtype)

/-- Every operand, or none. -/
def Inst.operands (x : Inst) : List (Nat × Nat) → Option (List Nat)
  | [] => some []
  | (j, i) :: r =>
    match x.operand j i, x.operands r with
    | some b, some l => some (leNat b :: l)
    | _, _ => none

/-- Element `k` of the member's DBUF, once all it depends on is here. -/
def Inst.element (x : Inst) (c : Comm) (k : Nat) : Option (List Byte) :=
  (x.operands (elementSources x.sig c.members.length c.rank k)).map fun xs =>
    leBytes (dtypeBytes x.sig.dtype)
      (if kindReduces x.sig.kind then reduceElement x.sig.dtype x.sig.rop xs else xs.headD 0)

end Sys2Proof.Machine
end

