-- ==== Sys2Proof/Machine/Events.lean ====
section
/-! DEFINITION. Status codes, event records and their writing, timelines, and the breaking of a communicator: what a command, a collective or a
team's end tells the tenant (R46, R47, R57 to R60, R77, R79, R405). -/

namespace Sys2Proof.Machine

/-! ## Status codes (R60) -/

def stOk : Nat := 0x0
def stBadKind : Nat := 0x1
def stBadField : Nat := 0x2
def stWindow : Nat := 0x3
def stQuota : Nat := 0x4
def stBadGrid : Nat := 0x5
def stGridTooLargeOrdered : Nat := 0x6
def stTeamTooLarge : Nat := 0x7
def stTeamFault : Nat := 0x8
def stBadObject : Nat := 0x9
def stSignature : Nat := 0xA
def stNoVariant : Nat := 0xB
def stBadItem : Nat := 0xC
def stNotAttestable : Nat := 0xD
def stNotMonotonic : Nat := 0xE
def stOverrun : Nat := 0xF
def stLcRefused : Nat := 0x10
def stTenantGone : Nat := 0x11
def stMismatch : Nat := 0x12
def stLinkDown : Nat := 0x13
def stThermal : Nat := 0x14
def stStaging : Nat := 0x15

/-! ## Event records (R57, R405) -/

/-- The 32 bytes of an event record with PHASE clear. -/
def eventBytes (etype srckind status srcindex usertag vector reason tlvalue result : Nat) : List Byte :=
  leBytes 1 etype ++ leBytes 1 srckind ++ leBytes 2 status ++ leBytes 4 srcindex ++ leBytes 4 usertag ++
  leBytes 1 vector ++ leBytes 1 reason ++ leBytes 2 0 ++ leBytes 8 tlvalue ++ leBytes 8 result

/-- The events among the held items. -/
def heldEvents (l : List Held) : Nat := (l.filter fun h => match h with | .event _ _ => true | .mark _ => false).length

/-- The held items with one dropped event more: the run's mark at the end counts it (R58). -/
def dropEvent : List Held → List Held
  | [] => [.mark 1]
  | [.mark n] => [.mark (n + 1)]
  | x :: xs => x :: dropEvent xs

/-- An event joins those held: at most 4096 are held, and a further one is dropped and counted (R58). -/
def Events.add (e : Events) (bytes : List Byte) (intr : Option Nat) : Events :=
  if heldEvents e.held < 4096 then { e with held := e.held ++ [.event bytes intr] } else { e with held := dropEvent e.held }

/-! ## Writing events (R56 to R58, R63) -/

/-- `n` bytes of the control block (R41, R63). -/
def State.cbRead (s : State) (o : Option Nat) (off n : Nat) : Nat :=
  match o with
  | some t => leNat (((s.tenant? t).bind s.controlBase).elim [] fun b => memGetN s.mem (b + off) n)
  | none => leNat (memGetN s.root.mgmtMem off n)

/-- The events of a tenant or of the management channel. -/
def State.eventsOf (s : State) (o : Option Nat) : Events :=
  match o with
  | some t => ((s.tenant? t).map (·.events)).getD { next := 0, held := [] }
  | none => s.root.mgmtEvents

/-- The same changed. -/
def State.setEvents (s : State) (o : Option Nat) (e : Events) : State :=
  match o with
  | some t => s.updTenant t fun x => { x with events := e }
  | none => { s with root := { s.root with mgmtEvents := e } }

/-- The connection that EQP names. -/
def eventConn (o : Option Nat) (eqp : Nat) : Conn :=
  match o with
  | some t => .tenant t eqp
  | none => .mgmt eqp

/-- The connection that carries events exists and is not in the error state. -/
def State.eventPath (s : State) (o : Option Nat) (eqp : Nat) : Bool :=
  match o with
  | some t => ((s.tenant? t).bind fun x => aget x.qps eqp).any fun q => !q.error
  | none => (aget s.root.mgmtConns eqp).any fun q => !q.error

/-- The region takes the next event now (R58). Of an EENABLE other than 0 and 1 the manual says nothing; the model holds events for every value
but 1. Log entry 88. -/
def State.eventRoom (s : State) (o : Option Nat) : Bool :=
  let log := s.cbRead o 0x408 1
  let cons := BitVec.ofNat 32 (s.cbRead o 0x40C 4)
  6 ≤ log && log ≤ 16 && s.cbRead o 0x40A 1 == 1 && s.eventPath o (s.cbRead o 0x409 1) &&
  (BitVec.ofNat 32 (s.eventsOf o).next - cons).toNat < 2 ^ log

/-- An EVENTS_LOST record (R58, R405). -/
def lostEvent (n : Nat) : List Byte := eventBytes 5 3 stOk 0 0 0xFF 0 0 n

/-- The three RDMA WRITEs of an event record to address `a`, PHASE last (R58). -/
def State.sendRecord (s : State) (c : Conn) (rkey a : Nat) (bytes : List Byte) (phase : Byte) : State :=
  ((s.send (.rdmaWrite c rkey a (bytes.take 0xF))).send (.rdmaWrite c rkey (a + 0x10) (bytes.drop 0x10))).send
    (.rdmaWrite c rkey (a + 0xF) [phase])

/-- The interrupt message of a vector, where its descriptor enables it (R56, R58): the vector's data to its address, under its key. A tenant
has descriptors 0 to 63, the management channel descriptor 0 (R63); a record whose EVEC names no descriptor, which R45 refuses, asks in
vain. Log entry 80. -/
def State.interrupt (s : State) (o : Option Nat) (c : Conn) (v : Nat) : State :=
  let d := 0x800 + 32 * v
  if v < (if o.isSome then 64 else 1) ∧ s.cbRead o (d + 0xC) 4 % 2 = 1 then
    s.send (.rdmaWrite c (s.cbRead o (d + 0x10) 4) (s.cbRead o d 8) (leBytes 4 (s.cbRead o (d + 8) 4)))
  else s

/-- Write the first held item, in the slot and with the PHASE of its number; then the vector's interrupt, where it is asked for. -/
def State.writeEvent (s : State) (o : Option Nat) : State :=
  let e := s.eventsOf o
  match e.held with
  | [] => s
  | x :: rest =>
    let log := s.cbRead o 0x408 1
    let bytes := match x with | .event b _ => b | .mark n => lostEvent n
    let phase : Byte := if e.next / 2 ^ log % 2 = 0 then 1#8 else 0#8
    let c := eventConn o (s.cbRead o 0x409 1)
    let s := (s.setEvents o { next := e.next + 1, held := rest }).sendRecord c (s.cbRead o 0x410 4)
      (s.cbRead o 0x400 8 + 32 * (e.next % 2 ^ log)) bytes phase
    match x with
    | .event _ (some v) => s.interrupt o c v
    | _ => s

/-- Write held items while the region takes them. -/
def State.writeEvents (s : State) (o : Option Nat) : Nat → State
  | 0 => s
  | n + 1 => if s.eventRoom o && !(s.eventsOf o).held.isEmpty then (s.writeEvent o).writeEvents o n else s

/-- The events held are written as far as the region has room (R58). -/
def State.flushEvents (s : State) (o : Option Nat) : State := s.writeEvents o (s.eventsOf o).held.length

/-- An event of tenant `t`, or of the management channel. None is dropped while the region has room for those held (R58). -/
def State.emit (s : State) (t : Option Nat) (bytes : List Byte) (intr : Option Nat) : State :=
  let s := if heldEvents (s.eventsOf t).held < 4096 then s else s.flushEvents t
  match t with
  | some t => s.updTenant t fun x =>
    { x with events := x.events.add bytes intr, evlost := if heldEvents x.events.held < 4096 then x.evlost else x.evlost + 1 }
  | none => { s with root := { s.root with mgmtEvents := s.root.mgmtEvents.add bytes intr } }

/-! ## Timelines (R44, R46, R162) -/

/-- The highest n such that every number up to n is at or below `tl` or among `fin`, looking at most `fuel` numbers on. -/
def advance (tl : Nat) (fin : List Nat) : Nat → Nat
  | 0 => tl
  | fuel + 1 => if fin.contains (tl + 1) then advance (tl + 1) fin fuel else tl

/-- A timeline with number `n` completed: its new value, and the completed numbers above it. -/
def finishNumber (tl : Nat) (fin : List Nat) (n : Nat) : Nat × List Nat :=
  let all := n :: fin
  let tl' := advance tl all all.length
  (tl', all.filter (tl' < ·))

/-- A queue. -/
def State.queue? (s : State) : QRef → Option Queue
  | .tenant t q => (s.tenant? t).bind fun x => aget x.queues q
  | .mgmt => some s.root.mgmtQueue

/-- The state with a queue replaced. -/
def State.setQueue (s : State) (q : QRef) (x : Queue) : State :=
  match q with
  | .tenant t i => s.updTenant t fun y => { y with queues := aset y.queues i x }
  | .mgmt => { s with root := { s.root with mgmtQueue := x } }

/-- The tenant whose queue it is. -/
def queueOwner : QRef → Option Nat
  | .tenant t _ => some t
  | .mgmt => none

/-- The COMPLETE event of a command (R59, R405). -/
def completeEvent (q : QRef) (seq : Nat) (c : CmdDone) : List Byte :=
  match q with
  | .tenant _ i => eventBytes 1 0 c.status i c.tag c.evec 0 seq c.result
  | .mgmt => eventBytes 1 3 c.status 0 c.tag c.evec 0 seq c.result

/-- The events of the commands numbered from `n + 1` up to `m` that have completed, in sequence order. -/
def State.emitCompleted (s : State) (q : QRef) (fin : AList CmdDone) : Nat → Nat → State
  | _, 0 => s
  | n, fuel + 1 =>
    match aget fin (n + 1) with
    | some c =>
      let s := if c.evec = 0xFF then s
        else s.emit (queueOwner q) (completeEvent q (n + 1) c) (if c.intr then some c.evec else none)
      s.emitCompleted q fin (n + 1) fuel
    | none => s

/-- Command `seq` of queue `q` completes: its timeline advances, and each command the timeline reaches produces its event
(R44, R47, R59). -/
def State.completeCommand (s : State) (q : QRef) (seq : Nat) (c : CmdDone) : State :=
  match s.queue? q with
  | none => s
  | some x =>
    let fin := aset x.finished seq c
    let tl := advance x.timeline (fin.map (·.1)) fin.length
    let x' := { x with running := x.running.filter (·.seq != seq), timeline := tl, finished := fin.filter (tl < ·.1) }
    (s.setQueue q x').emitCompleted q fin x.timeline (tl - x.timeline)

/-- How a command record ends (R45, R57): RESULT is 0 with any status but OK, or TEAM_FAULT of a launch. -/
def Cmd.done (c : Cmd) (status result : Nat) : CmdDone :=
  { status := status, result := if status = stOk ∨ status = stTeamFault then result else 0, evec := fieldAt c.bytes 2 1,
    tag := fieldAt c.bytes 4 4, intr := fieldAt c.bytes 1 1 / 2 % 2 = 1 }

/-- A running command of a queue. -/
def State.runningCmd (s : State) (q : QRef) (seq : Nat) : Option Cmd := (s.queue? q).bind fun x => x.running.find? fun c => c.seq == seq

/-- A running command of a queue completes with a status and a result. -/
def State.endCommand (s : State) (q : QRef) (seq status result : Nat) : State :=
  match s.runningCmd q seq with
  | none => s
  | some c => s.completeCommand q seq (c.done status result)

/-- A signal timeline set to a value; one below the present value leaves it and is reported (R48, R53). -/
def State.signal (s : State) (t i v : Nat) : State × Bool :=
  match s.tenant? t with
  | none => (s, false)
  | some x =>
    if v < (aget x.signals i).getD 0 then (s, false)
    else (s.updTenant t fun y => { y with signals := aset y.signals i v }, true)

/-- The value of the timeline a handle names: class 0x1, 0x2 or 0x3 (R46). -/
def State.timeline? (s : State) (t handle : Nat) : Option Nat :=
  let i := handle % 2 ^ 28
  match s.tenant? t with
  | none => none
  | some x =>
    match handle / 2 ^ 28 with
    | 1 => if i < 32 then some (((aget x.queues i).map (·.timeline)).getD 0) else none
    | 2 => if i < 256 then some ((aget x.signals i).getD 0) else none
    | 3 => ((aget x.comms i).filter fun c => c.phase != .building).map (·.timeline)
    | _ => none

/-! ## Splice frames going out (R81, R82) -/

/-- A flow nothing has been sent on: its numbers start at 0 (R82 gives no first number). Log entry 79. -/
def freshFlow (r : FlowRef) : Flow := { ref := r, port := 0, dmac := 0, sendPsn := 0, recvPsn := 0, resends := 0, unacked := [] }

/-- The flow between member `rank` and this one. -/
def Comm.flowRef (c : Comm) (t rank : Nat) : FlowRef := ⟨t, c.coord, c.ckey, c.members.getD rank (0, 0)⟩

/-- The state of the flow to a rank, on the port and to the MAC address that the route table gives it (R68). -/
def State.flowTo (s : State) (t : Nat) (c : Comm) (rank : Nat) : Flow :=
  let r := c.flowRef t rank
  let e := c.routes.getD rank (0, 0)
  { (s.root.flows.find? fun f => f.ref == r).getD (freshFlow r) with port := e.1, dmac := e.2 }

/-- A flow changed. -/
def State.setFlow (s : State) (f : Flow) : State :=
  { s with root := { s.root with flows := f :: s.root.flows.filter fun x => x.ref != f.ref } }

/-- The MAC address of Ethernet port `n` (R15): the fused base and the port's number; before the base is fused, the locally administered
address that front port 0 answers with (R62). -/
def Root.portMac (r : Root) (n : Nat) : BitVec 48 := if r.fuses.lcstate = 0#2 then r.fuses.localMac else r.fuses.macBase + BitVec.ofNat 48 n

/-- The header of a Splice frame (R81). -/
def frameHeader (ftype src : Nat) (r : FlowRef) (psn : W32) (inst offset len : Nat) : List Byte :=
  leBytes 1 1 ++ leBytes 1 ftype ++ leBytes 2 src ++ leBytes 2 r.peer.1 ++ leBytes 2 r.coord.toNat ++ leBytes 4 r.ckey.toNat ++
  leBytes 4 psn.toNat ++ leBytes 8 inst ++ leBytes 8 offset ++ leBytes 2 len ++ leBytes 6 0

/-- A Splice frame on the wire (R68, R81): the addresses of an Ethernet II frame, the destination's from the route table and the source's
the fabric port's (R15), EtherType 0x88B5, the header and the payload. -/
def Root.frame (x : Root) (f : Flow) (psn : W32) (ftype inst offset : Nat) (payload : List Byte) : Output :=
  .frame f.port (leBytes 6 f.dmac ++ (leBytes 6 (x.portMac (f.port + 2)).toNat).reverse ++ [0x88, 0xB5] ++
    frameHeader ftype x.devid.toNat f.ref psn inst offset payload.length ++ payload)

/-- Send a numbered frame to another rank, and keep it until it is acknowledged (R82). -/
def State.sendFrame (s : State) (t ci rank ftype inst offset : Nat) (payload : List Byte) : State :=
  match (s.tenant? t).bind fun x => aget x.comms ci with
  | none => s
  | some c =>
    let f := s.flowTo t c rank
    (s.setFlow { f with sendPsn := f.sendPsn + 1, unacked := f.unacked ++ [⟨f.sendPsn, ftype, inst, offset, payload⟩] }).send
      (s.root.frame f f.sendPsn ftype inst offset payload)

/-- Send a numbered frame to every rank of the list. -/
def State.sendFrames (s : State) (t ci ftype inst offset : Nat) (payload : List Byte) : List Nat → State
  | [] => s
  | r :: rs => (s.sendFrame t ci r ftype inst offset payload).sendFrames t ci ftype inst offset payload rs

/-- The ranks of a communicator other than this member's. -/
def Comm.others (c : Comm) : List Nat := (List.range c.members.length).filter (· != c.rank)

/-! ## Breaking a communicator (R79) -/

/-- An instance posted and not ended. -/
def InstState.live : InstState → Bool
  | .posted | .ticketed | .started => true
  | .complete | .failed => false

/-- The events of the failed instances that asked for one (R77). -/
def State.emitFailed (s : State) (t ci status : Nat) : List (Nat × Inst) → State
  | [] => s
  | (n, i) :: r =>
    let s := if i.evec = 0xFF then s else s.emit (some t) (eventBytes 1 1 status ci 0 i.evec 0 n 0) none
    s.emitFailed t ci status r

/-- A failed instance leaves any mix of old and new elements in its DBUF (R77): of those whose operands have all arrived, the
free value of number `State.free` says which are new. An instance that has not started has written nothing (R76). -/
def State.mixFailed (s : State) (t : Nat) (c : Comm) (i : Inst) : State :=
  match i.state, s.tenant? t with
  | .started, some x =>
    let n := s.free
    let vals := (List.range (dbufCount i.sig c.members.length)).filterMap fun k =>
      if Config.elementWritten n k then (i.element c k).map fun bs => (k, bs) else none
    let s := { s with free := n + 1 }
    vals.foldl (fun s v =>
      match s.rootRange x needW (i.dbuf + v.1 * dtypeBytes i.sig.dtype) (dtypeBytes i.sig.dtype) with
      | some l => s.homeWrite ((pieceAddrs l).zip v.2)
      | none => s) s
  | _, _ => s

/-- The communicator of tenant `t` breaks with a status at this member (R79): every instance posted and not completed fails,
its staging, its triggers and its post table entry are released, and the collective timeline passes it. -/
def State.breakComm (s : State) (t ci status : Nat) : State :=
  match (s.tenant? t).bind fun x => aget x.comms ci with
  | none => s
  | some c =>
    if c.broken.isSome then s
    else
      let dead := c.insts.filter (·.2.state.live)
      let keep := c.insts.filter (fun e => !e.2.state.live)
      let fin := dead.map (·.1) ++ c.finished
      let tl := advance c.timeline fin fin.length
      let c' := { c with broken := some status, failed := (dead.map (·.1)).head?.or c.failed, insts := keep, timeline := tl,
                         finished := fin.filter (tl < ·) }
      let s := dead.foldl (fun s e => s.mixFailed t c e.2) s
      let s := s.updTenant t fun x =>
        { x with comms := aset x.comms ci c',
                 armed := x.armed.filter fun e => !(e.2.chunk && e.2.src == ci && dead.any (·.1 == e.2.dst)) }
      s.emitFailed t ci status dead

/-- A cause of R79 found at this member: the communicator breaks here and the coordinator, or every other member where this
device is the coordinator, is told. -/
def State.reportBreak (s : State) (t ci status : Nat) : State :=
  match (s.tenant? t).bind fun x => aget x.comms ci with
  | none => s
  | some c =>
    if c.broken.isSome then s
    else
      let s := s.breakComm t ci status
      s.sendFrames t ci 5 0 0 (leBytes 2 status) (if c.rank = 0 then c.others else [0])

/-- The same for each (tenant, communicator) of a list. -/
def State.reportBreaks (s : State) (status : Nat) : List (Nat × Nat) → State
  | [] => s
  | (t, ci) :: r => (s.reportBreak t ci status).reportBreaks status r

end Sys2Proof.Machine
end

