-- ==== Sys2Proof/Machine/Ops.lean ====
section
/-! DEFINITION. The named operations over a group's registers, the taking of a trap and the return from it, the halt and the end
of a team, and retirement: what every instruction's meaning is written with. -/

namespace Sys2Proof.Machine

/-! ## Scalar registers (R304) -/

/-- A scalar register: s0 reads as 0. -/
def Group.sreg (g : Group) (d : SReg) : W64 := if d = 0#6 then 0#64 else (aget g.sregs d.toNat).getD 0#64

/-- A write to a scalar register; one to s0 is discarded. -/
def Group.setSreg (g : Group) (d : SReg) (v : W64) : Group :=
  if d = 0#6 then g else { g with sregs := aset g.sregs d.toNat v }

/-- A load into a scalar register has been issued and has not returned. -/
def Access.loadsSreg (a : Access) (d : SReg) : Bool :=
  !a.done && match a.kind with | .scalarLoad e _ => e == d | .amo _ e => e == d | _ => false

/-- The register awaits a load (R158). -/
def Group.sregPending (g : Group) (d : SReg) : Bool := d != 0#6 && g.accesses.any (·.loadsSreg d)

/-- A load whose register a later instruction overwrites delivers nowhere. -/
def Access.dropSreg (a : Access) (d : SReg) : Access :=
  if a.loadsSreg d then
    match a.kind with
    | .scalarLoad _ z => { a with kind := .scalarLoad 0#6 z }
    | .amo op _ => { a with kind := .amo op 0#6 }
    | _ => a
  else a

/-! ## Shapes and values of lane registers (R131, R132) -/

/-- The value of a lane. -/
def Tag.lane : Tag → Nat → W32
  | .released, _ => 0#32
  | .uniform w, _ => w
  | .affine b s, l => b + BitVec.ofNat 32 l * s
  | .general ws, l => ws.getD l 0#32

/-- A general value of its lanes. -/
def Tag.ofLanes (f : Nat → W32) : Tag := .general (laneList.map f)

def Tag.isUniform : Tag → Bool
  | .uniform _ => true
  | _ => false

def Tag.isGeneral : Tag → Bool
  | .general _ => true
  | _ => false

/-- A value that keeps `old` outside the written lanes (R132 rule 1). -/
def Tag.merge (w : LaneMask) (new old : Tag) : Tag :=
  if w = allLanes then new else Tag.ofLanes fun l => if w.getLsbD l then new.lane l else old.lane l

/-- The lanes of a mask, ascending. -/
def lanesOf (w : LaneMask) : List Nat := laneList.filter fun l => w.getLsbD l

/-- The lowest lane of a mask. -/
def lowestLane (w : LaneMask) : Option Nat := (lanesOf w).head?

/-- The mask of the lanes that pass a test. -/
def maskOf (p : Nat → Bool) : LaneMask :=
  laneList.foldl (fun m l => if p l then m ||| (1#96 <<< l) else m) 0#96

/-! ## Slots (R133, R224) -/

/-- General slots of the allotment in use: registers, supervisor registers not on the spare pool, and shadows. -/
def Group.slotsUsed (g : Group) : Nat :=
  (g.vregs.filter (·.2.tag.isGeneral)).length + (g.kregs.filter fun e => e.2.tag.isGeneral && !e.2.spare).length +
  g.shadows.length

/-- A slot of the allotment is free. -/
def Group.slotFree (g : Group) : Bool := g.slotsUsed < g.allot

/-- Supervisor registers of a group that hold slots of the spare pool. -/
def Group.spareUsed (g : Group) : Nat := (g.kregs.filter fun e => e.2.tag.isGeneral && e.2.spare).length

/-- Free slots of a team's spare pool (R224). -/
def Team.spareFree (t : Team) : Nat := t.spare - (t.groups.map fun e => e.2.spareUsed).sum

/-- A lane register, released where no entry lists it (R131). -/
def Group.vreg (g : Group) (n : Nat) : LaneReg := (aget g.vregs n).getD { tag := .released, cc := 0, spare := false }
/-- A supervisor register. -/
def Group.kreg (g : Group) (n : Nat) : LaneReg := (aget g.kregs n).getD { tag := .released, cc := 0, spare := false }

/-- The register lies in the proposal window that begins at `pbase` (R369, R370). -/
def inWindow (pbase n : Nat) : Bool := pbase ≤ n && n < pbase + 32 && pbase != 0xFFFF

/-- What a read of a lane register delivers: the shadow where the lane has written it in an open proposal, the main register
otherwise (R236, R370). -/
def Group.view (g : Group) (pbase n : Nat) : Tag :=
  if g.proposal && inWindow pbase n then
    match aget g.shadows n with
    | some sh => Tag.ofLanes fun l => if sh.written.getLsbD l then sh.words.getD l 0#32 else (g.vreg n).tag.lane l
    | none => (g.vreg n).tag
  else (g.vreg n).tag

/-- The shadow of a window register with some lanes written. -/
def writeShadow (sh : Option Shadow) (w : LaneMask) (t : Tag) : Shadow :=
  match sh with
  | some x => { words := laneList.map fun l => if w.getLsbD l then t.lane l else x.words.getD l 0#32
                written := x.written ||| w }
  | none => { words := laneList.map fun l => if w.getLsbD l then t.lane l else 0#32, written := w }

/-- A lane-register write of the lanes in `w` with a consumer count (R132, R133, R136, R370): none when no slot is free. With no
lane to write it changes nothing. -/
def Group.writeV (g : Group) (pbase : Nat) (toShadow : Bool) (n : Nat) (w : LaneMask) (t : Tag) (cc : Nat) : Option Group :=
  if w = 0#96 then some g
  else if g.proposal && toShadow && inWindow pbase n then
    if (aget g.shadows n).isNone && !g.slotFree then none
    else some { g with shadows := aset g.shadows n (writeShadow (aget g.shadows n) w t)
                       vregs := aset g.vregs n { g.vreg n with cc := cc } }
  else
    let old := g.vreg n
    let new := Tag.merge w t old.tag
    if new.isGeneral && !old.tag.isGeneral && !g.slotFree then none
    else some { g with vregs := aset g.vregs n { tag := new, cc := cc, spare := false } }

/-- A supervisor register's write (R224): a general value takes its slot from the spare pool, or else from the allotment. -/
def Group.writeK (g : Group) (spareFree : Nat) (n : Nat) (w : LaneMask) (t : Tag) (cc : Nat) : Option Group :=
  if w = 0#96 then some g
  else
    let old := g.kreg n
    let new := Tag.merge w t old.tag
    if new.isGeneral then
      if old.tag.isGeneral then some { g with kregs := aset g.kregs n { old with tag := new, cc := cc } }
      else if spareFree != 0 then some { g with kregs := aset g.kregs n { tag := new, cc := cc, spare := true } }
      else if g.slotFree then some { g with kregs := aset g.kregs n { tag := new, cc := cc, spare := false } }
      else none
    else some { g with kregs := aset g.kregs n { tag := new, cc := cc, spare := false } }

/-- One decrement of a lane register's count; at 0 it is released (R136, R370). -/
def Group.decV (g : Group) (n : Nat) : Group :=
  match aget g.vregs n with
  | none => g
  | some r =>
    if r.cc = 0 then g
    else if r.cc = 1 then { g with vregs := adel g.vregs n, shadows := adel g.shadows n }
    else { g with vregs := aset g.vregs n { r with cc := r.cc - 1 } }

/-- One decrement of a supervisor register's count. -/
def Group.decK (g : Group) (n : Nat) : Group :=
  match aget g.kregs n with
  | none => g
  | some r =>
    if r.cc = 0 then g
    else if r.cc = 1 then { g with kregs := adel g.kregs n }
    else { g with kregs := aset g.kregs n { r with cc := r.cc - 1 } }

/-- Each register of the list decrements once, but for those the instruction has just written (R136). -/
def Group.decAll (g : Group) (names : List Src) (written : List Src) : Group :=
  (names.dedup.filter fun x => !written.contains x).foldl (fun g x =>
    match x with
    | .v n => g.decV n.toNat
    | .k n => g.decK n.toNat
    | _ => g) g

/-- A predicate: p0 is true in every lane (R344). -/
def Group.pred (g : Group) (p : PReg) : LaneMask := if p = 0#4 then allLanes else (aget g.preds p.toNat).getD 0#96

/-- A predicate's lanes in `w` written. -/
def Group.setPred (g : Group) (p : PReg) (w bits : LaneMask) : Group :=
  { g with preds := aset g.preds p.toNat ((g.pred p &&& ~~~w) ||| (bits &&& w)) }

/-! ## Outstanding accesses (R158, R159, R356) -/

/-- Registers that a load of a width fills (R358). -/
def ldCount : LdWidth → Nat
  | .b64 => 2
  | .b128 => 4
  | _ => 1

/-- Bytes of a load's access (R358). -/
def ldBytes : LdWidth → Nat
  | .z8 | .s8 => 1
  | .z16 | .s16 => 2
  | .b32 => 4
  | .b64 => 8
  | .b128 => 16

/-- Bytes of a store's access (R358). -/
def stBytes : StWidth → Nat
  | .b8 => 1
  | .b16 => 2
  | .b32 => 4
  | .b64 => 8
  | .b128 => 16

/-- `n` registers from `d` upward. -/
def regsFrom (d : VReg) (n : Nat) : List VReg := (List.range n).map fun i => d + BitVec.ofNat 10 i

/-- Lane registers an access still has to write (R356). -/
def Access.dests (a : Access) : List VReg :=
  if a.done then []
  else
    match a.kind with
    | .load w d _ => regsFrom d (ldCount w)
    | .atom _ w64 ret d => if ret then regsFrom d (if w64 then 2 else 1) else []
    | .smaxpk ret d => if ret then regsFrom d 2 else []
    | .deliver regs _ _ => regs.map (·.1)
    | _ => []

/-- Predicate an access still has to write; 0 for none (R356). -/
def Access.pdest (a : Access) : PReg :=
  if a.done then 0#4
  else
    match a.kind with
    | .pld d _ => d
    | .deliver _ p _ => p
    | _ => 0#4

/-- An instruction waiting in a fragment other than `fid` has still to read a lane register or to write it (R330, R382). -/
def Group.stillNamed (g : Group) (fid : Nat) (n : VReg) : Bool := g.waiting.any fun e => e.1 != fid && e.2.2.contains n

/-- A lane register that an instruction of fragment `fid` may not touch yet: a load into it has not returned (R356), or an
instruction waiting in another fragment has still to read it or to write it (R330, R382). -/
def Group.vregBusy (g : Group) (fid : Nat) (n : VReg) : Bool :=
  g.accesses.any (fun a => a.dests.contains n) || g.stillNamed fid n

/-- A predicate that awaits a return. -/
def Group.predBusy (g : Group) (p : PReg) : Bool := p != 0#4 && g.accesses.any fun a => a.pdest == p

/-- A path's in-flight counter (R159): the instructions on it from the earliest not returned on. One with no active lane returns at once. -/
def Group.inflight (g : Group) (p : Path) : Nat :=
  ((g.accesses.filter fun a => a.path == some p).dropWhile fun a => a.done || a.active == 0#96).length

/-- An access that orders later ones behind it (R199). -/
def Access.isAcquire (a : Access) : Bool := a.order == .acq || a.order == .ar
/-- An access that waits for every earlier one (R199). -/
def Access.isRelease (a : Access) : Bool := a.order == .rel || a.order == .ar

/-- An access behind which later ones wait (R199, R363): an acquire, and a release with no access of its own, which acts as a fence. -/
def Access.holdsLater (a : Access) : Bool := a.isAcquire || (a.isRelease && a.items.isEmpty)

/-- An access that reads. -/
def Access.reads (a : Access) : Bool :=
  match a.kind with
  | .load _ _ _ | .pld _ _ | .scalarLoad _ _ | .atom _ _ _ _ | .smaxpk _ _ | .amo _ _ => true
  | .store | .deliver _ _ _ | .reserved _ | .mma _ _ _ _ => false

/-- The bytes an access touches. -/
def Access.touches (a : Access) (addr : Nat) : Bool := a.items.any fun i => i.live && i.addr ≤ addr && addr < i.addr + i.size

/-- Two accesses touch a byte in common of one storage. -/
def Access.overlaps (a b : Access) : Bool :=
  a.scratch == b.scratch && a.items.any fun i => i.live && b.items.any fun j =>
    j.live && i.addr < j.addr + j.size && j.addr < i.addr + i.size

/-- Accesses at the front of the list that have returned are forgotten; the rest keep their order (R159). -/
def pruneAccesses (l : List Access) : List Access := l.dropWhile (·.done)

/-- An access that only keeps the place of an instruction waiting at a Grove port, which has read nothing yet and orders nothing (R188). -/
def Access.isReserved (a : Access) : Bool := match a.kind with | .reserved _ => true | _ => false

/-- Every access of the group has been performed. -/
def Group.drained (g : Group) : Bool := g.accesses.all fun a => a.done || a.isReserved

/-- Nothing of the group behind which later accesses wait is still to be performed (R199). -/
def Group.noAcquire (g : Group) : Bool := g.accesses.all fun a => a.done || !a.holdsLater

/-- Every read of the group has been performed. -/
def Group.readsDone (g : Group) : Bool := g.accesses.all fun a => a.done || !a.reads

/-- No access of the group to one of the bytes is still to be performed (R357). -/
def Group.bytesFree (g : Group) (scratch : Bool) (addrs : List Nat) : Bool :=
  g.accesses.all fun a => a.done || a.scratch != scratch || addrs.all fun x => !a.touches x

/-- Every accumulator operation of the group on accumulator `n` has been performed (R376). -/
def Group.accFree (g : Group) (n : Nat) : Bool :=
  g.accesses.all fun a => a.done || match a.kind with | .mma m _ _ _ => m != n | _ => true

/-- A group as it starts (R117, R119, R131, R276): its role, its allotment and priority class, its scalar stream at `pc`, and
the argument pointer in s3. -/
def freshGroup (role prio allot : Nat) (pc arg : W64) : Group :=
  { exited := false, slot := 0, role := role, prio := prio, allot := allot, pc := pc, mode := .user, sregs := if arg = 0 then [] else [(3, arg)],
    fmtr := 0, trap := none, syncing := false, fault := none, ks := [], kregs := [], vregs := [], preds := [], sq := [], lq := [],
    dispatch := [], frags := [], frames := [], run := none, traps := [], accesses := [], nextId := 0, waiting := [],
    running := none, latched := [], held := false, heldLanes := [], proposal := false, shadows := [],
    rseed := 0, rctr := 0, pacc := 0, pprop := 0, pnan := false, gang := 0, lclock := 0,
    blocked := none, mwait := none, ordered := none, laneTurn := false, stopped := false, scalarSkid := 0, laneSkid := 0 }

/-- The full fragment with which a block starts (R122). -/
def startFragment (pc fmtr : W64) : Fragment :=
  { pc := pc, mask := allLanes, span := allLanes, fmtr := fmtr, mode := .user, frame := none, wait := .none, handler := none,
    parkedBy := none }

/-- A knot at the start of a team of `n` groups (R165). -/
def freshKnot (n : Nat) : Knot := { phase := false, expect := n, pend := n, bytes := 0, wide := false, last := false, stamp := 0, lastStamp := 0 }

/-- An engine context at the start (R162). -/
def freshCtx : Ctx := { issued := 0, timeline := 0, wide := none, finished := [], cmds := [] }

/-- An accumulator at its grant (R375). -/
def freshAcc : Acc := { words := [], sat := false, version := 0, int := false }

/-- The lane stream has nothing to do. -/
def Group.laneIdle (g : Group) : Bool := g.frags.isEmpty && g.dispatch.isEmpty

/-! ## Traps (R221 to R233) -/

/-- The code of a cause (R225). -/
def Cause.code : Cause → Nat
  | .syscall => 0x1 | .hcall => 0x2 | .brk => 0x3 | .xlate => 0x10 | .engineFault => 0x11
  | .illegalInstruction => 0x20 | .illegalOperand => 0x21 | .privOperand => 0x22 | .privInstruction => 0x23
  | .misaligned => 0x24 | .shapeMismatch => 0x25 | .regReleased => 0x26 | .slotExhausted => 0x27
  | .latchInvalid => 0x28 | .queueOrphan => 0x29 | .splitOverflow => 0x2A | .stackOverflow => 0x2B
  | .joinUnmatched => 0x2C | .lendUnbalanced => 0x2D | .tretUnbalanced => 0x2E | .fmtInvalid => 0x2F
  | .roleBusy => 0x30 | .roleSlots => 0x31 | .blockRange => 0x32 | .gangConfig => 0x33 | .gangOrphan => 0x34
  | .badHandle => 0x35 | .scoreboardRange => 0x36 | .orderedScope => 0x37 | .bankMode => 0x38 | .bankBusy => 0x39
  | .knotRange => 0x3A | .knotBusy => 0x3B | .knotOverarrive => 0x3C | .grovePartition => 0x3D | .groveField => 0x3E
  | .groveConfig => 0x3F | .groveNostream => 0x40 | .groveStream => 0x41 | .groveIndex => 0x42
  | .proposalNested => 0x43 | .proposalMode => 0x44 | .sregRange => 0x45 | .accRange => 0x46 | .mmaFormat => 0x47
  | .proposalNone => 0x48

/-- A call: the other streams go on (R225). -/
def Cause.isCall : Cause → Bool
  | .syscall | .hcall | .brk => true
  | _ => false

/-- The error class (R225): every cause but the calls and XLATE. -/
def Cause.isError (c : Cause) : Bool := !c.isCall && c != .xlate

/-- The two bits of a mode (R221). -/
def Mode.code : Mode → Nat
  | .user => 0
  | .supervisor => 1
  | .hypervisor => 3

/-- The mode of the handler (R226). -/
def handlerMode (c : Cause) (info : W32) (m : Mode) : Mode :=
  match c with
  | .syscall => .supervisor
  | .hcall => .hypervisor
  | .xlate => if m = .hypervisor ∨ info = 5#32 ∨ info = 6#32 then .hypervisor else .supervisor
  | _ => if m = .hypervisor then .hypervisor else .supervisor

/-- The vector base of a handler's mode (R223). -/
def State.vector (s : State) (t : Nat) (m : Mode) : W64 :=
  match m with
  | .hypervisor => s.root.tvecH
  | _ => ((s.tenant? t).map (·.supv.tvecS)).getD 0#64

/-- The CAUSE register of a frame (R223). -/
def causeWord (c : Cause) (info : W32) (scalar : Bool) (m : Mode) (lane : Nat) : W64 :=
  BitVec.ofNat 64 (info.toNat * 2 ^ 32 + (if c.isError then 2 ^ 31 else 0) + (if scalar then 2 ^ 30 else 0) +
    m.code * 2 ^ 28 + lane * 2 ^ 16 + c.code)

/-- Bits [47:0], as EPC and BADADDR hold an address (R223). -/
def addr48 (x : W64) : W64 := x &&& 0xFFFFFFFFFFFF#64

/-- The lowest free position of a trap frame (R230: at most 4). -/
def Group.freeFrame (g : Group) : Option Nat := afree g.traps 4 0

/-- The scalar stream waits in a queue access, wait, twait, knot.wait, mwait or for an engine context (R232, R234). -/
def Group.waits (g : Group) : Bool := g.held || g.blocked.isSome || g.mwait.isSome

/-- A halt of the team is requested (R232): the skid counts begin, and a stream that waits stops where it waits. -/
def Team.raiseHalt (t : Team) : Team :=
  match t.halt with
  | some _ => t
  | none => { t with halt := some { fin := false, teamEnd := false },
                     groups := amap t.groups fun _ g => { g with stopped := g.waits, scalarSkid := 0, laneSkid := 0 } }

/-- The cores' partitions without those of a team ended by a fault: its own, and those it is attached to (R182, R193). -/
def dropPartitions (c : Core) (k : Nat) : Core :=
  { c with parts := (c.parts.filter fun e => e.2.owner != k && !e.2.attached.contains k).map fun e =>
      (e.1, { e.2 with tokens := e.2.tokens.filter (·.g.team != k) }) }

/-- The place of a fragment's klook or kread that waits at a port (R159). -/
def Access.reservedBy (a : Access) (fid : Nat) : Bool := a.kind == .reserved fid

/-- An instruction of fragment `fid` waits no more, and does not go on: it issues again later, or its fragment has trapped. -/
def Group.unwait (g : Group) (fid : Nat) : Group :=
  { g with waiting := adel g.waiting fid, accesses := g.accesses.filter fun a => !a.reservedBy fid }

/-- The operations waiting at Grove ports that the test picks are withdrawn (R194); each issues again later. -/
def State.withdraw (s : State) (core : Nat) (p : GRef → StreamRef → Bool) : State :=
  let c := s.core core
  match (c.parts.map fun e => e.2.tokens.filter fun x => p x.g x.stream).flatten with
  | [] => s
  | l =>
    l.foldl (fun s x => s.updGroup x.g fun g => match x.stream with | .lane f => g.unwait f | .scalar => g)
      (s.setCore core { c with parts := amap c.parts fun _ q => { q with tokens := q.tokens.filter fun x => !p x.g x.stream } })

/-- The group's scalar stream has an operation waiting at a port of a core (R188). -/
def Core.scalarWaits (c : Core) (r : GRef) : Bool := c.parts.any fun e => e.2.tokens.any fun x => x.g == r && x.stream == .scalar

/-- A scalar stream whose operation is withdrawn at a halt stops there, as one that waits does (R194, R232). -/
def State.stopScalars (s : State) (k core : Nat) : State :=
  s.updTeam k fun t => { t with groups := amap t.groups fun i g =>
    if (s.core core).scalarWaits { team := k, group := i } then { g with stopped := true } else g }

/-- A fault or an error of stream `st` halts the team (R232). What waits at Grove ports is withdrawn: the team's operations at a
halt, and in any case those of the trapping stream. -/
def State.haltFor (s : State) (r : GRef) (st : StreamRef) (call : Bool) : State :=
  match s.team? r.team with
  | none => s
  | some t =>
    if call then s.withdraw t.core fun g x => g == r && x == st
    else ((s.updTeam r.team Team.raiseHalt).stopScalars r.team t.core).withdraw t.core fun g _ => g.team == r.team

/-- A group that executes no further. Accesses it has issued still drain (R232). -/
def Group.ended (g : Group) : Group :=
  { g with exited := true, sq := [], lq := [], dispatch := [], frags := [], frames := [], run := none, traps := [], trap := none,
           proposal := false, shadows := [], gang := 0, blocked := none, mwait := none, ordered := none, waiting := [],
           fault := none, syncing := false, running := none, latched := [], held := false, heldLanes := [] }

/-- The last group of a team exits: its launch notes the team's exit, after those of the teams before it (R87). -/
def State.noteExit (s : State) (k : Nat) : State :=
  match s.team? k with
  | none => s
  | some t =>
    match t.launch with
    | none => s
    | some l => s.updLaunch l fun l => { l with tiled := if l.tiled.contains t.tid then l.tiled else t.tid :: l.tiled }

/-- A team ends (R233): its groups exit without executing further, its partitions are lost, its launch will complete with
TEAM_FAULT (R55), and a bound launch's communicator breaks (R88). An initialisation team that ends otherwise than by TEAM_END
puts the previous supervisor image back (R240). -/
def State.endTeam (s : State) (k : Nat) (byTeamEnd : Bool) : State :=
  match s.team? k with
  | none => s
  | some t =>
    let s := (s.noteExit k).setTeam k
      { t with groups := amap t.groups fun _ g => g.ended, halt := none, ended := true, attach := [], parts := [], latches := [] }
    let s := if (aget s.cores t.core).isSome then s.setCore t.core (dropPartitions (s.core t.core) k) else s
    let s := if t.isInit && !byTeamEnd then
        s.updTenant t.tenant fun x =>
          match x.supv.previous with
          | some (v, m, i) => { x with supv := { x.supv with tvecS := v, meas := m, init := i, previous := none, rerun := true } }
          | none => x
      else s
    match t.launch.bind s.launch? with
    | none => s
    | some l =>
      let s := s.updLaunch (t.launch.getD 0) fun l => { l with fault := some (l.fault.getD t.tid) }
      if l.record.lflags / 8 % 2 = 1 then s.reportBreak t.tenant (l.record.comm % 2 ^ 28) stTeamFault else s

/-- A trap that finds four frames ends the team at once, and Root reports DOUBLE_FAULT (R230). -/
def State.doubleFault (s : State) (k : Nat) : State := (s.endTeam k false).send (.doubleFault k)

/-- TAKING A TRAP in the scalar stream (R228): a frame saves the cause, the resume address and the mode, the stream goes on at
the vector base in the handler's mode, and a fault or an error halts the team (R232). -/
def State.takeScalarTrap (s : State) (r : GRef) (i : TrapInfo) : State :=
  match s.team? r.team, s.group? r with
  | some t, some g =>
    match g.freeFrame with
    | none => s.doubleFault r.team
    | some pos =>
      let m := handlerMode i.cause i.info g.mode
      let epc := if i.cause = .syscall ∨ i.cause = .hcall then g.pc + 4 else g.pc
      let fr : TrapFrame :=
        { cause := i.cause, causeWord := causeWord i.cause i.info true g.mode 0x1FF, epc := addr48 epc,
          badaddr := addr48 i.bad, callmask := 0, frag := none, pmode := g.mode, prop := g.proposal, fin := false,
          fmtr := 0, prev := g.trap }
      let s := s.updGroup r fun g => { g with traps := aset g.traps pos fr, trap := some pos, pc := s.vector t.tenant m,
                                              mode := m, syncing := false, blocked := none, mwait := none, held := false,
                                              ordered := g.ordered.filter (·.stream != .scalar) }
      s.haltFor r .scalar i.cause.isCall
  | _, _ => s

/-- TAKING A TRAP in lane fragment `fid` (R227): a frame saves the cause, the resume address, the call set, the format register
and the mode, every fragment is parked, and a handler fragment starts at the vector base + 0x100; a fault or an error halts
the team. -/
def State.takeLaneTrap (s : State) (r : GRef) (fid : Nat) (i : TrapInfo) : State :=
  match s.team? r.team, s.group? r with
  | some t, some g =>
    match aget g.frags fid, g.freeFrame with
    | some f, some pos =>
      let m := handlerMode i.cause i.info f.mode
      let set := i.set.getD f.span
      let epc := if i.cause = .syscall ∨ i.cause = .hcall then f.pc + 12 else f.pc
      let fr : TrapFrame :=
        { cause := i.cause,
          causeWord := causeWord i.cause i.info false f.mode ((i.lane.or (lowestLane set)).getD 0x1FF),
          epc := addr48 epc, badaddr := addr48 i.bad, callmask := set, frag := some fid, pmode := f.mode,
          prop := g.proposal, fin := false, fmtr := f.fmtr, prev := none }
      let h : Fragment :=
        { pc := s.vector t.tenant m + 0x100, mask := set, span := set, fmtr := f.fmtr, mode := m, frame := none,
          wait := .none, handler := some pos, parkedBy := none }
      let park (x : Fragment) : Fragment := if x.parkedBy.isSome then x else { x with parkedBy := some pos }
      let s := s.updGroup r fun g =>
        { g.unwait fid with
            traps := aset g.traps pos fr, run := none, latched := adel g.latched fid, running := none,
            heldLanes := g.heldLanes.filter (· != fid), ordered := g.ordered.filter (·.stream != .lane fid),
            frags := aset (amap g.frags fun _ x => park x) (8 + pos) h }
      s.haltFor r (.lane fid) i.cause.isCall
    | some _, none => s.doubleFault r.team
    | none, _ => s
  | _, _ => s

/-- The stream's frames go when one carrying END has been popped under a halt: the team will end (R233). -/
def Group.dropScalarFrames (g : Group) : Group :=
  { g with traps := g.traps.filter (·.2.frag.isSome), trap := none, mode := .user, stopped := true }
def Group.dropLaneFrames (g : Group) : Group :=
  { g with traps := g.traps.filter (·.2.frag.isNone), frags := [], frames := [], dispatch := [] }

/-- A halt after the pop of a frame with END. -/
def Halt.pop (h : Halt) (byTeamEnd : Bool) : Halt := { fin := true, teamEnd := byTeamEnd && (!h.fin || h.teamEnd) }

/-- What the pop of a frame with END does (R229, R233): under a halt the team ends when the halt does; otherwise at once. -/
def State.popEnd (s : State) (r : GRef) (scalar byTeamEnd : Bool) : State :=
  match s.team? r.team with
  | none => s
  | some t =>
    match t.halt with
    | some h => (s.updGroup r fun g => if scalar then g.dropScalarFrames else g.dropLaneFrames).updTeam r.team
        fun t => { t with halt := some (h.pop byTeamEnd) }
    | none => s.endTeam r.team byTeamEnd

/-- LCLOCK and the team's quantum count go up by `n` (R106, R112). -/
def State.tick (s : State) (r : GRef) (n : Nat) : State :=
  (s.updGroup r fun g => { g with lclock := g.lclock + BitVec.ofNat 64 n }).updTeam r.team fun t =>
    { t with quantum := t.quantum + n }

/-- RETURNING FROM A TRAP in the scalar stream (R229, R322): the current frame is popped, and the stream goes on at EPC in mode
PMODE, or the team ends; under a halt it stops once back in user mode (R232). A SYSCALL's frame counts the instruction now
(R106). -/
def State.scalarReturn (s : State) (r : GRef) : State :=
  match s.group? r with
  | none => s
  | some g =>
    match g.trap.bind fun p => (aget g.traps p).map fun fr => (p, fr) with
    | none => s
    | some (p, fr) =>
      let halted := ((s.team? r.team).bind (·.halt)).isSome && fr.pmode == .user
      let s := s.updGroup r fun g => { g with traps := adel g.traps p, trap := fr.prev, pc := fr.epc, mode := fr.pmode,
                                              stopped := g.stopped || halted }
      if fr.fin || fr.cause.isError then s.popEnd r true (fr.cause == .hcall)
      else if fr.cause = .syscall then s.tick r 1
      else s

/-- RETURNING FROM A TRAP in the lane stream (R229): when the spans of the fragments waiting at frame `pos` make up its call
set, the frame is popped and the parked fragments go on, the trapping one at EPC, or the team ends. -/
def State.lanePop (s : State) (r : GRef) (pos : Nat) : State :=
  match s.group? r with
  | none => s
  | some g =>
    match aget g.traps pos with
    | none => s
    | some fr =>
      let at_ (f : Fragment) : Bool := f.handler == some pos && f.wait == .tret
      let union := (g.frags.filter fun e => at_ e.2).foldl (fun m e => m ||| e.2.span) 0#96
      if union = fr.callmask then
        let back (k : Nat) (f : Fragment) : Fragment :=
          let f := if f.parkedBy = some pos then { f with parkedBy := none } else f
          if some k = fr.frag then { f with pc := fr.epc, fmtr := fr.fmtr, mode := fr.pmode } else f
        let s := s.updGroup r fun g => { g with traps := adel g.traps pos, running := fr.frag,
                                                frags := amap (g.frags.filter fun e => !at_ e.2) back }
        if fr.fin || fr.cause.isError then s.popEnd r false (fr.cause == .hcall)
        else if fr.cause = .syscall then s.tick r 1
        else s
      else s

/-! ## Where the running stream is -/

/-- The group in focus. -/
def here : M GRef := look (·.focus)
/-- The record of the group in focus. -/
def hereG : M Group := fun s => getGroup s.focus s
/-- The team in focus. -/
def hereT : M Team := fun s => getTeam s.focus.team s
/-- Change the group in focus. -/
def modHere (f : Group → Group) : M Unit := change fun s => s.updGroup s.focus f

/-- The launch of the team in focus is ordered (R107). -/
def isOrdered : M Bool := do return (← hereT).isOrdered

/-! ## Issue and retirement of the scalar stream -/

/-- The scalar stream can issue: its group has not exited, no ordered operation of it waits, and a halt leaves it at most 4
instructions in user mode (R108, R232). -/
def scalarMayIssue (t : Team) (g : Group) : Bool :=
  !t.ended && !g.exited && !(g.ordered.any fun o => o.stream == .scalar && !o.granted) &&
  (g.mode != .user || t.halt.isNone || (!g.stopped && !g.waits && g.scalarSkid < 4))

/-- A scalar instruction retires and the stream goes on at `pc` (R106, R232). -/
def State.retireScalar (s : State) (r : GRef) (user : Bool) (pc : W64) : State :=
  let s := s.updGroup r fun g => { g with pc := pc, syncing := false, held := false, ordered := g.ordered.filter (·.stream != .scalar) }
  if user then
    let s := s.tick r 1
    if ((s.team? r.team).bind (·.halt)).isSome then s.updGroup r fun g => { g with scalarSkid := g.scalarSkid + 1 } else s
  else s

/-- How a scalar instruction ends. -/
def endScalar (s : State) (r : GRef) : Except Stop (Unit × State) → Host.Outcome State Fault Refusal
  | .ok (_, s') => .next s'
  | .error (.trap i) => .next (s.takeScalarTrap r i)
  | .error (.keep s' i) => .next (s'.takeScalarTrap r i)
  | .error .stall => .next s
  | .error (.hold s') => .next s'
  | .error (.fault f) => .fault f

/-- A scalar instruction on the stream in focus; `body` answers the address of the next instruction. -/
def runScalarTo (body : Group → M W64) (s : State) : Host.Outcome State Fault Refusal :=
  match s.team? s.focus.team, s.group? s.focus with
  | some t, some g =>
    if scalarMayIssue t g then
      endScalar s s.focus ((do
        let pc ← body g
        change fun s' => s'.retireScalar s.focus (g.mode == Mode.user) pc) s)
    else .next s
  | _, _ => .next s

/-- A scalar instruction that is followed by the one at PC + 4 (R304). -/
def runScalar (body : Group → M Unit) (s : State) : Host.Outcome State Fault Refusal :=
  runScalarTo (fun g => do body g; return g.pc + 4) s

/-- Read a scalar register, waiting for a load into it (R158). -/
def readS (d : SReg) : M W64 := do
  let g ← hereG
  need (!g.sregPending d)
  return g.sreg d

/-- Write a scalar register. -/
def writeS (d : SReg) (v : W64) : M Unit :=
  modHere fun g => { g.setSreg d v with accesses := g.accesses.map (·.dropSreg d) }

/-! ## Issue and retirement of the lane stream -/

/-- A fragment can issue: it is not parked and waits for nothing, and a halt leaves a user-mode fragment only the rest of the
latch run it has begun, until it waits in a queue (R97, R142, R232). -/
def laneMayIssue (t : Team) (g : Group) (fid : Nat) (f : Fragment) : Bool :=
  !t.ended && !g.exited && f.parkedBy.isNone && f.wait == .none && !(g.ordered.any fun o => o.stream != .scalar && !o.granted) &&
  (f.mode != .user || t.halt.isNone || (g.run.any (·.frag == fid) && !g.heldLanes.contains fid && g.laneSkid < 16))

/-- How a lane instruction ends. -/
def endLane (s : State) (r : GRef) (fid : Nat) : Except Stop (Unit × State) → Host.Outcome State Fault Refusal
  | .ok (_, s') => .next s'
  | .error (.trap i) => .next (s.takeLaneTrap r fid i)
  | .error (.keep s' i) => .next (s'.takeLaneTrap r fid i)
  | .error .stall => .next s
  | .error (.hold s') => .next s'
  | .error (.fault f) => .fault f

/-- The latch run after an instruction of fragment `fid` (R138, R139): an ALU-class instruction carries it on, pushing its
result where it has one, up to 16 instructions; any other ends it. -/
def runAfter (run : Option LatchRun) (fid : Nat) (alu : Bool) (push : Option Tag) : Option LatchRun :=
  if alu then
    let x := (run.filter (·.frag == fid)).getD { frag := fid, length := 0, pushes := [] }
    if x.length + 1 = 16 then none
    else some { x with length := x.length + 1, pushes := (push.toList ++ x.pushes).take 4 }
  else none

/-- A group after a lane instruction of fragment `fid`: its latch run has been carried on or ended, unless the instruction had waited after
its issue and its fragment's run had ended then; nothing of the fragment waits any more; and in an ordered launch the fragment runs on,
where the instruction does not itself say what runs next (`turn`: lbr, join, lend and tret, R110). -/
def Group.retired (g : Group) (fid : Nat) (alu : Bool) (push : Option Tag) (turn : Bool) : Group :=
  { g with run := if (aget g.waiting fid).isSome then g.run else runAfter g.run fid alu push, waiting := adel g.waiting fid,
           latched := adel g.latched fid, running := if turn then g.running else some fid,
           heldLanes := g.heldLanes.filter (· != fid), ordered := g.ordered.filter (·.stream != .lane fid) }

/-- A lane instruction of fragment `fid` retires (R106, R232); `push` is what an ALU-class instruction pushes. -/
def State.retireLane (s : State) (r : GRef) (fid : Nat) (user alu : Bool) (push : Option Tag) (turn : Bool := false) : State :=
  let s := s.updGroup r fun g => g.retired fid alu push turn
  if user then
    let s := s.tick r 1
    if ((s.team? r.team).bind (·.halt)).isSome then s.updGroup r fun g => { g with laneSkid := g.laneSkid + 1 } else s
  else s

/-- What a lane instruction knows of the fragment that issues it: its split-table entry, the fragment, and W, the lanes of its
mask whose guard is true (R329, R355). -/
structure LaneCtx where
  fid  : Nat
  frag : Fragment
  w    : LaneMask

/-- A lane instruction with its guard, on the fragment in focus; `body` answers what an ALU-class instruction pushes, and
leaves the fragment's PC alone or sets it. -/
def runLaneWith (h : LHdr) (alu : Bool) (body : LaneCtx → M (Option Tag)) (s : State) (turn : Bool := false) :
    Host.Outcome State Fault Refusal :=
  match s.team? s.focus.team, s.group? s.focus, s.stream with
  | some t, some g, .lane fid =>
    match aget g.frags fid with
    | some f =>
      if laneMayIssue t g fid f then
        if g.predBusy h.pr then .next s
        else
          let guard := if h.pn then ~~~(g.pred h.pr) else g.pred h.pr
          endLane s s.focus fid ((do
            let push ← body { fid := fid, frag := f, w := f.mask &&& guard }
            change fun s' => s'.retireLane s.focus fid (f.mode == Mode.user) alu push turn) s)
      else .next s
    | none => .next s
  | _, _, _ => .next s

/-- A fragment changed. -/
def modFrag (fid : Nat) (f : Fragment → Fragment) : M Unit := modHere fun g => { g with frags := aupd g.frags fid f }

/-- Go on at the next lane instruction (R292: 12 bytes). -/
def nextLane (fid : Nat) : M Unit := modFrag fid fun f => { f with pc := f.pc + 12 }

/-- A lane instruction outside the ALU class that is followed by the next one. -/
def runLane (h : LHdr) (body : LaneCtx → M Unit) (s : State) : Host.Outcome State Fault Refusal :=
  runLaneWith h false (fun c => do body c; nextLane c.fid; return none) s

/-- A control instruction of the lane stream, which moves its fragment itself (R385). -/
def runCtl (h : LHdr) (body : LaneCtx → M Unit) (s : State) : Host.Outcome State Fault Refusal :=
  runLaneWith h false (fun c => do body c; return none) s

/-- A rank of a fragment in an ordered launch (R110): by its lowest active lane, those with an empty mask last, by the lowest
lane of their span, then by entry. -/
def fragRank (fid : Nat) (f : Fragment) : Nat × Nat × Nat :=
  match lowestLane f.mask with
  | some l => (l, 0, fid)
  | none => (96, (lowestLane f.span).getD 96, fid)

/-- Lexicographic order of ranks. -/
def rankLt (a b : Nat × Nat × Nat) : Bool :=
  a.1 < b.1 || (a.1 == b.1 && (a.2.1 < b.2.1 || (a.2.1 == b.2.1 && a.2.2 < b.2.2)))

/-- A control instruction that says which fragment runs next in an ordered launch: lbr, join, lend and tret (R110). -/
def runTurn (h : LHdr) (body : LaneCtx → M Unit) (s : State) : Host.Outcome State Fault Refusal :=
  runLaneWith h false (fun c => do body c; return none) s true

/-- An instruction of the ALU class (R138, R329); `body` answers what it pushes. -/
def runAlu (h : LHdr) (body : LaneCtx → M (Option Tag)) (s : State) : Host.Outcome State Fault Refusal :=
  runLaneWith h true (fun c => do let p ← body c; nextLane c.fid; return p) s

/-- The header of a form that takes no guard and writes no register by it. -/
def noGuard : LHdr := { pr := 0, pn := false, wbs := false, cc := 0 }

/-! ## Latch runs (R99, R138 to R142) -/

/-- Words of a byte string, little-endian (R3). -/
def wordAt (bs : List Byte) (i : Nat) : W32 := BitVec.ofNat 32 (fieldAt bs (4 * i) 4)

/-- The bytes of an instruction, translated for instruction fetch and read at the home slices. -/
def State.codeBytes (s : State) (t core : Nat) (m : Mode) (pc n : Nat) : Except (Nat × Nat) (Option (List Byte)) :=
  match s.translateRange t core m pc n needX with
  | .error e => .error e
  | .ok none => .ok none
  | .ok (some l) => .ok (some ((pieceAddrs l).map (memGet s.mem)))

/-- A source field that names a latch (R293). -/
def namesLatch (x : BitVec 11) : Bool := x.extractLsb' 2 9 == 0b100000000#9

/-- The next instruction of fragment `f` carries a latch run on or reads a latch, so that its run is not at its end (R139, R140). -/
def runHolds (s : State) (t : Team) (f : Fragment) : Bool :=
  match s.codeBytes t.tenant t.core f.mode f.pc.toNat 12 with
  | .ok (some bs) =>
    let x := unpackL (wordAt bs 0) (wordAt bs 1) (wordAt bs 2)
    (1 ≤ x.op.toNat && x.op.toNat ≤ 0x0C) || namesLatch x.sa || namesLatch x.sb || namesLatch x.sc
  | _ => false

/-- A latch run of the group is open and not at a boundary (R99, R114, R142). -/
def inLatchRun (s : State) (t : Team) (g : Group) : Bool :=
  g.run.any fun r => (aget g.frags r.frag).any fun f => f.wait == .none && f.parkedBy.isNone && runHolds s t f

/-- The latch run under which an instruction of fragment `fid` reads its latches (R140): that of its issue, where it has waited since, or
the group's. -/
def Group.runOf (g : Group) (fid : Nat) : Option LatchRun := (aget g.latched fid).or (g.run.filter (·.frag == fid))

/-- An instruction of fragment `fid` has issued and waits: it keeps the registers it still has to read or to write and the latch run it has ended. -/
def Group.waitAt (g : Group) (fid : Nat) (i : Instr) (regs : List VReg) : Group :=
  { g with waiting := aset g.waiting fid (i, regs),
           latched := match g.runOf fid with | some r => aset g.latched fid r | none => g.latched,
           run := g.run.filter (·.frag != fid) }

/-! ## Events -/

/-- A step of the device that is no instruction of a stream: where what it needs does not hold, it cannot happen, and the state
stays. -/
def runEvent (body : M Unit) (s : State) : Host.Outcome State Fault Refusal :=
  match body s with
  | .ok (_, s') => .next s'
  | .error (.hold s') => .next s'
  | .error (.fault f) => .fault f
  | .error _ => .next s

/-- A step of another stream, which is not the one in focus. A parked fragment whose instruction is already on its way goes on with it
(R227); should it trap, it stays as it was until it is no longer parked. A trap waits for the boundary of a latch run that another fragment
of the group has open (R142). -/
def onStream (r : GRef) (st : StreamRef) (f : State → Host.Outcome State Fault Refusal) (s : State) :
    Host.Outcome State Fault Refusal :=
  let frags : AList Fragment := ((s.group? r).map (·.frags)).getD []
  let parked := match st with | .lane fid => (aget frags fid).bind (·.parkedBy) | .scalar => none
  let park (s : State) (x : Option Nat) : State :=
    match st with
    | .lane fid => s.updGroup r fun g => { g with frags := aupd g.frags fid fun y => { y with parkedBy := x } }
    | .scalar => s
  let traps (s : State) : Nat := ((s.group? r).map (·.traps.length)).getD 0
  match f { (if parked.isSome then park s none else s) with focus := r, stream := st } with
  | .next s' =>
    let s' := { s' with focus := s.focus, stream := s.stream }
    let running := match s.team? r.team, s.group? r, st with
      | some t, some g, .lane fid => inLatchRun s t g && g.run.any (·.frag != fid)
      | _, _, _ => false
    if traps s' ≠ traps s && (parked.isSome || running) then .next s
    else if parked.isNone then .next s'
    else .next (park s' parked)
  | .fault x => .fault x
  | .refused x => .refused x

/-! ## Releases and acquires made without an access of their own (R199) -/

/-- Every earlier access of the group has been performed, as a release needs. -/
def needDrained : M Unit := do need (← hereG).drained

/-- A release at a scope by the group in focus. -/
def releaseHere (wide : Bool) : M Unit := do
  needDrained
  let t ← hereT
  change fun s => s.release s.focus (clusterOf t.core) wide

/-- An acquire at a scope by the group in focus, once every earlier read has been performed (R327, R363). -/
def acquireHere (wide : Bool) : M Unit := do
  need (← hereG).readsDone
  let t ← hereT
  change fun s => s.acquire (clusterOf t.core) wide

end Sys2Proof.Machine
end

