-- ==== Sys2Proof/Machine/Operands.lean ====
section
/-! DEFINITION. The operands of lane instructions: source fields (R293, R329, R355), groups of registers, results and their
shapes (R132), and the addresses of lane memory instructions (R353). -/

namespace Sys2Proof.Machine

/-- A trap of a plain cause. -/
def plainTrap (c : Cause) : TrapInfo := { cause := c, lane := none, info := 0, bad := 0, set := none }

/-- An XLATE trap (R171, R223). -/
def xlateTrap (lane : Option Nat) (reason bad : Nat) : TrapInfo :=
  { cause := .xlate, lane := lane, info := BitVec.ofNat 32 reason, bad := BitVec.ofNat 64 bad, set := none }

/-- The proposal window's first register of the team in focus (R369). -/
def windowBase : M Nat := do return (← hereT).pbase

/-- The stream in focus waits where a halt stops it and an ENGINE_FAULT ends its wait (R232, R234). -/
def markHeld : M Unit := do
  match ← look (·.stream) with
  | .scalar => modHere fun g => { g with held := true }
  | .lane f => modHere fun g => { g with heldLanes := f :: g.heldLanes.filter (· != f) }

/-- Wait in this way unless the condition holds. -/
def waitUnless (ok : Bool) : M Unit := do
  if ok then pure ()
  else
    markHeld
    hold

/-- Wait on a queue; in an ordered launch the turn passes to the other stream (R110, R123). -/
def stallQueue {α : Type} (lane : Bool) : M α := do
  let t ← hereT
  if t.isOrdered then modHere fun g => { g with laneTurn := !lane }
  markHeld
  hold

/-- The head of sq, which a lane instruction reads (R123, R124): empty, it waits, or takes QUEUE_ORPHAN when the scalar
stream is waiting in lsync or exit. -/
def sqHead : M W64 := do
  let g ← hereG
  match g.sq with
  | x :: _ => return x
  | [] => if g.syncing then trap .queueOrphan else stallQueue true

/-- A source field's value (R293): a lane register or k register that is not released, a latch that the run has made valid
(R140), or the low half of the sq head. -/
def readSrc (c : LaneCtx) (x : Src) : M Tag := do
  let g ← hereG
  let base ← windowBase
  match x with
  | .v n =>
    need (!g.vregBusy c.fid n)
    match g.view base n.toNat with
    | .released => trap .regReleased
    | t => return t
  | .k n =>
    match (g.kreg n.toNat).tag with
    | .released => trap .regReleased
    | t => return t
  | .latch n =>
    match (g.runOf c.fid).bind fun r => r.pushes[n.toNat]? with
    | some t => return t
    | none => trap .latchInvalid
  | .sq => return .uniform ((← sqHead).setWidth 32)

/-- A source that must be uniform (R134). -/
def readUniform (c : LaneCtx) (x : Src) : M W32 := do
  match ← readSrc c x with
  | .uniform w => return w
  | _ => trap .shapeMismatch

/-- The `i`-th register of a group field (R293). -/
def Src.nth (x : Src) (i : Nat) : Src :=
  match x with
  | .v n => .v (n + BitVec.ofNat 10 i)
  | y => y

/-- The first `n` registers of a group field. -/
def groupOf (x : Src) (n : Nat) : List Src := (List.range n).map (Src.nth x)

/-- The values of the registers of a list, in order. -/
def readSrcs (c : LaneCtx) : List Src → M (List Tag)
  | [] => pure []
  | x :: r => do
    let t ← readSrc c x
    let ts ← readSrcs c r
    return t :: ts

/-- A pair whose registers must be uniform, as the 64-bit value they hold. -/
def readUniformPair (c : LaneCtx) (x : Src) : M W64 := do
  let lo ← readUniform c (Src.nth x 0)
  let hi ← readUniform c (Src.nth x 1)
  return hi ++ lo

/-- Step 5 of R294: a k register named as a source in user mode. -/
def privSources (c : LaneCtx) (l : List Src) : M Unit :=
  if c.frag.mode = .user ∧ l.any (fun x => match x with | .k _ => true | _ => false) = true then trap .privOperand
  else pure ()

/-! ## Results -/

/-- The shape of a result with no per-lane input (R132 rules 2 and 4). -/
def resultTag (srcs : List Tag) (f : Nat → W32) : Tag :=
  if srcs.all (·.isUniform) then .uniform (f 0) else Tag.ofLanes f

/-- Write registers in the lanes of W with a count (R132, R133, R136), each from the list. -/
def writeRegs (c : LaneCtx) (cc : Nat) : List (VReg × Tag) → M Unit
  | [] => pure ()
  | (d, t) :: r => do
    let base ← windowBase
    let g ← hereG
    need (!g.vregBusy c.fid d)
    match g.writeV base (c.frag.mode == .user) d.toNat c.w t cc with
    | none => trap .slotExhausted
    | some _ =>
      modHere fun g => (g.writeV base (c.frag.mode == .user) d.toNat c.w t cc).getD g
      writeRegs c cc r

/-- Every register named as a source decrements once, but for those written (R136). -/
def decSources (names written : List Src) : M Unit := modHere fun g => g.decAll names written

/-- The registers written when W is not empty. -/
def writtenBy (c : LaneCtx) (l : List VReg) : List Src := if c.w = 0#96 then [] else l.map .v

/-- What a destination holds for an instruction of a mode that writes it: in user mode the view of a window register, which its write
changes; in a handler the main register (R236, R370). -/
def Group.destTag (g : Group) (base : Nat) (user : Bool) (n : Nat) : Tag := if user then g.view base n else (g.vreg n).tag

/-- The value that a register holds after an instruction that writes a result to it, with the shape of R132. Where no lane is written, `old` is
what it holds then, its count having run out where the instruction was the last to name it; a released one gives a uniform 0 (R136, R329). -/
def pushedTag (w : LaneMask) (new old : Tag) : Tag :=
  if w = 0#96 then (match old with | .released => .uniform 0#32 | t => t) else Tag.merge w new old

/-- The end of an ALU-class instruction with register destinations (R329, R137, R138): the writes, unless WBS keeps them, the
decrements, and the value pushed. -/
def aluEnd (c : LaneCtx) (h : LHdr) (names : List Src) (dests : List (VReg × Tag)) : M (Option Tag) := do
  let base ← windowBase
  if h.wbs then
    decSources names []
    return (dests.head?).map fun e => Tag.merge c.w e.2 (.uniform 0#32)
  else
    let g ← hereG
    writeRegs c h.cc.toNat dests
    decSources names (writtenBy c (dests.map (·.1)))
    let g' ← hereG
    return (dests.head?).map fun e => pushedTag c.w e.2 ((if c.w = 0#96 then g' else g).destTag base (c.frag.mode == .user) e.1.toNat)

/-- No affine result (R132 rule 4). -/
def noAffine (_ _ : Tag) : Option Tag := none

/-- An ALU form of one source. -/
def alu1 (h : LHdr) (d : VReg) (a : Src) (f : LaneCtx → W32 → W32) (s : State) : Host.Outcome State Fault Refusal :=
  runAlu h (fun c => do
    privSources c [a]
    let x ← readSrc c a
    aluEnd c h [a] [(d, resultTag [x] fun l => f c (x.lane l))]) s

/-- An ALU form of two sources, with its affine results. -/
def alu2 (h : LHdr) (d : VReg) (a b : Src) (aff : Tag → Tag → Option Tag) (f : LaneCtx → W32 → W32 → W32) (s : State) :
    Host.Outcome State Fault Refusal :=
  runAlu h (fun c => do
    privSources c [a, b]
    let x ← readSrc c a
    let y ← readSrc c b
    aluEnd c h [a, b] [(d, (aff x y).getD (resultTag [x, y] fun l => f c (x.lane l) (y.lane l)))]) s

/-- An ALU form of three sources. -/
def alu3 (h : LHdr) (d : VReg) (a b e : Src) (f : LaneCtx → W32 → W32 → W32 → W32) (s : State) :
    Host.Outcome State Fault Refusal :=
  runAlu h (fun c => do
    privSources c [a, b, e]
    let x ← readSrc c a
    let y ← readSrc c b
    let z ← readSrc c e
    aluEnd c h [a, b, e] [(d, resultTag [x, y, z] fun l => f c (x.lane l) (y.lane l) (z.lane l))]) s

/-- Write a predicate in the lanes of W. -/
def writePred (c : LaneCtx) (d : PReg) (bits : LaneMask) : M Unit := do
  let g ← hereG
  need (!g.predBusy d)
  if c.w = 0#96 then pure () else modHere fun g => g.setPred d c.w bits

/-- A compare of two sources into a predicate (R334, R338). -/
def aluCompare (h : LHdr) (d : PReg) (a b : Src) (f : W32 → W32 → Bool) (s : State) : Host.Outcome State Fault Refusal :=
  runAlu h (fun c => do
    privSources c [a, b]
    let x ← readSrc c a
    let y ← readSrc c b
    writePred c d (maskOf fun l => f (x.lane l) (y.lane l))
    decSources [a, b] []
    return none) s

/-- A predicate source. -/
def readPred (p : PReg) : M LaneMask := do
  let g ← hereG
  need (!g.predBusy p)
  return g.pred p

/-! ## Entries for lq (R123, R124) -/

/-- Append entries to lq as one step; without room the stream waits, or takes QUEUE_ORPHAN when the scalar stream waits in
lsync or exit. -/
def pushLq (l : List W64) : M Unit := do
  let g ← hereG
  if g.lq.length + l.length ≤ 16 then modHere fun g => { g with lq := g.lq ++ l }
  else if g.syncing then trap .queueOrphan
  else stallQueue true

/-! ## Turns of ordered launches (R107 to R109) -/

/-- A group that takes part in the ranges of R108: it has not exited and is not blocked in knot.wait. -/
def Group.inRange (g : Group) : Bool := !g.exited && !(g.blocked.any (·.2))

/-- The pair of a group (R108). -/
def groupPair (t : Team) (i : Nat) (g : Group) : Nat × Nat := (g.lclock.toNat, t.tid * t.ngroups + i)

/-- Lexicographic order of pairs. -/
def pairLt (a b : Nat × Nat) : Bool := a.1 < b.1 || (a.1 == b.1 && a.2 < b.2)

/-- The pairs of every other unblocked group in the range: the team's, or the grid's (R108). -/
def State.otherPairs (s : State) (r : GRef) (teamOnly : Bool) : List (Nat × Nat) :=
  match s.team? r.team with
  | none => []
  | some me =>
    ((s.teams.filter fun e => if teamOnly then e.1 == r.team else e.2.launch == me.launch && me.launch.isSome).map fun e =>
      (e.2.groups.filter fun x => x.2.inRange && !(e.1 == r.team && x.1 == r.group)).map fun x => groupPair e.2 x.1 x.2).flatten

/-- It is the turn of an ordered operation of group `r` with a stamp (R108). -/
def State.turnOf (s : State) (r : GRef) (teamOnly : Bool) (stamp : Nat) : Bool :=
  match s.team? r.team with
  | some t => (s.otherPairs r teamOnly).all fun p => pairLt (stamp, t.tid * t.ngroups + r.group) p
  | none => false

/-- An ordered operation of an ordered launch waits for its turn; its stream stops issuing meanwhile (R108). -/
def awaitTurn (i : Instr) (teamOnly : Bool) (regs : List VReg) : M Unit := do
  let t ← hereT
  let g ← hereG
  let r ← here
  let st ← look (·.stream)
  match g.ordered with
  | some o =>
    need (o.stream == st && o.granted)
    modHere fun g => { g with ordered := none }
  | none =>
    if !t.isOrdered || (← look fun s => s.turnOf r teamOnly g.lclock.toNat) then pure ()
    else
      modHere fun g' =>
        { (match st with | .lane f => g'.waitAt f i regs | .scalar => g') with
          ordered := some { stream := st, instr := i, stamp := g.lclock.toNat, granted := false } }
      hold

/-- An operation that is ordered no longer does not wait for its turn any more (R107). -/
def dropTurn : M Unit := do
  let st ← look (·.stream)
  modHere fun g => { g with ordered := g.ordered.filter (·.stream != st) }

end Sys2Proof.Machine
end

