-- ==== Sys2Proof/Machine/Access.lean ====
section
/-! DEFINITION. Memory accesses of a group: their translation and issue, the moment each is performed, and what it delivers (R157 to
R159, R196 to R206, R353 to R362). -/

namespace Sys2Proof.Machine

/-! ## Translation -/

/-- The physical address of one virtual address, for a stream of the team in focus, or the trap of R171 concerning a lane. -/
def xlateVA (mode : Mode) (lane : Option Nat) (va : Nat) (nd : Need) : M Nat := do
  let t ← hereT
  match ← look fun s => s.translate t.tenant t.core mode va nd with
  | .ok pa => return pa
  | .fail r b => stop (.trap (xlateTrap lane r b))
  | .gone => stop (.fault .noSuchAddress)

/-- The physical addresses of the bytes of a range. -/
def xlateBytes (mode : Mode) (lane : Option Nat) (va n : Nat) (nd : Need) : M (List Nat) := do
  let t ← hereT
  match ← look fun s => s.translateRange t.tenant t.core mode va n nd with
  | .ok (some l) => return pieceAddrs l
  | .ok none => stop (.fault .noSuchAddress)
  | .error (r, b) => stop (.trap (xlateTrap lane r b))

/-! ## Issue -/

/-- An access as it is issued; it gets its number when it joins its group's list. -/
def newAccess (kind : AccKind) : Access :=
  { id := 0, path := none, kind := kind, scratch := false, scope := .grp, order := .plain, promote := false, active := 0#96,
    items := [], shadow := false, home := false, done := false }

/-- A path instruction with no active lane that orders nothing: it returns at once (R159). -/
def Access.void (a : Access) : Bool := a.path.isSome && a.active == 0#96 && a.order == .plain

/-- The group in focus issues an access. An instruction that would raise its path's counter to 256 waits (R159). -/
def pushAccess (a : Access) : M Unit := do
  let g ← hereG
  need (match a.path with | some p => g.inflight p < 255 | none => true)
  modHere fun g => { g with accesses := pruneAccesses (g.accesses ++ [{ a with id := g.nextId, done := a.void }]),
                            nextId := g.nextId + 1 }

/-- One lane's part of a scalar access. -/
def scalarItem (pa n : Nat) (data : List Byte) : LaneAcc :=
  { lane := 0, addr := pa, live := true, size := n, data := data, cmp := [] }

/-! ## When an access may be performed -/

/-- Two updates of one accumulator (R376). -/
def sameAcc (a b : Access) : Bool :=
  match a.kind, b.kind with
  | .mma m _ _ _, .mma n _ _ _ => m == n
  | _, _ => false

/-- The access numbered `id`, once it may be performed: a release waits for every earlier access, nothing passes an acquire or an empty
release, and accesses of one group to one byte keep their order (R199, R357, R376). -/
def Group.ready (g : Group) (id : Nat) : Option Access :=
  match g.accesses.find? fun a => a.id == id && !a.done with
  | none => none
  | some a =>
    if (g.accesses.takeWhile (·.id != id)).all fun b =>
        b.done || b.isReserved || (!a.isRelease && !b.holdsLater && !(b.overlaps a) && !sameAcc a b)
    then some a else none

/-- Access `id` has been performed. -/
def markDone (id : Nat) (l : List Access) : List Access :=
  pruneAccesses (l.map fun a => if a.id == id then { a with done := true } else a)

/-! ## Bytes -/

/-- The addresses of an item. -/
def LaneAcc.addrs (i : LaneAcc) : List Nat := (List.range i.size).map (i.addr + ·)

/-- The item belongs to a beat whose accesses cover its 128-byte line exactly once: the home slice performs that line as one event
at any scope (R204). -/
def fullBeat (items : List LaneAcc) (i : LaneAcc) : Bool :=
  let same := items.filter fun j => j.lane / 32 == i.lane / 32 && j.addr / 128 == i.addr / 128
  same.length * i.size == 128 &&
  (List.range 128).all fun k =>
    (same.filter fun j => j.addr ≤ i.addr / 128 * 128 + k && i.addr / 128 * 128 + k < j.addr + j.size).length == 1

/-- The bytes the items read in device memory, item by item. -/
def State.fetchItems (s : State) (c : Nat) (wide : Bool) (items : List LaneAcc) : List (Nat × List Byte) × State :=
  let far (i : LaneAcc) : Bool := wide || fullBeat items i
  let s := match (items.filter far).map LaneAcc.addrs with
    | [] => s
    | l => s.openLines c l.flatten
  (items.map fun i => (i.lane, i.addrs.map fun a => if far i then memGet s.mem a else s.cachedByte c a), s)

/-- The bytes with their addresses that a list of items stores, in ascending lane order. -/
def storedBytes (items : List LaneAcc) : List (Nat × Byte) := (items.map fun i => bytesAt i.addr i.data).flatten

/-- The items' stores to device memory, beat by beat. -/
def State.putItems (s : State) (r : GRef) (c : Nat) (wide : Bool) (items : List LaneAcc) : State :=
  if wide then
    match items with
    | [] => s
    | _ => s.storeBytes r c true (storedBytes items)
  else
    [0, 1, 2].foldl (fun s b =>
      let beat := items.filter fun i => i.lane / 32 == b
      let put (s : State) (far : Bool) : State :=
        match beat.filter fun i => fullBeat beat i == far with
        | [] => s
        | l => s.storeBytes r c far (storedBytes l)
      put (put s true) false) s

/-- The bytes an item reads in scratch: zeros where it reaches beyond the range (R354). -/
def scratchItem (m : Memory) (i : LaneAcc) : List Byte :=
  if i.live then memGetN m i.addr i.size else List.replicate i.size 0#8

/-- The items' stores to scratch. -/
def scratchPut (m : Memory) (items : List LaneAcc) : Memory := storeAll m (storedBytes (items.filter (·.live)))

/-! ## Atomic operations (R308, R360, R361) -/

/-- The new value of a word of `n` bits (R360). -/
def atomValue {n : Nat} (op : AtomOp) (old b c : BitVec n) : BitVec n :=
  match op with
  | .add => old + b
  | .and => old &&& b
  | .or => old ||| b
  | .xor => old ^^^ b
  | .min => if b.slt old then b else old
  | .max => if old.slt b then b else old
  | .minu => if b.ult old then b else old
  | .maxu => if old.ult b then b else old
  | .xchg => b
  | .cas => if old = c then b else old
  | .fadd => BitVec.ofNat n (fAdd .rne (old.setWidth 32) (b.setWidth 32)).toNat
  | .fmin => BitVec.ofNat n (selMin (old.setWidth 32) (b.setWidth 32)).toNat
  | .fmax => BitVec.ofNat n (selMax (old.setWidth 32) (b.setWidth 32)).toNat

/-- The atomic operation that a scalar amo makes (R308). -/
def amoOp : AmoOp → AtomOp
  | .add => .add
  | .and => .and
  | .or => .or
  | .xor => .xor
  | .min => .min
  | .max => .max
  | .minu => .minu
  | .maxu => .maxu
  | .xchg => .xchg

/-- The same on bytes. -/
def atomBytes (op : AtomOp) (w64 : Bool) (old b c : List Byte) : List Byte :=
  if w64 then leBytes 8 (atomValue op (BitVec.ofNat 64 (leNat old)) (BitVec.ofNat 64 (leNat b)) (BitVec.ofNat 64 (leNat c))).toNat
  else leBytes 4 (atomValue op (BitVec.ofNat 32 (leNat old)) (BitVec.ofNat 32 (leNat b)) (BitVec.ofNat 32 (leNat c))).toNat

/-- The slot of smaxpk with a word offered (R361). -/
def smaxOffer (w0 w1 x : Nat) : Nat × Nat :=
  if w0 < x then (x, w0) else if w1 < x ∧ x < w0 then (w0, x) else (w0, w1)

/-- The same on bytes. -/
def smaxBytes (old x : List Byte) : List Byte :=
  let w := smaxOffer (fieldAt old 0 8) (fieldAt old 8 8) (leNat x)
  leBytes 8 w.1 ++ leBytes 8 w.2

/-- What an atomic access makes of the bytes at an item's address. -/
def AccKind.update (k : AccKind) (i : LaneAcc) (old : List Byte) : List Byte :=
  match k with
  | .atom op w64 _ _ => atomBytes op w64 old i.data i.cmp
  | .amo op _ => atomBytes (amoOp op) true old i.data []
  | .smaxpk _ _ => smaxBytes old i.data
  | _ => old

/-- The items applied one after another in device memory, each seeing what those before it left: the earlier bytes of each, and the
state (R157). -/
def State.atomItems (s : State) (k : AccKind) : List LaneAcc → List (Nat × List Byte) × State
  | [] => ([], s)
  | i :: l =>
    let old := memGetN s.mem i.addr i.size
    let r := (s.homeWrite (bytesAt i.addr (k.update i old))).atomItems k l
    ((i.lane, old) :: r.1, r.2)

/-- The same in scratch. -/
def scratchAtoms (k : AccKind) : List LaneAcc → Memory → List (Nat × List Byte) × Memory
  | [], m => ([], m)
  | i :: l, m =>
    let old := scratchItem m i
    let r := scratchAtoms k l (if i.live then storeAll m (bytesAt i.addr (k.update i old)) else m)
    ((i.lane, old) :: r.1, r.2)

/-! ## Delivery (R356) -/

/-- A value delivered into a register that took its shape, slot and count at issue. -/
def Group.deliverV (g : Group) (pbase : Nat) (shadow : Bool) (w : LaneMask) (n : Nat) (t : Tag) : Group :=
  if w = 0#96 then g
  else if shadow && inWindow pbase n then
    match aget g.shadows n with
    | some sh => { g with shadows := aset g.shadows n
                            { sh with words := laneList.map fun l => if w.getLsbD l then t.lane l else sh.words.getD l 0#32 } }
    | none => g
  else { g with vregs := aset g.vregs n { g.vreg n with tag := Tag.merge w t (g.vreg n).tag } }

/-- The word that register `k` of a load's group receives (R358). -/
def loadWord (w : LdWidth) (bs : List Byte) (k : Nat) : W32 :=
  match w with
  | .s8 => ((BitVec.ofNat 8 (fieldAt bs 0 1)).signExtend 32)
  | .s16 => ((BitVec.ofNat 16 (fieldAt bs 0 2)).signExtend 32)
  | _ => BitVec.ofNat 32 (fieldAt bs (4 * k) 4)

/-- The bytes of a lane in a list of results. -/
def laneBytes (l : List (Nat × List Byte)) (lane : Nat) : List Byte := ((l.find? fun e => e.1 == lane).map (·.2)).getD []

/-- The words of one register, lane by lane, of results in bytes; one result serves every lane where one read did. -/
def resultReg (w : LdWidth) (unif : Bool) (l : List (Nat × List Byte)) (k : Nat) : Tag :=
  if unif then .uniform (loadWord w ((l.head?.map (·.2)).getD []) k) else Tag.ofLanes fun lane => loadWord w (laneBytes l lane) k

/-- The registers `d`, `d + 1`, … with results delivered. -/
def Group.deliverAll (g : Group) (pbase : Nat) (a : Access) (w : LdWidth) (unif : Bool) (l : List (Nat × List Byte)) :
    List (VReg × Nat) → Group
  | [] => g
  | (d, k) :: r => (g.deliverV pbase a.shadow a.active d.toNat (resultReg w unif l k)).deliverAll pbase a w unif l r

/-- A register group with its places in it. -/
def regPlaces (d : VReg) (n : Nat) : List (VReg × Nat) := (regsFrom d n).zip (List.range n)

/-- The bit a lane of a packed predicate receives (R359). -/
def packedBit (l : List (Nat × List Byte)) (lane : Nat) : Bool :=
  (BitVec.ofNat 32 (leNat (laneBytes l (lane / 32)))).getLsbD (lane % 32)

/-- The results of an access reach its group. -/
def Group.receive (g : Group) (pbase : Nat) (a : Access) (l : List (Nat × List Byte)) : Group :=
  match a.kind with
  | .load w d unif => g.deliverAll pbase a w unif l (regPlaces d (ldCount w))
  | .atom _ w64 ret d =>
    if ret then g.deliverAll pbase a (if w64 then .b64 else .b32) false l (regPlaces d (if w64 then 2 else 1)) else g
  | .smaxpk ret d => if ret then g.deliverAll pbase a .b64 false l (regPlaces d 2) else g
  | .pld d each =>
    if a.active = 0#96 then g
    else g.setPred d a.active (maskOf fun lane => if each then leNat (laneBytes l lane) != 0 else packedBit l lane)
  | .deliver regs p bits =>
    let g := regs.foldl (fun g e => g.deliverV pbase a.shadow a.active e.1.toNat
      (if e.2.1 then .uniform ((e.2.2.head?.map (·.2)).getD 0#32) else Tag.ofLanes fun lane => (aget e.2.2 lane).getD 0#32)) g
    if p = 0#4 ∨ a.active = 0#96 then g else g.setPred p a.active bits
  | .scalarLoad d signed =>
    let bs := laneBytes l 0
    let v := BitVec.ofNat 64 (leNat bs)
    let n := 64 - 8 * bs.length
    g.setSreg d (if signed then (v <<< n).sshiftRight n else v)
  | .amo _ d => g.setSreg d (BitVec.ofNat 64 (leNat (laneBytes l 0)))
  | .store | .reserved _ => g
  | .mma _ _ _ _ => g

/-! ## Performing -/

/-- The accesses to memory that an access makes, and the bytes it read. -/
def State.performBytes (s : State) (r : GRef) (t : Team) (a : Access) : List (Nat × List Byte) × State :=
  let c := clusterOf t.core
  let wide := scopeWide a.scope || a.home
  match a.kind with
  | .load _ _ _ | .pld _ _ | .scalarLoad _ _ =>
    if a.scratch then (a.items.map fun i => (i.lane, scratchItem t.scratch i), s) else s.fetchItems c wide a.items
  | .store =>
    if a.scratch then ([], s.updTeam r.team fun t => { t with scratch := scratchPut t.scratch a.items })
    else
      let s := s.putItems r c wide a.items
      ([], if scopeWide a.scope then s.notice t.tenant (storedBytes a.items) else s)
  | .atom _ _ _ _ | .smaxpk _ _ | .amo _ _ =>
    if a.scratch then
      let x := scratchAtoms a.kind a.items t.scratch
      (x.1, s.updTeam r.team fun t => { t with scratch := x.2 })
    else
      match a.items with
      | [] => ([], s)
      | _ => (s.openLines c (a.items.map LaneAcc.addrs).flatten).atomItems a.kind a.items
  | .deliver _ _ _ | .reserved _ | .mma _ _ _ _ => ([], s)

/-- The lines of device memory that an access touches. -/
def Access.lines (a : Access) : List Nat := if a.scratch then [] else ((a.items.map LaneAcc.addrs).flatten.map (· / 128)).dedup

/-- An access of group `r` is performed as one event: a wide release writes back first, a promoting read has other clusters write back,
the bytes are read and written, a narrow release marks what the group has written, its own bytes among them, an acquire drops the clean
blocks, and the results arrive (R155, R156, R199). A scratch access orders at group or team scope only. -/
def State.perform (s : State) (r : GRef) (a : Access) : State :=
  match s.team? r.team with
  | none => s
  | some t =>
    let c := clusterOf t.core
    let wide := scopeWide a.scope && !a.scratch
    let s := if a.isRelease && wide then s.release r c true else s
    let s := if a.promote then s.promote c (a.items.map LaneAcc.addrs).flatten else s
    let x := s.performBytes r t a
    let s := if a.isRelease && !wide then x.2.markReleased r c a.lines else x.2
    let s := if a.isAcquire then s.acquire c wide else s
    s.updGroup r fun g => { g.receive t.pbase a x.1 with accesses := markDone a.id g.accesses }

/-- Access `id` of group `r` is performed, where it may be and is of the kind the event names. -/
def performEvent (r : GRef) (id : Nat) (which : Access → Bool) (s : State) : Host.Outcome State Fault Refusal :=
  runEvent (do
    let g ← getGroup r
    let a ← must (g.ready id)
    need (which a)
    change fun s => s.perform r a) s

/-- Issue an access; one that is an ordered operation at its turn is performed at once, at the home slices (R108). -/
def issueAccess (now : Bool) (a : Access) : M Unit := do
  pushAccess { a with home := now }
  if now && !a.void then
    let r ← here
    let g ← hereG
    let x ← must (g.ready (g.nextId - 1))
    change fun s => s.perform r x
  else pure ()

end Sys2Proof.Machine
end

