-- ==== Sys2Proof/Machine/Knots.lean ====
section
/-! DEFINITION. Timelines that a group waits on (R162, R163, R318) and knots (R165 to R168, R319). -/

namespace Sys2Proof.Machine

/-! ## Timelines -/

/-- The value of the timeline a name names, or TRAP(BAD_HANDLE) (R163). -/
def timelineValue (name : W64) : M Nat := do
  let t ← hereT
  let i := name.toNat % 2 ^ 28
  if 2 ^ 32 ≤ name.toNat then trap .badHandle
  else
    match name.toNat / 2 ^ 28 with
    | 4 => if i < 8 then orTrap ((t.ctxs[i]?).map (·.timeline)) .badHandle else trap .badHandle
    | 5 => if i = 0 then orTrap ((t.ctxs[8]?).map (·.timeline)) .badHandle else trap .badHandle
    | _ => orTrap (← look fun s => s.timeline? t.tenant name.toNat) .badHandle

/-- Some command of a context numbered up to `v` had device or system scope. -/
def Ctx.wideBy (c : Ctx) (v : Nat) : Bool := c.wide.any (· ≤ v)

/-- A wait for value `v` of the timeline a name names acquires at device scope (R163): of a context of the team, where one of the commands
up to `v` had that scope; of any other timeline, always. -/
def Team.wideName (t : Team) (name : W64) (v : Nat) : Bool :=
  match name.toNat / 2 ^ 28 with
  | 4 => (t.ctxs[name.toNat % 2 ^ 28]?).any (·.wideBy v)
  | 5 => (t.ctxs[8]?).any (·.wideBy v)
  | _ => true

/-- The acquire of a wait that returns (R163, R167): at device scope the cluster's clean blocks go; a narrower one needs nothing beyond the
cluster cache. -/
def acquireEdge (wide : Bool) : M Unit := do
  let t ← hereT
  change fun s => s.acquire (clusterOf t.core) wide

/-- twait (R163, R318). -/
def execTwait (d a : SReg) (s : State) : Host.Outcome State Fault Refusal :=
  runScalar (fun _ => do
    let v ← readS d
    let name ← readS a
    let n ← timelineValue name
    waitUnless (v.toNat ≤ n)
    if v = 0 then pure () else acquireEdge ((← hereT).wideName name v.toNat)) s

/-- tread (R163, R318). -/
def execTread (d a : SReg) (s : State) : Host.Outcome State Fault Refusal :=
  runScalar (fun _ => do
    let name ← readS a
    let n ← timelineValue name
    acquireEdge ((← hereT).wideName name n)
    writeS d (BitVec.ofNat 64 n)) s

/-! ## Knots -/

/-- The completion check after each operation (R166). The scopes of what the phase has received pass to those who wait for it (R167). -/
def Knot.check (k : Knot) : Knot :=
  if k.pend = 0 ∧ k.bytes = 0 then 
    { k with phase := !k.phase, pend := k.expect, wide := false, last := k.wide, stamp := 0, lastStamp := k.stamp }
  else k

/-- A group that waits on knot `n`. -/
def Group.waitsOn (g : Group) (n : Nat) : Bool := g.blocked.any (·.1 == n)

/-- The last group arrival on knot `n`, with stamp `c`: every group waiting on it raises its LCLOCK and rejoins the ranges (R109). -/
def Team.rejoin (t : Team) (n c : Nat) : Team :=
  let up (g : Group) : Nat := if g.waitsOn n then max g.lclock.toNat (c + 1) - g.lclock.toNat else 0
  { t with quantum := t.quantum + (t.groups.map fun e => up e.2).sum,
           groups := amap t.groups fun _ g =>
             if g.waitsOn n then { g with lclock := g.lclock + BitVec.ofNat 64 (up g), blocked := some (n, false) } else g }

/-- A phase of knot `n` has completed: the groups waiting for it wait no longer. -/
def Team.release (t : Team) (n : Nat) : Team :=
  { t with groups := amap t.groups fun _ g => if g.waitsOn n then { g with blocked := none } else g }

/-- Knot `n` of a team after an operation: its new value, the completion check, and what either does to the waiting groups. `last`
is the stamp of an arrival that was the phase's last. -/
def Team.knotOp (t : Team) (n : Nat) (k : Knot) (last : Option Nat) : Team :=
  let t := match last with | some c => t.rejoin n c | none => t
  let k' := k.check
  let t := { t with knots := t.knots.set n k' }
  if k'.phase != k.phase then t.release n else t

/-- A knot of a team. -/
def Team.knot (t : Team) (n : Nat) : Knot := t.knots.getD n (freshKnot t.ngroups)

/-- The stamp that the groups waiting on a knot take up at the phase's last arrival, made with stamp `c` (R109): in an ordered launch the
highest of the phase, since which of its arrivals comes last in time may differ from run to run, and no stamp may (R220). Log entry 93. -/
def Team.joinStamp (t : Team) (k : Knot) (c : Nat) : Nat := if t.isOrdered then max c (k.stamp - 1) else c

/-- An arrival on knot `n` with stamp `c`, a release at device scope or at team scope; none when the phase awaits no arrival (R166,
R167). -/
def Team.arrive (t : Team) (n c : Nat) (wide : Bool) : Option Team :=
  let k := t.knot n
  if k.pend = 0 then none
  else some (t.knotOp n { k with pend := k.pend - 1, wide := k.wide || wide, stamp := max k.stamp (c + 1) }
    (if k.pend = 1 then some (t.joinStamp k c) else none))

/-- The knot number that a register names, for every form but knot.arrive (R319). -/
def knotName (a : W64) : M Nat := do
  unlessTrap (a.toNat < 16) .knotRange
  return a.toNat

/-- knot.init (R166, R319). -/
def execKnotInit (d a : SReg) (s : State) : Host.Outcome State Fault Refusal :=
  runScalar (fun _ => do
    let e ← readS d
    let n ← knotName (← readS a)
    let t ← hereT
    let k := t.knot n
    unlessTrap (1 ≤ e.toNat && e.toNat ≤ 255) .knotRange
    unlessTrap (!(t.groups.any fun g => g.2.waitsOn n) && k.bytes == 0 && k.pend == k.expect) .knotBusy
    change fun s => s.updTeam s.focus.team fun t => t.knotOp n { k with expect := e.toNat, pend := e.toNat } none) s

/-- knot.expect (R166, R319). -/
def execKnotExpect (d a : SReg) (s : State) : Host.Outcome State Fault Refusal :=
  runScalar (fun _ => do
    let n64 ← readS d
    let n ← knotName (← readS a)
    let t ← hereT
    let k := t.knot n
    let b := k.bytes + n64.toInt
    unlessTrap (-(2 ^ 46) ≤ b && b < 2 ^ 46) .knotRange
    change fun s => s.updTeam s.focus.team fun t => t.knotOp n { k with bytes := b } none) s

/-- The group in focus, in an ordered launch, has LCLOCK at least `v`: a group that finds the arrivals made takes their stamp up as one that
waited for them does (R109, R220). -/
def catchUp (v : Nat) : M Unit := do
  if ← isOrdered then
    let g ← hereG
    change fun s => s.tick s.focus (v - g.lclock.toNat)
  else pure ()

/-- knot.wait (R166, R167, R319): it waits while the phase is `p`, out of the ranges of R108 while it awaits an arrival (R109). -/
def execKnotWait (d a : SReg) (s : State) : Host.Outcome State Fault Refusal :=
  runScalar (fun _ => do
    let p ← readS d
    let n ← knotName (← readS a)
    unlessTrap (p.toNat < 2) .knotRange
    let t ← hereT
    let k := t.knot n
    if k.phase == (p == 1#64) then
      if k.pend = 0 then catchUp k.stamp else pure ()
      modHere fun g => { g with blocked := some (n, k.pend != 0) }
      hold
    else
      modHere fun g => { g with blocked := none }
      catchUp k.lastStamp
      acquireEdge k.last) s

/-- Teams of a launch (R117). -/
def Launch.teamCount (l : Launch) : Nat := l.gx * l.gy * l.gz

/-- The resident team `tid` of a launch: its key. -/
def State.residentTeam (s : State) (l tid : Nat) : Option Nat :=
  (s.teams.find? fun e => e.2.launch == some l && e.2.tid == tid && !e.2.ended).map (·.1)

/-- An arrival from another team is discarded and counted (R50, R166, R168). -/
def State.dropArrival (s : State) (tenant : Nat) : State := s.updTenant tenant fun x => { x with knotdisc := x.knotdisc + 1 }

/-- An arrival from another team applied to the knot of a resident team (R166, R168). -/
def State.applyArrival (s : State) (key tenant n c : Nat) : State :=
  match s.team? key with
  | none => s
  | some t =>
    match t.arrive n c true with
    | some t' => s.setTeam key t'
    | none => s.dropArrival tenant

/-- An arrival reaches another team (R168): the knot of a resident team; held for a team not placed yet, or pre-empted; discarded for one
that has retired or ended. -/
def State.deliverArrival (s : State) (launch : Nat) (a : Nat × Nat × Nat) : State :=
  match s.launch? launch with
  | none => s
  | some l =>
    match s.residentTeam launch a.1 with
    | some key => s.applyArrival key l.tenant a.2.1 a.2.2
    | none =>
      if l.saved.any (·.2.tid == a.1) || (l.next ≤ a.1 && !l.exited.contains a.1) then
        s.updLaunch launch fun l => { l with held := l.held ++ [a] }
      else s.dropArrival l.tenant

/-- An arrival on another team's knot leaves its group: as an ordered operation it is performed at its turn (R107, R108); otherwise it is on
its way (R168). -/
def State.sendArrival (s : State) (t : Team) (a : Nat × Nat × Nat) : State :=
  match t.launch with
  | none => s
  | some l =>
    if t.isOrdered then s.deliverArrival l a
    else s.updLaunch l fun l => { l with arrivals := l.arrivals ++ [a] }

/-- knot.arrive (R166 to R168, R319): on a knot of the group's own team it takes effect at once; one on another team's knot goes out
to it, an ordered operation in an ordered launch (R107). -/
def execKnotArrive (a : SReg) (s : State) : Host.Outcome State Fault Refusal :=
  runScalar (fun g => do
    let x ← readS a
    let t ← hereT
    let other := x.getLsbD 31
    let team := x.toNat / 2 ^ 32
    let n := x.toNat % 16
    let count ← look fun s => ((t.launch.bind s.launch?).map Launch.teamCount).getD 1
    unlessTrap (x.toNat / 16 % 2 ^ 27 == 0 && (other || team == 0) && team < count) .knotRange
    if !other || team = t.tid then
      releaseHere false
      match (← hereT).arrive n g.lclock.toNat false with
      | none => trap .knotOverarrive
      | some t' => change fun s => s.setTeam s.focus.team t'
    else
      awaitTurn (.knotArrive a) false []
      releaseHere true
      change fun s => s.sendArrival t (team, n, g.lclock.toNat)) s

/-- An arrival on its way to another team is delivered (R168). -/
def execKnotRemoteArrival (launch index : Nat) (s : State) : Host.Outcome State Fault Refusal :=
  runEvent (do
    let l ← getLaunch launch
    let a ← must l.arrivals[index]?
    change fun s => s.updLaunch launch fun l => { l with arrivals := l.arrivals.eraseIdx index }
    change fun s => s.deliverArrival launch a) s

end Sys2Proof.Machine
end

