-- ==== Sys2Proof/Machine/ScalarMem.lean ====
section
/-! DEFINITION. Scalar loads, stores and amo (R307, R308). -/

namespace Sys2Proof.Machine

/-- Bytes of a scalar access (R291, R307). -/
def szBytes : SSize → Nat
  | .b => 1
  | .h => 2
  | .w => 4
  | .d => 8

/-- The address of a scalar access, or TRAP(MISALIGNED) (R307). -/
def scalarEA {k : Nat} (a : SReg) (i : BitVec k) (n : Nat) : M Nat := do
  let ea := (← readS a) + sext64 i
  if ea.toNat % n ≠ 0 then trapAt .misaligned none 0 ea else return ea.toNat

/-- A scalar load: the value arrives later (R158, R307). -/
def scalarLoad (d a : SReg) (z : SSize) (signed : Bool) (i : BitVec 12) (s : State) : Host.Outcome State Fault Refusal :=
  runScalar (fun g => do
    let ea ← scalarEA a i (szBytes z)
    let pa ← xlateVA g.mode none ea needR
    modHere fun g => { g with accesses := g.accesses.map (·.dropSreg d) }
    issueAccess false { newAccess (.scalarLoad d signed) with items := [scalarItem pa (szBytes z) []] }) s

/-- ld (R307). -/
def execScalarLd (d a : SReg) (z : SSize) (i : BitVec 12) (s : State) : Host.Outcome State Fault Refusal := scalarLoad d a z false i s

/-- lds (R307). -/
def execScalarLds (d a : SReg) (z : SSize) (i : BitVec 12) (s : State) : Host.Outcome State Fault Refusal := scalarLoad d a z true i s

/-- The group in focus may perform plain accesses to these bytes now: no acquire is outstanding, nor an access to one of them
(R199, R357). -/
def needBytes (addrs : List Nat) : M Unit := do
  let g ← hereG
  need (g.noAcquire && g.bytesFree false addrs)

/-- Bytes as a plain access of the group in focus reads them now. -/
def readNow (addrs : List Nat) : M (List Byte) := do
  needBytes addrs
  let t ← hereT
  look fun s => addrs.map (s.cachedByte (clusterOf t.core))

/-- Bytes stored by a plain store of the group in focus now. -/
def writeNow (l : List (Nat × Byte)) : M Unit := do
  needBytes (l.map (·.1))
  let t ← hereT
  change fun s => s.storeBytes s.focus (clusterOf t.core) false l

/-- st (R307). -/
def execScalarSt (d a : SReg) (z : SSize) (i : BitVec 12) (s : State) : Host.Outcome State Fault Refusal :=
  runScalar (fun g => do
    let v ← readS d
    let ea ← scalarEA a i (szBytes z)
    let pa ← xlateVA g.mode none ea needW
    writeNow (bytesAt pa (leBytes (szBytes z) v.toNat))) s

/-- amo (R308): an .ar access at device scope, performed at the home slice. -/
def execAmo (op : AmoOp) (d a : SReg) (i : BitVec 8) (s : State) : Host.Outcome State Fault Refusal :=
  runScalar (fun g => do
    let v ← readS d
    let base ← readS a
    unlessTrap (!(← isOrdered)) .orderedScope
    let ea := base + sext64 i
    if ea.toNat % 8 ≠ 0 then trapAt .misaligned none 0 ea else pure ()
    let pa ← xlateVA g.mode none ea.toNat needRW
    modHere fun g => { g with accesses := g.accesses.map (·.dropSreg d) }
    issueAccess false { newAccess (.amo op d) with scope := .dev, order := .ar, items := [scalarItem pa 8 (leBytes 8 v.toNat)] }) s

/-- The value of a scalar ld, lds or amo arrives (R158, R307, R308). -/
def execScalarLoadReturn (g : GRef) (id : Nat) (s : State) : Host.Outcome State Fault Refusal :=
  performEvent g id (fun a => match a.kind with | .scalarLoad _ _ => true | .amo _ _ => true | _ => false) s

end Sys2Proof.Machine
end

