-- ==== Sys2Proof/Machine/Engines.lean ====
section
/-! DEFINITION. The copy and gather engines: acopy, acopyx, agath and rcopy, their commands' completion and their failure (R162,
R166, R234, R313 to R316). -/

namespace Sys2Proof.Machine

/-! ## Descriptors (R313) -/

/-- The fields of a descriptor; `kind` is SEL, 0 acopy, 1 acopyx, 2 agath, 3 rcopy. -/
def engineDesc (kind : Nat) (bs : List Byte) : EngineDesc :=
  { kind := kind, src := fieldAt bs 0 8, dst := fieldAt bs 8 8, bytes := fieldAt bs 0x10 8, rows := fieldAt bs 0x18 4,
    ctx := fieldAt bs 0x1C 1, knot := fieldAt bs 0x1D 1, flags := fieldAt bs 0x1E 1, scope := fieldAt bs 0x1F 1,
    sstride := fieldAt bs 0x20 8, dstride := fieldAt bs 0x28 8, comm := fieldAt bs 0x30 4, peer := fieldAt bs 0x34 4,
    idx := fieldAt bs 0x38 8 }

/-- The fields keep R313 and KNOT's range. -/
def EngineDesc.valid (d : EngineDesc) : Bool :=
  let plain := d.bytes ≤ 2 ^ 40 && d.rows == 0 && d.sstride == 0 && d.dstride == 0
  let rowed := 1 ≤ d.bytes && d.bytes ≤ 2 ^ 24 && 1 ≤ d.rows && d.rows ≤ 2 ^ 20
  (d.knot ≤ 15 || d.knot == 0xFF) && d.ctx ≤ 7 && 1 ≤ d.scope && d.scope ≤ 4 &&
  (match d.kind with
   | 0 => plain && d.flags ≤ 3 && d.comm == 0 && d.peer == 0 && d.idx == 0
   | 1 => rowed && d.flags ≤ 3 && d.comm == 0 && d.peer == 0 && d.idx == 0
   | 2 => rowed && d.ctx == 0 && (d.flags == 2 || d.flags == 3) && d.comm == 0 && d.peer == 0 && d.idx % 4 == 0
   | _ => plain && d.flags ≤ 7 && d.scope == 4 && d.idx == 0)

/-- rcopy writes to its peer. -/
def EngineDesc.put (d : EngineDesc) : Bool := d.kind == 3 && d.flags / 4 % 2 == 1

/-- The source is a scratch offset of this team. -/
def EngineDesc.srcScratch (d : EngineDesc) : Bool := d.flags % 2 == 1 && (d.kind != 3 || d.put)

/-- The destination is a scratch offset of this team. -/
def EngineDesc.dstScratch (d : EngineDesc) : Bool := d.flags / 2 % 2 == 1 && !d.put

/-- The rows of a command. -/
def EngineDesc.rowCount (d : EngineDesc) : Nat := max d.rows 1

/-- The start of row `i` of a side, modulo 2^64. -/
def rowStart (base stride i : Nat) : Nat := (base + i * stride) % 2 ^ 64

/-- No scratch row that the descriptor settles lies beyond the team's scratch range (R314). A gather's source rows depend on its
indices. -/
def EngineDesc.scratchFits (d : EngineDesc) (size : Nat) : Bool :=
  let fits (base stride : Nat) : Bool := (List.range d.rowCount).all fun i => rowStart base stride i + d.bytes ≤ size
  (!d.srcScratch || d.kind == 2 || fits d.src d.sstride) && (!d.dstScratch || fits d.dst d.dstride)

/-- The context that carries a command: the gather context is the ninth. -/
def EngineDesc.context (d : EngineDesc) : Nat := if d.kind = 2 then 8 else d.ctx

/-! ## Issue (R314) -/

/-- What rcopy answers instead of queueing: COMM not held or PEER out of place, or COMM broken. -/
def rcopyRefusal (x : Option Tenant) (d : EngineDesc) : Option Int :=
  if d.kind != 3 then none
  else
    match x.bind fun x => if d.comm / 2 ^ 28 = 3 then aget x.comms (d.comm % 2 ^ 28) else none with
    | none => some (-2)
    | some c =>
      if c.phase == .building || c.members.length ≤ d.peer || d.peer == c.rank then some (-2)
      else if c.broken.isSome then some (-3)
      else none

/-- A command as it is queued. -/
def newCommand (n : Nat) (d : EngineDesc) (group : Nat) (m : Mode) : EngineCmd :=
  { seq := n, desc := d, group := group, mode := m, begun := false, sent := 0, stored := 0, got := [], refused := none }

/-- The context with one more command. -/
def Ctx.queue (c : Ctx) (d : EngineDesc) (group : Nat) (m : Mode) : Ctx :=
  { c with issued := c.issued + 1, wide := c.wide.or (if 3 ≤ d.scope then some (c.issued + 1) else none),
           cmds := c.cmds ++ [newCommand (c.issued + 1) d group m] }

/-- An engine instruction (R314). -/
def engineIssue (kind : Nat) (d a : SReg) (s : State) : Host.Outcome State Fault Refusal :=
  runScalar (fun g => do
    let x ← readS a
    if x.toNat % 64 ≠ 0 then trapAt .misaligned none 0 x else pure ()
    let addrs ← xlateBytes g.mode none x.toNat 64 needR
    let e := engineDesc kind (← readNow addrs)
    let t ← hereT
    let r ← here
    let x ← look fun s => s.tenant? t.tenant
    match if e.valid && e.scratchFits t.scratchBytes then rcopyRefusal x e else some (-2) with
    | some n => writeS d (BitVec.ofInt 64 n)
    | none =>
      let c := t.ctxs.getD e.context freshCtx
      waitUnless (c.cmds.length < 64)
      releaseHere (3 ≤ e.scope)
      modTeam r.team fun t => { t with ctxs := lupd t.ctxs e.context fun c => c.queue e r.group g.mode }
      writeS d (BitVec.ofNat 64 (c.issued + 1))) s

/-- acopy (R313, R314). -/
def execAcopy (d a : SReg) (s : State) : Host.Outcome State Fault Refusal := engineIssue 0 d a s

/-- acopyx (R313, R314). -/
def execAcopyx (d a : SReg) (s : State) : Host.Outcome State Fault Refusal := engineIssue 1 d a s

/-- agath (R313, R314). -/
def execAgath (d a : SReg) (s : State) : Host.Outcome State Fault Refusal := engineIssue 2 d a s

/-- rcopy (R313, R314, R316). -/
def execRcopy (d a : SReg) (s : State) : Host.Outcome State Fault Refusal := engineIssue 3 d a s

/-! ## The bytes of a command (R313, R315) -/

/-- Where a byte of a command lies: in device memory, in the team's scratch, in a scratch row beyond the range, behind a failed
translation with the address BADADDR holds, or at a physical address that does not exist. -/
inductive Loc where
  | dev (pa : Nat)
  | scr (off : Nat)
  | beyond
  | bad (addr : Nat)
  | gone
  deriving DecidableEq, Repr

/-- The places of `n` bytes of device memory from `va` upward, page by page. -/
def State.pagePlaces (s : State) (t core : Nat) (mode : Mode) (nd : Need) : Nat → Nat → Nat → List Loc
  | 0, _, _ => []
  | fuel + 1, va, n =>
    if n = 0 then []
    else
      let k := min n (65536 - va % 65536)
      let here := match s.translate t core mode va nd with
        | .ok pa => (List.range k).map fun i => Loc.dev (pa + i)
        | .fail _ b => List.replicate k (Loc.bad b)
        | .gone => List.replicate k Loc.gone
      here ++ s.pagePlaces t core mode nd fuel (va + k) (n - k)

/-- The places of a row in device memory; one that reaches 2^48 fails as a whole (R169). -/
def State.rowPlaces (s : State) (t core : Nat) (mode : Mode) (nd : Need) (va n : Nat) : List Loc :=
  if 2 ^ 48 < va + n then List.replicate n (Loc.bad (va % 2 ^ 48)) else s.pagePlaces t core mode nd (n / 65536 + 2) va n

/-- The places of a row in scratch. -/
def scratchPlaces (size off n : Nat) : List Loc :=
  if off + n ≤ size then (List.range n).map fun i => Loc.scr (off + i) else List.replicate n Loc.beyond

/-- The bytes that a command at a scope reads from its issuing group's cluster. -/
def State.engineByte (s : State) (t : Team) (wide : Bool) (n k : Nat) : Loc → Byte
  | .dev pa => if wide then memGet s.mem pa else s.cachedByte (clusterOf t.core) pa
  | .scr off => memGet t.scratch off
  | _ => Config.gatherByte n k

/-- The source of row `i` of a command: the places of its bytes, and those of the index word that a gather reads first. -/
def State.sourceRow (s : State) (t : Team) (c : EngineCmd) (i : Nat) : List Loc × List Loc :=
  let d := c.desc
  if d.kind = 2 then
    let w := s.rowPlaces t.tenant t.core c.mode needR ((d.idx + 4 * i) % 2 ^ 64) 4
    let ix := leNat (w.map (s.engineByte t (3 ≤ d.scope) 0 0))
    let start := rowStart d.src d.sstride ix
    (w, if d.srcScratch then scratchPlaces t.scratchBytes start d.bytes else s.rowPlaces t.tenant t.core c.mode needR start d.bytes)
  else
    let start := rowStart d.src d.sstride i
    ([], if d.srcScratch then scratchPlaces t.scratchBytes start d.bytes else s.rowPlaces t.tenant t.core c.mode needR start d.bytes)

/-- The destination of row `i` of a command. -/
def State.destRow (s : State) (t : Team) (c : EngineCmd) (i : Nat) : List Loc :=
  let d := c.desc
  let start := rowStart d.dst d.dstride i
  if d.dstScratch then scratchPlaces t.scratchBytes start d.bytes else s.rowPlaces t.tenant t.core c.mode needW start d.bytes

/-- A row of a command: the index word's places, and each byte's source and destination. -/
structure Row where
  index : List Loc
  moves : List (Loc × Loc)

/-- The rows of a copy or gather, in ascending order. An index word that cannot be read leaves its row no source. -/
def State.engineRows (s : State) (t : Team) (c : EngineCmd) : List Row :=
  (List.range c.desc.rowCount).map fun i =>
    let src := s.sourceRow t c i
    let ok := src.1.all fun x => match x with | .bad _ => false | .gone => false | _ => true
    { index := src.1, moves := if ok then src.2.zip (s.destRow t c i) else [] }

/-- The places of a row. -/
def Row.places (r : Row) : List Loc := r.index ++ (r.moves.map fun m => [m.1, m.2]).flatten

/-- The addresses at which translation fails. -/
def badPlaces (l : List Loc) : List Nat := l.filterMap fun x => match x with | .bad a => some a | _ => none

/-- The places are all there. -/
def anyGone (l : List Loc) : Bool := l.any fun x => x == .gone

/-- The moves that write a byte from which the `k`-th byte of command number `n` may take its value: those of lower rank. -/
def overlapWriters (moves : List (Loc × Loc)) (n k : Nat) (x : Loc) : List Nat :=
  (List.range moves.length).filter fun j =>
    (moves[j]?).any (fun m => m.2 == x) && Config.overlapRank n j < Config.overlapRank n k

/-- The byte whose value the `k`-th byte of command number `n`, read at `x`, moves (R315): with its own number and place where it is read as
before the command, or else the byte of another move that writes `x`, whose own value is found in the same way. Ranks fall along the way,
so that as many links as there are moves reach its end. -/
def overlapFrom (moves : List (Loc × Loc)) (n : Nat) : Nat → Nat → Loc → Nat × Loc
  | 0, k, x => (k, x)
  | f + 1, k, x =>
    if moves.any (fun m => m.2 == x) then
      let ws := overlapWriters moves n k x
      match ws[Config.overlapPick n k % (ws.length + 1)]? with
      | none => (k, x)
      | some j => overlapFrom moves n f j ((moves[j]?.map (·.1)).getD x)
    else (k, x)

/-- The value that the `k`-th byte of command number `n` moves, where `old` gives a byte's value before the command. -/
def movedValue (old : Nat → Loc → Byte) (moves : List (Loc × Loc)) (n k : Nat) (x : Loc) : Byte :=
  let y := overlapFrom moves n moves.length k x
  old y.1 y.2

/-- The values that the moves write, with their places, in order, where `old` gives a byte's value before the command. -/
def movedAll (old : Nat → Loc → Byte) (moves : List (Loc × Loc)) (n : Nat) : List (Loc × Byte) :=
  ((List.range moves.length).zip moves).map fun e => (e.2.2, movedValue old moves n e.1 e.2.1)

/-- The values that the moves of an engine command write. -/
def State.movedBytes (s : State) (t : Team) (wide : Bool) (moves : List (Loc × Loc)) (n : Nat) : List (Loc × Byte) :=
  movedAll (fun k x => s.engineByte t wide n k x) moves n

/-- The bytes for device memory. -/
def devBytes (l : List (Loc × Byte)) : List (Nat × Byte) :=
  l.filterMap fun e => match e.1 with | .dev pa => some (pa, e.2) | _ => none

/-- The bytes for scratch. -/
def scrBytes (l : List (Loc × Byte)) : List (Nat × Byte) :=
  l.filterMap fun e => match e.1 with | .scr off => some (off, e.2) | _ => none

/-- The writes of a command, performed at its scope; scratch writes at team scope. Its completion is a release of them (R201, R315): narrow,
they are marked released. -/
def State.engineWrite (s : State) (r : GRef) (t : Team) (wide : Bool) (l : List (Loc × Byte)) : State :=
  let c := clusterOf t.core
  let s := match devBytes l with
    | [] => s
    | b => if wide then s.storeBytes r c true b else (s.storeBytes r c false b).markReleased r c (b.map fun x => x.1 / 128).dedup
  match scrBytes l with | [] => s | b => s.updTeam r.team fun t => { t with scratch := storeAll t.scratch b }

/-- Before a command at a wide scope reads: its cluster's own dirty bytes at its sources go home (R155, R205). -/
def State.openSources (s : State) (t : Team) (wide : Bool) (l : List Loc) : State :=
  match l.filterMap fun x => match x with | .dev pa => some pa | _ => none with
  | [] => s
  | a => if wide then s.openLines (clusterOf t.core) a else s

/-- The state in which a gather's index words are read. -/
def State.openIndex (s : State) (t : Team) (c : EngineCmd) : State :=
  s.openSources t (3 ≤ c.desc.scope)
    (if c.desc.kind = 2 then ((List.range c.desc.rowCount).map fun i => (s.sourceRow t c i).1).flatten else [])

/-! ## rcopy's frames (R316) -/

/-- INST of every frame of an rcopy. -/
def rcopyInst : Nat := 2 ^ 64 - 1

/-- The local side of an rcopy: its bytes' places. -/
def State.localPlaces (s : State) (t : Team) (c : EngineCmd) : List Loc :=
  if c.desc.put then (s.sourceRow t c 0).2 else s.destRow t c 0

/-- Send a message of an rcopy. -/
def State.sendRcopy (s : State) (t ci rank : Nat) (m : RcopyMsg) : State :=
  let p := Config.rcopyFrame m
  s.sendFrame t ci rank 3 rcopyInst p.1 p.2

/-- A byte string in pieces of at most `n`, each with its offset, from offset `off`. -/
def chunksOf (n off : Nat) : Nat → List Byte → List (Nat × List Byte)
  | 0, _ => []
  | fuel + 1, bs => if bs.isEmpty then [] else (off, bs.take n) :: chunksOf n (off + n) fuel (bs.drop n)

/-- A byte string in pieces that end at the multiples of `n` from address `base`, so that no aligned part is cut. -/
def chunksAt (n base : Nat) (bs : List Byte) : List (Nat × List Byte) :=
  if bs.isEmpty then [] else
    let head := n - base % n
    (0, bs.take head) :: chunksOf n head (bs.length + 1) (bs.drop head)

/-- Send the pieces of a PUT. -/
def State.sendPuts (s : State) (t ci rank team ctx seq addr : Nat) : List (Nat × List Byte) → State
  | [] => s
  | (o, bs) :: r => (s.sendRcopy t ci rank (.put team ctx seq (addr + o) bs)).sendPuts t ci rank team ctx seq addr r

/-- A queued command. -/
def Team.command (t : Team) (ctx seq : Nat) : Option EngineCmd := (t.ctxs[ctx]?).bind fun c => c.cmds.find? fun e => e.seq == seq

/-- A queued command changed. -/
def Team.updCommand (t : Team) (ctx seq : Nat) (f : EngineCmd → EngineCmd) : Team :=
  { t with ctxs := lupd t.ctxs ctx fun c => { c with cmds := c.cmds.map fun e => if e.seq == seq then f e else e } }

/-- The link to an rcopy's peer has failed (R79, R316). -/
def State.rcopyLost (s : State) (t : Team) (c : EngineCmd) : Bool :=
  match (s.tenant? t.tenant).bind fun x => aget x.comms (c.desc.comm % 2 ^ 28) with
  | none => true
  | some m => m.broken == some stLinkDown || !(s.root.fabup.getLsbD ((m.routes.map (·.1)).getD c.desc.peer 0))

/-- An rcopy begins, where its link has not failed: a PUT reads its source and sends it, a GET asks its peer. -/
def State.engineBegin (s : State) (k ctx seq : Nat) : State :=
  match s.team? k with
  | none => s
  | some t =>
    match t.command ctx seq with
    | none => s
    | some c =>
      let d := c.desc
      let places := s.localPlaces t c
      if d.kind != 3 || c.begun || s.rcopyLost t c || !(badPlaces places).isEmpty || anyGone places || d.bytes == 0 then s
      else
        let ci := d.comm % 2 ^ 28
        if d.put then
          let s := s.openSources t true places
          let bs := places.map (s.engineByte t true 0 0)
          let pieces := chunksAt 4096 d.dst bs
          (s.sendPuts t.tenant ci d.peer k ctx seq d.dst pieces).updTeam k fun t =>
            t.updCommand ctx seq fun c => { c with begun := true, sent := pieces.length }
        else
          (s.sendRcopy t.tenant ci d.peer (.ask k ctx seq d.src d.bytes)).updTeam k fun t =>
            t.updCommand ctx seq fun c => { c with begun := true }

/-- The bytes an rcopy GET has received, once they are all there. -/
def EngineCmd.arrivedBytes (c : EngineCmd) : Option (List Byte) := arrived c.got 0 c.desc.bytes

/-! ## Completion (R162, R166, R315) -/

/-- A command of a context has completed: its timeline advances (R162). -/
def Ctx.finish (c : Ctx) (seq : Nat) : Ctx :=
  let x := finishNumber c.timeline c.finished seq
  { c with timeline := x.1, finished := x.2, cmds := c.cmds.filter (·.seq != seq) }

/-- A command completes: a knot it names loses its bytes first, but for a command that was stopped. -/
def Team.finishCommand (t : Team) (ctx : Nat) (c : EngineCmd) (whole : Bool) : Team :=
  let n := c.desc.knot
  let t :=
    if whole && n != 0xFF then
      let k := t.knot n
      t.knotOp n { k with bytes := max (k.bytes - (c.desc.bytes * c.desc.rowCount : Nat)) (-(2 ^ 46)), wide := k.wide || 3 ≤ c.desc.scope } none
    else t
  { t with ctxs := lupd t.ctxs ctx fun x => x.finish c.seq }

/-- A copy, gather or rcopy command that nothing stops makes its reads and writes and completes (R315, R316); an rcopy whose link has failed
only stops. -/
def execEngineCommandComplete (team ctx seq : Nat) (s : State) : Host.Outcome State Fault Refusal :=
  runEvent (do
    let t ← getTeam team
    let c ← must (t.command ctx seq)
    let r : GRef := ⟨team, c.group⟩
    let wide := 3 ≤ c.desc.scope
    if c.desc.kind = 3 then
      let places ← look fun s => s.localPlaces t c
      if anyGone places then stop (.fault .noSuchAddress) else pure ()
      need ((badPlaces places).isEmpty && c.refused.isNone && !(← look fun s => s.rcopyLost t c))
      if c.desc.bytes = 0 then pure ()
      else
        need c.begun
        if c.desc.put then need (c.stored == c.sent)
        else
          let bs ← must c.arrivedBytes
          change fun s => s.engineWrite r t wide (places.zip bs)
    else
      change fun s => s.openIndex t c
      let rows ← look fun s => s.engineRows t c
      let places := (rows.map Row.places).flatten
      if anyGone places then stop (.fault .noSuchAddress) else pure ()
      need (badPlaces places).isEmpty
      let n ← freshFree
      change fun s =>
        let s := s.openSources t wide places
        s.engineWrite r t wide (s.movedBytes t wide (rows.map (·.moves)).flatten n)
    change fun s => s.updTeam team fun t => t.finishCommand ctx c true) s

/-! ## Failure (R234, R316) -/

/-- Keep the bytes of the 8-byte parts that have been written (R234). -/
def partsWritten (n : Nat) (l : List (Loc × Byte)) : List (Loc × Byte) :=
  l.filter fun e =>
    match e.1 with
    | .dev pa => Config.partWritten n (2 * (pa / 8))
    | .scr off => Config.partWritten n (2 * (off / 8) + 1)
    | _ => false

/-- The team of a stopped command takes ENGINE_FAULT: in the scalar stream of the issuing group, or of the lowest group that has not
exited, where it ends a wait at once; with every group exited the team ends (R234). -/
def State.raiseEngineFault (s : State) (k group bad : Nat) : State :=
  match s.team? k with
  | none => s
  | some t =>
    if t.ended then s
    else
      let live := t.groups.filter fun e => !e.2.exited
      match (live.find? fun e => e.1 == group).or live.head? with
      | none => s.endTeam k false
      | some (i, g) =>
        let f : W32 × W64 := (0, BitVec.ofNat 64 bad)
        if g.waits && scalarMayIssue t g then
          s.takeScalarTrap ⟨k, i⟩ { plainTrap .engineFault with bad := f.2 }
        else s.updGroup ⟨k, i⟩ fun g => { g with fault := some (g.fault.getD f) }

/-- A command that a translation, its peer or its link fails stops, with its bytes in any mix of old and new, and completes (R234,
R315, R316). -/
def execEngineFault (team ctx seq : Nat) (s : State) : Host.Outcome State Fault Refusal :=
  runEvent (do
    let t ← getTeam team
    let c ← must (t.command ctx seq)
    let r : GRef := ⟨team, c.group⟩
    let wide := 3 ≤ c.desc.scope
    if c.desc.kind = 3 then
      let places ← look fun s => s.localPlaces t c
      let lost ← look fun s => s.rcopyLost t c
      let n ← freshFree
      let bad := badPlaces places ++ c.refused.toList
      need (!bad.isEmpty || lost)
      if c.desc.put then pure ()
      else
        let got := ((List.range places.length).zip places).filterMap fun e => (aget c.got e.1).map fun b => (e.2, b)
        change fun s => s.engineWrite r t wide (partsWritten n got)
      change fun s => s.updTeam team fun t => t.finishCommand ctx c false
      change fun s => s.raiseEngineFault team c.group (bad.getD (Config.failPick n % bad.length) 0)
    else
      change fun s => s.openIndex t c
      let rows ← look fun s => s.engineRows t c
      let bad := badPlaces (rows.map Row.places).flatten
      need (!bad.isEmpty)
      let n ← freshFree
      let reached := ((rows.take (Config.rowsReached n)).map fun r =>
        r.moves.filter fun m => (badPlaces [m.1, m.2]).isEmpty && !anyGone [m.1, m.2]).flatten
      change fun s =>
        let s := s.openSources t wide (reached.map (·.1))
        s.engineWrite r t wide (partsWritten n (s.movedBytes t wide reached n))
      change fun s => s.updTeam team fun t => t.finishCommand ctx c false
      change fun s => s.raiseEngineFault team c.group (bad.getD (Config.failPick n % bad.length) 0)) s

end Sys2Proof.Machine
end

