-- ==== Sys2Proof/Machine/Flags.lean ====
section
/-! DEFINITION. Status, mode and control registers: the maps of the special registers, the modes that may use them, what a write of each
checks and does (R118, R130, R144 to R152, R170, R221 to R224, R265, R267, R303, R369), gangs whose member leaves (R147), and the
feature words (R290). -/

namespace Sys2Proof.Machine

/-! ## FMTR (R130) -/

/-- A value that FMTR may hold (R130): reserved bits clear, and both operand codes at most 8. -/
def fmtrValid (v : W64) : Bool :=
  v.toNat < 2 ^ 16 && v.toNat / 256 % 8 == 0 && v.toNat / 16 % 16 ≤ 8 && v.toNat % 16 ≤ 8

/-- FMTR.RMODE. -/
def fmtrRmode (f : W64) : BitVec 2 := f.extractLsb' 14 2
/-- FMTR.SCALE. -/
def fmtrScale (f : W64) : BitVec 2 := f.extractLsb' 12 2
/-- FMTR.ACCK: the accumulator kind is INT32. -/
def fmtrAcck (f : W64) : Bool := f.getLsbD 11
/-- FMTR.BFMT. -/
def fmtrB (f : W64) : Nat := f.toNat / 16 % 16
/-- FMTR.AFMT. -/
def fmtrA (f : W64) : Nat := f.toNat % 16

/-! ## GANG (R144 to R147) -/

/-- GANG.GSIZE as a number of members; 0 when not ganged. -/
def gangSize (v : W64) : Nat :=
  match v.toNat / 16 % 4 with
  | 1 => 2
  | 2 => 4
  | _ => 0

/-- GANG.GINDEX. -/
def gangIndex (v : W64) : Nat := v.toNat / 4 % 4
/-- GANG.GNUM. -/
def gangNum (v : W64) : Nat := v.toNat % 4

/-- The groups of a team that hold a position in gang `n`. -/
def Team.gangMembers (t : Team) (n : Nat) : List (Nat × Group) :=
  t.groups.filter fun e => !e.2.exited && gangSize e.2.gang != 0 && gangNum e.2.gang == n

/-- The checks of a write of GANG by group `me` (R144, R145). -/
def gangAllowed (t : Team) (me : Nat) (v : W64) : Bool :=
  let others := (t.gangMembers (gangNum v)).filter (·.1 != me)
  v.toNat < 2 ^ 16 && v.toNat / 64 % 4 == 0 && v.toNat / 16 % 4 != 3 &&
  (if gangSize v = 0 then v.toNat % 16 == 0
   else gangIndex v < gangSize v && others.all fun e => gangIndex e.2.gang != gangIndex v && gangSize e.2.gang == gangSize v)

/-- A group with fragment `f` waiting at its gang's latch is due a GANG_ORPHAN, which that fragment takes when it next can: at the boundary of a
latch run of its group (R142), and not while it is parked (R227). A group waits once, whatever fragments of it wait (R147). Log
entry 95. -/
def Group.orphaned (g : Group) (f : Nat) : Group :=
  if g.frags.any fun e => e.2.wait == .orphan then g
  else { g with frags := aupd g.frags f fun x => if x.wait == .rendezvous then { x with wait := .orphan } else x }

/-- The groups waiting at latch `n` of a team, as (group, fragment), are due a GANG_ORPHAN (R147). -/
def State.orphanMembers (s : State) (k n : Nat) : List (Nat × Nat × W64) → State
  | [] => s.updTeam k fun t => { t with latches := adel t.latches n }
  | (i, f, _) :: r => (s.updGroup { team := k, group := i } fun g => g.orphaned f).orphanMembers k n r

/-- A member leaves gang `n` while others wait there (R147). -/
def State.leaveGang (s : State) (k n : Nat) : State :=
  match (s.team? k).bind fun t => aget t.latches n with
  | some l => s.orphanMembers k n l
  | none => s

/-- Gang `n` of a team lacks a member, and every group that holds no position in it has exited (R147). -/
def Team.gangStranded (t : Team) (n : Nat) : Bool :=
  let m := t.gangMembers n
  match m with
  | [] => false
  | (_, g) :: _ => m.length < gangSize g.gang && t.groups.all fun e => e.2.exited || m.any (·.1 == e.1)

/-- Groups waiting at a stranded gang are due a GANG_ORPHAN (R147). -/
def State.strandCheck (s : State) (k : Nat) : State :=
  [0, 1, 2, 3].foldl (fun s n =>
    match s.team? k with
    | some t => if t.gangStranded n && !t.ended then s.leaveGang k n else s
    | none => s) s

/-! ## Special register selectors (R303) -/

/-- A mode at or above another. -/
def Mode.atLeast (m n : Mode) : Bool := n.code ≤ m.code

/-- The lowest mode that reads a selector; none for one that R303 does not list. -/
def sregReadMode (sel : Nat) : Option Mode :=
  if sel ≤ 0x008 ∨ (0x010 ≤ sel ∧ sel ≤ 0x01A) then some .user
  else if sel = 0x102 ∨ sel = 0x108 ∨ sel = 0x109 then some .hypervisor
  else if (0x100 ≤ sel ∧ sel ≤ 0x10C) ∨ (0x200 ≤ sel ∧ sel ≤ 0x20F) then some .supervisor
  else none

/-- The lowest mode that writes a listed selector; none for a register that is never written. -/
def sregWriteMode (sel : Nat) : Option Mode :=
  if sel = 0x010 ∨ sel = 0x011 ∨ sel = 0x012 ∨ sel = 0x014 ∨ sel = 0x015 ∨ sel = 0x016 ∨ sel = 0x017 ∨ sel = 0x01A then some .user
  else if sel = 0x101 ∨ sel = 0x104 ∨ sel = 0x107 ∨ sel = 0x10B ∨ (0x200 ≤ sel ∧ sel ≤ 0x20F) then some .supervisor
  else if sel = 0x102 ∨ sel = 0x108 ∨ sel = 0x109 ∨ sel = 0x10C then some .hypervisor
  else none

/-- The checks of a read (R222, R303, R323). -/
def sregReadCheck (m : Mode) (sel : Nat) : M Unit :=
  match sregReadMode sel with
  | none => trap .sregRange
  | some n => unlessTrap (m.atLeast n) .privOperand

/-- The checks of a write that come before those of the value (R222, R303, R323). -/
def sregWriteCheck (m : Mode) (sel : Nat) : M Unit :=
  match sregReadMode sel with
  | none => trap .sregRange
  | some _ =>
    match sregWriteMode sel with
    | none => trap .privOperand
    | some n => unlessTrap (m.atLeast n) .privOperand

/-! ## Reading -/

/-- What a stream that reads a special register brings: its mode, its FMTR, and the trap frame whose handler it runs. -/
structure SregReader where
  mode   : Mode
  fmtr   : W64
  frame  : Option Nat
  scalar : Bool

/-- TFRAME (R223). -/
def tframeWord (g : Group) (x : SregReader) : W64 :=
  BitVec.ofNat 64 (g.traps.length + 16 * x.frame.getD 0 + (if x.frame.isSome && x.scalar then 128 else 0))

/-- The three fields of a grid position or shape (R118). -/
def packGrid (x y z : Nat) : W64 := BitVec.ofNat 64 (x % 2 ^ 21 + y % 2 ^ 21 * 2 ^ 21 + z % 2 ^ 21 * 2 ^ 42)

/-- The value of a special register (R118, R223, R303, R369). Where the logical group number reaches 2^32, GID holds its low 32 bits and LANEBASE
96 times the whole number modulo 2^40: the model's choice. Log entry 91. -/
def State.sregValue (s : State) (r : GRef) (t : Team) (g : Group) (x : SregReader) (sel : Nat) : W64 :=
  let fr := x.frame.bind fun p => aget g.traps p
  let gid := t.tid * t.ngroups + r.group
  let ten := s.tenant? t.tenant
  match sel with
  | 0x000 => BitVec.ofNat 64 (gid % 2 ^ 32)
  | 0x001 => BitVec.ofNat 64 t.tid
  | 0x002 => BitVec.ofNat 64 r.group
  | 0x003 => BitVec.ofNat 64 (96 * gid % 2 ^ 40)
  | 0x004 => BitVec.ofNat 64 t.core
  | 0x005 => BitVec.ofNat 64 (clusterOf t.core)
  | 0x006 => BitVec.ofNat 64 (dieOf t.core)
  | 0x007 => packGrid t.gx t.gy t.gz
  | 0x008 => packGrid (t.tid % t.gx) (t.tid / t.gx % t.gy) (t.tid / (t.gx * t.gy))
  | 0x010 => x.fmtr
  | 0x011 => g.rseed.setWidth 64
  | 0x012 => g.rctr.setWidth 64
  | 0x013 => BitVec.ofNat 64 t.pbase
  | 0x014 => g.pacc
  | 0x015 => g.pprop
  | 0x016 => boolWord 64 g.pnan
  | 0x017 => g.gang
  | 0x018 => g.lclock
  | 0x019 => (s.core t.core).cyc
  | 0x01A => boolWord 64 (((t.launch.bind s.launch?).map (·.gnan)).getD false)
  | 0x100 => BitVec.ofNat 64 x.mode.code
  | 0x101 => (ten.map (·.supv.tvecS)).getD 0#64
  | 0x102 => s.root.tvecH
  | 0x103 => tframeWord g x
  | 0x104 => (fr.map (·.epc)).getD 0#64
  | 0x105 => (fr.map (·.causeWord)).getD 0#64
  | 0x106 => (fr.map (·.badaddr)).getD 0#64
  | 0x107 => (ten.map (·.ptbase)).getD 0#64
  | 0x108 => (ten.map (·.winbase)).getD 0#64
  | 0x109 => (ten.map (·.winlim)).getD 0#64
  | 0x10A => BitVec.ofNat 64 t.tenant
  | 0x10B => (s.cluster (clusterOf t.core)).bankmode
  | 0x10C => ((aget (s.cluster (clusterOf t.core)).bankown t.tenant).getD 0#32).setWidth 64
  | _ => (aget g.ks (sel - 0x200)).getD 0#64

/-! ## Writing -/

/-- The mode of bank `i` in a BANKMODE value (R150). -/
def bankField (v : W64) (i : Nat) : Nat := v.toNat / 2 ^ (2 * i) % 4

/-- The banks of a cluster. -/
def bankList : List Nat := List.range 32

/-- The banks whose field differs. -/
def banksChanged (old v : W64) : List Nat := bankList.filter fun i => bankField old i != bankField v i

/-- A team holds a granule in a bank of a cluster (R93). -/
def State.granuleIn (s : State) (c bank : Nat) : Bool :=
  s.teams.any fun e => clusterOf e.2.core == c && e.2.granules.any (·.1 == bank)

/-- A reservation holds a segment in a bank of a cluster (R75). -/
def State.segmentIn (s : State) (c bank : Nat) : Bool :=
  s.tenants.any fun e => e.2.comms.any fun m => m.2.insts.any fun i => i.2.staging.any fun x => x.1 == c && x.2.1 == bank

/-- A bank of a cluster may not leave its mode now (R152). -/
def State.bankBusy (s : State) (c : Nat) (old : W64) (i : Nat) : Bool :=
  (bankField old i == 1 && s.granuleIn c i) || (bankField old i == 2 && s.segmentIn c i)

/-- A cluster takes new bank modes (R152): when a cache way leaves, dirty bytes are written back first, and a cluster left without
one holds no cached byte. -/
def State.setBanks (s : State) (c : Nat) (v : W64) : State :=
  let x := s.cluster c
  let leaves := (banksChanged x.bankmode v).any fun i => bankField x.bankmode i == 0
  let s := if leaves then s.writeBack c fun _ _ => true else s
  let y := { s.cluster c with bankmode := v }
  s.setCluster c (if y.hasCache then y else { y with clean := [] })

/-- The write of BANKMODE as R152 judges it, for a stream in a mode. Where it meets several traps, BANK_MODE comes before PRIV_OPERAND, and that
before BANK_BUSY: the model's choice. Log entry 33. -/
def writeBankmode (m : Mode) (v : W64) : M Unit := do
  let t ← hereT
  let c := clusterOf t.core
  let x ← look fun s => s.cluster c
  let changed := banksChanged x.bankmode v
  let own := (aget x.bankown t.tenant).getD 0#32
  unlessTrap (bankList.all fun i => bankField v i != 3) .bankMode
  unlessTrap (m != .supervisor || changed.all fun i => own.getLsbD i) .privOperand
  unlessTrap (!(← look fun s => changed.any (s.bankBusy c x.bankmode))) .bankBusy
  change fun s => s.setBanks c v

/-- The write of GANG (R144, R145, R147). -/
def writeGang (v : W64) : M Unit := do
  let t ← hereT
  let r ← here
  let g ← hereG
  unlessTrap (g.frags.isEmpty && gangAllowed t r.group v) .gangConfig
  modHere fun g => { g with gang := v &&& 0x3F#64 }
  if gangSize g.gang != 0 && (gangNum g.gang != gangNum v || gangSize v == 0) then
    change fun s => s.leaveGang r.team (gangNum g.gang)
  else pure ()
  change fun s => s.strandCheck r.team

/-- The mask of PTBASE's fields (R170). -/
def ptbaseMask : W64 := 0xFFFFFFFFF001#64

/-- What a write of a 64-bit value to a special register checks and does (R130, R144, R150 to R152, R170, R172, R223, R265, R267,
R369). `setFmtr` writes the stream's own FMTR. -/
def writeSreg (m : Mode) (frame : Option Nat) (setFmtr : W64 → M Unit) (sel : Nat) (v : W64) : M Unit := do
  let t ← hereT
  match sel with
  | 0x010 =>
    unlessTrap (fmtrValid v) .fmtInvalid
    setFmtr v
  | 0x011 => modHere fun g => { g with rseed := v.setWidth 32 }
  | 0x012 => modHere fun g => { g with rctr := v.setWidth 32 }
  | 0x014 => modHere fun g => { g with pacc := v }
  | 0x015 => modHere fun g => { g with pprop := v }
  | 0x016 => modHere fun g => { g with pnan := g.pnan && !v.getLsbD 0 }
  | 0x017 => writeGang v
  | 0x01A => change fun s => match t.launch with
    | some l => s.updLaunch l fun l => { l with gnan := l.gnan && !v.getLsbD 0 }
    | none => s
  | 0x101 => modTenant t.tenant fun x => { x with supv := { x.supv with tvecS := v &&& 0xFFFFFFFFFE00#64 } }
  | 0x102 => change fun s => { s with root := { s.root with tvecH := v &&& 0xFFFFFFFFFE00#64 } }
  | 0x104 => modHere fun g => match frame with
    | some p => { g with traps := aupd g.traps p fun fr => if fr.cause.isError then fr else { fr with epc := addr48 v } }
    | none => g
  | 0x107 =>
    modTenant t.tenant fun x => { x with ptbase := v &&& ptbaseMask, vendorMap := false }
    change fun s => s.tlbClear t.tenant
  | 0x108 =>
    modTenant t.tenant fun x => { x with winbase := v &&& 0xFFFFE0#64 }
    change fun s => s.tlbClear t.tenant
  | 0x109 =>
    unlessTrap ((v &&& 0x1F#64).toNat ≤ 16) .sregRange
    modTenant t.tenant fun x => { x with winlim := v &&& 0x1F#64 }
    change fun s => s.tlbClear t.tenant
  | 0x10B => writeBankmode m v
  | 0x10C => change fun s =>
      let c := clusterOf t.core
      s.setCluster c { s.cluster c with bankown := aset (s.cluster c).bankown t.tenant (v.setWidth 32) }
  | _ => modHere fun g => { g with ks := aset g.ks (sel - 0x200) v }

/-! ## The two forms of swr (R323, R387) -/

/-- The scalar stream as a reader. -/
def scalarReader (g : Group) : SregReader := { mode := g.mode, fmtr := g.fmtr, frame := g.trap, scalar := true }

/-- A lane fragment as a reader. -/
def laneReader (f : Fragment) : SregReader := { mode := f.mode, fmtr := f.fmtr, frame := f.handler, scalar := false }

/-- swr in the scalar stream: the register that SA's value selects takes the value of sD. -/
def scalarSwr (d a : SReg) (s : State) : Host.Outcome State Fault Refusal :=
  runScalar (fun g => do
    let v ← readS d
    let sel := (← readS a).toNat % 2 ^ 14
    sregWriteCheck g.mode sel
    writeSreg g.mode g.trap (fun f => modHere fun g => { g with fmtr := f }) sel v) s

/-- The 64-bit value that a lane swr of one half makes of a register; a W1C register's other half counts as 0 (R387). -/
def mergeHalf (sel : Nat) (hi : Bool) (w : W32) (old : W64) : W64 :=
  let base : W64 := if sel = 0x016 ∨ sel = 0x01A then 0#64 else old
  if hi then w ++ base.setWidth 32 else (base.extractLsb' 32 32) ++ w

/-- swr in the lane stream: one half of the register that `sel` names. -/
def laneSwr (h : LHdr) (hi : Bool) (a : Src) (sel : Nat) (s : State) : Host.Outcome State Fault Refusal :=
  runLane h (fun c => do
    privSources c [a]
    let w ← readUniform c a
    sregWriteCheck c.frag.mode sel
    if sel = 0x017 then trap .gangConfig else pure ()
    if c.w = 0#96 then pure ()
    else
      let r ← here
      let t ← hereT
      let g ← hereG
      let old ← look fun s => s.sregValue r t g (laneReader c.frag) sel
      writeSreg c.frag.mode c.frag.handler (fun f => modFrag c.fid fun x => { x with fmtr := f }) sel (mergeHalf sel hi w old)
    decSources [a] []) s

/-- A swr in either form, to a register whose lane form names it by `sel`. -/
def swrForm (w : SwrForm) (sel : Nat) (s : State) : Host.Outcome State Fault Refusal :=
  match w with
  | .scalar d a => scalarSwr d a s
  | .lane h hi a => laneSwr h hi a sel s

/-! ## Feature words (R290) -/

/-- The feature words of the LXG4-N384. -/
def featureWord : Nat → W64
  | 0 => 0x0000000101806004#64
  | 1 => 0x000000000003FFFF#64
  | 2 => 0x00000000000000FF#64
  | 3 => 0x0000410081018800#64
  | 4 => 0x0000060010023020#64
  | _ => 0#64

end Sys2Proof.Machine
end

