-- ==== Sys2Proof/Machine/Splice.lean ====
section
/-! DEFINITION. Splice: communicators, posts, tickets, starting and completing instances, breaking and rebuilding, the frames between
devices, and the scoreboard with its armed operations (R66 to R85). -/

namespace Sys2Proof.Machine

/-! ## Communicators -/

/-- A communicator of a tenant. -/
def State.comm? (s : State) (t ci : Nat) : Option Comm := (s.tenant? t).bind fun x => aget x.comms ci

/-- A communicator changed. -/
def State.updComm (s : State) (t ci : Nat) (f : Comm → Comm) : State := s.updTenant t fun x => { x with comms := aupd x.comms ci f }

/-- The communicator a handle names, once it has been built (R46, R67). -/
def Tenant.heldComm (x : Tenant) (handle : Nat) : Option Comm :=
  if handle / 2 ^ 28 = 3 then (aget x.comms (handle % 2 ^ 28)).filter fun c => c.phase != .building else none

/-- An instance changed. -/
def State.updInst (s : State) (t ci seq : Nat) (f : Inst → Inst) : State :=
  s.updComm t ci fun c => { c with insts := aupd c.insts seq f }

/-- The command that builds or rebuilds the communicator ends; a build that fails leaves no communicator (R67, R80). -/
def State.commDone (s : State) (t ci status : Nat) : State :=
  match s.comm? t ci with
  | none => s
  | some c =>
    let s := match c.phase with
      | .building => if status = stOk then s.updComm t ci fun c => { c with phase := .ready }
        else s.updTenant t fun x => { x with comms := adel x.comms ci }
      | _ =>
        s.updComm t ci fun c =>
          if status = stOk then
            { c with phase := .ready, broken := none, failed := none, index := 0, posts := [], rebuilt := [],
                     failures := match c.failed with
                       | some f => (f, c.seq, c.broken.getD 0) :: c.failures
                       | none => c.failures }
          else { c with phase := .ready }
    s.endCommand (.tenant t c.queue) c.cmd status (3 * 2 ^ 28 + ci)

/-- A BUILD, REBUILD or FAIL frame of the coordinator tells each rank of a list how the BUILD or REBUILD ended that the rank last sent: INST
names that one by its sequence number plus 1, so that no answer meets a later one. A FAIL with INST 0 is a notice of R79. Log entry 79. -/
def State.answerAsks (s : State) (t ci ftype : Nat) (payload : List Byte) (c : Comm) : List Nat → State
  | [] => s
  | r :: rs => (s.sendFrame t ci r ftype ((aget c.asks r).getD 0) 0 payload).answerAsks t ci ftype payload c rs

/-- The flows to other ranks follow a new route table (R68, R80). -/
def State.reroute (s : State) (t : Nat) (c : Comm) (l : List Nat) : State := l.foldl (fun s r => s.setFlow (s.flowTo t c r)) s

/-- This member sends its BUILD or REBUILD to the coordinator, and remembers which it is. -/
def State.ask (s : State) (t ci ftype : Nat) (payload : List Byte) : State :=
  match s.comm? t ci with
  | none => s
  | some c => (s.updComm t ci fun m => { m with asked := (s.flowTo t c 0).sendPsn.toNat + 1 }).sendFrame t ci 0 ftype 0 0 payload

/-- The coordinator holds every member's digest (R67): the build ends everywhere, well if they match. It compares them once it holds all;
a member that is missing ends the builds with LINK_DOWN, whatever the others sent. Log entry 79. -/
def State.checkBuild (s : State) (t ci : Nat) : State :=
  match s.comm? t ci with
  | none => s
  | some c =>
    if c.phase == .building && c.rank == 0 && c.digests.length == c.members.length then
      if c.digests.all fun e => e.2 == c.digest then
        (s.answerAsks t ci 6 (leBytes 64 c.digest.toNat) c c.others).commDone t ci stOk
      else (s.answerAsks t ci 5 (leBytes 2 stMismatch) c c.others).commDone t ci stMismatch
    else s

/-- The coordinator has REBUILD from every member (R80): the communicator is unbroken everywhere. -/
def State.checkRebuild (s : State) (t ci : Nat) : State :=
  match s.comm? t ci with
  | none => s
  | some c =>
    if c.phase == .rebuilding && c.rank == 0 && (List.range c.members.length).all fun r => c.rebuilt.contains r then
      (s.answerAsks t ci 7 [] c c.others).commDone t ci stOk
    else s

/-! ## Tickets (R71, R73) -/

/-- Two signatures of one instance match (R71). `n` is the communicator's size. -/
def signaturesMatch (n : Nat) (a b : Nat × Sig) : Bool :=
  a.2 == b.2 ||
  (n == 2 && ((a.2.kind == 5 && b.2.kind == 6) || (a.2.kind == 6 && b.2.kind == 5)) && a.2.root == b.1 && b.2.root == a.1 &&
    a.2.dtype == b.2.dtype && a.2.count == b.2.count)

/-- An instance at this member takes its ticket, and the device's clock follows (R73). -/
def State.takeTicket (s : State) (t ci index value : Nat) : State :=
  match s.comm? t ci with
  | none => s
  | some c =>
    let s := { s with root := { s.root with ticket := max s.root.ticket value } }
    match c.insts.find? fun e => e.2.index == index && e.2.state == .posted with
    | some (n, _) => s.updInst t ci n fun i => { i with state := .ticketed, ticket := value }
    | none => s

/-- The coordinator holds a post of index `index` from every member (R71, R73): it issues the ticket, or the communicator breaks. INST of
the TICKET frame is the ticket: the value above the coordinator's DEVID; its payload is the matching index. Log entry 79. -/
def State.issueTicket (s : State) (t ci index : Nat) : State :=
  match s.comm? t ci with
  | none => s
  | some c =>
    let posts := c.posts.filter fun p => p.2.1 == index
    if c.broken.isSome || posts.length != c.members.length then s
    else
      let sigs := posts.map fun p => (p.1, p.2.2.1)
      let value := (posts.map fun p => p.2.2.2).foldl max 0 + 1
      if sigs.all (fun a => sigs.all fun b => signaturesMatch c.members.length a b) && value ≤ 2 ^ 48 - 2 then
        let s := s.updComm t ci fun c => { c with posts := c.posts.filter fun p => p.2.1 != index }
        (s.takeTicket t ci index value).sendFrames t ci 2 (value * 2 ^ 16 + c.coord.toNat) 0 (leBytes 8 index) c.others
      else s.reportBreak t ci stMismatch

/-- A post reaches the coordinator. -/
def State.addPost (s : State) (t ci rank index : Nat) (g : Sig) (l : Nat) : State :=
  (s.updComm t ci fun c =>
    { c with posts := (rank, index, g, l) :: c.posts.filter fun p => !(p.1 == rank && p.2.1 == index) }).issueTicket t ci index

/-! ## Posting (R69, R70, R86) -/

/-- A cpost descriptor (R69). -/
structure PostDesc where
  comm   : Nat
  sig    : Sig
  evec   : Nat
  nchunk : Nat
  sbuf   : Nat
  dbuf   : Nat
  zero   : Bool

/-- The descriptor's fields. -/
def postDesc (bs : List Byte) : PostDesc :=
  { comm := fieldAt bs 0 4, evec := fieldAt bs 7 1, nchunk := fieldAt bs 0x14 4, sbuf := fieldAt bs 0x18 8, dbuf := fieldAt bs 0x20 8,
    sig := { kind := fieldAt bs 4 1, dtype := fieldAt bs 5 1, rop := fieldAt bs 6 1, count := fieldAt bs 8 8, root := fieldAt bs 0x10 4 },
    zero := zeroAt bs 0x28 24 }

/-- The fields keep R69 and R70, at rank `r` of `n`. -/
def PostDesc.valid (d : PostDesc) (n r : Nat) : Bool :=
  let g := d.sig
  let reduces := kindReduces g.kind
  let float := g.dtype == 2 || g.dtype == 3 || g.dtype == 4
  let pair := g.kind == 5 || g.kind == 6
  d.zero && g.kind ≤ 6 && g.dtype ≤ 5 && g.rop ≤ 3 && (d.evec ≤ 63 || d.evec == 0xFF) && 1 ≤ g.count && g.count ≤ 2 ^ 40 &&
  d.nchunk ≤ 256 && !(reduces && g.dtype == 5) && !(g.rop == 3 && float) && (reduces || g.rop == 0) && g.root < n &&
  !(pair && (n != 2 || g.root == r)) && !(g.kind == 5 && d.dbuf != 0) && !(g.kind == 6 && d.sbuf != 0) &&
  (d.nchunk == 0 || sbufCount g n % d.nchunk == 0)

/-- Staging segments an instance reserves (R75). -/
def stagingNeed (kind : Nat) : Nat := if kindReduces kind then 4 else 2

/-- The staging pool: every segment of every bank in FIFO mode, as (cluster, bank, segment) (R75, R148). -/
def State.stagingPool (s : State) : List (Nat × Nat × Nat) :=
  ((List.range 48).map fun c => ((bankList.filter fun b => bankField (s.cluster c).bankmode b == 2).map fun b =>
    (List.range 8).map fun k => (c, b, k)).flatten).flatten

/-- Post table entries that a tenant holds (R69). -/
def Tenant.postEntries (x : Tenant) : Nat := (x.comms.map fun e => (e.2.insts.filter fun i => i.2.state.live).length).sum

/-- A range of elements lies in the tenant's windows with what is needed (R40). -/
def State.elementsIn (s : State) (x : Tenant) (nd : BitVec 4) (base count dtype : Nat) : Bool :=
  (s.rootRange x nd base (count * dtypeBytes dtype)).isSome

/-- What cpost answers where it does not post (R69). -/
def State.postRefusal (s : State) (x : Tenant) (d : PostDesc) : Option Int :=
  match x.heldComm d.comm with
  | none => some (-2)
  | some c =>
    let n := c.members.length
    if !d.valid n c.rank then some (-2)
    else if c.broken.isSome then some (-3)
    else if !(s.elementsIn x needR d.sbuf (sbufCount d.sig n) d.sig.dtype &&
        s.elementsIn x needW d.dbuf (dbufCount d.sig n) d.sig.dtype) then some (-5)
    else if s.stagingPool.length < stagingNeed d.sig.kind then some (-4)
    else if 64 ≤ x.postEntries then some (-1)
    else none

/-- The posting itself: the new instance, and the report to the coordinator (R69, R71). -/
def State.post (s : State) (t : Nat) (d : PostDesc) : State × Nat :=
  let ci := d.comm % 2 ^ 28
  match s.comm? t ci with
  | none => (s, 0)
  | some c =>
    let seq := c.seq + 1
    let index := c.index + 1
    let inst : Inst :=
      { index := index, sig := d.sig, evec := d.evec, nchunk := d.nchunk, sbuf := d.sbuf, dbuf := d.dbuf, l := s.root.ticket,
        state := .posted, ticket := 0, status := 0, chunks := [], got := [], staging := [] }
    let s := s.updComm t ci fun c => { c with seq := seq, index := index, insts := aset c.insts seq inst }
    if c.rank = 0 then (s.addPost t ci 0 index d.sig s.root.ticket, seq)
    else
      (s.sendFrame t ci 0 1 index 0 (leBytes 1 d.sig.kind ++ leBytes 1 d.sig.dtype ++ leBytes 1 d.sig.rop ++ leBytes 1 0 ++
        leBytes 4 d.sig.root ++ leBytes 8 d.sig.count ++ leBytes 8 s.root.ticket), seq)

/-- cpost (R69, R107). -/
def execCpost (d a : SReg) (s : State) : Host.Outcome State Fault Refusal :=
  runScalar (fun g => do
    let x ← readS a
    if x.toNat % 64 ≠ 0 then trapAt .misaligned none 0 x else pure ()
    let addrs ← xlateBytes g.mode none x.toNat 64 needR
    awaitTurn (.cpost d a) false []
    let p := postDesc (← readNow addrs)
    let t ← hereT
    let ten ← getTenant t.tenant
    match ← look fun s => s.postRefusal ten p with
    | some n => writeS d (BitVec.ofInt 64 n)
    | none =>
      releaseHere true
      let n ← look fun s => (s.post t.tenant p).2
      change fun s => (s.post t.tenant p).1
      writeS d (BitVec.ofNat 64 n)) s

/-- The state of an instance as cstat reads it (R72). One that has completed out of order, above the timeline value, reads DONE at once: the
rule says so only of those at or below it. Log entry 79. -/
def Comm.stat (c : Comm) (n : Nat) : W64 :=
  if n = 0 ∨ c.seq < n then 0#64
  else
    match (c.broken.bind fun b => c.failed.bind fun f => if f ≤ n then some b else none).or
        ((c.failures.find? fun f => f.1 ≤ n && n ≤ f.2.1).map fun f => f.2.2) with
    | some status => BitVec.ofNat 64 (status * 256 + 5)
    | none =>
      match aget c.insts n with
      | some i =>
        match i.state with
        | .posted => 1#64
        | .ticketed => BitVec.ofNat 64 (i.ticket * 2 ^ 16 + 2)
        | .started => BitVec.ofNat 64 (i.ticket * 2 ^ 16 + 3)
        | .complete => 4#64
        | .failed => BitVec.ofNat 64 (i.status * 256 + 5)
      | none => 4#64

/-- cstat (R72). -/
def execCstat (d a : SReg) (s : State) : Host.Outcome State Fault Refusal :=
  runScalar (fun _ => do
    let x ← readS a
    let t ← hereT
    let ten ← getTenant t.tenant
    let c ← orTrap (ten.heldComm (3 * 2 ^ 28 + x.toNat / 2 ^ 48)) .badHandle
    writeS d (c.stat (x.toNat % 2 ^ 48))) s

/-! ## Data (R70, R76, R85) -/

/-- The elements of a rank's SBUF that rank `j` needs, as (first, count). -/
def neededBy (g : Sig) (n me j : Nat) : Nat × Nat :=
  match g.kind with
  | 1 => (j * g.count, g.count)
  | 3 => (j * g.count, g.count)
  | 4 => if me = g.root then (0, g.count) else (0, 0)
  | 5 => if j = g.root then (0, g.count) else (0, 0)
  | 6 => (0, 0)
  | _ => if j < n then (0, g.count) else (0, 0)

/-- The bytes of some elements of the member's SBUF. -/
def State.elementBytes (s : State) (x : Tenant) (i : Inst) (lo n : Nat) : List Byte :=
  match s.rootRange x needR (i.sbuf + lo * dtypeBytes i.sig.dtype) (n * dtypeBytes i.sig.dtype) with
  | some l => (pieceAddrs l).map (memGet s.mem)
  | none => []

/-- Bytes that arrive for a rank's SBUF from offset `off` upward. -/
def Inst.receive (i : Inst) (rank off : Nat) (bs : List Byte) : Inst :=
  { i with got := aset i.got rank ((bytesAt off bs).foldl (fun m b => aset m b.1 b.2) ((aget i.got rank).getD [])) }

/-- Send DATA frames of one instance to a rank. -/
def State.sendData (s : State) (t ci rank index : Nat) : List (Nat × List Byte) → State
  | [] => s
  | (o, bs) :: r => (s.sendFrame t ci rank 3 index o bs).sendData t ci rank index r

/-- A started instance sends elements `lo` to `hi - 1` of its SBUF to every rank that needs them, this one included. -/
def State.sendElements (s : State) (t ci seq lo hi : Nat) : State :=
  match s.tenant? t, s.comm? t ci with
  | some x, some c =>
    match aget c.insts seq with
    | none => s
    | some i =>
      let sz := dtypeBytes i.sig.dtype
      let n := c.members.length
      (List.range n).foldl (fun s j =>
        let r := neededBy i.sig n c.rank j
        let first := max lo r.1
        let last := min hi (r.1 + r.2)
        let bs := s.elementBytes x i first (last - first)
        if last ≤ first then s
        else if j = c.rank then s.updInst t ci seq fun i => i.receive j (first * sz) bs
        else s.sendData t ci j i.index (chunksOf 8192 (first * sz) (bs.length + 1) bs)) s
  | _, _ => s

/-- A chunk of an instance that has been released is sent, once the instance has started (R85). -/
def State.sendChunk (s : State) (t ci seq k : Nat) : State :=
  match s.comm? t ci with
  | none => s
  | some c =>
    match aget c.insts seq with
    | none => s
    | some i =>
      let e := sbufCount i.sig c.members.length / i.nchunk
      if i.state == .started then s.sendElements t ci seq (k * e) ((k + 1) * e) else s

/-! ## Starting and completing (R74 to R77) -/

/-- Every live instance of the device, with its tenant, communicator, sequence number and coordinator. -/
def State.liveInsts (s : State) : List (Nat × Nat × Nat × Nat × Inst) :=
  (s.tenants.map fun e => (e.2.comms.map fun m => (m.2.insts.filter fun i => i.2.state.live).map fun i =>
    (e.1, m.1, i.1, m.2.coord.toNat, i.2)).flatten).flatten

/-- Tickets in order (R73). -/
def ticketLt (a b : Nat × Nat) : Bool := a.1 < b.1 || (a.1 == b.1 && a.2 < b.2)

/-- The n-th choice of `k` members of a list (R75). -/
def pickSegments (n : Nat) : Nat → List (Nat × Nat × Nat) → List (Nat × Nat × Nat)
  | 0, _ => []
  | k + 1, l =>
    match l[Config.segmentPick n k % l.length]? with
    | none => []
    | some x => x :: pickSegments n k (l.filter (· != x))

/-- A ticketed instance starts (R74, R75): its ticket comes next, no post of the device may still take a smaller one, and a context and
its segments are free. It sends what needs no trigger, and the chunks already released (R85). -/
def execCollectiveStart (c : CRef) (seq : Nat) (s : State) : Host.Outcome State Fault Refusal :=
  runEvent (do
    let x ← getTenant c.tenant
    let m ← must (aget x.comms c.comm)
    let i ← must (aget m.insts seq)
    let all ← look State.liveInsts
    let me := (i.ticket, m.coord.toNat)
    need (i.state == .ticketed && m.broken.isNone)
    need (all.all fun e => e.2.2.2.2.state != .ticketed || !ticketLt (e.2.2.2.2.ticket, e.2.2.2.1) me)
    need (all.all fun e => e.2.2.2.2.state != .posted || i.ticket ≤ e.2.2.2.2.l)
    let started := all.filter fun e => e.2.2.2.2.state == .started
    need (started.length < 64)
    let held := (started.map fun e => e.2.2.2.2.staging).flatten
    let free ← look fun s => s.stagingPool.filter fun x => !held.contains x
    need (stagingNeed i.sig.kind ≤ free.length)
    let n ← freshFree
    change fun s => s.updInst c.tenant c.comm seq fun i =>
      { i with state := .started, staging := pickSegments n (stagingNeed i.sig.kind) free }
    change fun s =>
      if i.nchunk = 0 then s.sendElements c.tenant c.comm seq 0 (sbufCount i.sig m.members.length)
      else i.chunks.foldl (fun s k => s.sendChunk c.tenant c.comm seq k) s) s

/-- The elements of an instance's DBUF, all of them once every operand is here. -/
def Inst.results (i : Inst) (c : Comm) : Option (List (List Byte)) :=
  (List.range (dbufCount i.sig c.members.length)).mapM (i.element c)

/-- An instance ends well at this member (R76, R77): its DBUF is written, its reservations and its post table entry are freed, and the
timeline advances. An instance with chunks waits until all of them have fired, also where this member sends nothing (RECV, BROADCAST but at
ROOT), which no rule says. Log entry 79. -/
def execCollectiveComplete (c : CRef) (seq : Nat) (s : State) : Host.Outcome State Fault Refusal :=
  runEvent (do
    let x ← getTenant c.tenant
    let m ← must (aget x.comms c.comm)
    let i ← must (aget m.insts seq)
    need (i.state == .started && i.chunks.dedup.length == i.nchunk)
    let vals ← must (i.results m)
    let places ← must (← look fun s => s.rootRange x needW i.dbuf (vals.length * dtypeBytes i.sig.dtype))
    change fun s => match vals with | [] => s | _ => s.homeWrite ((pieceAddrs places).zip vals.flatten)
    let f := finishNumber m.timeline m.finished seq
    change fun s => s.updComm c.tenant c.comm fun m =>
      { m with insts := adel m.insts seq, timeline := f.1, finished := f.2 }) s

/-! ## The scoreboard and armed operations (R83 to R85) -/

/-- Bits FIRST to FIRST + COUNT − 1. -/
def boardRange (first count : Nat) : BitVec 4096 := (BitVec.allOnes 4096 >>> (4096 - count)) <<< first

/-- Every bit of a range is set. -/
def boardFull (b : BitVec 4096) (first count : Nat) : Bool := b &&& boardRange first count == boardRange first count

/-- The armed operations whose bits are now all set are due (R85). -/
def Tenant.markDue (x : Tenant) : Tenant :=
  { x with armed := amap x.armed fun _ e => { e with due := e.due || boardFull x.board e.first e.count } }

/-- tset and tclr (R83). -/
def boardOp (a : SReg) (f : BitVec 4096 → BitVec 4096 → BitVec 4096) (s : State) : Host.Outcome State Fault Refusal :=
  runScalar (fun _ => do
    let x := (← readS a).toNat
    let first := x % 2 ^ 12
    let count := x / 2 ^ 16 % 2 ^ 13
    unlessTrap (x / 2 ^ 12 % 16 == 0 && x / 2 ^ 29 == 0 && count != 0 && first + count ≤ 4096) .scoreboardRange
    releaseHere true
    let t ← hereT
    modTenant t.tenant fun x => { x with board := f x.board (boardRange first count) }.markDue) s

/-- tset (R83). -/
def execTset (a : SReg) (s : State) : Host.Outcome State Fault Refusal := boardOp a (fun b r => b ||| r) s

/-- tclr (R83). -/
def execTclr (a : SReg) (s : State) : Host.Outcome State Fault Refusal := boardOp a (fun b r => b &&& ~~~r) s

/-- The trigger descriptor's operation (R84), or what tarm answers instead. A CHUNK whose handle field has bits [63:32] set names no
communicator and answers -2: the rule says only that the handle stands in bits [31:0]. So does one whose SEQ names an instance that was
posted and has ended: the rule asks for a posted one. Log entry 79. -/
def State.armDesc (s : State) (x : Tenant) (bs : List Byte) (team group : Nat) : Except Int Armed :=
  let f (o n : Nat) : Nat := fieldAt bs o n
  let e : Armed :=
    { chunk := f 0 1 == 2, first := f 2 2, count := f 4 2, src := f 8 8, dst := f 0x10 8, bytes := f 0x18 8, sig := f 0x20 4 % 2 ^ 28,
      sigval := f 0x28 8, team := some team, group := group, due := false }
  let common := zeroAt bs 1 1 && zeroAt bs 6 2 && zeroAt bs 0x24 4 && zeroAt bs 0x30 16 && e.first ≤ 4095 && 1 ≤ e.count &&
    e.count ≤ 4096 && e.first + e.count ≤ 4096
  if !common then .error (-2)
  else
    match f 0 1 with
    | 1 =>
      if f 0x20 4 / 2 ^ 28 != 2 || 256 ≤ e.sig then .error (-2)
      else if (s.rootRange x 0#4 e.src e.bytes).isNone || (s.rootRange x 0#4 e.dst e.bytes).isNone then .error (-5)
      else .ok e
    | 2 =>
      match x.heldComm e.src with
      | none => .error (-2)
      | some c =>
        match aget c.insts e.dst with
        | some i =>
          if i.state.live && e.bytes < i.nchunk && f 0x20 4 == 0 && e.sigval == 0 then .ok { e with src := e.src % 2 ^ 28 }
          else .error (-2)
        | none => .error (-2)
    | _ => .error (-2)

/-- tarm (R84). With all 256 entries armed it answers -1 whatever the fields: the rule gives the answers no order. Log entry 79. -/
def execTarm (d a : SReg) (s : State) : Host.Outcome State Fault Refusal :=
  runScalar (fun g => do
    let x ← readS a
    if x.toNat % 64 ≠ 0 then trapAt .misaligned none 0 x else pure ()
    let bs ← readNow (← xlateBytes g.mode none x.toNat 64 needR)
    let t ← hereT
    let r ← here
    let ten ← getTenant t.tenant
    match afree ten.armed 256 0 with
    | none => writeS d (BitVec.ofInt 64 (-1))
    | some k =>
      match ← look fun s => s.armDesc ten bs r.team r.group with
      | .error n => writeS d (BitVec.ofInt 64 n)
      | .ok e =>
        modTenant t.tenant fun x => { x with armed := aset x.armed k e }.markDue
        writeS d (BitVec.ofNat 64 k)) s

/-- The first address of a range of window addresses that lies in no window, or in one without what is needed. -/
def firstOutside (ws : List Window) (need : BitVec 4) : Nat → Nat → Nat → Nat
  | 0, wa, _ => wa
  | fuel + 1, wa, n =>
    match ws.find? fun w => w.wstart ≤ wa && wa < w.wend with
    | none => wa
    | some w => if grants w.perm need && w.wend - wa < n then firstOutside ws need fuel w.wend (n - (w.wend - wa)) else wa

/-- The places of a range of window addresses. -/
def windowPlaces (ws : List Window) (need : BitVec 4) (wa n : Nat) : List Loc :=
  (List.range n).map fun i =>
    match stageTwo ws (wa + i) need with
    | .ok pa => .dev pa
    | .fail _ b => .bad b
    | .gone => .gone

/-- The values that moves between home slices write, with any overlap as R315 has it. -/
def State.homeMoved (s : State) (moves : List (Loc × Loc)) (n : Nat) : List (Loc × Byte) :=
  movedAll (fun _ x => match x with | .dev pa => memGet s.mem pa | _ => 0#8) moves n

/-- Bytes written at the home slices. -/
def State.homePut (s : State) (l : List (Loc × Byte)) : State := match devBytes l with | [] => s | b => s.homeWrite b

/-- An armed operation's team, while it is resident. -/
def State.armedTeam (s : State) (e : Armed) : Option Nat := e.team.filter fun k => (s.team? k).isSome

/-- The launch that holds an armed operation's team saved by a pre-emption, with the team's key. -/
def State.armedSaved (s : State) (e : Armed) : Option (Nat × Nat) :=
  e.team.bind fun k => (s.launches.find? fun l => (aget l.2.saved k).isSome).map fun l => (l.1, k)

/-- A team with an ENGINE_FAULT pending in the scalar stream of a group, or, where that has exited, of the lowest that has not (R234). -/
def Team.pendFault (t : Team) (group : Nat) (f : W32 × W64) : Team :=
  let live := t.groups.filter fun e => !e.2.exited
  match (live.find? fun e => e.1 == group).or live.head? with
  | some (i, _) => { t with groups := aupd t.groups i fun g => { g with fault := some (g.fault.getD f) } }
  | none => t

/-- The failure of an armed operation (R234): ENGINE_FAULT in its team, once it is restored where a pre-emption has saved it, or an event
where that has retired. -/
def State.armedFault (s : State) (t k : Nat) (e : Armed) (bad : Nat) : State :=
  let f : W32 × W64 := (0, BitVec.ofNat 64 bad)
  match s.armedTeam e with
  | some key => s.raiseEngineFault key e.group bad
  | none =>
    match s.armedSaved e with
    | some (l, key) =>
      s.updLaunch l fun x => { x with saved := aupd x.saved key fun y => y.pendFault e.group f }
    | none => s.emit (some t) (eventBytes 1 1 stWindow k 0 0xFF 0 0 0) none

/-- An armed COPY fires (R85): its entry is freed, it copies and then signals; a range without read or write permission stops it
(R234). -/
def execArmedCopyFire (t entry : Nat) (s : State) : Host.Outcome State Fault Refusal :=
  runEvent (do
    let x ← getTenant t
    let e ← must (aget x.armed entry)
    need (!e.chunk && e.due)
    modTenant t fun x => { x with armed := adel x.armed entry }
    let n ← freshFree
    let ws ← look fun s => s.rootWindows x
    let moves := (windowPlaces ws needR e.src e.bytes).zip (windowPlaces ws needW e.dst e.bytes)
    let ends := (moves.map fun m => [m.1, m.2]).flatten
    if anyGone ends then stop (.fault .noSuchAddress) else pure ()
    match badPlaces ends with
    | [] =>
      change fun s => s.homePut (s.homeMoved moves n)
      change fun s => (s.signal t e.sig e.sigval).1
    | bad =>
      change fun s => s.homePut (partsWritten n (s.homeMoved (moves.filter fun m => (badPlaces [m.1, m.2]).isEmpty) n))
      change fun s => s.armedFault t entry e (bad.getD (Config.failPick n % bad.length) 0)) s

/-- An armed CHUNK fires (R85): its entry is freed, and the chunk may be sent, unless its instance has completed (its chunks all released by
other entries). -/
def execArmedChunkFire (t entry : Nat) (s : State) : Host.Outcome State Fault Refusal :=
  runEvent (do
    let x ← getTenant t
    let e ← must (aget x.armed entry)
    need (e.chunk && e.due)
    modTenant t fun x => { x with armed := adel x.armed entry }
    if ((aget x.comms e.src).bind fun c => aget c.insts e.dst).all fun i => i.chunks.contains e.bytes then pure ()
    else
      change fun s => s.updInst t e.src e.dst fun i => { i with chunks := i.chunks ++ [e.bytes] }
      change fun s => s.sendChunk t e.src e.dst e.bytes) s

/-! ## Received frames (R81, R82) -/

/-- The communicator to which a frame is delivered (R81): its tenant and index. -/
def State.frameComm (s : State) (f : FrameHdr) : Option (Nat × Nat × Comm) :=
  ((s.tenants.map fun e => e.2.comms.map fun c => (e.1, c.1, c.2)).flatten).find? fun e =>
    f.dst == s.root.devid && e.2.2.coord == f.coord && e.2.2.ckey == f.ckey &&
    e.2.2.members[e.2.2.rank]? == some (s.root.devid.toNat, e.1)

/-- The rank of a communicator's member on the device that sent a frame. -/
def Comm.senderRank (c : Comm) (f : FrameHdr) : Option Nat := c.members.findIdx? fun m => m.1 == f.src.toNat

/-- The flow on which a frame has come (R82), whether or not its communicator is still held. -/
def State.frameFlow (s : State) (f : FrameHdr) : Option Flow :=
  s.root.flows.find? fun w => f.dst == s.root.devid && w.ref.coord == f.coord && w.ref.ckey == f.ckey && w.ref.peer.1 == f.src.toNat

/-- The receiver acknowledges all frames below the number it awaits next (R82). -/
def State.ackFlow (s : State) (w : Flow) : State := s.send (s.root.frame w w.recvPsn 4 0 0 [])

/-- The frame with the number a flow awaits is accepted. -/
def State.takeNext (s : State) (w : Flow) : State :=
  let w := { w with recvPsn := w.recvPsn + 1 }
  (s.setFlow w).ackFlow w

/-- A frame with the next number of its flow is accepted (R82): the communicator it is for, and the sender's rank. -/
def acceptFrame (f : FrameHdr) : M (Nat × Nat × Comm × Nat) := do
  let (t, ci, c) ← must (← look fun s => s.frameComm f)
  let rank ← must (c.senderRank f)
  let w ← look fun s => s.flowTo t c rank
  need (w.recvPsn == f.psn && rank != c.rank)
  change fun s => s.takeNext w
  return (t, ci, c, rank)

/-- A Splice frame for no communicator of this device is discarded and counted (R50, R81). Where the device still holds the frame's flow,
its communicator has ended here: the flow's numbers go on and the frame is acknowledged, but for a BUILD, which awaits a communicator.
Log entry 79. -/
def execSpliceFrameDiscard (f : AnyFrame) (s : State) : Host.Outcome State Fault Refusal :=
  runEvent (do
    let h := f.hdr
    need (f.ftype != 4 || (← look fun s => (s.frameFlow h).isNone))
    need (← look fun s => (s.frameComm h).isNone)
    match ← look fun s => s.frameFlow h with
    | none => pure ()
    | some w =>
      if f.ftype = 6 ∧ h.dst = h.coord then pure ()
      else change fun s => if w.recvPsn = h.psn then s.takeNext w else s.ackFlow w
    change fun s => { s with root := { s.root with counters := { s.root.counters with splice := s.root.counters.splice + 1 } } }) s

/-- A frame whose number is not the next is not accepted; the cumulative acknowledgement says what is (R82). An ACK has no number of its
own. -/
def execSpliceFrameWrongPsn (f : FrameHdr) (ftype : Nat) (s : State) : Host.Outcome State Fault Refusal :=
  runEvent (do
    let (t, _, c) ← must (← look fun s => s.frameComm f)
    let rank ← must (c.senderRank f)
    let w ← look fun s => s.flowTo t c rank
    need (w.recvPsn != f.psn && ftype != 4)
    change fun s => s.ackFlow w) s

/-- POST (R71). -/
def execSplicePostFrame (f : FrameHdr) (rank index : Nat) (sig : Sig) (l : Nat) (s : State) : Host.Outcome State Fault Refusal :=
  runEvent (do
    let (t, ci, c, r) ← acceptFrame f
    need (r == rank)
    if c.rank = 0 ∧ c.broken = none then change fun s => s.addPost t ci rank index sig l else pure ()) s

/-- TICKET (R73). -/
def execSpliceTicketFrame (f : FrameHdr) (index value : Nat) (s : State) : Host.Outcome State Fault Refusal :=
  runEvent (do
    let (t, ci, _, r) ← acceptFrame f
    if r = 0 then change fun s => s.takeTicket t ci index value else pure ()) s

/-- The command of an rcopy that a frame names, at the team's context. -/
def State.updRcopy (s : State) (t ci team ctx seq : Nat) (g : EngineCmd → EngineCmd) : State :=
  match s.team? team with
  | none => s
  | some x =>
    if x.tenant == t && (x.command ctx seq).any fun c => c.desc.kind == 3 && c.desc.comm % 2 ^ 28 == ci then
      s.updTeam team fun x => x.updCommand ctx seq g
    else s

/-- A frame of an rcopy (R316): the peer's bytes are stored or read at the home slices where its windows grant it together with PERM
bit 3, and refused otherwise; of every frame of a PUT the peer answers which it was, since a frame that is acknowledged need not have been
stored. -/
def State.rcopyFrame (s : State) (t ci rank : Nat) (m : RcopyMsg) : State :=
  match s.tenant? t with
  | none => s
  | some x =>
    let ws := s.rootWindows x
    match m with
    | .put team ctx seq addr bs =>
      match s.rootRange x 0xA#4 addr bs.length with
      | some l => (match bs with | [] => s | _ => s.homeWrite ((pieceAddrs l).zip bs)).sendRcopy t ci rank (.stored team ctx seq)
      | none => s.sendRcopy t ci rank (.refuse team ctx seq (firstOutside ws 0xA#4 (ws.length + 1) addr bs.length))
    | .ask team ctx seq addr n =>
      match s.rootRange x 0x9#4 addr n with
      | some l =>
        let bs := (pieceAddrs l).map (memGet s.mem)
        (chunksOf 4096 0 (bs.length + 1) bs).foldl (fun s p => s.sendRcopy t ci rank (.reply team ctx seq p.1 p.2)) s
      | none => s.sendRcopy t ci rank (.refuse team ctx seq (firstOutside ws 0x9#4 (ws.length + 1) addr n))
    | .reply team ctx seq off bs =>
      s.updRcopy t ci team ctx seq fun c => { c with got := (bytesAt off bs).foldl (fun m b => aset m b.1 b.2) c.got }
    | .stored team ctx seq => s.updRcopy t ci team ctx seq fun c => { c with stored := c.stored + 1 }
    | .refuse team ctx seq addr => s.updRcopy t ci team ctx seq fun c => { c with refused := some (c.refused.getD addr) }
    | .other => s

/-- DATA, of a collective or of an rcopy (R76, R316). -/
def execSpliceDataFrame (f : FrameHdr) (rank : Nat) (inst : W64) (offset : Nat) (data : List Byte) (s : State) :
    Host.Outcome State Fault Refusal :=
  runEvent (do
    let (t, ci, c, r) ← acceptFrame f
    need (r == rank && data.length ≤ 8192)
    if inst.toNat = rcopyInst then change fun s => s.rcopyFrame t ci rank (Config.rcopyRead offset data)
    else
      match c.insts.find? fun e => e.2.index == inst.toNat && e.2.state.live with
      | some (n, _) => change fun s => s.updInst t ci n fun i => i.receive rank offset data
      | none => pure ()) s

/-- Number `a` comes before `b` in a flow. -/
def psnBefore (a b : W32) : Bool := a != b && (b - a).toNat < 2 ^ 31

/-- ACK (R82) for a flow: every frame below the number it carries has been accepted. -/
def execSpliceAckFrame (w : FlowRef) (next : W32) (s : State) : Host.Outcome State Fault Refusal :=
  runEvent (do
    let w ← must (← look fun s => s.root.flows.find? fun f => f.ref == w)
    let rest := w.unacked.filter fun x => !psnBefore x.psn next
    need (rest.length < w.unacked.length)
    change fun s => s.setFlow { w with unacked := rest, resends := 0 }) s

/-- A member takes back the BUILD or REBUILD it last sent (R67, R80): the coordinator no longer counts it, and where it has told the others
already that all is well, the communicator breaks. -/
def State.withdrawMember (s : State) (t ci rank : Nat) (c : Comm) : State :=
  if c.phase = .building then s.updComm t ci fun c => { c with digests := adel c.digests rank }
  else if c.broken.isSome then s.updComm t ci fun c => { c with rebuilt := c.rebuilt.filter (· != rank) }
  else s.reportBreak t ci stLinkDown

/-- FAIL (R67, R79, R80). With INST 0 it is a notice: a communicator in use breaks, and its coordinator tells the others. Otherwise it ends
the build or the rebuild that INST names at a member, and takes a member's back at the coordinator. -/
def execSpliceFailFrame (f : BuildFrame) (status : Nat) (s : State) : Host.Outcome State Fault Refusal :=
  runEvent (do
    let (t, ci, c, rank) ← acceptFrame f.hdr
    let inst := f.inst
    change fun s =>
      if c.rank = 0 then
        if inst = 0 then (if c.phase = .building then s else s.reportBreak t ci status)
        else if aget c.asks rank = some inst then s.withdrawMember t ci rank c else s
      else if rank ≠ 0 then s
      else if inst = 0 then (if c.phase = .building then s else s.breakComm t ci status)
      else if c.phase ≠ .ready ∧ inst = c.asked then s.commDone t ci status else s) s

/-- BUILD (R67). -/
def execSpliceBuildFrame (f : BuildFrame) (rank : Nat) (digest : BitVec 512) (s : State) : Host.Outcome State Fault Refusal :=
  runEvent (do
    let (t, ci, c, r) ← acceptFrame f.hdr
    need (r == rank)
    change fun s =>
      if c.phase != .building then s
      else if c.rank = 0 then
        (s.updComm t ci fun c =>
          { c with digests := aset c.digests rank digest, asks := aset c.asks rank (f.hdr.psn.toNat + 1) }).checkBuild t ci
      else if rank = 0 ∧ f.inst = c.asked then s.commDone t ci (if digest = c.digest then stOk else stMismatch)
      else s) s

/-- REBUILD (R80). -/
def execSpliceRebuildFrame (f : BuildFrame) (rank : Nat) (s : State) : Host.Outcome State Fault Refusal :=
  runEvent (do
    let (t, ci, c, r) ← acceptFrame f.hdr
    need (r == rank)
    change fun s =>
      if c.rank = 0 then
        (s.updComm t ci fun c =>
          { c with rebuilt := rank :: c.rebuilt.filter (· != rank), asks := aset c.asks rank (f.hdr.psn.toNat + 1) }).checkRebuild t ci
      else if rank = 0 ∧ c.phase = .rebuilding ∧ f.inst = c.asked then s.commDone t ci stOk
      else s) s

/-! ## Timers and links (R14, R67, R79, R80, R82) -/

/-- The communicator is routed over a port to some other member (R68). -/
def Comm.usesPort (c : Comm) (port : Nat) : Bool :=
  ((List.range c.routes.length).zip c.routes).any fun e => e.1 != c.rank && e.2.1 == port

/-- A fabric port is down (R14, R79): its FABUP bit clears, and every communicator routed over it breaks; one that is broken already or
still being built is left as it is. Log entry 79. -/
def State.portDown (s : State) (port : Nat) (err : Bool) : State :=
  let bit : W16 := 1#16 <<< port
  let s := { s with root := { s.root with fabup := s.root.fabup &&& ~~~bit,
                                          faberr := if err then s.root.faberr ||| bit else s.root.faberr } }
  s.reportBreaks stLinkDown ((s.tenants.map fun e => (e.2.comms.filter fun c => c.2.usesPort port && c.2.phase != .building).map fun c =>
    (e.1, c.1)).flatten)

/-- Frames sent again. -/
def State.resend (s : State) (w : Flow) : List SentFrame → State
  | [] => s
  | f :: r => (s.send (s.root.frame w f.psn f.ftype f.inst f.offset f.payload)).resend w r

/-- 2^22 Root cycles have passed without an advance of a flow's acknowledgements past its oldest frame (R82). A flow
outlives its communicator, so that the frames which tell of its end are sent again as well; after the 16 resends it starts to count afresh. Log entry 79. -/
def execSpliceResendTimeout (w : FlowRef) (oldest : W32) (s : State) : Host.Outcome State Fault Refusal :=
  runEvent (do
    let w ← must (← look fun s => s.root.flows.find? fun f => f.ref == w)
    need (w.unacked.head?.map (·.psn) == some oldest)
    if 16 ≤ w.resends then change fun s => (s.setFlow { w with resends := 0 }).portDown w.port true
    else change fun s => (s.setFlow { w with resends := w.resends + 1 }).resend w w.unacked) s

/-- This member gives up its build or rebuild with LINK_DOWN: it tells the coordinator so, or, where this device is the coordinator, every
rank of the list. -/
def State.endAsk (s : State) (t ci : Nat) (m : Comm) (told : List Nat) : State :=
  if m.rank = 0 then s.answerAsks t ci 5 (leBytes 2 stLinkDown) m told
  else s.sendFrame t ci 0 5 m.asked 0 (leBytes 2 stLinkDown)

/-- 2^36 Root cycles have passed since this member's own build (R67): it ends with LINK_DOWN, and its digest is withdrawn; the
coordinator tells every member that has built. -/
def execCommBuildTimeout (c : CRef) (s : State) : Host.Outcome State Fault Refusal :=
  runEvent (do
    let m ← must (← look fun s => s.comm? c.tenant c.comm)
    need (m.phase == .building)
    change fun s => (s.endAsk c.tenant c.comm m ((m.digests.map (·.1)).filter (· != 0))).commDone c.tenant c.comm stLinkDown) s

/-- 2^36 Root cycles have passed and this member is not rebuilt (R80): the rebuild fails with LINK_DOWN. -/
def execCommRebuildTimeout (c : CRef) (s : State) : Host.Outcome State Fault Refusal :=
  runEvent (do
    let m ← must (← look fun s => s.comm? c.tenant c.comm)
    need (m.phase == .rebuilding)
    change fun s => (s.endAsk c.tenant c.comm m (m.rebuilt.filter (· != 0))).updComm c.tenant c.comm fun m => { m with rebuilt := [] }
    change fun s => s.commDone c.tenant c.comm stLinkDown) s

end Sys2Proof.Machine
end

