-- ==== Sys2Proof/Machine/Queues.lean ====
section
/-! DEFINITION. The command processor's queues, the writing of events, and the start of commands (R41 to R47, R56 to R59, R63). -/

namespace Sys2Proof.Machine

/-! ## A tenant's memory and the management window, as commands name them (R40, R62, R63) -/

/-- Bytes of the management window (R62). -/
def mgmtBytes : Nat := 2 ^ 28

/-- `n` bytes from a window address, where they lie in what the owner may read with `nd`. -/
def State.ownRead (s : State) (o : Option Nat) (nd : BitVec 4) (a n : Nat) : Option (List Byte) :=
  match o with
  | some t => (s.tenant? t).bind fun x => (s.rootRange x nd a n).map fun l => (pieceAddrs l).map (memGet s.mem)
  | none => if a + n ≤ mgmtBytes then some (memGetN s.root.mgmtMem a n) else none

/-- Bytes written from a window address, where they lie in what the owner may write. -/
def State.ownWrite (s : State) (o : Option Nat) (a : Nat) (bs : List Byte) : Option State :=
  match o with
  | some t => (s.tenant? t).bind fun x => (s.rootRange x needW a bs.length).map fun l =>
      match bs with
      | [] => s
      | _ => s.homeWrite ((pieceAddrs l).zip bs)
  | none => if a + bs.length ≤ mgmtBytes then some { s with root := { s.root with mgmtMem := memSetN s.root.mgmtMem a bs } } else none

/-- A field of the control block written by the device. -/
def State.cbWrite (s : State) (o : Option Nat) (off n v : Nat) : State :=
  match o with
  | some t =>
    match (s.tenant? t).bind s.controlBase with
    | some b => s.homeWrite (bytesAt (b + off) (leBytes n v))
    | none => s
  | none => { s with root := { s.root with mgmtMem := memSetN s.root.mgmtMem off (leBytes n v) } }

/-- The offset of a queue's descriptor. -/
def queueOff : QRef → Nat
  | .tenant _ q => 32 * q
  | .mgmt => 0

/-- QSTATE written (R42). -/
def State.putQstate (s : State) (q : QRef) (v : Nat) : State := s.cbWrite (queueOwner q) (queueOff q + 0xB) 1 v

/-- A QUEUE_ERROR event (R43, R63, R405). -/
def State.queueError (s : State) (q : QRef) (x : Queue) (status : Nat) : State :=
  match q with
  | .tenant t i => s.emit (some t) (eventBytes 4 0 status i 0 0xFF 0 x.timeline 0) none
  | .mgmt => s.emit none (eventBytes 4 3 status 0 0 0xFF 0 x.timeline 0) none

/-- A queue disabled by an error (R43). -/
def State.disableQueue (s : State) (q : QRef) (x : Queue) (status : Nat) : State :=
  ((s.setQueue q { x with enabled := false }).putQstate q 2).queueError q x status

/-! ## Notifications (R43) -/

/-- The earliest notice of a queue is of the kind given; it is taken. -/
def takeNotice (q : QRef) (enable : Bool) : M Unit := do
  let l ← look (·.root.notices)
  let i ← must (l.findIdx? fun n => n.q == q)
  need (l[i]? == some { q := q, enable := enable })
  change fun s => { s with root := { s.root with notices := s.root.notices.eraseIdx i } }

/-- The command processor acts on a write that covers QENABLE (R43). A QPRIO above 3 disables the queue; the commands it has fetched before
keep the priority they had (the model's choice, log entry 56). -/
def execQenableWrite (q : QRef) (s : State) : Host.Outcome State Fault Refusal :=
  runEvent (do
    takeNotice q true
    let o := queueOwner q
    let at_ (off n : Nat) : M Nat := look fun s => s.cbRead o (queueOff q + off) n
    let x ← must (← look fun s => s.queue? q)
    let on := (← at_ 0xA 1) == 1
    if on && !x.latch then
      let base ← at_ 0 8
      let log ← at_ 8 1
      let prio ← at_ 9 1
      let tail ← at_ 0x10 4
      let y := { x with latch := true, qbase := base, qlog := log, qprio := if prio ≤ 3 then prio else x.qprio }
      let ring ← look fun s => match o with
        | some t => ((s.tenant? t).bind fun z => s.rootRange z needW base (64 * 2 ^ log)).isSome
        | none => base + 64 * 2 ^ log ≤ mgmtBytes
      if 4 ≤ log && log ≤ 16 && prio ≤ 3 && base % 64 == 0 && ring then
        change fun s => ((s.setQueue q { y with enabled := true, head := BitVec.ofNat 32 tail }).cbWrite o (queueOff q + 0x14) 4 tail).putQstate q 1
      else change fun s => s.disableQueue q y stBadField
    else if on then change fun s => s.putQstate q (if x.enabled then 1 else 2)
    else change fun s => (s.setQueue q { x with latch := false, enabled := false }).putQstate q 0) s

/-- The records of a ring from an index, `n` of them (R43). -/
def State.fetchRecords (s : State) (o : Option Nat) (x : Queue) : Nat → Nat → List (List Byte)
  | _, 0 => []
  | i, n + 1 => ((s.ownRead o needW (x.qbase + 64 * (i % 2 ^ 32 % 2 ^ x.qlog)) 64).getD []) :: s.fetchRecords o x (i + 1) n

/-- The command processor acts on a write to TAIL (R43): it fetches the records from HEAD to TAIL − 1, or finds an overrun. -/
def execQueueNotification (q : QRef) (s : State) : Host.Outcome State Fault Refusal :=
  runEvent (do
    takeNotice q false
    let o := queueOwner q
    let x ← must (← look fun s => s.queue? q)
    if !x.enabled then pure ()
    else
      let tail ← look fun s => BitVec.ofNat 32 (s.cbRead o (queueOff q + 0x10) 4)
      let n := (tail - x.head).toNat
      if 2 ^ x.qlog < n then change fun s => s.disableQueue q x stOverrun
      else
        let recs ← look fun s => s.fetchRecords o x x.head.toNat n
        let cmds := ((List.range n).zip recs).map fun e => ({ seq := x.fetched + 1 + e.1, bytes := e.2 } : Cmd)
        change fun s => (s.setQueue q { x with head := tail, fetched := x.fetched + n, waiting := x.waiting ++ cmds }).cbWrite o
          (queueOff q + 0x14) 4 tail.toNat) s

/-! ## Writing events (R56 to R58) -/

/-- Held events are written (R58). -/
def execEventHeldWrite (o : Option Nat) (s : State) : Host.Outcome State Fault Refusal := runEvent (change fun s => s.flushEvents o) s

/-! ## The start of commands (R44 to R47) -/

/-- The value of a timeline that a queue's commands may name; on the management channel its own timeline alone (R46, R63). -/
def State.waitValue? (s : State) (q : QRef) (h : Nat) : Option Nat :=
  match q with
  | .tenant t _ => s.timeline? t h
  | .mgmt => if h = 0x10000000 then some s.root.mgmtQueue.timeline else none

/-- No handle. -/
def noHandle : Nat := 0xFFFFFFFF

/-- A wait on a handle is satisfied; one that names no timeline counts as such (R44). -/
def State.waitMet (s : State) (q : QRef) (h v : Nat) : Bool :=
  if h = noHandle then true
  else
    match s.waitValue? q h with
    | some n => v ≤ n
    | none => true

/-- The next command of a queue may start (R44). -/
def State.startable (s : State) (q : QRef) (x : Queue) : Bool :=
  match x.waiting with
  | [] => false
  | c :: _ =>
    s.waitMet q (fieldAt c.bytes 8 4) (fieldAt c.bytes 0x10 8) &&
    !(fieldAt c.bytes 1 1 % 2 == 1 && x.running.any fun r => r.seq + 1 == c.seq)

/-- The lowest member above `last`, wrapping round to the lowest. -/
def nextRound (l : List Nat) (last : Option Nat) : Option Nat :=
  match last with
  | none => l.head?
  | some n => (l.find? (n < ·)).or l.head?

/-- Tenants and queues with a startable command at a priority, ascending. -/
def State.startableAt (s : State) (prio : Nat) : List (Nat × List Nat) :=
  (s.tenants.map fun e => (e.1, (e.2.queues.filter fun q => q.2.qprio == prio && s.startable (.tenant e.1 q.1) q.2).map (·.1))).filter
    fun e => !e.2.isEmpty

/-- The queue whose command the processor starts next, with its priority (R44). -/
def State.nextStart (s : State) : Option (QRef × Nat) :=
  if s.startable .mgmt s.root.mgmtQueue then some (.mgmt, 0)
  else
    match [3, 2, 1, 0].find? fun p => !(s.startableAt p).isEmpty with
    | none => none
    | some p =>
      let l := s.startableAt p
      match nextRound (l.map (·.1)) (aget s.root.lastTenant p) with
      | none => none
      | some t =>
        (nextRound ((aget l t).getD []) (aget s.root.lastQueue (16 * p + t))).map fun q => (.tenant t q, p)

/-- Command `seq` of queue `q` starts, where it comes next and is of a kind that the test accepts. -/
def beginCommand (q : QRef) (seq : Nat) (accepts : List Byte → Bool) : M Cmd := do
  let (r, p) ← must (← look State.nextStart)
  need (r == q)
  let x ← must (← look fun s => s.queue? q)
  match x.waiting with
  | [] => stall
  | c :: rest =>
    need (c.seq == seq && accepts c.bytes)
    change fun s => s.setQueue q { x with started := c.seq, waiting := rest, running := x.running ++ [c] }
    match q with
    | .tenant t i => change fun s =>
        { s with root := { s.root with lastTenant := aset s.root.lastTenant p t, lastQueue := aset s.root.lastQueue (16 * p + t) i } }
    | .mgmt => pure ()
    return c

/-- The header keeps R45 and R46. -/
def State.headerOk (s : State) (q : QRef) (c : Cmd) : Bool :=
  let h := fieldAt c.bytes 8 4
  fieldAt c.bytes 1 1 < 4 && (fieldAt c.bytes 2 1 ≤ 63 || fieldAt c.bytes 2 1 == 0xFF) && zeroAt c.bytes 3 1 && zeroAt c.bytes 0xC 4 &&
  (h == noHandle || (s.waitValue? q h).isSome)

/-- A running command completes now. -/
def endWith (q : QRef) (seq status result : Nat) : M Unit := change fun s => s.endCommand q seq status result

/-- The KIND of a record. -/
def kindOf (bs : List Byte) : Nat := fieldAt bs 0 1

/-- The command processor starts a command of some kind on a tenant's queue, and completes it with BAD_FIELD where its header or body
breaks its rules; otherwise it goes on with `body`. -/
def startTenant (q : QRef) (seq kind : Nat) (fields : List Byte → Bool) (body : Nat → Cmd → M Unit) : M Unit := do
  match q with
  | .mgmt => stall
  | .tenant t _ =>
    let c ← beginCommand q seq fun bs => kindOf bs == kind
    if (← look fun s => s.headerOk q c) && fields c.bytes then body t c else endWith q seq stBadField 0

/-- The command of a queue is running. -/
def isRunning (q : QRef) (seq kind : Nat) : M Bool := do
  return (← look fun s => s.runningCmd q seq).any fun c => kindOf c.bytes == kind

/-! ## COPY, FILL, SIGNAL and WAIT (R48) -/

/-- Two ranges have a byte in common. -/
def rangesMeet (a b n : Nat) : Bool := a < b + n && b < a + n

/-- COPY starts (R48); it makes its copy when it completes. -/
def execCopy (q : QRef) (seq : Nat) (s : State) : Host.Outcome State Fault Refusal :=
  runEvent (startTenant q seq 2
    (fun bs => zeroAt bs 0x30 16 && !rangesMeet (fieldAt bs 0x18 8) (fieldAt bs 0x20 8) (fieldAt bs 0x28 8))
    fun t c => do
      let x ← getTenant t
      let n := fieldAt c.bytes 0x28 8
      if ← look fun s => (s.rootRange x needR (fieldAt c.bytes 0x18 8) n).isSome && (s.rootRange x needW (fieldAt c.bytes 0x20 8) n).isSome
      then pure () else endWith q seq stWindow 0) s

/-- FILL starts (R48); it writes when it completes. -/
def execFill (q : QRef) (seq : Nat) (s : State) : Host.Outcome State Fault Refusal :=
  runEvent (startTenant q seq 3
    (fun bs =>
      let w := fieldAt bs 0x30 1
      zeroAt bs 0x31 15 && (w == 1 || w == 2 || w == 4 || w == 8) && fieldAt bs 0x20 8 % w == 0 && fieldAt bs 0x18 8 % w == 0)
    fun t c => do
      let x ← getTenant t
      if ← look fun s => (s.rootRange x needW (fieldAt c.bytes 0x18 8) (fieldAt c.bytes 0x20 8)).isSome
      then pure () else endWith q seq stWindow 0) s

/-- SIGNAL (R48). -/
def execSignal (q : QRef) (seq : Nat) (s : State) : Host.Outcome State Fault Refusal :=
  runEvent (startTenant q seq 4
    (fun bs => zeroAt bs 0x1C 4 && zeroAt bs 0x28 24 && fieldAt bs 0x18 4 / 2 ^ 28 == 2 && fieldAt bs 0x18 4 % 2 ^ 28 < 256)
    fun t c => do
      let x ← look fun s => s.signal t (fieldAt c.bytes 0x18 4 % 2 ^ 28) (fieldAt c.bytes 0x20 8)
      change fun s => (s.signal t (fieldAt c.bytes 0x18 4 % 2 ^ 28) (fieldAt c.bytes 0x20 8)).1
      endWith q seq (if x.2 then stOk else stNotMonotonic) 0) s

/-- The waits in a WAIT's body. -/
def bodyWaits (bs : List Byte) : List (Nat × Nat) :=
  [(fieldAt bs 0x18 4, fieldAt bs 0x28 8), (fieldAt bs 0x1C 4, fieldAt bs 0x30 8), (fieldAt bs 0x20 4, fieldAt bs 0x38 8)]

/-- WAIT starts, and completes once every wait it names is satisfied (R48, R63). -/
def execWait (q : QRef) (seq : Nat) (s : State) : Host.Outcome State Fault Refusal :=
  runEvent (do
    let again ← isRunning q seq 5
    let c ← if again then must (← look fun s => s.runningCmd q seq) else beginCommand q seq fun bs => kindOf bs == 5
    let ok ← look fun s => s.headerOk q c && zeroAt c.bytes 0x24 4 &&
      (bodyWaits c.bytes).all fun w => w.1 == noHandle || (s.waitValue? q w.1).isSome
    let met ← look fun s => (bodyWaits c.bytes).all fun w => s.waitMet q w.1 w.2
    if !ok && !again then endWith q seq stBadField 0
    else if met then endWith q seq stOk 0
    else pure ()) s

/-- A KIND that the queue does not take (R48, R63). -/
def execBadKindCommand (q : QRef) (seq : Nat) (s : State) : Host.Outcome State Fault Refusal :=
  runEvent (do
    let good (k : Nat) : Bool := match q with
      | .tenant _ _ => 1 ≤ k && k ≤ 0xA
      | .mgmt => k == 5 || (0xA ≤ k && k ≤ 0xD)
    let _ ← beginCommand q seq fun bs => !good (kindOf bs)
    endWith q seq stBadKind 0) s

/-! ## COMM_BUILD and COMM_REBUILD (R48, R66 to R68, R80) -/

/-- The members of a list in memory form. -/
def memberList (bs : List Byte) (n : Nat) : List (Nat × Nat) :=
  (List.range n).map fun i => (fieldAt bs (8 + 8 * i) 2, fieldAt bs (10 + 8 * i) 1)

/-- A member list keeps R66. -/
def membersOk (bs : List Byte) (n : Nat) : Bool :=
  zeroAt bs 4 4 && (List.range n).all fun i => fieldAt bs (10 + 8 * i) 1 < 16 && zeroAt bs (11 + 8 * i) 5

/-- The routes of a table in memory form: port and MAC address. -/
def routeList (bs : List Byte) (n : Nat) : List (Nat × Nat) :=
  (List.range n).map fun i => (fieldAt bs (16 * i) 1, fieldAt bs (16 * i + 2) 6)

/-- A route table keeps R68, at rank `r`. -/
def routesOk (bs : List Byte) (n r : Nat) : Bool :=
  (List.range n).all fun i =>
    if i = r then zeroAt bs (16 * i) 16 else fieldAt bs (16 * i) 1 < 16 && zeroAt bs (16 * i + 1) 1 && zeroAt bs (16 * i + 8) 8

/-- COMM_BUILD starts (R67): the member sends its digest, and the command ends when the build does. -/
def execCommBuild (q : QRef) (seq : Nat) (s : State) : Host.Outcome State Fault Refusal :=
  runEvent (startTenant q seq 6
    (fun bs => zeroAt bs 0x30 16 && 1 ≤ fieldAt bs 0x20 4 && fieldAt bs 0x20 4 ≤ 65536 && fieldAt bs 0x24 4 < fieldAt bs 0x20 4)
    fun t c => do
      let n := fieldAt c.bytes 0x20 4
      let r := fieldAt c.bytes 0x24 4
      let x ← getTenant t
      match ← look fun s => (s.ownRead (some t) needR (fieldAt c.bytes 0x18 8) (8 + 8 * n),
          s.ownRead (some t) needR (fieldAt c.bytes 0x28 8) (16 * n)) with
      | (some ms, some rs) =>
        let members := memberList ms n
        let dev ← look fun s => s.root.devid
        let coord := BitVec.ofNat 16 (members.headD (0, 0)).1
        let ckey := BitVec.ofNat 32 (fieldAt ms 0 4)
        let held := x.comms.any fun e => e.2.coord == coord && e.2.ckey == ckey
        if !(membersOk ms n && routesOk rs n r) || members[r]? != some (dev.toNat, t) || held then endWith q seq stBadField 0
        else
          match if x.comms.length < x.quota.commq then afree x.comms (x.comms.length + 1) 0 else none with
          | none => endWith q seq stQuota 0
          | some ci =>
            let digest := sha512 ms
            let m : Comm :=
              { coord := coord, ckey := ckey, members := members, rank := r, digest := digest, routes := routeList rs n,
                phase := .building, queue := match q with | .tenant _ i => i | .mgmt => 0, cmd := seq, seq := 0, index := 0,
                broken := none, failed := none, failures := [], timeline := 0, finished := [], insts := [],
                digests := if r = 0 then [(0, digest)] else [], posts := [], rebuilt := [], asked := 0, asks := [] }
            modTenant t fun x => { x with comms := aset x.comms ci m }
            change fun s => if r = 0 then s.checkBuild t ci else s.ask t ci 6 (leBytes 64 digest.toNat)
      | _ => endWith q seq stWindow 0) s

/-- COMM_REBUILD starts (R80): routes are reloaded, and the member sends REBUILD. A second one while one of the same communicator is under
way answers BAD_FIELD, the model's choice: the rule does not speak of it. Log entry 87. -/
def execCommRebuild (q : QRef) (seq : Nat) (s : State) : Host.Outcome State Fault Refusal :=
  runEvent (startTenant q seq 7
    (fun bs => zeroAt bs 0x1C 4 && zeroAt bs 0x28 24)
    fun t c => do
      let x ← getTenant t
      let ci := fieldAt c.bytes 0x18 4 % 2 ^ 28
      match x.heldComm (fieldAt c.bytes 0x18 4) with
      | none => endWith q seq stBadField 0
      | some m =>
        if m.broken.isNone || m.phase != .ready then endWith q seq stBadField 0
        else
          match ← look fun s => s.ownRead (some t) needR (fieldAt c.bytes 0x20 8) (16 * m.members.length) with
          | none => endWith q seq stWindow 0
          | some rs =>
            let m' := { m with routes := routeList rs m.members.length }
            let up ← look fun s => (List.range 16).all fun p => !m'.usesPort p || s.root.fabup.getLsbD p
            if !routesOk rs m.members.length m.rank then endWith q seq stBadField 0
            else if !up then endWith q seq stLinkDown 0
            else
              change fun s => s.updComm t ci fun m =>
                { m with routes := m'.routes, phase := .rebuilding, queue := match q with | .tenant _ i => i | .mgmt => 0, cmd := seq,
                         rebuilt := if m.rank = 0 then 0 :: m.rebuilt.filter (· != 0) else m.rebuilt }
              change fun s => s.reroute t m' m'.others
              change fun s => if m.rank = 0 then s.checkRebuild t ci else s.ask t ci 7 []) s

end Sys2Proof.Machine
end

