-- ==== Sys2Proof/Machine/Boot.lean ====
section
/-! DEFINITION. Power, clocks, links, the wipe, boot and recovery (R11 to R14, R20, R23 to R28, R33 to R35). -/

namespace Sys2Proof.Machine

/-! ## The wipe and boot (R24, R35) -/

/-- The wipe (R35): every register, memory and buffer as after a power-on; fuses, flash and the sealed key store keep their contents.
The numbers that the model counts by go on, and so does what has been sent. A new management nonce is drawn (R64). -/
def State.wiped (s : State) : State :=
  { State.reset with
      root := { Root.reset with fuses := s.root.fuses, flash := s.root.flash, devid := s.root.devid, nonce := Config.nonce s.free },
      sent := s.sent, agenda := s.agenda, free := s.free + 1, nextKey := s.nextKey, focus := s.focus, stream := s.stream }

/-- A public key's bytes have the digest that a fuse holds. -/
def keyMatches (key : List Byte) (h : BitVec 512) : Bool := sha512 key == h

/-- An image verifies under the key its header carries (R24, R31). -/
def headerSigned (h : ImageHeader) : Bool := signatureOk h.key h.signed h.signature

/-- A firmware image is accepted (R24, step 2). -/
def imageOk (f : Fuses) (img : List Byte) : Bool :=
  let h := Config.imageHeader img
  keyMatches h.key f.vendorKey && headerSigned h && f.fwFloor ≤ h.version

/-- HVSTATE that a hypervisor image gives (R13, R24, step 5). -/
def hypervisorState (f : Fuses) (img : List Byte) : BitVec 4 :=
  let h := Config.imageHeader img
  if img.isEmpty then 1#4
  else if !((keyMatches h.key f.vendorKey || (f.lcstate == 2#2 && keyMatches h.key f.ownerKey)) && headerSigned h) then 2#4
  else if h.version < f.hvFloor then 3#4
  else 0#4

/-- Two ranges, as base and size, have a number in common. -/
def spansMeet (a b : Nat × Nat) : Bool := a.1 < b.1 + b.2 && b.1 < a.1 + a.2

/-- The physical range of a window. -/
def windowSpan (w : Window) : Nat × Nat := (w.reloc, w.wend - w.wstart)

/-- A descriptor keeps R39. -/
def windowFormOk (w : Window) : Bool :=
  w.wstart % 65536 == 0 && w.wend % 65536 == 0 && w.reloc % 65536 == 0 && w.wstart < w.wend && w.wend ≤ 2 ^ 48

/-- No two windows overlap in window addresses (R40). -/
def windowsApart : List Window → Bool
  | [] => true
  | w :: r => (r.all fun v => !spansMeet (w.wstart, w.wend - w.wstart) (v.wstart, v.wend - v.wstart)) && windowsApart r

/-- Front ports with link: port 1 stays down until the MAC base is fused (R62). -/
def frontLinks (f : Fuses) (l : BitVec 2) : BitVec 2 := if f.lcstate = 0#2 then l &&& 1#2 else l

/-- Root sets the bank modes of clusters as its configuration gives, each write judged as a swr (R152, R240). -/
def State.configureBanks (s : State) : List (Nat × W64) → State
  | [] => s
  | (c, v) :: r =>
    let old := (s.cluster c).bankmode
    let ok := c < 48 && bankList.all (fun i => bankField v i != 3) && !((banksChanged old v).any (s.bankBusy c old))
    (if ok then s.setBanks c v else s).configureBanks r

/-- The firmware slot that Root ROM takes (R24, step 2): the first of the two that it accepts, as (slot B, image). It reads slot A first, or
slot B where that was written last: an update takes effect at the next reset (R26). Log entry 82. -/
def bootSlot (f : Fuses) (l : Flash) : Option (Bool × List Byte) :=
  let a := (false, l.slotA)
  let b := (true, l.slotB)
  (if l.newest then [b, a] else [a, b]).find? fun x => imageOk f x.2

/-- A firmware image written to a slot (R25, R26). -/
def Flash.putSlot (l : Flash) (b : Bool) (img : List Byte) : Flash :=
  if b then { l with slotB := img, newest := true } else { l with slotA := img, newest := false }

/-- The window table that the hypervisor sets up for itself (R22): over Root's DRAM reserve, under the rules of R39. -/
def hypervisorWindows (reserve : Nat × Nat) (l : List Window) : List Window :=
  if l.all windowFormOk && windowsApart l && l.all fun w => reserve.1 ≤ w.reloc && w.reloc + (w.wend - w.wstart) ≤ reserve.1 + reserve.2
  then l else []

/-- A reset with a cause: the wipe, then the boot steps of R24, into recovery where neither firmware slot is accepted (R25). -/
def State.boot (s : State) (cause : BitVec 4) (env : BootEnv) : State :=
  let s := s.wiped
  let r := s.root
  match bootSlot r.fuses r.flash with
  | none =>
    { s with root := { r with phase := .recovery, rstcause := cause, tjmax := env.tjmax, frontlink := env.frontLink &&& 1#2 } }
  | some (slot, img) =>
    let h := Config.imageHeader img
    let hv := hypervisorState r.fuses r.flash.hv
    let r := { r with phase := .running, rstcause := cause, tjmax := env.tjmax, slot := slot, fwMeas := sha512 img,
                      fwmajor := h.major, fwminor := h.minor, frontlink := frontLinks r.fuses env.frontLink, fabup := env.fabUp,
                      tildinMeas := sha512 h.tildin, bowlineMeas := sha512 h.bowline, hvstate := hv, hvMeas := if hv = 0#4 then sha512 r.flash.hv else 0,
                      fuses := { r.fuses with fwFloor := max r.fuses.fwFloor h.version } }
    let s := { s with root := r }
    if hv = 0#4 then
      { s with root := { s.root with tvecH := env.tvecH &&& 0xFFFFFFFFFE00#64, hvWindows := hypervisorWindows r.reserve env.hvWindows } }.configureBanks
        env.bankModes
    else s

/-- Power is applied (R24). -/
def execPowerOn (env : BootEnv) (s : State) : Host.Outcome State Fault Refusal :=
  runEvent (do
    need ((← look (·.root.phase)) == .off)
    change fun s => s.boot 0#4 env) s

/-- Power is lost (R33): every activity stops, and only what is not wiped remains. -/
def execPowerFail (s : State) : Host.Outcome State Fault Refusal :=
  runEvent (change fun s => let s := s.wiped; { s with root := { s.root with phase := .off } }) s

/-- The device has power. -/
def powered : M Unit := do need ((← look (·.root.phase)) != .off)

/-- A DEVICE_FAULT event of reason THERMAL for every tenant that has an event region (R12, R405), written as far as there is room. -/
def State.thermalEvents (s : State) : List Nat → State
  | [] => s
  | t :: r =>
    let s := if s.cbRead (some t) 0x40A 1 = 1 then
        (s.emit (some t) (eventBytes 3 3 stThermal 0 0 0xFF 1 0 0) none).flushEvents (some t)
      else s
    s.thermalEvents r

/-- The hottest junction reaches the trip (R12). -/
def execThermalTrip (env : BootEnv) (s : State) : Host.Outcome State Fault Refusal :=
  runEvent (do
    powered
    change fun s => (s.thermalEvents (s.tenants.map (·.1))).boot 2#4 env) s

/-- The Root watchdog expires (R23). -/
def execRootWatchdogExpiry (env : BootEnv) (s : State) : Host.Outcome State Fault Refusal :=
  runEvent (do
    need ((← look (·.root.phase)) == .running)
    change fun s => s.boot 3#4 env) s

/-! ## Temperature and clocks (R10, R11, R13) -/

/-- The hottest junction is measured (R13): TJMAX, saturated. -/
def State.measure (s : State) (degrees : Nat) : State :=
  if s.root.phase = .off then s else { s with root := { s.root with tjmax := BitVec.ofNat 8 (min degrees 0xFF) } }


/-- The clocks lie in their ranges. -/
def clocksOk (a f : Byte) : Bool := 0x0B ≤ a.toNat && a.toNat ≤ 0x21 && 0x0B ≤ f.toNat && f.toNat ≤ 0x16

/-- The power controller lowers a clock or both (R11). -/
def execClockThrottle (aclk fclk : Byte) (s : State) : Host.Outcome State Fault Refusal :=
  runEvent (do
    powered
    let r ← look (·.root)
    need (clocksOk aclk fclk && aclk.toNat ≤ r.aclk.toNat && fclk.toNat ≤ r.fclk.toNat)
    change fun s => { s with root := { s.root with aclk := aclk, fclk := fclk } }) s

/-- The power controller raises them again (R11). -/
def execClockRaise (aclk fclk : Byte) (s : State) : Host.Outcome State Fault Refusal :=
  runEvent (do
    powered
    let r ← look (·.root)
    need (clocksOk aclk fclk && r.aclk.toNat ≤ aclk.toNat && r.fclk.toNat ≤ fclk.toNat)
    change fun s => { s with root := { s.root with aclk := aclk, fclk := fclk } }) s

/-! ## Links (R13, R14, R20) -/

/-- The connections of a front port begin to retry, or go on, with their retry counts at 0 again (R20). The rules of RoCEv2 are not in the
manual; no other event brings a count back to 0. Log entry 65. -/
def retryAll (port : Nat) (down : Bool) (l : AList Qp) : AList Qp :=
  amap l fun _ q => if q.front = port ∧ !q.error then { q with retrying := down, retries := if down then q.retries else 0 } else q

/-- FRONTLINK of a port set or cleared, with what its connections do. -/
def State.frontLink (s : State) (port : Nat) (up : Bool) : State :=
  let bit : BitVec 2 := 1#2 <<< port
  { s with root := { s.root with frontlink := if up then s.root.frontlink ||| bit else s.root.frontlink &&& ~~~bit,
                                 mgmtConns := retryAll port (!up) s.root.mgmtConns },
           tenants := amap s.tenants fun _ x => { x with qps := retryAll port (!up) x.qps } }

/-- A front port gains link (R13); port 1 does not while the MAC base is not fused (R62), nor in recovery (R25). -/
def execFrontLinkUp (port : Nat) (s : State) : Host.Outcome State Fault Refusal :=
  runEvent (do
    powered
    let r ← look (·.root)
    need (port < 2 && (port == 0 || (r.fuses.lcstate != 0#2 && r.phase == .running)))
    change fun s => s.frontLink port true) s

/-- A front port loses link (R20). -/
def execFrontLinkDown (port : Nat) (s : State) : Host.Outcome State Fault Refusal :=
  runEvent (do
    powered
    need (port < 2)
    change fun s => s.frontLink port false) s

/-- A fabric port gains link and block lock (R14). -/
def execFabricLinkUp (port : Nat) (s : State) : Host.Outcome State Fault Refusal :=
  runEvent (do
    powered
    need (port < 16)
    change fun s => { s with root := { s.root with fabup := s.root.fabup ||| (1#16 <<< port) } }) s

/-- A fabric port loses link (R14, R20, R79). -/
def execFabricLinkDown (port : Nat) (s : State) : Host.Outcome State Fault Refusal :=
  runEvent (do
    powered
    need (port < 16)
    change fun s => s.portDown port true) s

/-! ## Recovery (R25) -/

/-- Bytes of the staging buffer. -/
def stagingBytes : Nat := 2 ^ 27

/-- The one connection of recovery is up (R25). -/
def recoveryUp : M Unit := do
  let r ← look (·.root)
  need (r.phase == .recovery && (aget r.mgmtConns 0).any fun q => !q.error)

/-- An RDMA WRITE into the staging buffer, at offset 0 (R25). One at another offset, or a longer one, is no operation that recovery accepts;
the answer to it is the model's choice, the NAK that R25 gives for a failed verification. Log entry 83. -/
def execRecoveryImageWrite (addr : Nat) (data : List Byte) (s : State) : Host.Outcome State Fault Refusal :=
  runEvent (do
    recoveryUp
    if addr = 0 ∧ data.length ≤ stagingBytes then
      change fun s => { s with root := { s.root with staging := memSetN s.root.staging addr data } }
    else change fun s => s.send .opError) s

/-- The SEND that names slot and length: the staged image is verified, written to the slot, and the device resets; or the SEND is
refused, one that is malformed in the same way (the model's choice, log entry 83). -/
def execRecoverySend (data : List Byte) (env : BootEnv) (s : State) : Host.Outcome State Fault Refusal :=
  runEvent (do
    recoveryUp
    let slot := fieldAt data 0 4
    let n := fieldAt data 4 8
    let r ← look (·.root)
    let img := memGetN r.staging 0 (min n stagingBytes)
    if data.length = 16 ∧ slot < 2 ∧ zeroAt data 12 4 ∧ n ≤ stagingBytes ∧ imageOk r.fuses img then
      change fun s =>
        { s with root := { s.root with flash := s.root.flash.putSlot (slot == 1) img } }.boot 5#4 env
    else change fun s => s.send .opError) s

end Sys2Proof.Machine
end

