-- ==== Sys2Proof/Machine/ScalarFlow.lean ====
section
/-! DEFINITION. Scalar branches and jumps (R309), the lane queues and dispatch (R121 to R124, R310 to R312), and the waits on paths
(R160, R317). -/

namespace Sys2Proof.Machine

/-- The target of a branch or jump (R309). -/
def scalarTarget {n : Nat} (pc : W64) (o : BitVec n) : W64 := pc + 4 * sext64 o

/-- j (R309). -/
def execJ (o : BitVec 26) (s : State) : Host.Outcome State Fault Refusal := runScalarTo (fun g => return scalarTarget g.pc o) s

/-- jal (R309). -/
def execJal (o : BitVec 26) (s : State) : Host.Outcome State Fault Refusal :=
  runScalarTo (fun g => do
    writeS 1#6 (g.pc + 4)
    return scalarTarget g.pc o) s

/-- jr (R309): the target is read before the link is written. -/
def execJr (d a : SReg) (s : State) : Host.Outcome State Fault Refusal :=
  runScalarTo (fun g => do
    let t ← readS a
    writeS d (g.pc + 4)
    return t) s

/-- A conditional branch (R309). -/
def branchIf (a b : SReg) (o : BitVec 14) (f : W64 → W64 → Bool) (s : State) : Host.Outcome State Fault Refusal :=
  runScalarTo (fun g => do
    let x ← readS a
    let y ← readS b
    return if f x y then scalarTarget g.pc o else g.pc + 4) s

/-- beq (R309). -/
def execBeq (a b : SReg) (o : BitVec 14) (s : State) : Host.Outcome State Fault Refusal := branchIf a b o (fun x y => x == y) s

/-- bne (R309). -/
def execBne (a b : SReg) (o : BitVec 14) (s : State) : Host.Outcome State Fault Refusal := branchIf a b o (fun x y => x != y) s

/-- blt (R309). -/
def execBlt (a b : SReg) (o : BitVec 14) (s : State) : Host.Outcome State Fault Refusal := branchIf a b o (fun x y => x.slt y) s

/-- bge (R309). -/
def execBge (a b : SReg) (o : BitVec 14) (s : State) : Host.Outcome State Fault Refusal := branchIf a b o (fun x y => !x.slt y) s

/-- bltu (R309). -/
def execBltu (a b : SReg) (o : BitVec 14) (s : State) : Host.Outcome State Fault Refusal := branchIf a b o (fun x y => x.ult y) s

/-- bgeu (R309). -/
def execBgeu (a b : SReg) (o : BitVec 14) (s : State) : Host.Outcome State Fault Refusal := branchIf a b o (fun x y => !x.ult y) s

/-! ## Queues and dispatch -/

/-- A scalar queue access that cannot go on: TRAP(QUEUE_ORPHAN) when the lane stream can never act on the queue again, otherwise a
wait (R124). -/
def scalarQueueWait {α : Type} (g : Group) : M α := if g.laneIdle then trap .queueOrphan else stallQueue false

/-- sqpush (R310). -/
def execSqpush (a : SReg) (s : State) : Host.Outcome State Fault Refusal :=
  runScalar (fun g => do
    let x ← readS a
    if g.sq.length < 16 then modHere fun g => { g with sq := g.sq ++ [x] } else scalarQueueWait g) s

/-- lqpop (R310). -/
def execLqpop (d : SReg) (s : State) : Host.Outcome State Fault Refusal :=
  runScalar (fun g => do
    match g.lq with
    | [] => scalarQueueWait g
    | x :: r =>
      modHere fun g => { g with lq := r }
      writeS d x) s

/-- The role of a group. -/
def Team.roleOf (t : Team) (g : Group) : Role := t.roles.getD g.role { entry := 0, table := [], slots := 0, prio := 0, rgroups := 0 }

/-- In an ordered launch, the lane stream has the turn next (R110). -/
def passTurn : M Unit := do
  if ← isOrdered then modHere fun g => { g with laneTurn := true } else pure ()

/-- lrun (R121, R311). -/
def execLrun (a : SReg) (s : State) : Host.Outcome State Fault Refusal :=
  runScalar (fun g => do
    let x ← readS a
    let t ← hereT
    match (t.roleOf g).table[x.toNat]? with
    | none => trap .blockRange
    | some i =>
      if g.dispatch.length < 4 then
        modHere fun g => { g with dispatch := g.dispatch ++ [(i, g.fmtr)] }
        passTurn
      else
        passTurn
        markHeld
        hold) s

/-- Wait, as lsync and exit do, until the lane stream is idle and the dispatch queue empty; meanwhile the lane stream knows that the
scalar stream will act on no queue (R122, R124). -/
def awaitLanes (g : Group) : M Unit := do
  if g.laneIdle then pure ()
  else
    modHere fun g => { g with syncing := true }
    passTurn
    hold

/-- lsync (R122, R311). -/
def execLsync (s : State) : Host.Outcome State Fault Refusal := runScalar awaitLanes s

/-- fmt (R130, R312). -/
def execFmt (a : SReg) (s : State) : Host.Outcome State Fault Refusal :=
  runScalar (fun _ => do
    let x ← readS a
    unlessTrap (fmtrValid x) .fmtInvalid
    modHere fun g => { g with fmtr := x }) s

/-- A lane block starts (R122, R129): the lane stream, idle, takes the first dispatch entry, with one fragment of all 96 lanes at the
block's first instruction, in the mode the team's streams start in (R22, R221, R240). -/
def execBlockStart (r : GRef) (s : State) : Host.Outcome State Fault Refusal :=
  runEvent (do
    let t ← getTeam r.team
    let g ← getGroup r
    need (g.frags.isEmpty && !g.exited && !t.ended && (t.halt.isNone || t.homeMode != .user))
    match g.dispatch with
    | [] => stall
    | (i, f) :: rest =>
      modGroup r fun g => { g with dispatch := rest, frames := [], run := none,
                                   frags := [(0, { startFragment (t.lcode + 12 * BitVec.ofNat 64 i.toNat) f with
                                                   mode := t.homeMode })] }) s

/-- wait (R160, R317). -/
def execScalarWait (p : Path) (a : SReg) (s : State) : Host.Outcome State Fault Refusal :=
  runScalar (fun g => do
    let x ← readS a
    waitUnless (g.inflight p ≤ x.toNat)) s

end Sys2Proof.Machine
end

