-- ==== Sys2Proof/Machine/System.lean ====
section
/-! DEFINITION. The system group of the scalar stream (R321 to R328) and the writes of the special registers that have a row of their own,
in both streams. -/

namespace Sys2Proof.Machine

/-! ## Calls and returns -/

/-- A call that a stream reaches while its team halts is not executed: the stream stops at it (R232). -/
def callMayIssue (m : Mode) : M Unit := do
  let t ← hereT
  need (m != .user || t.halt.isNone)

/-- A scalar call: its number is bits [20:0] of sA (R226, R321). -/
def scalarCall (c : Cause) (allowed : Mode → Bool) (a : SReg) (s : State) : Host.Outcome State Fault Refusal :=
  runScalar (fun g => do
    unlessTrap (allowed g.mode) .privInstruction
    callMayIssue g.mode
    let x ← readS a
    stop (.trap { cause := c, lane := none, info := (x.extractLsb' 0 21).setWidth 32, bad := 0, set := none })) s

/-- sysc (R321). -/
def execScalarSysc (a : SReg) (s : State) : Host.Outcome State Fault Refusal := scalarCall .syscall (· == .user) a s

/-- hcall (R321). -/
def execScalarHcall (a : SReg) (s : State) : Host.Outcome State Fault Refusal := scalarCall .hcall (· == .supervisor) a s

/-- brk (R321). -/
def execScalarBrk (a : SReg) (s : State) : Host.Outcome State Fault Refusal := scalarCall .brk (fun _ => true) a s

/-- tret (R229, R322). -/
def execScalarTret (s : State) : Host.Outcome State Fault Refusal :=
  runScalarTo (fun g => do
    unlessTrap (g.mode != .user) .privInstruction
    unlessTrap g.trap.isSome .tretUnbalanced
    change fun s => s.scalarReturn s.focus
    return (← hereG).pc) s

/-! ## Special registers -/

/-- srd (R303, R323). -/
def execScalarSrd (d a : SReg) (s : State) : Host.Outcome State Fault Refusal :=
  runScalar (fun g => do
    let sel := (← readS a).toNat % 2 ^ 14
    sregReadCheck g.mode sel
    let r ← here
    let t ← hereT
    writeS d (← look fun s => s.sregValue r t g (scalarReader g) sel)) s

/-- swr (R303, R323). -/
def execScalarSwr (d a : SReg) (s : State) : Host.Outcome State Fault Refusal := scalarSwr d a s

/-- swr to FMTR (R130, R323, R387). -/
def execFmtrWrite (w : SwrForm) (s : State) : Host.Outcome State Fault Refusal := swrForm w 0x010 s

/-- swr to GANG (R145, R147, R323, R387). -/
def execGangWrite (w : SwrForm) (s : State) : Host.Outcome State Fault Refusal := swrForm w 0x017 s

/-- swr to PTBASE (R170, R172, R323, R387). -/
def execPtbaseWrite (w : SwrForm) (s : State) : Host.Outcome State Fault Refusal := swrForm w 0x107 s

/-- swr to WINBASE (R172, R223, R323, R387). -/
def execWinbaseWrite (w : SwrForm) (s : State) : Host.Outcome State Fault Refusal := swrForm w 0x108 s

/-- swr to WINLIM (R172, R223, R323, R387). -/
def execWinlimWrite (w : SwrForm) (s : State) : Host.Outcome State Fault Refusal := swrForm w 0x109 s

/-- swr to BANKMODE (R150, R152, R323, R387). -/
def execBankmodeWrite (w : SwrForm) (s : State) : Host.Outcome State Fault Refusal := swrForm w 0x10B s

/-- swr to BANKOWN (R151, R323, R387). -/
def execBankownWrite (w : SwrForm) (s : State) : Host.Outcome State Fault Refusal := swrForm w 0x10C s

/-- swr to GNAN (R265, R323, R387). -/
def execGnanClear (w : SwrForm) (s : State) : Host.Outcome State Fault Refusal := swrForm w 0x01A s

/-- swr to PNAN (R323, R369, R387). -/
def execPnanClear (w : SwrForm) (s : State) : Host.Outcome State Fault Refusal := swrForm w 0x016 s

/-- feat (R290, R323). -/
def execFeat (d a : SReg) (s : State) : Host.Outcome State Fault Refusal :=
  runScalar (fun _ => do
    let n := (← readS a).toNat % 2 ^ 14
    unlessTrap (n < 16) .sregRange
    writeS d (featureWord n)) s

/-! ## Roles (R119, R120, R324) -/

/-- The group is quiescent (R120). -/
def Group.quiescent (g : Group) : Bool :=
  g.laneIdle && g.frames.isEmpty && !g.proposal && gangSize g.gang == 0 &&
  [Path.ld, .st, .sx, .kv].all fun p => g.inflight p == 0

/-- role (R120, R324). -/
def execRole (a : SReg) (s : State) : Host.Outcome State Fault Refusal :=
  runScalarTo (fun g => do
    unlessTrap (g.mode == .user) .privInstruction
    let x ← readS a
    let t ← hereT
    let r ← orTrap (t.roles[x.toNat]?) .roleSlots
    unlessTrap g.quiescent .roleBusy
    unlessTrap (r.slots - g.allot ≤ t.spareFree && g.slotsUsed ≤ r.slots) .roleSlots
    let k ← here
    modTeam k.team fun t => { t with spare := t.spare + g.allot - r.slots }
    modHere fun g => { g with role := x.toNat, prio := r.prio, allot := r.slots }
    return r.entry) s

/-! ## yield, nop, fences -/

/-- yield (R325): it changes time only. -/
def execYield (s : State) : Host.Outcome State Fault Refusal := runScalar (fun _ => pure ()) s

/-- nop (R325). -/
def execScalarNop (s : State) : Host.Outcome State Fault Refusal := runScalar (fun _ => pure ()) s

/-- A fence (R199, R327, R363): the release half waits for every earlier access and performs it at the scope; the acquire half waits
for every earlier read. -/
def fenceOp (sc : Scope) (o : Order) : M Unit := do
  if o = .rel ∨ o = .ar then releaseHere (scopeWide sc) else pure ()
  if o = .acq ∨ o = .ar then acquireHere (scopeWide sc) else pure ()

/-- fence (R327). -/
def execFence (sc : Scope) (o : Order) (s : State) : Host.Outcome State Fault Refusal := runScalar (fun _ => fenceOp sc o) s

/-! ## mwait (R326) -/

/-- Writes performed so far at a watched line. -/
def State.lineWrites (s : State) (line : Nat) : Nat := (aget s.watch line).getD 0

/-- mwait (R238, R326): it arms its watch, and goes on with the status once the wait has ended. -/
def execMwait (d a : SReg) (s : State) : Host.Outcome State Fault Refusal :=
  runScalar (fun g => do
    let x ← readS a
    match g.mwait with
    | some w =>
      match w.result with
      | some n =>
        modHere fun g => { g with mwait := none }
        writeS d (BitVec.ofNat 64 n)
      | none => hold
    | none =>
      if x.toNat % 8 ≠ 0 then trapAt .misaligned none 0 x else pure ()
      let pa ← xlateVA g.mode none x.toNat needR
      let t ← hereT
      let line := pa / 128
      change fun s => { s with watch := aset s.watch line (s.lineWrites line) }
      let n ← look fun s => s.lineWrites line
      let cyc ← look fun s => (s.core t.core).cyc
      modHere fun g => { g with mwait := some { line := line, seen := n, armed := cyc, result := none } }
      hold) s

/-- The wait of a group in mwait ends with a status. -/
def endMwait (r : GRef) (n : Nat) : M Unit :=
  modGroup r fun g => { g with mwait := g.mwait.map fun w => { w with result := some n } }

/-- A watched line has been written after arming (R326): status WRITTEN. -/
def execMwaitWritten (r : GRef) (s : State) : Host.Outcome State Fault Refusal :=
  runEvent (do
    let g ← getGroup r
    let w ← must g.mwait
    need (w.result.isNone && w.seen < (← look fun s => s.lineWrites w.line))
    endMwait r 0) s

/-- 2^20 cycles have passed since arming (R326): status TIMEOUT. -/
def execMwaitTimeout (r : GRef) (s : State) : Host.Outcome State Fault Refusal :=
  runEvent (do
    let t ← getTeam r.team
    let g ← getGroup r
    let w ← must g.mwait
    need (w.result.isNone && 2 ^ 20 ≤ ((← look fun s => (s.core t.core).cyc) - w.armed).toNat)
    endMwait r 1) s

/-! ## exit (R124, R328) -/

/-- A group that has exited: its queues, its shadow and its place in its gang are gone. -/
def Group.leave (g : Group) : Group :=
  { g with exited := true, sq := [], lq := [], proposal := false, shadows := [], gang := 0, syncing := false, waiting := [],
           running := none, latched := [] }

/-- exit (R124, R147, R328). -/
def execExit (s : State) : Host.Outcome State Fault Refusal :=
  runScalar (fun g => do
    unlessTrap (g.mode == .user) .privInstruction
    awaitLanes g
    let r ← here
    modHere Group.leave
    if gangSize g.gang != 0 then change fun s => s.leaveGang r.team (gangNum g.gang) else pure ()
    change fun s => s.strandCheck r.team
    if (← hereT).groups.all (·.2.exited) then change fun s => s.noteExit r.team else pure ()) s

end Sys2Proof.Machine
end

