-- ==== Sys2Proof/Machine/LaneSys.lean ====
section
/-! DEFINITION. The lane ends of the queues, OP 0x2C (R386), special and supervisor registers, OP 0x2D (R387, R388), and calls and
returns, OP 0x30 (R389, R390). -/

namespace Sys2Proof.Machine

/-! ## sq and lq -/

/-- lqpush (R386). -/
def execLqpush (h : LHdr) (b64 : Bool) (a : Src) (s : State) : Host.Outcome State Fault Refusal :=
  runLane h (fun c => do
    privSources c [a]
    let names := groupOf a (if b64 then 2 else 1)
    let ts ← readSrcs c names
    let entry : W64 :=
      match lowestLane c.w, ts with
      | some l, [lo, hi] => hi.lane l ++ lo.lane l
      | some l, lo :: _ => zext64 (lo.lane l)
      | _, _ => 0#64
    pushLq [entry]
    decSources names []) s

/-- sqpop (R386). -/
def execSqpop (cc : BitVec 3) (write : Bool) (d : VReg) (s : State) : Host.Outcome State Fault Refusal :=
  runLane noGuard (fun c => do
    let x ← sqHead
    if write then writeRegs c cc.toNat [(d, .uniform (x.setWidth 32))] else pure ()
    modHere fun g => { g with sq := g.sq.drop 1 }) s

/-! ## Special and supervisor registers -/

/-- srd (R303, R387). -/
def execLaneSrd (h : LHdr) (hi : Bool) (d : VReg) (sel : BitVec 14) (s : State) : Host.Outcome State Fault Refusal :=
  runLane h (fun c => do
    sregReadCheck c.frag.mode sel.toNat
    let r ← here
    let t ← hereT
    let g ← hereG
    let v ← look fun s => s.sregValue r t g (laneReader c.frag) sel.toNat
    writeRegs c h.cc.toNat [(d, .uniform (v.extractLsb' (if hi then 32 else 0) 32))]) s

/-- swr (R303, R387). -/
def execLaneSwr (h : LHdr) (hi : Bool) (a : Src) (sel : BitVec 14) (s : State) : Host.Outcome State Fault Refusal :=
  laneSwr h hi a sel.toNat s

/-- kmov (R224, R388). A value that is not uniform is general in kD (R132). -/
def execKmov (h : LHdr) (d : BitVec 5) (a : Src) (s : State) : Host.Outcome State Fault Refusal :=
  runLane h (fun c => do
    unlessTrap (c.frag.mode != .user) .privOperand
    let x ← readSrc c a
    let free := (← hereT).spareFree
    let g ← hereG
    match g.writeK free d.toNat c.w (resultTag [x] x.lane) h.cc.toNat with
    | none => trap .slotExhausted
    | some g' =>
      modHere fun _ => g'
      decSources [a] (if c.w = 0#96 then [] else [.k d])) s

/-! ## Calls and returns -/

/-- A lane call: its call set is W, and its number IMM (R227, R389). With an empty W it retires as nop where `skip` says so. -/
def laneCall (h : LHdr) (cause : Cause) (skip : Bool) (allowed : Mode → Bool) (n : BitVec 21) (s : State) :
    Host.Outcome State Fault Refusal :=
  runLane h (fun c => do
    unlessTrap (allowed c.frag.mode) .privInstruction
    if skip ∧ c.w = 0#96 then pure ()
    else
      callMayIssue c.frag.mode
      stop (.trap { cause := cause, lane := none, info := n.setWidth 32, bad := 0, set := some c.w })) s

/-- sysc (R389). -/
def execLaneSysc (h : LHdr) (n : BitVec 21) (s : State) : Host.Outcome State Fault Refusal :=
  laneCall h .syscall true (· == .user) n s

/-- hcall (R389). -/
def execLaneHcall (h : LHdr) (n : BitVec 21) (s : State) : Host.Outcome State Fault Refusal :=
  laneCall h .hcall true (· == .supervisor) n s

/-- brk (R389). -/
def execLaneBrk (h : LHdr) (n : BitVec 21) (s : State) : Host.Outcome State Fault Refusal :=
  laneCall h .brk false (fun _ => true) n s

/-- nop (R389). -/
def execLaneNop (h : LHdr) (s : State) : Host.Outcome State Fault Refusal := runLane h (fun _ => pure ()) s

/-- The return write of a handler (R229, R236): in the proposal window it goes to the shadow, its count is 0, and a value that is not
uniform is general (R132). -/
def returnWrite (c : LaneCtx) (d : VReg) (t : Tag) : M Unit := do
  let base ← windowBase
  let g ← hereG
  need (!g.vregBusy c.fid d)
  match g.writeV base true d.toNat c.w (resultTag [t] t.lane) 0 with
  | none => trap .slotExhausted
  | some g' => modHere fun _ => g'

/-- tret (R229, R390): the handler fragment writes its return value and waits at its frame; the frame pops when the whole call set has
arrived. -/
def execLaneTret (h : LHdr) (write fin : Bool) (d : VReg) (a : Src) (s : State) : Host.Outcome State Fault Refusal :=
  runTurn h (fun c => do
    unlessTrap (c.frag.mode != .user) .privInstruction
    unlessTrap c.frag.frame.isNone .tretUnbalanced
    let pos ← orTrap c.frag.handler .tretUnbalanced
    if write then
      let x ← readSrc c a
      returnWrite c d x
      decSources [a] (writtenBy c [d])
    else pure ()
    modFrag c.fid fun f => { f with wait := .tret }
    modHere fun g => { g with running := none }
    if fin then modHere fun g => { g with traps := aupd g.traps pos fun fr => { fr with fin := true } } else pure ()
    change fun s => s.lanePop s.focus pos) s

end Sys2Proof.Machine
end

