-- ==== Sys2Proof/Machine/Fetch.lean ====
section
/-! DEFINITION. Fetching and decoding the next instruction of a stream (R292, R294, R304), which stream may issue (R97, R99, R110),
and a place for an instruction to run in right after reset. -/

namespace Sys2Proof.Machine

/-- What a stream finds at its program counter. -/
inductive Fetched where
  /-- The stream cannot issue now. -/
  | idle
  /-- The next instruction. -/
  | instr (i : Instr)
  /-- A trap before the instruction: at the fetch (R294, R304), at decoding, or a pending ENGINE_FAULT or GANG_ORPHAN (R147, R234). -/
  | trap (t : TrapInfo)
  /-- A physical address that does not exist. -/
  | fault (f : Fault)
  deriving DecidableEq, Repr

/-- The row of a scalar swr or kcfg word, which the selector's register or the configuration record tells (R303, R320, R179); a kcfg that
waits at a port has loaded its record already. -/
def State.refine (s : State) (t : Team) (g : Group) : Instr → Instr
  | .scalarSwr d a => (swrRow (.scalar d a) ((g.sreg a).setWidth 14)).getD (.scalarSwr d a)
  | .kcfgDefine d a =>
    match s.waitingOp t.core s.focus .scalar with
    | some x => x.instr
    | none =>
    match s.translate t.tenant t.core g.mode (g.sreg a).toNat needR with
    | .ok pa =>
      match (s.cachedByte (clusterOf t.core) pa).toNat with
      | 1 => .kcfgStream d a
      | 2 => .kcfgClear d a
      | 3 => .kcfgStatus d a
      | 4 => .kcfgAttach d a
      | _ => .kcfgDefine d a
    | _ => .kcfgDefine d a
  | i => i

/-- The registers that `refine` reads hold their values. -/
def refineReady (g : Group) : Instr → Bool
  | .scalarSwr _ a => !g.sregPending a
  | .kcfgDefine _ a => !g.sregPending a
  | _ => true

/-- In an ordered launch, the scalar stream has the turn (R110). -/
def scalarTurn (t : Team) (g : Group) : Bool := !t.isOrdered || !g.laneTurn || g.laneIdle

/-- The next instruction of the scalar stream. -/
def fetchScalar (s : State) (t : Team) (g : Group) : Fetched :=
  if !scalarMayIssue t g || !scalarTurn t g then .idle
  else
    match g.fault with
    | some (info, bad) => .trap { cause := .engineFault, lane := none, info := info, bad := bad, set := none }
    | none =>
      if g.pc.toNat % 4 ≠ 0 then .trap { plainTrap .misaligned with bad := g.pc }
      else
        match s.codeBytes t.tenant t.core g.mode g.pc.toNat 4 with
        | .error (r, b) => .trap (xlateTrap none r b)
        | .ok none => .fault .noSuchAddress
        | .ok (some bs) =>
          match decodeScalar (wordAt bs 0) with
          | none => .trap (plainTrap .illegalInstruction)
          | some i => if refineReady g i then .instr (s.refine t g i) else .idle

/-- A fragment that takes part in the ranking of R110: neither parked nor waiting at a join or a trap frame. -/
def Fragment.ranks (f : Fragment) : Bool := f.parkedBy.isNone && f.wait != .join && f.wait != .tret

/-- In an ordered launch, the lane stream has the turn, and the fragment is the one that runs, or, where none does, has the first rank
(R110). -/
def laneTurnOf (t : Team) (g : Group) (fid : Nat) (f : Fragment) : Bool :=
  !t.isOrdered ||
  (g.laneTurn &&
    match g.running.filter fun k => (aget g.frags k).any (·.ranks) with
    | some k => fid == k
    | none => g.frags.all fun e => e.1 == fid || !e.2.ranks || rankLt (fragRank fid f) (fragRank e.1 e.2))

/-- Another fragment has a latch run open on the group's slot, whose only lane candidate it is until the run ends (R99, R139). -/
def otherRunHolds (s : State) (r : GRef) (t : Team) (g : Group) (fid : Nat) : Bool :=
  s.teams.any fun e => e.2.core == t.core && !e.2.ended && e.2.groups.any fun x =>
    x.2.slot == g.slot && !x.2.exited && inLatchRun s e.2 x.2 && !(e.1 == r.team && x.1 == r.group && x.2.run.any (·.frag == fid))

/-- A halt stops a user-mode fragment at the boundary of its latch run (R142, R232). -/
def stopsHere (s : State) (t : Team) (f : Fragment) : Bool := t.halt.isSome && f.mode == .user && !runHolds s t f

/-- A fragment waits at a rendezvous from which a GANG_ORPHAN is due, and can take it: it is not parked, and no fragment of its group or slot
is within a latch run (R142, R147). Log entry 95. -/
def orphanDue (s : State) (t : Team) (g : Group) (fid : Nat) (f : Fragment) : Bool :=
  f.wait == .orphan && !t.ended && !g.exited && f.parkedBy.isNone && !otherRunHolds s s.focus t g fid

/-- The next instruction of a lane fragment. -/
def fetchLane (s : State) (t : Team) (g : Group) (fid : Nat) : Fetched :=
  match aget g.frags fid with
  | none => .idle
  | some f =>
    if orphanDue s t g fid f then .trap (plainTrap .gangOrphan)
    else if !laneMayIssue t g fid f || !laneTurnOf t g fid f || otherRunHolds s s.focus t g fid || stopsHere s t f then .idle
    else
      match s.codeBytes t.tenant t.core f.mode f.pc.toNat 12 with
      | .error (r, b) => .trap (xlateTrap none r b)
      | .ok none => .fault .noSuchAddress
      | .ok (some bs) =>
        match decodeLane (wordAt bs 0) (wordAt bs 1) (wordAt bs 2) with
        | .illegal => .trap (plainTrap .illegalInstruction)
        | .badOperand => .trap (plainTrap .illegalOperand)
        | .ok i => .instr i

/-- The next instruction of the stream in focus. -/
def fetch (s : State) : Fetched :=
  match s.team? s.focus.team, s.group? s.focus with
  | some t, some g =>
    match s.stream with
    | .scalar => fetchScalar s t g
    | .lane fid => fetchLane s t g fid
  | _, _ => .idle

/-- A trap taken in place of an instruction. A pending ENGINE_FAULT or GANG_ORPHAN is no longer pending. -/
def State.takeTrap (s : State) (i : TrapInfo) : State :=
  match s.stream with
  | .scalar => (s.updGroup s.focus fun g => { g with fault := none }).takeScalarTrap s.focus i
  | .lane fid =>
    (if i.cause = .gangOrphan then s.updGroup s.focus fun g => { g with frags := aupd g.frags fid fun f => { f with wait := .none } } else s).takeLaneTrap
      s.focus fid i

/-! ## A place to run one instruction in -/

/-- A tenant with one window over the low megabyte and no page tables, for an instruction to run in. -/
def bareTenant : Tenant :=
  { quota := ⟨0, 0, 0, 0, 0, 0, 0⟩, cores := [0], quantum := 65536, ips := [], vlans := [], cfgBase := 0, cfgLim := 1,
    winbase := 0, winlim := 1, ptbase := 0, tlb := [], queues := [], signals := [], events := { next := 0, held := [] }, qps := [],
    board := 0, armed := [], comms := [], objects := [], objBase := 0, objTop := 0, cacheBase := 0, vendorMap := false, tcache := [], signKey := none,
    supv := { tvecS := 0, meas := 0, init := none, pending := none, previous := none, rerun := false, banks := [] }, fds := [], sockets := [],
    knotdisc := 0, rdmanak := 0, evlost := 0 }

/-- The window of that tenant. -/
def bareWindow : Window := { wstart := 0, wend := 0x100000, reloc := 0, perm := 0xF#4 }

/-- A team of one group on core 0 whose instructions stand at 0x10000. -/
def bareTeam (lane : Bool) : Team :=
  let g := freshGroup 0 0 64 0x10000 0
  { launch := none, tid := 0, tenant := 0, core := 0, ngroups := 1, gx := 1, gy := 1, gz := 1, isOrdered := false,
    preempt := false, roles := [⟨0x10000, [0], 64, 0, 1⟩], lcode := 0x10000, pbase := 0xFFFF, argptr := 0, granules := [],
    scratchBytes := 0, scratch := [], spare := 0, parts := [], attach := [], accs := [freshAcc], knots := List.replicate 16 (freshKnot 1),
    ctxs := List.replicate 9 freshCtx, latches := [], quantum := 0, halt := none, isInit := false, hv := none, ended := false,
    groups := [(0, if lane then { g with frags := [(0, startFragment 0x10000 0)] } else g)] }

/-- The state with that tenant and team, alone, and its stream in focus. -/
def State.bare (s : State) (lane : Bool) : State :=
  { s with root := { s.root with windows := aset s.root.windows 0 bareWindow }, tenants := aset s.tenants 0 bareTenant,
           teams := [(0, bareTeam lane)], focus := ⟨0, 0⟩, stream := if lane then .lane 0 else .scalar }

/-- The physical address of the next instruction of the stream in focus, where that stream can issue and the address can be
fetched. -/
def fetchPlace (s : State) (lane : Bool) : Option Nat :=
  match s.team? s.focus.team, s.group? s.focus, s.stream, lane with
  | some t, some g, .scalar, false =>
    if scalarMayIssue t g && scalarTurn t g && g.fault.isNone && g.pc.toNat % 4 == 0 then
      match s.translate t.tenant t.core g.mode g.pc.toNat needX with | .ok pa => some pa | _ => none
    else none
  | some t, some g, .lane fid, true =>
    match aget g.frags fid with
    | some f =>
      if laneMayIssue t g fid f && laneTurnOf t g fid f && !otherRunHolds s s.focus t g fid && !stopsHere s t f then
        match s.translateRange t.tenant t.core f.mode f.pc.toNat 12 needX with
        | .ok (some [(pa, _)]) => some pa
        | _ => none
      else none
    | none => none
  | _, _, _, _ => none

/-- The state with the instruction of bits `w` where the stream in focus fetches next: one word for the scalar stream, three
for the lane stream. Where no stream of that kind can fetch, a tenant with one team stands first. -/
def State.placeWord (s : State) (nbits w : Nat) : State :=
  let lane := 32 < nbits
  let bytes := leBytes (if lane then 12 else 4) w
  let s := { s with agenda := [] }
  match fetchPlace s lane with
  | some pa => { s with mem := memSetN s.mem pa bytes }
  | none => let s := s.bare lane; { s with mem := memSetN s.mem 0x10000 bytes }

end Sys2Proof.Machine
end

