-- ==== Sys2Proof/Machine/Grove.lean ====
section
/-! DEFINITION. The Grove: its partitions, kacc, klook, kread, kclr, kcfg and kdrain, and its eviction streams (R174 to R194,
R320, R364 to R368). -/

namespace Sys2Proof.Machine

/-! ## Geometry, fields and combining (R175, R177, R178) -/

/-- Payload bytes of a GWIDTH. -/
def payloadBytes (w : Nat) : Nat := 8 * 2 ^ w

/-- Entries of a partition. -/
def Partition.size (p : Partition) : Nat := 65536 / payloadBytes p.width

/-- log2 of its sets. -/
def Partition.setBits (p : Partition) : Nat := 9 - p.width

/-- The set of a key (R177). -/
def Partition.setOf (p : Partition) (k : W64) : Nat := (k * 0x9E3779B97F4A7C15#64).toNat / 2 ^ (64 - p.setBits)

/-- Bytes of a record in a stream (R175). -/
def Partition.recordBytes (p : Partition) : Nat := 8 + payloadBytes p.width

/-- Bytes of a field of a GOP. -/
def fieldBytes : Nat → Nat
  | 1 => 8
  | 8 => 16
  | 9 => 8
  | _ => 4

/-- The identity of a GOP. -/
def groveIdentity (gop : Nat) : List Byte :=
  match gop with
  | 3 => leBytes 4 0xFF800000
  | 4 => leBytes 4 0x7F800000
  | 5 => leBytes 4 0x80000000
  | 6 => leBytes 4 0x7FFFFFFF
  | n => List.replicate (fieldBytes n) 0#8

/-- A payload whose fields hold their identity. -/
def Partition.blank (p : Partition) : List Byte :=
  (List.replicate (payloadBytes p.width / fieldBytes p.gop) (groveIdentity p.gop)).flatten

/-- Field `f` lies within the payload. -/
def Partition.hasField (p : Partition) (f : Nat) : Bool := (f + 1) * fieldBytes p.gop ≤ payloadBytes p.width

/-- Field `f` of a payload. -/
def Partition.field (p : Partition) (f : Nat) (pl : List Byte) : List Byte := (pl.drop (f * fieldBytes p.gop)).take (fieldBytes p.gop)

/-- A payload with field `f` replaced. -/
def Partition.setField (p : Partition) (f : Nat) (pl v : List Byte) : List Byte :=
  pl.take (f * fieldBytes p.gop) ++ v ++ pl.drop ((f + 1) * fieldBytes p.gop)

/-- Word `i` of a field. -/
def fieldWord (bs : List Byte) (i : Nat) : W32 := BitVec.ofNat 32 (fieldAt bs (4 * i) 4)

/-- A WELF field. -/
def welfField (t : W32 × W32 × W32) : List Byte := leBytes 4 t.1.toNat ++ leBytes 4 t.2.1.toNat ++ leBytes 4 t.2.2.toNat ++ leBytes 4 0

/-- The values of a WELF field. -/
def welfOf (bs : List Byte) : W32 × W32 × W32 := (fieldWord bs 0, fieldWord bs 1, fieldWord bs 2)

/-- START(x). -/
def groveStart (gop : Nat) (x : W64) : List Byte :=
  match gop with
  | 7 => leBytes 4 1
  | 8 => welfField (0x3F800000#32, x.setWidth 32, 0#32)
  | n => leBytes (fieldBytes n) x.toNat

/-- Two fields of a GOP other than COUNT and WELF combined. -/
def groveBin (gop : Nat) (a b : List Byte) : List Byte :=
  let x := fieldWord a 0
  let y := fieldWord b 0
  match gop with
  | 0 => leBytes 4 (x + y).toNat
  | 1 => leBytes 8 (leNat a + leNat b)
  | 2 => leBytes 4 (fAdd .rne x y).toNat
  | 3 => leBytes 4 (selMax x y).toNat
  | 4 => leBytes 4 (selMin x y).toNat
  | 5 => leBytes 4 (if x.slt y then y else x).toNat
  | 6 => leBytes 4 (if y.slt x then y else x).toNat
  | _ => leBytes 8 ((BitVec.ofNat 64 (leNat a)) ||| (BitVec.ofNat 64 (leNat b))).toNat

/-- COMB(p, x). -/
def groveComb (gop : Nat) (p : List Byte) (x : W64) : List Byte :=
  match gop with
  | 7 => leBytes 4 (fieldWord p 0 + 1).toNat
  | 8 => welfField (welf3 (welfOf p) (x.setWidth 32))
  | n => groveBin n p (groveStart n x)

/-- APPLY(e, p). -/
def groveApply (gop : Nat) (e p : List Byte) : List Byte :=
  match gop with
  | 7 => leBytes 4 (fieldWord e 0 + fieldWord p 0).toNat
  | 8 => welfField (wmerge3 (welfOf e) (welfOf p))
  | n => groveBin n e p

/-! ## Entries (R183, R184) -/

/-- The entry that holds a key, with its index. -/
def Partition.find (p : Partition) (k : W64) : Option (Nat × GEntry) := p.entries.find? fun e => e.2.key == k

/-- The lowest-numbered invalid way of a set, as an entry index. -/
def Partition.freeWay (p : Partition) (set : Nat) : Option Nat :=
  ((List.range 16).map (set * 16 + ·)).find? fun i => (aget p.entries i).isNone

/-- The earliest-stamped entry of a list. -/
def earliest : List (Nat × GEntry) → Option (Nat × GEntry)
  | [] => none
  | e :: r =>
    match earliest r with
    | none => some e
    | some f => some (if f.2.stamp < e.2.stamp then f else e)

/-- A new entry, with the newest stamp. -/
def Partition.insert (p : Partition) (i : Nat) (k : W64) (pl : List Byte) : Partition :=
  { p with entries := aset p.entries i { key := k, stamp := p.stamp, payload := pl }, stamp := p.stamp + 1,
           stale := p.stale.filter (· != i) }

/-- One key of K applied to the partition: the partition after, and the record written where one is. -/
def Partition.applyKey (p : Partition) (f : Nat) (k : W64) (part : List Byte) : Partition × Option (W64 × List Byte) :=
  match p.find k with
  | some (i, e) =>
    ({ p with entries := aset p.entries i { e with payload := p.setField f e.payload (groveApply p.gop (p.field f e.payload) part) } },
      none)
  | none =>
    let pl := p.setField f p.blank part
    let way := p.freeWay (p.setOf k)
    match if p.entries.length < p.limit then way else none with
    | some i => (p.insert i k pl, none)
    | none =>
      if !p.evict then (p, some (k, pl))
      else
        let own := p.entries.filter fun e => e.1 / 16 == p.setOf k
        match earliest (if way.isNone then own else p.entries) with
        | none => (p, none)
        | some (i, v) =>
          let q := { p with entries := adel p.entries i, stale := i :: p.stale.filter (· != i) }
          match q.freeWay (p.setOf k) with
          | some j => (q.insert j k pl, some (v.key, v.payload))
          | none => (q, some (v.key, v.payload))

/-- The keys of K applied in list order: the partition after, and the records in order. -/
def Partition.applyAll (p : Partition) (f : Nat) : List (W64 × List Byte) → Partition × List (W64 × List Byte)
  | [] => (p, [])
  | (k, part) :: r =>
    let x := p.applyKey f k part
    let y := x.1.applyAll f r
    (y.1, x.2.toList ++ y.2)

/-- K with its partials: a lane's key and value joined to those of the lanes before it. -/
def groveJoin (gop : Nat) (k x : W64) : List (W64 × List Byte) → List (W64 × List Byte)
  | [] => [(k, groveStart gop x)]
  | (j, p) :: r => if j = k then (j, groveComb gop p x) :: r else (j, p) :: groveJoin gop k x r

/-- K with its partials, over the active lanes in ascending order. -/
def grovePartials (gop : Nat) (l : List (W64 × W64)) : List (W64 × List Byte) := l.foldl (fun k e => groveJoin gop e.1 e.2 k) []

/-! ## Naming a partition (R174, R182, R193) -/

/-- The partition that an index names for a team, with its key at the core. -/
def State.groveAt (s : State) (t : Team) (n : Nat) : Option (Nat × Partition) :=
  (if n < 24 then t.parts[n]? else aget t.attach n).bind fun k => (aget (s.core t.core).parts k).map fun q => (k, q)

/-- The same for the team in focus, or TRAP(GROVE_PARTITION). -/
def groveFind (n : Nat) : M (Nat × Partition) := do
  let t ← hereT
  orTrap (← look fun s => s.groveAt t n) .grovePartition

/-- Change partition `k` of the core in focus. -/
def modPart (k : Nat) (f : Partition → Partition) : M Unit := do
  let t ← hereT
  change fun s => s.setCore t.core { s.core t.core with parts := aupd (s.core t.core).parts k f }

/-! ## The port (R188, R190) -/

/-- The token is of a stream. -/
def GToken.isOf (x : GToken) (r : GRef) (st : StreamRef) : Bool := x.g == r && x.stream == st

/-- The stream in focus waits with its instruction, and keeps the registers it has still to read or to write. -/
def waitWith (i : Instr) (regs : List VReg) : M Unit := do
  match ← look (·.stream) with
  | .lane f => modHere fun g => g.waitAt f i regs
  | .scalar => pure ()

/-- The operations waiting at the port of partition `k`. -/
def portTokens (k : Nat) : M (List GToken) := do
  let t ← hereT
  look fun s => ((aget (s.core t.core).parts k).map (·.tokens)).getD []

/-- A klook or kread of the fragment in focus, with its active lanes, that waits at a port has issued: it takes its place among the
accesses of path KV (R159). -/
def reserveKv (w : LaneMask) : M Unit := do
  match ← look (·.stream) with
  | .lane f => pushAccess { newAccess (.reserved f) with path := some .kv, active := w }
  | .scalar => pure ()

/-- An operation reaches the port of partition `k`: it goes on when none waits there before it, and waits behind those that do, a kcfg with
the configuration record that it has loaded, a klook or kread counted by its path (`kv`). -/
def enterPort (k : Nat) (i : Instr) (regs : List VReg) (record : List Byte := []) (kv : Option LaneMask := none) : M Unit := do
  let r ← here
  let st ← look (·.stream)
  match ← portTokens k with
  | [] => pure ()
  | x :: _ =>
    if x.isOf r st then pure ()
    else
      if (← portTokens k).any (·.isOf r st) then pure ()
      else
        match kv with | some w => reserveKv w | none => pure ()
        modPart k fun p => { p with tokens := p.tokens ++ [{ g := r, stream := st, instr := i, counted := false, record := record }] }
        waitWith i regs
      hold

/-- The operation at the front of the port lacks room: FULLCNT counts it, and it keeps its place. -/
def stallPort (k : Nat) (i : Instr) (regs : List VReg) (again : Bool) : M Unit := do
  let r ← here
  let st ← look (·.stream)
  modPart k fun p =>
    let mine := p.tokens.filter (·.isOf r st)
    let full := if again || !(mine.any (·.counted)) then min (p.fullcnt + 1) 0xFFFF else p.fullcnt
    { p with tokens := { g := r, stream := st, instr := i, counted := true, record := [] } :: p.tokens.filter (fun x => !x.isOf r st), fullcnt := full }
  waitWith i regs
  hold

/-- The operation has been performed. -/
def leavePort (k : Nat) : M Unit := do
  let r ← here
  let st ← look (·.stream)
  modPart k fun p => { p with tokens := p.tokens.filter fun x => !x.isOf r st }

/-! ## Streams (R186 to R188) -/

/-- The consumer index C, read at its home slice. It is translated at every kacc and kdrain that needs room, in the mode of the stream that issues
it, and a fault is raised there: the model's choice. Log entry 92. -/
def readConsumer (m : Mode) (st : GStream) : M W32 := do
  let addrs ← xlateBytes m none st.cidx.toNat 4 needR
  return ← look fun s => BitVec.ofNat 32 (leNat (addrs.map (memGet s.mem)))

/-- Records for which the stream has room, or TRAP(GROVE_STREAM). -/
def streamRoom (m : Mode) (st : GStream) : M Nat := do
  let c ← readConsumer m st
  let used := (st.p - c).toNat
  unlessTrap (used ≤ 2 ^ st.slog) .groveStream
  return 2 ^ st.slog - used

/-- The addresses of the next records, translated. -/
def recordPlaces (m : Mode) (st : GStream) (size : Nat) : Nat → Nat → M (List (List Nat))
  | _, 0 => pure []
  | j, n + 1 => do
    let a := st.sbase + BitVec.ofNat 64 ((st.p.toNat + j) % 2 ^ 32 % 2 ^ st.slog * size)
    let x ← xlateBytes m none a.toNat size needW
    let r ← recordPlaces m st size (j + 1) n
    return x :: r

/-- A device-scope store by the Grove for the group in focus. -/
def groveStore (l : List (Nat × Byte)) : M Unit := do
  let t ← hereT
  change fun s => s.storeBytes s.focus (clusterOf t.core) true l

/-- Store records whose places are given, in order. -/
def storeRecords : List (List Nat × (W64 × List Byte)) → M Unit
  | [] => pure ()
  | (a, (k, pl)) :: r => do
    groveStore (a.zip (leBytes 8 k.toNat ++ pl))
    storeRecords r

/-- Write records and publish the new producer index, as a release at device scope (R187, R199). -/
def publish (k : Nat) (st : GStream) (places : List (List Nat)) (pidx : List Nat) (recs : List (W64 × List Byte)) : M Unit := do
  needDrained
  storeRecords (places.zip recs)
  let p := st.p + BitVec.ofNat 32 recs.length
  releaseHere true
  groveStore (pidx.zip (leBytes 4 p.toNat))
  modPart k fun q => { q with stream := some { st with p := p } }

/-! ## Lane operations (R364 to R368) -/

/-- The lane registers among some sources. -/
def vregsOf (l : List Src) : List VReg := l.filterMap fun x => match x with | .v n => some n | _ => none

/-- The 64-bit operand of a lane, of one register or a pair. -/
def wide (ts : List Tag) (l : Nat) : W64 :=
  match ts with
  | [lo, hi] => hi.lane l ++ lo.lane l
  | lo :: _ => zext64 (lo.lane l)
  | [] => 0#64

/-- A key operand's registers. -/
def keyNames (key64 : Bool) (a : Src) : List Src := groupOf a (if key64 then 2 else 1)

/-- kacc (R183, R184, R364, R365). -/
def execKacc (h : LHdr) (p : BitVec 5) (f : BitVec 4) (key64 val64 : Bool) (a b : Src) (s : State) : Host.Outcome State Fault Refusal :=
  runLane h (fun c => do
    let i : Instr := .kacc h p f key64 val64 a b
    privSources c [a, b]
    let (k, q) ← groveFind p.toNat
    let names := keyNames key64 a ++ (if q.gop = 7 then [] else groupOf b (if val64 then 2 else 1))
    let ks ← readSrcs c (keyNames key64 a)
    let xs ← readSrcs c (if q.gop = 7 then [] else groupOf b (if val64 then 2 else 1))
    unlessTrap (q.hasField f.toNat) .groveField
    let r ← here
    let st ← look (·.stream)
    if q.attached.isEmpty || q.tokens.any (·.isOf r st) then dropTurn else awaitTurn i false (vregsOf names)
    enterPort k i (vregsOf names)
    let (q', recs) := q.applyAll f.toNat (grovePartials q.gop ((lanesOf c.w).map fun l => (wide ks l, wide xs l)))
    match recs with
    | [] => modPart k fun _ => q'
    | _ =>
      let st ← orTrap q.stream .groveNostream
      if (← streamRoom c.frag.mode st) < recs.length then stallPort k i (vregsOf names) false
      else
        let places ← recordPlaces c.frag.mode st q.recordBytes 0 recs.length
        let pidx ← xlateBytes c.frag.mode none st.pidx.toNat 4 needW
        modPart k fun _ => { q' with ovfcnt := (q.ovfcnt + recs.length) % 2 ^ 16 }
        publish k st places pidx recs
    leavePort k
    decSources names []) s

/-- Registers that klook fills (R366). -/
def klookCount (gop : Nat) : Nat :=
  match fieldBytes gop with
  | 4 => 1
  | 8 => 2
  | _ => 3

/-- A register group that a klook may name (R293). -/
def valueGroup (d : VReg) (n : Nat) : Bool := d.toNat + n ≤ 1024 && (n != 2 || d.toNat % 2 == 0)

/-- A key's hit flag and field `f`, the identity on a miss (R185). -/
def Partition.look (p : Partition) (f : Nat) (k : W64) : Bool × List Byte :=
  match p.find k with
  | some (_, e) => (true, p.field f e.payload)
  | none => (false, groveIdentity p.gop)

/-- The lanes that look for themselves: one for all where the operands are uniform and every lane is active (R356). -/
def lookLanes (c : LaneCtx) (unif : Bool) : List Nat := if unif && c.w == allLanes then [0] else lanesOf c.w

/-- An access in the place that an instruction of fragment `fid` has kept (R159). -/
def Group.fillReserved (g : Group) (fid : Nat) (a : Access) : Group :=
  { g with accesses := pruneAccesses (g.accesses.map fun b => if b.reservedBy fid then { a with id := b.id, done := a.void } else b) }

/-- The access of a klook or kread that is performed at the port of partition `k`: one that has waited there has its place (R159). -/
def pushKv (c : LaneCtx) (k : Nat) (a : Access) : M Unit := do
  let r ← here
  let st ← look (·.stream)
  if (← portTokens k).any (·.isOf r st) then modHere fun g => g.fillReserved c.fid a else pushAccess a

/-- Results of a klook or kread at partition `k` on their way to their registers and predicate (R356): per lane, a flag and bytes. -/
def groveDeliver (c : LaneCtx) (k : Nat) (h : LHdr) (unif : Bool) (dests : List VReg) (pd : PReg) (names : List Src)
    (res : List (Nat × Bool × List Byte)) : M Unit := do
  let g ← hereG
  need (!g.predBusy pd)
  let one := unif && c.w == allLanes
  let regs := (dests.zip (List.range dests.length)).map fun e => (e.1, one, res.map fun x => (x.1, fieldWord x.2.2 e.2))
  let bits := maskOf fun l => (res.find? fun x => one || x.1 == l).any fun x => x.2.1
  writeRegs c h.cc.toNat (dests.map fun d => (d, if one then .uniform 0#32 else Tag.ofLanes fun _ => 0#32))
  decSources names (writtenBy c dests)
  pushKv c k { newAccess (.deliver regs pd bits) with path := some .kv, active := c.w, shadow := g.proposal && c.frag.mode == .user }

/-- Step 4 of R294 for a klook: its DST names a register group of the size that the partition's GOP gives (R293, R366). An index that names
no partition is left to its own check. -/
def klookFits (p : BitVec 5) (d : VReg) : M Bool := do
  let t ← hereT
  return (← look fun s => s.groveAt t p.toNat).all fun x => valueGroup d (klookCount x.2.gop)

/-- Registers that an instruction writes may be written (R356). -/
def needRegs (c : LaneCtx) (l : List VReg) : M Unit := do
  let g ← hereG
  need (l.all fun d => !g.vregBusy c.fid d)

/-- klook (R185, R364, R366). -/
def execKlook (h : LHdr) (p : BitVec 5) (f : BitVec 4) (key64 : Bool) (d : VReg) (a : Src) (hit : PReg) (s : State) :
    Host.Outcome State Fault Refusal :=
  runLane h (fun c => do
    unlessTrap (← klookFits p d) .illegalOperand
    privSources c [a]
    let (k, q) ← groveFind p.toNat
    let names := keyNames key64 a
    let dests := regsFrom d (klookCount q.gop)
    let ks ← readSrcs c names
    unlessTrap (q.hasField f.toNat) .groveField
    needRegs c dests
    enterPort k (.klook h p f key64 d a hit) (vregsOf names ++ dests) [] (some c.w)
    let unif := ks.all (·.isUniform)
    groveDeliver c k h unif dests hit names
      ((lookLanes c unif).map fun l => (l, q.look f.toNat (wide ks l)))
    leavePort k) s

/-- klook.lq (R366). -/
def execKlookLq (h : LHdr) (p : BitVec 5) (f : BitVec 4) (key64 : Bool) (a : Src) (hit : PReg) (s : State) :
    Host.Outcome State Fault Refusal :=
  runLane h (fun c => do
    privSources c [a]
    let (k, q) ← groveFind p.toNat
    let names := keyNames key64 a
    let lo ← readUniform c (Src.nth a 0)
    let hi ← if key64 then readUniform c (Src.nth a 1) else pure 0#32
    unlessTrap (q.hasField f.toNat && q.gop != 8) .groveField
    enterPort k (.klookLq h p f key64 a hit) (vregsOf names) [] (some c.w)
    let x := if c.w = 0#96 then (false, groveIdentity q.gop) else q.look f.toNat (hi ++ lo)
    pushLq [BitVec.ofNat 64 (leNat x.2)]
    groveDeliver c k h true [] hit names ((lanesOf c.w).map fun l => (l, x))
    leavePort k) s

/-- The four registers' bytes of a kread (R367): the key, then the first 8 bytes of the field. -/
def Partition.readAt (p : Partition) (f i : Nat) : Bool × List Byte :=
  match aget p.entries i with
  | none => (false, List.replicate 16 0#8)
  | some e =>
    let x := (p.field f e.payload).take 8
    (true, leBytes 8 e.key.toNat ++ x ++ List.replicate (8 - x.length) 0#8)

/-- kread (R185, R364, R367). -/
def execKread (h : LHdr) (p : BitVec 5) (f : BitVec 4) (d : VReg) (a : Src) (valid : PReg) (s : State) :
    Host.Outcome State Fault Refusal :=
  runLane h (fun c => do
    privSources c [a]
    let (k, q) ← groveFind p.toNat
    let x ← readSrc c a
    unlessTrap (q.hasField f.toNat) .groveField
    needRegs c (regsFrom d 4)
    enterPort k (.kread h p f d a valid) (vregsOf [a] ++ regsFrom d 4) [] (some c.w)
    match (lanesOf c.w).find? fun l => q.size ≤ (x.lane l).toNat with
    | some l => trapAt .groveIndex (some l) 0 0
    | none => pure ()
    groveDeliver c k h x.isUniform (regsFrom d 4) valid [a]
      ((lookLanes c x.isUniform).map fun l => (l, q.readAt f.toNat (x.lane l).toNat))
    leavePort k) s

/-- The entry that holds a key is invalidated. -/
def Partition.clear (p : Partition) (k : W64) : Partition :=
  match p.find k with
  | some (i, _) => { p with entries := adel p.entries i, stale := p.stale.filter (· != i) }
  | none => p

/-- kclr (R185, R368). -/
def execKclr (h : LHdr) (p : BitVec 5) (key64 : Bool) (a : Src) (s : State) : Host.Outcome State Fault Refusal :=
  runLane h (fun c => do
    privSources c [a]
    let (k, _) ← groveFind p.toNat
    let names := keyNames key64 a
    let ks ← readSrcs c names
    enterPort k (.kclr h p key64 a) (vregsOf names)
    modPart k fun q => (lanesOf c.w).foldl (fun q l => q.clear (wide ks l)) q
    leavePort k
    decSources names []) s

/-! ## kcfg (R179 to R182, R186) -/

/-- A request of the scalar stream goes to the port after every Grove lane instruction that its group has issued before it (R190); one that has
gone there waits for none that came later. -/
def lanesFirst : M Unit := do
  let t ← hereT
  let r ← here
  if ← look fun s => (s.core t.core).scalarWaits r then pure ()
  else need (← look fun s => (s.core t.core).parts.all fun e => e.2.tokens.all fun x => !(x.g == r && x.stream != .scalar))

/-- The configuration record (R179). -/
def kcfgRecord (m : Mode) (a : SReg) : M (List Byte) := do
  let x ← readS a
  if x.toNat % 32 ≠ 0 then trapAt .misaligned none 0 x else pure ()
  readNow (← xlateBytes m none x.toNat 32 needR)

/-- A valid record of a KOP (R179, R180): the bytes that R179 marks zero are zero, and the KOP's own fields are in range. Bytes that a KOP
does not use and R179 does not mark zero hold anything. PART is no field of this check: a number that no partition can have raises
GROVE_PARTITION, as R174 says, after what this check refuses. Log entry 92. -/
def kcfgValid (bs : List Byte) : Bool :=
  let b (i : Nat) : Nat := fieldAt bs i 1
  let q (i : Nat) : Nat := fieldAt bs i 8
  zeroAt bs 5 3 &&
  match b 0 with
  | 0 => b 2 ≤ 3 && b 3 ≤ 9 && b 4 ≤ 1 && fieldAt bs 8 4 ≤ 65536 / payloadBytes (b 2) && !(b 3 == 8 && b 2 == 0)
  | 1 => (b 2 == 0 || (7 ≤ b 2 && b 2 ≤ 24)) && b 3 == 0 && b 4 == 0 && q 8 % 8 == 0 && q 0x10 % 4 == 0 && q 0x18 % 4 == 0
  | 2 => b 2 == 0 && b 3 == 0 && b 4 == 0
  | 3 => b 2 == 0 && b 3 == 0 && b 4 == 0
  | 4 => 24 ≤ b 1 && b 1 ≤ 31 && b 2 ≤ 23 && b 3 == 0 && b 4 == 0
  | _ => false

/-- The record that a kcfg of KOP `op` names, loaded once, before it reaches a port; or TRAP(GROVE_CONFIG). -/
def kcfgLoad (op : Nat) (m : Mode) (a : SReg) : M (List Byte) := do
  let t ← hereT
  let r ← here
  match ← look fun s => s.waitingOp t.core r .scalar with
  | some x => return x.record
  | none =>
    let bs ← kcfgRecord m a
    unlessTrap (kcfgValid bs && fieldAt bs 0 1 == op) .groveConfig
    return bs

/-- The entries that GLIMIT allows (R51, R179). -/
def groveLimit (width limit : Nat) : Nat := if limit = 0 then 65536 / payloadBytes width else limit

/-- kcfg DEFINE (R180). -/
def execKcfgDefine (d a : SReg) (s : State) : Host.Outcome State Fault Refusal :=
  runScalar (fun g => do
    lanesFirst
    let bs ← kcfgLoad 0 g.mode a
    let (k, q) ← groveFind (fieldAt bs 1 1)
    enterPort k (.kcfgDefine d a) [] bs
    if q.entries.isEmpty then
      modPart k fun q => { q with width := fieldAt bs 2 1, gop := fieldAt bs 3 1, evict := fieldAt bs 4 1 == 1,
                                  limit := groveLimit (fieldAt bs 2 1) (fieldAt bs 8 4), fullcnt := 0, ovfcnt := 0 }
      writeS d 0#64
    else writeS d (BitVec.ofInt 64 (-2))
    leavePort k) s

/-- kcfg STREAM (R180, R186). -/
def execKcfgStream (d a : SReg) (s : State) : Host.Outcome State Fault Refusal :=
  runScalar (fun g => do
    lanesFirst
    let bs ← kcfgLoad 1 g.mode a
    let (k, _) ← groveFind (fieldAt bs 1 1)
    enterPort k (.kcfgStream d a) [] bs
    if fieldAt bs 2 1 = 0 then modPart k fun q => { q with stream := none }
    else
      let st : GStream := { sbase := BitVec.ofNat 64 (fieldAt bs 8 8), slog := fieldAt bs 2 1, p := 0,
                            pidx := BitVec.ofNat 64 (fieldAt bs 0x10 8), cidx := BitVec.ofNat 64 (fieldAt bs 0x18 8) }
      let caddrs ← xlateBytes g.mode none st.cidx.toNat 4 needR
      let pidx ← xlateBytes g.mode none st.pidx.toNat 4 needW
      let t ← hereT
      change fun s => s.openLines (clusterOf t.core) caddrs
      let c ← readConsumer g.mode st
      acquireHere true
      groveStore (pidx.zip (leBytes 4 c.toNat))
      modPart k fun q => { q with stream := some { st with p := c } }
    writeS d 0#64
    leavePort k) s

/-- kcfg CLEAR (R180). -/
def execKcfgClear (d a : SReg) (s : State) : Host.Outcome State Fault Refusal :=
  runScalar (fun g => do
    lanesFirst
    let bs ← kcfgLoad 2 g.mode a
    let (k, _) ← groveFind (fieldAt bs 1 1)
    enterPort k (.kcfgClear d a) [] bs
    modPart k fun q => { q with entries := [], stale := [] }
    writeS d 0#64
    leavePort k) s

/-- The partition status word (R181), for a team that names the partition: SHARED where another team has attached it, or it is another's. -/
def Partition.status (q : Partition) (team : Nat) : W64 :=
  BitVec.ofNat 64 (q.fullcnt * 2 ^ 40 + q.ovfcnt * 2 ^ 24 + q.width * 2 ^ 22 + q.gop * 2 ^ 18 + (if q.evict then 2 ^ 17 else 0) +
    (if q.stream.isSome then 2 ^ 16 else 0) + (if q.attached.any (· != team) || q.owner != team then 2 ^ 15 else 0) + q.entries.length)

/-- kcfg STATUS (R180, R181). -/
def execKcfgStatus (d a : SReg) (s : State) : Host.Outcome State Fault Refusal :=
  runScalar (fun g => do
    lanesFirst
    let bs ← kcfgLoad 3 g.mode a
    let (k, q) ← groveFind (fieldAt bs 1 1)
    enterPort k (.kcfgStatus d a) [] bs
    let r ← here
    writeS d (q.status r.team)
    leavePort k) s

/-- The key of the partition that ATTACH names, where the other team is of the same launch, resident on the same core, and holds it
(R182). -/
def attachTarget (s : State) (t : Team) (oteam opart : Nat) : Option Nat :=
  match s.teams.find? fun e => e.2.launch == t.launch && t.launch.isSome && e.2.tid == oteam && e.2.core == t.core && !e.2.ended with
  | none => none
  | some (_, o) =>
    match o.parts[opart]? with
    | some k => if (aget (s.core t.core).parts k).isSome then some k else none
    | none => none

/-- kcfg ATTACH (R182), performed at the port of the partition that it attaches (R188, R190). -/
def execKcfgAttach (d a : SReg) (s : State) : Host.Outcome State Fault Refusal :=
  runScalar (fun g => do
    lanesFirst
    let bs ← kcfgLoad 4 g.mode a
    let t ← hereT
    let r ← here
    let slot := fieldAt bs 1 1
    unlessTrap (!t.preempt || t.isOrdered) .groveConfig
    match ← look fun s => attachTarget s t (fieldAt bs 8 4) (fieldAt bs 2 1) with
    | none => writeS d (BitVec.ofInt 64 (-3))
    | some k =>
      unlessTrap (aget t.attach slot).isNone .groveConfig
      enterPort k (.kcfgAttach d a) [] bs
      modTeam r.team fun t => { t with attach := aset t.attach slot k }
      modPart k fun q => { q with attached := r.team :: q.attached.filter (· != r.team) }
      writeS d (BitVec.ofNat 64 slot)
      leavePort k) s

/-! ## kdrain (R189) -/

/-- An entry put in its place in ascending key order. -/
def insertByKey (x : Nat × GEntry) : List (Nat × GEntry) → List (Nat × GEntry)
  | [] => [x]
  | y :: r => if x.2.key.toNat < y.2.key.toNat then x :: y :: r else y :: insertByKey x r

/-- The valid entries in ascending unsigned key order. -/
def Partition.sorted (q : Partition) : List (Nat × GEntry) := q.entries.foldl (fun l x => insertByKey x l) []

/-- kdrain (R189, R320): one step as far as the stream has room. FULLCNT counts each of its stalls that follows a step, as a stall of its own: the
model's choice. Log entry 49. -/
def execKdrain (a : SReg) (s : State) : Host.Outcome State Fault Refusal :=
  runScalar (fun g => do
    let x ← readS a
    unlessTrap (x.toNat < 32) .grovePartition
    lanesFirst
    let (k, q) ← groveFind x.toNat
    enterPort k (.kdrain a) []
    if q.entries.isEmpty then leavePort k
    else
      let st ← orTrap q.stream .groveNostream
      let room ← streamRoom g.mode st
      if room = 0 then stallPort k (.kdrain a) [] false
      else
        let es := q.sorted.take room
        let places ← recordPlaces g.mode st q.recordBytes 0 es.length
        let pidx ← xlateBytes g.mode none st.pidx.toNat 4 needW
        publish k st places pidx (es.map fun e => (e.2.key, e.2.payload))
        modPart k fun q => { q with entries := q.entries.filter fun e => !(es.any fun f => f.1 == e.1) }
        if es.length < q.entries.length then stallPort k (.kdrain a) [] true else leavePort k) s

/-! ## Room returns (R188) -/

/-- The meaning of an instruction that waits at a port. -/
def groveRun (i : Instr) (s : State) : Host.Outcome State Fault Refusal :=
  match i with
  | .kacc h p f k v a b => execKacc h p f k v a b s
  | .klook h p f k d a hit => execKlook h p f k d a hit s
  | .klookLq h p f k a hit => execKlookLq h p f k a hit s
  | .kread h p f d a v => execKread h p f d a v s
  | .kclr h p k a => execKclr h p k a s
  | .kcfgDefine d a => execKcfgDefine d a s
  | .kcfgStream d a => execKcfgStream d a s
  | .kcfgClear d a => execKcfgClear d a s
  | .kcfgStatus d a => execKcfgStatus d a s
  | .kcfgAttach d a => execKcfgAttach d a s
  | .kdrain a => execKdrain a s
  | _ => .next s

/-- The operation that waits first at a partition. -/
def State.firstToken (s : State) (core part : Nat) : Option GToken := (aget (s.core core).parts part).bind fun q => q.tokens.head?

/-- The waiting operations are performed in their order, until one cannot be. -/
def roomLoop (core part : Nat) : Nat → State → Host.Outcome State Fault Refusal
  | 0, s => .next s
  | n + 1, s =>
    match s.firstToken core part with
    | none => .next s
    | some x =>
      match onStream x.g x.stream (groveRun x.instr) s with
      | .next s' => if (s'.firstToken core part).any (·.isOf x.g x.stream) then .next s' else roomLoop core part n s'
      | .fault f => .fault f
      | .refused f => .refused f

/-- The line of a stream's CIDX has been written: what waits at the partition goes on as far as there is room (R188). -/
def execGroveStreamRoom (core part : Nat) (s : State) : Host.Outcome State Fault Refusal :=
  roomLoop core part (((aget (s.core core).parts part).map (·.tokens.length)).getD 0) s

end Sys2Proof.Machine
end

