-- ==== Sys2Proof/Machine/SaveArea.lean ====
section
/-! DEFINITION. The save area of a pre-empted team, byte by byte (R241 to R243), and where it is written. -/

namespace Sys2Proof.Machine

/-! ## Pieces -/

/-- Bytes of a save area; `none` where the manual gives none for what the entry holds. -/
abbrev SaveBytes := List (Option Byte)

/-- The low `n` bytes of a number, little-endian. -/
def saveNum (n x : Nat) : SaveBytes := (leBytes n x).map some

/-- `n` bytes the maps call zero. -/
def saveZero (n : Nat) : SaveBytes := List.replicate n (some 0#8)

/-- `n` bytes of an entry that holds nothing. -/
def saveOpen (n : Nat) : SaveBytes := List.replicate n none

/-- One byte that is 1 where a condition holds. -/
def saveBit (b : Bool) : SaveBytes := saveNum 1 (if b then 1 else 0)

/-- An index, or 0xFF. -/
def saveIndex (n : Nat) (i : Option Nat) : SaveBytes := saveNum n (i.getD 0xFF)

/-- The first `count` entries of a list, and `empty` in the places behind them. -/
def saveSlots {α : Type} (f : α → SaveBytes) (empty : SaveBytes) (count : Nat) (l : List α) : SaveBytes :=
  ((List.range count).map fun i => (l[i]?).elim empty f).flatten

/-! ## The group record (R242) -/

/-- A fragment's state; its pass count is of the arbiter (R100). -/
def saveFragment : Option Fragment → SaveBytes
  | some f =>
    saveNum 8 f.pc.toNat ++ saveNum 12 f.mask.toNat ++ saveNum 12 f.span.toNat ++ saveNum 8 f.fmtr.toNat ++ saveIndex 1 f.frame ++
    saveNum 1 f.mode.code ++
    saveNum 1 ((if f.parkedBy.isSome then 1 else 0) + (if f.wait == .join then 2 else 0) + (if f.wait == .tret then 4 else 0) + 8) ++
    saveOpen 1 ++ saveZero 4
  | none => saveOpen 42 ++ saveZero 1 ++ saveOpen 1 ++ saveZero 4

/-- A reconvergence frame. -/
def saveFrame : Option Frame → SaveBytes
  | some f =>
    saveNum 8 f.rejoin.toNat ++ saveNum 12 f.mask.toNat ++ saveNum 12 f.span.toNat ++ saveNum 8 f.fmtr.toNat ++ saveIndex 1 f.link ++
    saveZero 7
  | none => saveOpen 41 ++ saveZero 7

/-- A trap frame with the state of its handler's fragment (R228). -/
def saveTrap (h : Option Fragment) : Option TrapFrame → SaveBytes
  | some f =>
    saveNum 8 f.causeWord.toNat ++ saveNum 8 f.epc.toNat ++ saveNum 8 f.badaddr.toNat ++ saveNum 12 f.callmask.toNat ++
    saveIndex 1 f.frag ++ saveNum 1 f.pmode.code ++ saveNum 1 ((if f.prop then 1 else 0) + (if f.fin then 2 else 0)) ++ saveZero 1 ++
    saveNum 8 f.fmtr.toNat ++ saveFragment h ++ saveZero 32
  | none => saveOpen 39 ++ saveZero 1 ++ saveOpen 8 ++ saveFragment none ++ saveZero 32

/-- The code of a shape in a tag record. -/
def Tag.code : Tag → Nat
  | .released => 0
  | .uniform _ => 1
  | .affine _ _ => 2
  | .general _ => 3

/-- The word and the stride of a tag record. -/
def Tag.saveWords : Tag → SaveBytes
  | .uniform w => saveNum 4 w.toNat ++ saveOpen 4
  | .affine b s => saveNum 4 b.toNat ++ saveNum 4 s.toNat
  | _ => saveOpen 8

/-- A slot's 96 words. -/
def saveSlot (words : List W32) : SaveBytes := (laneList.map fun l => saveNum 4 (words.getD l 0#32).toNat).flatten

/-- The slots of a register: its own where it is general, then its shadow's. -/
def slotsOf (r : LaneReg) (sh : Option Shadow) : List SaveBytes :=
  (match r.tag with | .general ws => [saveSlot ws] | _ => []) ++ (match sh with | some x => [saveSlot x.words] | none => [])

/-- A tag record whose slots are numbered from `n`. -/
def saveTag (r : LaneReg) (sh : Option Shadow) (n : Nat) : SaveBytes :=
  let own := if r.tag.isGeneral then 1 else 0
  saveNum 1 r.tag.code ++ saveNum 1 r.cc ++ saveZero 2 ++ r.tag.saveWords ++ saveNum 2 (if r.tag.isGeneral then n else 0xFFFF) ++
  saveNum 2 (if sh.isSome then n + own else 0xFFFF)

/-- Tag records in order, their slots numbered from `n`. -/
def saveTags : Nat → List (LaneReg × Option Shadow) → SaveBytes
  | _, [] => []
  | n, (r, sh) :: l => saveTag r sh n ++ saveTags (n + (slotsOf r sh).length) l

/-- The registers of a group in the order of their tag records: v0 to v1023, then k0 to k31. -/
def Group.saveRegs (g : Group) : List (LaneReg × Option Shadow) :=
  ((List.range 1024).map fun i => (g.vreg i, aget g.shadows i)) ++ (List.range 32).map fun i => (g.kreg i, none)

/-- The slots of a group, in that order. -/
def Group.saveSlots (g : Group) : List SaveBytes := (g.saveRegs.map fun e => slotsOf e.1 e.2).flatten

/-- The header of a group record. -/
def saveGroupHeader (t : Team) (i : Nat) (g : Group) : SaveBytes :=
  saveNum 4 (t.tid * t.ngroups + i) ++ saveNum 1 i ++ saveNum 1 g.role ++ saveNum 1 g.mode.code ++ saveZero 1 ++ saveNum 8 g.pc.toNat ++
  saveNum 8 g.lclock.toNat ++ saveNum 4 g.rseed.toNat ++ saveNum 4 g.rctr.toNat ++ saveNum 8 g.pacc.toNat ++ saveNum 8 g.pprop.toNat ++
  saveNum 8 g.gang.toNat ++ saveNum 2 g.fmtr.toNat ++ saveNum 2 g.saveSlots.length ++ saveNum 2 g.allot ++
  saveNum 1 ((if g.pnan then 1 else 0) + (if g.mwait.isSome then 2 else 0)) ++ saveZero 1

/-- The queues of a group and its in-flight counters. -/
def saveQueues (g : Group) : SaveBytes :=
  saveSlots (fun x => saveNum 8 x.toNat) (saveOpen 8) 16 g.sq ++ saveSlots (fun x => saveNum 8 x.toNat) (saveOpen 8) 16 g.lq ++
  saveSlots (fun e => saveNum 4 e.1.toNat ++ saveZero 4 ++ saveNum 8 e.2.toNat) (saveOpen 4 ++ saveZero 4 ++ saveOpen 8) 4 g.dispatch ++
  saveNum 1 g.sq.length ++ saveNum 1 g.lq.length ++ saveNum 1 g.dispatch.length ++ saveZero 1 ++
  saveNum 1 (g.inflight .ld) ++ saveNum 1 (g.inflight .st) ++ saveNum 1 (g.inflight .sx) ++ saveNum 1 (g.inflight .kv) ++ saveZero 184

/-- The proposal of a group. -/
def saveProposal (t : Team) (g : Group) : SaveBytes :=
  saveBit g.proposal ++ saveZero 1 ++ saveNum 2 t.pbase ++ saveZero 12 ++
  ((List.range 32).map fun i => saveNum 12 ((aget g.shadows (t.pbase + i)).elim 0 (·.written.toNat))).flatten ++ saveZero 112

/-- The halt record of a team that is not halted: where its streams stopped is of no halt. -/
def saveHalt (g : Group) : SaveBytes :=
  saveNum 1 0xFF ++ saveNum 1 g.laneSkid ++ saveNum 1 g.scalarSkid ++ saveBit g.stopped ++ saveZero 4 ++ saveOpen 16 ++ saveZero 40

/-- A group record (R242). -/
def saveGroup (t : Team) (i : Nat) (g : Group) : SaveBytes :=
  saveGroupHeader t i g ++
  ((List.range 64).map fun r => saveNum 8 (g.sreg (BitVec.ofNat 6 r)).toNat).flatten ++
  ((List.range 16).map fun r => saveNum 8 ((aget g.ks r).getD 0#64).toNat).flatten ++
  ((List.range 16).map fun p => saveNum 12 (g.pred (BitVec.ofNat 4 p)).toNat).flatten ++
  ((List.range 8).map fun f => saveFragment (aget g.frags f)).flatten ++
  ((List.range 16).map fun f => saveFrame (aget g.frames f)).flatten ++
  ((List.range 4).map fun f => saveTrap (aget g.frags (8 + f)) (aget g.traps f)).flatten ++
  saveQueues g ++ saveProposal t g ++ saveHalt g ++ saveZero 448 ++ saveTags 0 g.saveRegs ++ g.saveSlots.flatten

/-! ## Partition and accumulator records (R243) -/

/-- The settings of a partition record. -/
def savePartSettings (p : Partition) : SaveBytes :=
  saveNum 8 (p.status p.owner).toNat ++ saveNum 1 p.width ++ saveNum 1 p.gop ++ saveNum 1 (if p.evict then 1 else 0) ++ saveZero 1 ++
  saveNum 4 p.limit ++
  (match p.stream with
   | some x =>
     saveNum 4 x.p.toNat ++ saveZero 4 ++ saveNum 8 x.sbase.toNat ++ saveNum 1 x.slog ++ saveZero 7 ++ saveNum 8 x.pidx.toNat ++
     saveNum 8 x.cidx.toNat
   | none => saveOpen 4 ++ saveZero 4 ++ saveOpen 8 ++ saveZero 1 ++ saveZero 7 ++ saveOpen 16) ++ saveZero 8

/-- The tag record of an entry: its stamp's rank among the valid entries. -/
def saveEntry (p : Partition) : Option GEntry → SaveBytes
  | some e => saveNum 8 e.key.toNat ++ saveNum 1 1 ++ saveZero 1 ++
      saveNum 2 (p.entries.filter fun x => x.2.stamp < e.stamp).length ++ saveZero 4
  | none => saveOpen 8 ++ saveZero 2 ++ saveOpen 2 ++ saveZero 4

/-- A partition record (R243). The payload of an invalid entry is zero (R176, R180, R185, R189), but for one that a victim has left (R184). -/
def savePart (p : Partition) : SaveBytes :=
  savePartSettings p ++ ((List.range p.size).map fun i => saveEntry p (aget p.entries i)).flatten ++
  ((List.range p.size).map fun i => (aget p.entries i).elim
    (if p.stale.contains i then saveOpen (payloadBytes p.width) else saveZero (payloadBytes p.width)) fun e => e.payload.map some).flatten

/-- An accumulator record (R243). -/
def saveAcc (a : Acc) : SaveBytes :=
  saveNum 2 a.version.toNat ++ saveNum 2 (if a.sat then 1 else 0) ++ saveNum 1 (if a.int then 1 else 0) ++ saveZero 59 ++
  ((List.range 6144).map fun i => saveNum 4 ((aget a.words i).getD 0#32).toNat).flatten

/-! ## The header (R241) -/

/-- A knot as the word of R165. -/
def Knot.word (k : Knot) : W64 :=
  BitVec.ofNat 64 ((if k.phase then 2 ^ 63 else 0) + k.expect % 256 * 2 ^ 55 + k.pend % 256 * 2 ^ 47 + (k.bytes % 2 ^ 47).toNat)

/-- A rendezvous latch (R146): the gang's size, the group at each of its positions, and the positions that wait. -/
def saveLatch (t : Team) (n : Nat) : SaveBytes :=
  let m := t.gangMembers n
  let at_ (i : Nat) : Option Nat := (m.find? fun e => gangIndex e.2.gang == i).map (·.1)
  let waits (i : Nat) : Bool := (at_ i).any fun k => (aget t.groups k).any fun g => g.frags.any fun f => f.2.wait == .rendezvous || f.2.wait == .orphan
  saveNum 1 ((m.head?).elim 0 fun e => gangSize e.2.gang) ++ ((List.range 4).map fun i => saveIndex 1 (at_ i)).flatten ++
  saveNum 1 (((List.range 4).map fun i => if waits i then 2 ^ i else 0).sum) ++ saveZero 10

/-- An attachment slot (R182): the owner and the index there, for an owner that is still resident. -/
def saveAttach (s : State) (t : Team) (slot : Nat) : SaveBytes :=
  match aget t.attach slot with
  | none => saveOpen 5 ++ saveZero 3
  | some k =>
    match (aget (s.core t.core).parts k).bind fun p => s.team? p.owner with
    | some o => saveNum 4 o.tid ++ saveNum 1 (o.parts.idxOf k) ++ saveNum 1 1 ++ saveZero 2
    | none => saveOpen 5 ++ saveNum 1 1 ++ saveZero 2

/-- Where each group record starts, or 0 for a group that has exited and for none. -/
def groupOffsets : Nat → List (Option Nat) → List Nat
  | _, [] => []
  | off, none :: l => 0 :: groupOffsets off l
  | off, some n :: l => off :: groupOffsets (off + n) l

/-- The save area of a team (R241). -/
def saveImage (s : State) (t : Team) : SaveBytes :=
  let recs := (List.range 16).map fun i => ((aget t.groups i).filter fun g => !g.exited).map fun g => saveGroup t i g
  let groups := (recs.map fun r => r.getD []).flatten
  let scr := (memGetN t.scratch 0 (4096 * t.granules.length)).map some
  let parts := (t.parts.map fun k => (aget (s.core t.core).parts k).elim [] savePart).flatten
  let accs := (t.accs.map saveAcc).flatten
  let o1 := 0x400 + groups.length
  let o2 := o1 + scr.length
  let o3 := o2 + parts.length
  saveNum 4 1 ++ saveNum 4 t.tid ++ saveNum 8 (o3 + accs.length) ++ saveNum 1 t.ngroups ++ saveNum 1 t.accs.length ++
  saveNum 1 t.parts.length ++ saveZero 1 ++ saveNum 2 t.granules.length ++ saveNum 2 t.spareFree ++ saveZero 8 ++
  ((groupOffsets 0x400 (recs.map fun r => r.map (·.length))).map (saveNum 8)).flatten ++
  saveNum 8 o1 ++ saveNum 8 o2 ++ saveNum 8 o3 ++ saveZero 8 ++ saveZero 64 ++
  ((List.range 16).map fun n => saveNum 8 (t.knot n).word.toNat).flatten ++
  ((List.range 9).map fun i => (t.ctxs[i]?).elim (saveZero 16) fun c => saveNum 8 c.timeline ++ saveNum 8 c.issued).flatten ++
  ((List.range 4).map (saveLatch t)).flatten ++ ((List.range 8).map fun i => saveAttach s t (24 + i)).flatten ++ saveZero 368 ++
  groups ++ scr ++ parts ++ accs

/-- The bytes with a free value where the manual gives none, for the n-th save. -/
def fillSave (n : Nat) (l : SaveBytes) : List Byte := ((List.range l.length).zip l).map fun e => e.2.getD (Config.saveByte n e.1)

/-- The hypervisor writes the save area of a team into the DRAM reserve, at a place of its own choice (R241). -/
def State.writeSave (s : State) (t : Team) : State :=
  let img := (fillSave s.free (saveImage s t)).take s.root.reserve.2
  let s' := s.homeWrite (bytesAt (s.root.reserve.1 + Config.savePlace s.free % (s.root.reserve.2 - img.length + 1)) img)
  { s' with free := s.free + 1 }

end Sys2Proof.Machine
end

