-- ==== Sys2Proof/Machine/Distrib.lean ====
section
/-! DEFINITION. The distributor: what a team takes, the ranking of launches, placement, retirement with its refill, pre-emption and
restore (R38, R87, R89 to R96, R104, R112 to R114, R117, R119, R164, R168, R176, R182, R193, R238, R276). -/

namespace Sys2Proof.Machine

/-! ## What a team takes (R38, R92, R93) -/

/-- Amounts of the resources of R92, scratch in granules of 4 KiB. -/
structure Amounts where
  groups : Nat
  teams  : Nat
  slots  : Nat
  accs   : Nat
  parts  : Nat
  grans  : Nat
  deriving DecidableEq, Repr

/-- A core's capacity (R92). -/
def coreCapacity : Amounts := { groups := 32, teams := 16, slots := 2048, accs := 16, parts := 24, grans := 0 }

/-- A team's requirement (R92). -/
def LaunchRec.need (r : LaunchRec) : Amounts :=
  { groups := r.groups, teams := 1, slots := (r.roles.map fun e => e.2.2.2.2 * e.2.2.1).sum + r.spare, accs := r.nacc, parts := r.ngrove,
    grans := (r.scratch + 4095) / 4096 }

/-- General slots that a team holds: its groups' allotments and its spare pool. -/
def Team.slotsHeld (t : Team) : Nat := (t.groups.map fun e => e.2.allot).sum + t.spare

/-- The teams resident on a core, but for those the test leaves out. -/
def State.teamsOn (s : State) (core : Nat) (gone : Nat → Bool) : AList Team := s.teams.filter fun e => e.2.core == core && !gone e.1

/-- What the teams resident on a core leave of its capacity. -/
def State.coreFree (s : State) (core : Nat) (gone : Nat → Bool) : Amounts :=
  let l := s.teamsOn core gone
  let c := coreCapacity
  { groups := c.groups - (l.map fun e => e.2.ngroups).sum, teams := c.teams - l.length, slots := c.slots - (l.map fun e => e.2.slotsHeld).sum,
    accs := c.accs - (l.map fun e => e.2.accs.length).sum, parts := c.parts - ((s.core core).parts.filter fun e => !gone e.2.owner).length,
    grans := 0 }

/-- Granules of a cluster's scratch-mode banks, lowest bank and lowest granule first (R93, R150). -/
def State.clusterGranules (s : State) (cl : Nat) : List (Nat × Nat) :=
  ((bankList.filter fun b => bankField (s.cluster cl).bankmode b == 1).map fun b => (List.range 32).map fun i => (b, i)).flatten

/-- Those that no resident team holds. -/
def State.freeGranules (s : State) (cl : Nat) (gone : Nat → Bool) : List (Nat × Nat) :=
  (s.clusterGranules cl).filter fun g => !(s.teams.any fun e => clusterOf e.2.core == cl && !gone e.1 && e.2.granules.contains g)

/-- A team's requirement fits in what is free. -/
def Amounts.fitsIn (n f : Amounts) : Bool :=
  n.groups ≤ f.groups && n.teams ≤ f.teams && n.slots ≤ f.slots && n.accs ≤ f.accs && n.parts ≤ f.parts

/-- `k` times a requirement. -/
def Amounts.times (n : Amounts) (k : Nat) : Amounts :=
  { groups := k * n.groups, teams := k * n.teams, slots := k * n.slots, accs := k * n.accs, parts := k * n.parts, grans := k * n.grans }

/-- There is room on a core for a team (R91, R92). -/
def State.roomOn (s : State) (n : Amounts) (core : Nat) (gone : Nat → Bool) : Bool :=
  n.fitsIn (s.coreFree core gone) && n.grans ≤ (s.freeGranules (clusterOf core) gone).length

/-- A team fits on the core when it is empty (R52). -/
def State.fitsEmpty (s : State) (n : Amounts) (core : Nat) : Bool := n.fitsIn coreCapacity && n.grans ≤ (s.clusterGranules (clusterOf core)).length

/-- What the resident teams of a tenant hold (R38); an initialisation team and a hypervisor team count against no quota (R22, R240). -/
def State.held (s : State) (t : Nat) (gone : Nat → Bool) : Amounts :=
  let l := s.teams.filter fun e => e.2.tenant == t && !e.2.isInit && e.2.hv.isNone && !gone e.1
  { groups := 0, teams := l.length, slots := (l.map fun e => e.2.slotsHeld).sum, accs := (l.map fun e => e.2.accs.length).sum,
    parts := (s.cores.map fun c => (c.2.parts.filter fun p => l.any fun e => e.1 == p.2.owner || p.2.attached.contains e.1).length).sum,
    grans := (l.map fun e => e.2.granules.length).sum }

/-- The tenant's quotas cover what it holds and a requirement beside it (R38, R91). -/
def quotaCovers (x : Tenant) (h n : Amounts) : Bool :=
  h.slots + n.slots ≤ x.quota.slotq && h.accs + n.accs ≤ x.quota.accq && h.parts + n.parts ≤ x.quota.groveq && h.grans + n.grans ≤ x.quota.scratchq

/-- Nothing held. -/
def noNeed : Amounts := { groups := 0, teams := 0, slots := 0, accs := 0, parts := 0, grans := 0 }

/-! ## The ranking (R89, R90) -/

/-- The team a launch places next: its pre-empted teams first, then the lowest never placed (R94, R114). -/
def Launch.nextTeam (l : Launch) : Option Nat :=
  match l.saved.map (fun e => e.2.tid) with
  | a :: r => some (r.foldl min a)
  | [] => if l.next < l.teamCount then some l.next else none

/-- The launch is pending for placement (R55, R89). -/
def Launch.pending (l : Launch) : Bool := l.phase == .placing && l.fault.isNone && l.nextTeam.isSome

/-- The first launch ranks above the second (R89). -/
def Launch.above (a b : Launch) : Bool := b.prio < a.prio || (a.prio == b.prio && a.order < b.order)

/-- A launch put in its rank among others. -/
def insertRanked (x : Nat × Launch) : List (Nat × Launch) → List (Nat × Launch)
  | [] => [x]
  | y :: r => if x.2.above y.2 then x :: y :: r else y :: insertRanked x r

/-- The pending launches, highest rank first. -/
def State.ranked (s : State) : List (Nat × Launch) := (s.launches.filter fun e => e.2.pending).foldl (fun l x => insertRanked x l) []

/-- The launch is ordered. -/
def Launch.isOrdered (l : Launch) : Bool := l.record.lflags % 2 == 1

/-- A tenant's core set. -/
def State.coresOf (s : State) (t : Nat) : List Nat := ((s.tenant? t).map (·.cores)).getD []

/-- The cores that launches ranked above keep for themselves: those passed over 64 times, and pending ordered ones (R90, R104). -/
def State.keptCores (s : State) (higher : List (Nat × Launch)) : List Nat :=
  ((higher.filter fun e => e.2.isOrdered || 64 ≤ e.2.passes).map fun e => s.coresOf e.2.tenant).flatten

/-- No team of the tenant is placed while a supervisor installation is under way (R240). -/
def State.supvBusy (s : State) (t : Nat) : Bool :=
  ((s.tenant? t).any fun x => x.supv.pending.isSome || x.supv.rerun) || s.teams.any fun e => e.2.tenant == t && e.2.isInit

/-- The core that comes first by a preference: of those eligible, the one with the most free general slots, the lowest number on a
tie (R94). -/
def State.pickCore (s : State) (n : Amounts) (gone : Nat → Bool) : List Nat → Option Nat
  | [] => none
  | c :: r =>
    let rest := s.pickCore n gone r
    if s.roomOn n c gone then
      match rest with
      | none => some c
      | some d =>
        let a := (s.coreFree c gone).slots
        let b := (s.coreFree d gone).slots
        if b < a || (a == b && c < d) then some c else some d
    else rest

/-- The cores of a tenant that launches above do not keep. -/
def State.openCores (s : State) (t : Nat) (kept : List Nat) : List Nat := (s.coresOf t).filter fun c => !kept.contains c

/-- Placing a team of the tenant keeps it within its quotas. -/
def State.quotaLeaves (s : State) (t : Nat) (n : Amounts) (gone : Nat → Bool) : Bool :=
  (s.tenant? t).any fun x => quotaCovers x (s.held t gone) n

/-- Where a non-ordered launch's next team goes at its first placement, or at a restore: a restored team too takes the eligible core with the
most free slots, the model's choice where R114 lets it take any. Log entry 90. -/
def State.placeFor (s : State) (l : Launch) (kept : List Nat) (gone : Nat → Bool) : Option Nat :=
  let n := l.record.need
  if s.supvBusy l.tenant || !s.quotaLeaves l.tenant n gone then none else s.pickCore n gone (s.openCores l.tenant kept)

/-! ## Ordered launches (R104) -/

/-- The teams of an ordered launch that are not resident, with the core of each. -/
def State.orderedPlan (s : State) (l : Launch) : List (Nat × Nat) :=
  let e := sortNats (s.coresOf l.tenant)
  let tids := if l.saved.isEmpty then (List.range l.teamCount).filter (l.next ≤ ·) else sortNats (l.saved.map fun x => x.2.tid)
  tids.map fun t => (t, e.getD (t % e.length) 0)

/-- How many teams of a plan go to cores that a test picks. -/
def planCount (plan : List (Nat × Nat)) (p : Nat → Bool) : Nat := (plan.filter fun e => p e.2).length

/-- A plan fits on the cores and clusters, given what each has free. -/
def planFits (plan : List (Nat × Nat)) (n : Amounts) (free : Nat → Amounts) (grans : Nat → Nat) : Bool :=
  plan.all fun e => (n.times (planCount plan (· == e.2))).fitsIn (free e.2) &&
    n.grans * planCount plan (fun c => clusterOf c == clusterOf e.2) ≤ grans (clusterOf e.2)

/-- An ordered launch fits as a whole now. -/
def State.orderedFits (s : State) (l : Launch) (kept : List Nat) (gone : Nat → Bool) : Bool :=
  let plan := s.orderedPlan l
  let n := l.record.need
  !s.supvBusy l.tenant && s.quotaLeaves l.tenant (n.times plan.length) gone && !(plan.any fun e => kept.contains e.2) &&
  planFits plan n (fun c => s.coreFree c gone) (fun cl => (s.freeGranules cl gone).length)

/-- An ordered launch would fit with every core of its set empty (R52, R104). -/
def State.orderedFitsEmpty (s : State) (l : Launch) : Bool :=
  planFits (s.orderedPlan l) l.record.need (fun _ => coreCapacity) (fun cl => (s.clusterGranules cl).length)

/-- The next team of a launch fits (R89). -/
def State.canPlace (s : State) (l : Launch) (kept : List Nat) (gone : Nat → Bool) : Bool :=
  if l.isOrdered then s.orderedFits l kept gone else (s.placeFor l kept gone).isSome

/-! ## Placing one team -/

/-- The slot of a core with the fewest resident groups, the lowest number on a tie (R95). -/
def fewestSlot (counts : List Nat) : Nat := (counts.findIdx? fun n => counts.all (n ≤ ·)).getD 0

/-- Groups take slots in ascending number. -/
def takeSlots : AList Group → List Nat → AList Group
  | [], _ => []
  | (i, g) :: r, counts =>
    let k := fewestSlot counts
    (i, { g with slot := k }) :: takeSlots r (counts.set k (counts.getD k 0 + 1))

/-- Resident groups of each slot of a core. -/
def State.slotCounts (s : State) (core : Nat) : List Nat :=
  let gs := ((s.teamsOn core fun _ => false).map fun e => e.2.groups.map fun g => g.2.slot).flatten
  (List.range 4).map fun k => (gs.filter (· == k)).length

/-- The roles of a launch, resolved in its object (R51, R119, R121, R284). -/
def launchRoles (o : CodeObj) (l : Launch) : List Role :=
  l.record.roles.map fun e =>
    let sy (k : Nat) : Sym := (o.syms[k]?).getD { bind := 0, kind := 0, section_ := 0, value := 0, size := 0, name := [] }
    let s := sy e.1
    let b := sy e.2.1
    { entry := BitVec.ofNat 64 (((o.sections.find? fun x => x.1 == s.section_).map (·.2.1)).getD 0 + s.value),
      table := (List.range (min (b.size / 8) 4096)).map fun i => BitVec.ofNat 32 (fieldAt o.btab (b.value + 8 * i) 4),
      slots := e.2.2.1, prio := e.2.2.2.1, rgroups := e.2.2.2.2 }

/-- The groups of a team at its start (R119, R276). -/
def startGroups (roles : List Role) (arg : W64) : AList Group :=
  let l := (((List.range roles.length).zip roles).map fun e => List.replicate e.2.rgroups (freshGroup e.1 e.2.prio e.2.slots e.2.entry arg)).flatten
  (List.range l.length).zip l

/-- A team of a launch at its start, on a core. -/
def startTeam (o : CodeObj) (lid : Nat) (l : Launch) (tid core : Nat) (parts : List Nat) : Team :=
  let r := l.record
  let roles := launchRoles o l
  let arg := BitVec.ofNat 64 r.argptr
  { launch := some lid, tid := tid, tenant := l.tenant, core := core, ngroups := r.groups, gx := l.gx, gy := l.gy, gz := l.gz,
    isOrdered := l.isOrdered, preempt := r.lflags / 2 % 2 == 1, roles := roles,
    lcode := BitVec.ofNat 64 (((o.sections.find? fun x => x.1 == 2).map (·.2.1)).getD 0), pbase := r.pbase, argptr := arg, granules := [],
    scratchBytes := 4096 * r.need.grans, scratch := [], spare := r.spare, parts := parts, attach := [],
    accs := List.replicate r.nacc freshAcc, groups := startGroups roles arg, knots := List.replicate 16 (freshKnot r.groups),
    ctxs := List.replicate 9 freshCtx, latches := [], quantum := 0, halt := none, isInit := false, hv := none, ended := false }

/-- A partition at its grant (R176). -/
def grantedPart (owner : Nat) (d : Nat × Nat × Nat × Nat) : Partition :=
  { owner := owner, width := d.1, gop := d.2.1, evict := d.2.2.1 == 1, limit := groveLimit d.1 d.2.2.2, entries := [], stamp := 0,
    fullcnt := 0, ovfcnt := 0, stream := none, attached := [], tokens := [], stale := [] }

/-- A pre-empted team as it resumes (R112, R238). -/
def Team.restored (t : Team) : Team :=
  { t with quantum := 0, groups := amap t.groups fun _ g => { g with run := none, mwait := g.mwait.map fun w => { w with result := some 2 } } }

/-- Team `tid` of a launch placed on a core, new or restored, with its granules, partitions and slots; then the arrivals held for it
are applied (R93, R95, R114, R168, R176). The launch's waits acquire at device scope for its teams (R46, R201), and no restore changes a
value: the core's cluster keeps no clean block from before. -/
def State.placeTeam (s : State) (lid tid core : Nat) : State :=
  match s.launch? lid with
  | none => s
  | some l =>
    match (s.tenant? l.tenant).bind fun x => (aget x.objects l.object).map fun o => (x, o) with
    | none => s
    | some (x, o) =>
      let old := l.saved.find? fun e => e.2.tid == tid
      let key := match old with | some e => e.1 | none => s.nextKey
      let grans := (s.freeGranules (clusterOf core) fun _ => false).take l.record.need.grans
      let counts := s.slotCounts core
      let pkeys := (List.range l.record.ngrove).map (s.nextKey + 1 + ·)
      let team := match old with | some e => e.2.restored | none => startTeam o lid l tid core pkeys
      let team := { team with core := core, granules := grans, groups := takeSlots team.groups counts }
      let c := s.core core
      let back := l.savedParts.filter fun p => p.2.owner == key || p.2.attached.contains key
      let given := match old with
        | some _ => back
        | none => pkeys.zip (l.record.groves.map (grantedPart key))
      let s := { s.acquire (clusterOf core) true with
        nextKey := match old with | some _ => s.nextKey | none => s.nextKey + 1 + l.record.ngrove, teams := aset s.teams key team }
      let s := if given.isEmpty then s
        else s.setCore core { c with parts := given.foldl (fun m p => aset m p.1 p.2) c.parts }
      let s := s.updTenant l.tenant fun _ => { x with winbase := x.cfgBase, winlim := x.cfgLim }
      let s := s.updLaunch lid fun l =>
        { l with next := if old.isSome then l.next else tid + 1, keys := key :: l.keys.filter (· != key), saved := adel l.saved key,
                 savedParts := l.savedParts.filter fun p => !(back.any fun b => b.1 == p.1), passes := 0,
                 held := l.held.filter fun a => a.1 != tid }
      (l.held.filter fun a => a.1 == tid).foldl (fun s a => s.applyArrival key l.tenant a.2.1 a.2.2) s

/-- The launches passed over at a placement count it (R90). -/
def State.passOver (s : State) (higher : List (Nat × Launch)) : State :=
  higher.foldl (fun s e => if e.2.isOrdered then s else s.updLaunch e.1 fun l => { l with passes := l.passes + 1 }) s

/-- No team counts as absent. -/
def noneGone (_ : Nat) : Bool := false

/-- One placement decision (R89, R90, R94, R104): the highest-ranked pending launch that fits places its next team, or the whole of an
ordered grid. `higher` are the launches already passed over, among them one with room only on cores that a higher launch keeps (R90, R104),
which the model counts as one that does not fit. Log entry 90. -/
def State.decide (s : State) (higher : List (Nat × Launch)) : List (Nat × Launch) → Option State
  | [] => none
  | (lid, l) :: r =>
    let kept := s.keptCores higher
    if l.isOrdered then
      if s.orderedFits l kept noneGone then
        some ((s.orderedPlan l).foldl (fun s e => s.placeTeam lid e.1 e.2) (s.passOver higher))
      else s.decide (higher ++ [(lid, l)]) r
    else
      match l.nextTeam, s.placeFor l kept noneGone with
      | some tid, some core => some ((s.passOver higher).placeTeam lid tid core)
      | _, _ => s.decide (higher ++ [(lid, l)]) r

/-- The distributor places a team (R94). -/
def execTeamPlace (s : State) : Host.Outcome State Fault Refusal :=
  runEvent (do
    let s' ← must (← look fun s => s.decide [] s.ranked)
    change fun _ => s') s

/-! ## Retirement (R87, R96, R164, R182, R193) -/

/-- The cores' partitions after a team has gone: those return to the pool whose owner and every attached team have gone. -/
def State.returnParts (s : State) (key : Nat) : State :=
  s.cores.foldl (fun s c =>
    if c.2.parts.any fun p => p.2.owner == key || p.2.attached.contains key then
      s.setCore c.1 { c.2 with parts := (amap c.2.parts fun _ p => { p with attached := p.attached.filter (· != key) }).filter fun p =>
        !p.2.attached.isEmpty || (aget s.teams p.2.owner).isSome }
    else s) s

/-- Every group of a team has exited, by itself or with the team's end (R233), and its accesses have been performed (R164). -/
def Team.hasLeft (t : Team) : Bool := t.groups.all fun g => g.2.exited && g.2.drained

/-- Every team of scoreboard bit `k` of a launch bound with `tpb` teams a bit has exited, team `tid` after the others (R87). -/
def Launch.lastOfBit (l : Launch) (tpb k tid : Nat) : Bool :=
  ((List.range tpb).all fun i => l.teamCount ≤ k * tpb + i || l.tiled.contains (k * tpb + i)) &&
  l.tiled.find? (fun i => i / tpb == k) == some tid

/-- A team of a bound launch whose accesses have been performed: where it was the last team of its scoreboard bit to exit, the bit is set,
once (R87), after the team's own writes, which are released at device scope. -/
def State.tileExit (s : State) (key : Nat) : State :=
  match s.team? key with
  | none => s
  | some t =>
    match t.launch.bind fun lid => (s.launch? lid).bind fun l => l.coll.map fun b => (lid, l, b) with
    | none => s
    | some (lid, l, b) =>
      let k := t.tid / b.tpb
      if t.hasLeft && l.lastOfBit b.tpb k t.tid && !l.bits.contains k then
        let s := s.updLaunch lid fun l => { l with bits := k :: l.bits }
        let s := s.writeBack (clusterOf t.core) fun _ d => d.released || d.owners.any (·.team == key)
        s.updTenant l.tenant fun x => { x with board := x.board ||| boardRange (b.bitbase + k) 1 }.markDue
      else s

/-- The refill after a retirement (R96): the launch's next team goes to the core of the team that retired, or else to its lowest
eligible core. -/
def State.refill (s : State) (lid core : Nat) : State :=
  match s.launch? lid with
  | none => s
  | some l =>
    if !l.pending || l.isOrdered then s
    else
      let higher := s.ranked.takeWhile fun e => e.1 != lid
      let n := l.record.need
      let cores := s.openCores l.tenant (s.keptCores higher)
      let order := (if cores.contains core then [core] else []) ++ sortNats cores
      if s.supvBusy l.tenant || !s.quotaLeaves l.tenant n noneGone then s
      else
        match l.nextTeam, order.find? fun c => s.roomOn n c noneGone with
        | some tid, some c =>
          let passed := higher.filter fun e => !s.canPlace e.2 (s.keptCores (higher.takeWhile fun f => f.1 != e.1)) noneGone
          (s.passOver passed).placeTeam lid tid c
        | _, _ => s

/-- Every group of a team has exited, and what it has issued has completed (R96, R164). -/
def Team.mayRetire (t : Team) : Bool := t.hasLeft && t.ctxs.all fun c => c.cmds.isEmpty

/-- A team retires (R96); with a hypervisor team its descriptor goes (R22). -/
def execTeamRetire (key : Nat) (s : State) : Host.Outcome State Fault Refusal :=
  runEvent (do
    let t ← getTeam key
    need t.mayRetire
    change fun s => s.tileExit key
    change fun s => { s with teams := adel s.teams key }.returnParts key
    change fun s => { s with root := { s.root with hvWindows := s.root.hvWindows.filter fun w => t.hv != some w } }
    if t.isInit then modTenant t.tenant fun x => { x with supv := { x.supv with previous := none } } else pure ()
    match t.launch with
    | none => pure ()
    | some lid =>
      change fun s => s.updLaunch lid fun l => { l with exited := t.tid :: l.exited }
      change fun s => s.refill lid t.core) s

/-! ## Pre-emption (R112 to R114, R164, R194, R238, R241) -/

/-- A team can be stopped and saved now: it is not halted, no group is inside a latch run, and its loads and engine commands have
drained. -/
def State.canSave (s : State) (t : Team) : Bool :=
  t.preempt && t.halt.isNone && !t.ended && !(t.groups.all fun g => g.2.exited) && t.ctxs.all (·.cmds.isEmpty) &&
  t.groups.all fun g => g.2.drained && !inLatchRun s t g.2

/-- The resident teams of a launch, with their keys. -/
def State.launchTeams (s : State) (lid : Nat) : AList Team := s.teams.filter fun e => e.2.launch == some lid

/-- Teams of one launch saved: what their clusters hold dirty goes to the home slices, since they may be restored on another (R201), their
save areas are written, their states and partitions leave the cores, and their granules return to the pools. -/
def State.saveTeams (s : State) (lid : Nat) (l : AList Team) : State :=
  let keys := l.map (·.1)
  let s := l.foldl (fun s e => s.withdraw e.2.core fun g _ => g.team == e.1) s
  let mine (p : Partition) : Bool := keys.contains p.owner || p.attached.any keys.contains
  let parts := (s.cores.map fun c => c.2.parts.filter fun p => mine p.2).flatten
  let teams := s.teams.filter fun e => keys.contains e.1
  let s := (teams.map fun e => clusterOf e.2.core).dedup.foldl (fun s c => s.writeBack c fun _ _ => true) s
  let s := teams.foldl (fun s e => s.writeSave e.2) s
  let s := { s with teams := s.teams.filter (fun e => !keys.contains e.1),
                    cores := amap s.cores fun _ c => { c with parts := c.parts.filter fun p => !mine p.2 } }
  s.updLaunch lid fun x =>
    { x with saved := teams.foldl (fun m e => aset m e.1 { e.2 with granules := [] }) x.saved,
             savedParts := parts.foldl (fun m p => aset m p.1 p.2) x.savedParts }

/-- The teams that go when one of them is pre-empted: of an ordered launch, the whole grid (R113, R114). -/
def State.preemptSet (s : State) (key : Nat) : AList Team :=
  match s.team? key with
  | none => []
  | some t => if t.isOrdered then s.launchTeams (t.launch.getD 0) else [(key, t)]

/-- The quantum trigger holds for a team (R113): its count has reached Q, and a pending launch ranked above its own has a next team that
would fit without it. -/
def State.quantumDue (s : State) (key : Nat) (t : Team) : Bool :=
  match t.launch.bind s.launch?, s.tenant? t.tenant with
  | some l, some x =>
    t.preempt && x.quantum ≤ t.quantum && s.ranked.any fun e =>
      e.2.above l && s.canPlace e.2 (s.keptCores (s.ranked.takeWhile fun f => f.1 != e.1)) (· == key)
  | _, _ => false

/-- The first team is pre-empted before the second: the higher count, then the higher core, then the higher identifier. -/
def Team.sooner (a b : Team) : Bool :=
  b.quantum < a.quantum || (a.quantum == b.quantum && (b.core < a.core || (a.core == b.core && b.tid < a.tid)))

/-- A team's quantum has run out (R113). -/
def execPreemptQuantum (key : Nat) (s : State) : Host.Outcome State Fault Refusal :=
  runEvent (do
    let t ← getTeam key
    let lid ← must t.launch
    need (← look fun s => s.quantumDue key t && s.teams.all fun e => e.1 == key || !e.2.sooner t || !s.quantumDue e.1 e.2)
    let set ← look fun s => s.preemptSet key
    need (← look fun s => set.all fun e => s.canSave e.2 || e.2.groups.all fun g => g.2.exited)
    change fun s => s.saveTeams lid (set.filter fun e => s.canSave e.2)) s

/-- The teams that a request names. -/
def State.requested (s : State) : PreemptTarget → AList Team
  | .team key => s.preemptSet key
  | .launch lid => s.launchTeams lid
  | .tenant t => s.teams.filter fun e => e.2.tenant == t

/-- The hypervisor has the teams it names pre-empted (R113); a launch without PREEMPT is never pre-empted. -/
def execPreemptRequest (which : PreemptTarget) (s : State) : Host.Outcome State Fault Refusal :=
  runEvent (do
    let set ← look fun s => (s.requested which).filter fun e => e.2.preempt && !(e.2.groups.all fun g => g.2.exited)
    need (!set.isEmpty && (← look fun s => set.all fun e => s.canSave e.2))
    change fun s => (set.map fun e => e.2.launch.getD 0).dedup.foldl (fun s lid =>
      s.saveTeams lid (set.filter fun e => e.2.launch == some lid)) s) s

/-! ## The end of a halt (R233, R238) -/

/-- A group as its team resumes after a halt. -/
def Group.resume (g : Group) : Group :=
  { g with stopped := false, scalarSkid := 0, laneSkid := 0, mwait := g.mwait.map fun w => { w with result := some 2 } }

/-- The halt is over for a group (R232, R233): every handler has returned, the streams are back where the team runs, in user mode or, for an
initialisation or a hypervisor team, in its own mode, and no fragment is within a latch run, unless it waits in a queue there. -/
def haltOver (s : State) (t : Team) (g : Group) : Bool :=
  g.exited ||
  (g.traps.isEmpty && (g.mode == .user || t.homeMode != .user) &&
    !(inLatchRun s t g && g.run.any fun r => !g.heldLanes.contains r.frag && (aget g.frags r.frag).any fun f => f.mode == .user))

/-- The halt of a team ends (R233): its streams resume, or it ends. -/
def execTeamHaltEnd (key : Nat) (s : State) : Host.Outcome State Fault Refusal :=
  runEvent (do
    let t ← getTeam key
    let h ← must t.halt
    need (← look fun s => t.groups.all fun g => haltOver s t g.2)
    if h.fin then change fun s => s.endTeam key h.teamEnd
    else modTeam key fun t => { t with halt := none, groups := amap t.groups fun _ g => g.resume }) s

end Sys2Proof.Machine
end

