-- ==== Sys2Proof/Machine/Launch.lean ====
section
/-! DEFINITION. LAUNCH: its record and checks, its waits and indirect grid, the posting of its collective, and its completion (R48, R51
to R55, R86, R117, R168). -/

namespace Sys2Proof.Machine

/-! ## The launch record (R51, R52) -/

/-- Bytes of a launch record. -/
def recordBytes : Nat := 544

/-- A launch record from its bytes. -/
def launchRec (b : List Byte) : LaunchRec :=
  let f (o n : Nat) : Nat := fieldAt b o n
  { lflags := f 4 4, gridx := f 8 4, gridy := f 0xC 4, gridz := f 0x10 4, groups := f 0x14 1, nroles := f 0x15 1, spare := f 0x16 2,
    scratch := f 0x18 4, nacc := f 0x1C 1, ngrove := f 0x1D 1, pbase := f 0x1E 2, argptr := f 0x20 8, indptr := f 0x28 8,
    roles := (List.range (min (f 0x15 1) 4)).map fun i =>
      let o := 0x80 + 16 * i
      (f o 4, f (o + 4) 4, f (o + 8) 2, f (o + 0xA) 1, f (o + 0xB) 1),
    waits := (List.range 4).map fun i => (f (0xC0 + 16 * i) 4, f (0xC8 + 16 * i) 8),
    signals := (List.range 4).map fun i => (f (0x100 + 16 * i) 4, f (0x108 + 16 * i) 8),
    groves := (List.range (min (f 0x1D 1) 24)).map fun i =>
      let o := 0x140 + 8 * i
      (f o 1, f (o + 1) 1, f (o + 2) 1, f (o + 4) 4),
    comm := f 0x200 4, tilebase := f 0x208 8, chunkmap := f 0x210 8 }

/-- The grid is named by an indirect word. -/
def LaunchRec.indirect (r : LaunchRec) : Bool := r.lflags / 4 % 2 == 1

/-- A Grove default keeps R51 and R178. One that asks for WELF with GWIDTH 0 is refused too, as kcfg refuses it (R180), though R51 and R52 do
not say so. DESIGN CHOICE, log entry 85. -/
def groveDefaultOk (d : Nat × Nat × Nat × Nat) : Bool :=
  d.1 ≤ 3 && d.2.1 ≤ 9 && d.2.2.1 ≤ 1 && d.2.2.2 ≤ 65536 / payloadBytes d.1 && !(d.2.1 == 8 && d.1 == 0)

/-- A role entry keeps R51. -/
def roleEntryOk (e : Nat × Nat × Nat × Nat × Nat) : Bool := e.2.2.1 % 8 == 0 && 8 ≤ e.2.2.1 && e.2.2.1 ≤ 2048 && e.2.2.2.1 ≤ 3

/-- The first check of R52: version, reserved fields, entries that must be zero, ranges, and the sum of RGROUPS. -/
def recordOk (b : List Byte) : Bool :=
  let r := launchRec b
  fieldAt b 0 4 == 1 && r.lflags < 16 && (r.indirect || (r.gridx < 2 ^ 21 && r.gridy < 2 ^ 21 && r.gridz < 2 ^ 21)) &&
  1 ≤ r.groups && r.groups ≤ 16 && 1 ≤ r.nroles && r.nroles ≤ 4 && r.spare % 8 == 0 && r.nacc ≤ 16 && r.ngrove ≤ 24 &&
  (r.pbase == 0xFFFF || (r.pbase % 32 == 0 && r.pbase ≤ 992)) && (!r.indirect || r.indptr % 8 == 0) && zeroAt b 0x30 0x50 &&
  r.roles.all roleEntryOk && (List.range 4).all (fun i => if i < r.nroles then zeroAt b (0x8C + 16 * i) 4 else zeroAt b (0x80 + 16 * i) 16) &&
  (r.roles.map fun e => e.2.2.2.2).sum == r.groups &&
  (List.range 4).all (fun i => zeroAt b (0xC4 + 16 * i) 4 && zeroAt b (0x104 + 16 * i) 4) &&
  r.signals.all (fun e => e.1 != noHandle || e.2 == 0) && r.groves.all groveDefaultOk &&
  (List.range 24).all (fun i => if i < r.ngrove then zeroAt b (0x143 + 8 * i) 1 else zeroAt b (0x140 + 8 * i) 8) &&
  zeroAt b 0x204 4 && zeroAt b 0x218 8

/-- The third check of R52: the symbols of the roles in the variant chosen, and the handles of waits and signals. -/
def State.namesOk (s : State) (q : QRef) (o : CodeObj) (r : LaunchRec) : Bool :=
  r.roles.all (fun e => (o.syms[e.1]?).any (fun y => y.kind == 0) && (o.syms[e.2.1]?).any fun y => y.kind == 1) &&
  r.waits.all (fun e => e.1 == noHandle || (s.waitValue? q e.1).isSome) &&
  r.signals.all fun e => e.1 == noHandle || (e.1 / 2 ^ 28 == 2 && e.1 % 2 ^ 28 < 256)

/-- The checks of R52 on the resolved shape, rows 4 to 7: the status of the first that fails. -/
def State.shapeRefusal (s : State) (l : Launch) : Option Nat :=
  let n := l.record.need
  match s.tenant? l.tenant with
  | none => some stTenantGone
  | some x =>
    if 2 ^ 32 ≤ l.teamCount then some stBadGrid
    else if !(x.cores.any fun c => s.fitsEmpty n c) then some stTeamTooLarge
    else if !quotaCovers x noNeed n then some stQuota
    else if l.isOrdered && !quotaCovers x noNeed (n.times l.teamCount) then some stQuota
    else if l.isOrdered && !s.orderedFitsEmpty l then some stGridTooLargeOrdered
    else none

/-! ## The steps of a launch (R53) -/

/-- The launch of a running command. -/
def State.launchOf (s : State) (t q seq : Nat) : Option (Nat × Launch) :=
  s.launches.find? fun e => e.2.tenant == t && e.2.queue == q && e.2.seq == seq

/-- A launch ends, with a status. -/
def endLaunch (lid : Nat) (l : Launch) (status result : Nat) : M Unit := do
  change fun s => { s with launches := adel s.launches lid }
  endWith (.tenant l.tenant l.queue) l.seq status result

/-- A launch whose waits are satisfied goes on: its shape is resolved and checked, and it becomes pending, or posts its collective
first (R53, R86). -/
def launchGoes (lid : Nat) (l : Launch) (checked : Bool) : M Unit := do
  let phase : LaunchPhase := if l.record.lflags / 8 % 2 = 1 then .posting else .placing
  let bad ← look fun s => s.shapeRefusal l
  match if checked then none else bad with
  | some st => endLaunch lid l st 0
  | none => change fun s => s.updLaunch lid fun _ => { l with phase := phase }

/-- The record waits of a launch, and then its indirect word, read at its home slice (R53). -/
def launchWaits (q : QRef) (lid : Nat) (l : Launch) : M Unit := do
  if ← look fun s => l.record.waits.all fun w => s.waitMet q w.1 w.2 then
    if l.record.indirect then
      match ← look fun s => s.ownRead (some l.tenant) needR l.record.indptr 8 with
      | none => endLaunch lid l stWindow 0
      | some b =>
        let w := leNat b
        if 2 ^ 63 ≤ w then endLaunch lid l stBadGrid 0
        else launchGoes lid { l with gx := w % 2 ^ 21, gy := w / 2 ^ 21 % 2 ^ 21, gz := w / 2 ^ 42 % 2 ^ 21 } false
    else launchGoes lid l true
  else pure ()

/-- A new launch. -/
def newLaunch (t qi seq prio order object : Nat) (r : LaunchRec) : Launch :=
  let grid (n : Nat) : Nat := if r.indirect then 0 else n
  { tenant := t, queue := qi, seq := seq, prio := prio, order := order, object := object, record := r, phase := .waiting,
    gx := grid r.gridx, gy := grid r.gridy, gz := grid r.gridz, next := 0, passes := 0, keys := [], exited := [], tiled := [], bits := [], saved := [],
    savedParts := [], held := [], arrivals := [], coll := none, armed := 0, fault := none, gnan := false }

/-- A LAUNCH starts: its record is read and checked (R51, R52). -/
def launchStarts (q : QRef) (qi seq t : Nat) (c : Cmd) : M Unit := do
  match ← look fun s => s.ownRead (some t) needR (fieldAt c.bytes 0x18 8) recordBytes with
  | none => endWith q seq stWindow 0
  | some b =>
    let r := launchRec b
    let h := fieldAt c.bytes 0x20 4
    let x ← getTenant t
    if !recordOk b then endWith q seq stBadField 0
    else
      match aget x.objects h with
      | none => endWith q seq stBadObject 0
      | some o =>
        if !(← look fun s => s.namesOk q o r) then endWith q seq stBadField 0
        else
          let prio := ((aget x.queues qi).map (·.qprio)).getD 0
          let lid ← look (·.nextKey)
          let order ← look (·.root.order)
          let l := newLaunch t qi seq prio order h r
          let bad ← look fun s => s.shapeRefusal l
          match if r.indirect then none else bad with
          | some st => endWith q seq st 0
          | none =>
            change fun s => { s with nextKey := lid + 1, root := { s.root with order := order + 1 }, launches := aset s.launches lid l }
            launchWaits q lid l

/-- LAUNCH (R48, R53): it starts, or, once started, goes on when its record waits are satisfied. -/
def execLaunch (q : QRef) (seq : Nat) (s : State) : Host.Outcome State Fault Refusal :=
  runEvent (do
    match q with
    | .mgmt => stall
    | .tenant t qi =>
      if ← isRunning q seq 1 then
        let (lid, l) ← must (← look fun s => s.launchOf t qi seq)
        need (l.phase == .waiting)
        launchWaits q lid l
      else
        let c ← beginCommand q seq fun bs => kindOf bs == 1
        if (← look fun s => s.headerOk q c) && zeroAt c.bytes 0x24 28 && fieldAt c.bytes 0x18 8 % 64 == 0 then launchStarts q qi seq t c
        else endWith q seq stBadField 0) s

/-! ## The collective of a bound launch (R86) -/

/-- The chunk entries of a chunk map: FIRST and COUNT. -/
def chunkEntries (b : List Byte) (n : Nat) : List (Nat × Nat) := (List.range n).map fun i => (fieldAt b (4 * i) 2, fieldAt b (4 * i + 2) 2)

/-- The chunk map of a launch: the cpost descriptor it makes, BITBASE, TPB and the entries; none where it lies outside the windows. -/
def State.chunkMap (s : State) (l : Launch) : Option (PostDesc × CollBind × Nat) :=
  (s.ownRead (some l.tenant) needR l.record.chunkmap 0x48).bind fun b =>
    let n := fieldAt b 0x44 4
    (s.ownRead (some l.tenant) needR (l.record.chunkmap + 0x48) (4 * min n 256)).map fun e =>
      ({ postDesc (b.take 64) with sbuf := l.record.tilebase, comm := l.record.comm },
       { seq := 0, bitbase := fieldAt b 0x40 2, tpb := fieldAt b 0x42 2, chunks := chunkEntries e (min n 256) }, n)

/-- Scoreboard bits of a launch's teams. -/
def tileBits (l : Launch) (b : CollBind) : Nat := (l.teamCount + b.tpb - 1) / b.tpb

/-- The chunk map keeps R86. -/
def chunkMapOk (l : Launch) (d : PostDesc) (b : CollBind) (n : Nat) : Bool :=
  1 ≤ b.tpb && 1 ≤ n && n == d.nchunk && b.bitbase + tileBits l b ≤ 4096 &&
  b.chunks.all fun e => e.1 ≤ 4095 && 1 ≤ e.2 && e.1 + e.2 ≤ 4096

/-- The status of a launch whose collective is not posted (R86). -/
def postStatus (x : Tenant) (comm : Nat) : Int → Nat
  | -3 => ((x.heldComm comm).bind (·.broken)).getD stBadField
  | -4 => stStaging
  | -5 => stWindow
  | _ => stBadField

/-- CHUNK operations are armed while entries are free: how many chunks are armed then. -/
def State.armChunks (s : State) (t ci seq : Nat) : Nat → List (Nat × Nat) → State × Nat
  | k, [] => (s, k)
  | k, e :: r =>
    match (s.tenant? t).bind fun x => afree x.armed 256 0 with
    | none => (s, k)
    | some i =>
      let a : Armed := { chunk := true, first := e.1, count := e.2, src := ci, dst := seq, bytes := k, sig := 0, sigval := 0, team := none,
                         group := 0, due := false }
      (s.updTenant t fun x => { x with armed := aset x.armed i a }.markDue).armChunks t ci seq (k + 1) r

/-- A bound launch clears its scoreboard bits and posts its collective, and arms its chunks as entries are free (R86). -/
def execLaunchCollPost (id : Nat) (s : State) : Host.Outcome State Fault Refusal :=
  runEvent (do
    let l ← getLaunch id
    need (l.phase == .posting)
    let x ← getTenant l.tenant
    match l.coll with
    | some b =>
      let live ← look fun s => ((s.comm? l.tenant (l.record.comm % 2 ^ 28)).bind fun c => aget c.insts b.seq).any (·.state.live)
      if live then
        let r ← look fun s => s.armChunks l.tenant (l.record.comm % 2 ^ 28) b.seq l.armed (b.chunks.drop l.armed)
        change fun _ => r.1.updLaunch id fun l => { l with armed := r.2, phase := if r.2 = b.chunks.length then .placing else .posting }
      else change fun s => s.updLaunch id fun l => { l with phase := .placing }
    | none =>
      match ← look fun s => s.chunkMap l with
      | none => endLaunch id l stWindow 0
      | some (d, b, n) =>
        if !chunkMapOk l d b n then endLaunch id l stBadField 0
        else
          let cleared (x : Tenant) : Tenant :=
            if tileBits l b = 0 then x else { x with board := x.board &&& ~~~(boardRange b.bitbase (tileBits l b)) }
          match ← look fun s => s.postRefusal x d with
          | some (-1) => stall
          | some e =>
            modTenant l.tenant cleared
            endLaunch id l (postStatus x d.comm e) 0
          | none =>
            modTenant l.tenant cleared
            let p ← look fun s => s.post l.tenant d
            change fun _ => p.1
            let r ← look fun s => s.armChunks l.tenant (d.comm % 2 ^ 28) p.2 0 b.chunks
            change fun _ => r.1.updLaunch id fun l =>
              { l with coll := some { b with seq := p.2 }, armed := r.2, phase := if r.2 = b.chunks.length then .placing else .posting }) s

/-! ## Completion (R53 to R55) -/

/-- The dirty bytes of the launch's teams, and those released before, go to the home slices. -/
def State.releaseLaunch (s : State) (l : Launch) : State :=
  (List.range 48).foldl (fun s c => s.writeBack c fun _ d => d.released || d.owners.any fun g => l.keys.contains g.team) s

/-- The signals of a launch (R53): the state after, and whether one went below its timeline's value. -/
def State.launchSignals (s : State) (t : Nat) : List (Nat × Nat) → State × Bool
  | [] => (s, false)
  | (h, v) :: r =>
    if h = noHandle then s.launchSignals t r
    else
      let x := s.signal t (h % 2 ^ 28) v
      let y := x.1.launchSignals t r
      (y.1, !x.2 || y.2)

/-- Every team of a launch has exited, and none is left to place: it releases, signals and completes (R53 to R55). Arrivals for teams
that are gone or were never placed are discarded and counted (R168). -/
def execLaunchComplete (id : Nat) (s : State) : Host.Outcome State Fault Refusal :=
  runEvent (do
    let l ← getLaunch id
    need (l.phase == .placing && !l.pending && (← look fun s => s.launchTeams id).isEmpty)
    change fun s => s.releaseLaunch l
    modTenant l.tenant fun x => { x with knotdisc := x.knotdisc + BitVec.ofNat 64 (l.held.length + l.arrivals.length) }
    match l.fault with
    | some t => endLaunch id l stTeamFault t
    | none =>
      let r ← look fun s => s.launchSignals l.tenant l.record.signals
      change fun _ => r.1
      endLaunch id l (if r.2 then stNotMonotonic else stOk) 0) s

end Sys2Proof.Machine
end

