-- ==== Sys2Proof/Machine/Objects.lean ====
section
/-! DEFINITION. GVO objects, their loading, the translation cache, and the completion of commands that take time (R47, R48, R281 to
R289). -/

namespace Sys2Proof.Machine

/-! ## The parts of an object (R281 to R286) -/

/-- A section table entry (R283). -/
structure ObjSec where
  typ   : Nat
  off   : Nat
  size  : Nat
  align : Nat
  zero  : Bool
  deriving DecidableEq, Repr

/-- A variant table entry with its sections (R282). -/
structure Variant where
  gen  : Nat
  req1 : Nat
  req2 : Nat
  toff : Nat
  nsec : Nat
  zero : Bool
  secs : List ObjSec
  deriving DecidableEq, Repr

/-- A section table entry at an offset. -/
def objSec (bs : List Byte) (o : Nat) : ObjSec :=
  { typ := fieldAt bs o 4, off := fieldAt bs (o + 8) 8, size := fieldAt bs (o + 0x10) 8, align := fieldAt bs (o + 0x18) 4,
    zero := zeroAt bs (o + 4) 4 && zeroAt bs (o + 0x1C) 4 }

/-- A variant table entry at an offset. -/
def objVariant (bs : List Byte) (o : Nat) : Variant :=
  let n := fieldAt bs (o + 2) 2
  let t := fieldAt bs (o + 0x18) 8
  { gen := fieldAt bs o 1, req1 := fieldAt bs (o + 8) 8, req2 := fieldAt bs (o + 0x10) 8, toff := t, nsec := n,
    zero := zeroAt bs (o + 1) 1 && zeroAt bs (o + 4) 4 && zeroAt bs (o + 0x20) 32,
    secs := (List.range (min n 10)).map fun j => objSec bs (t + 32 * j) }

/-- The variants of an object. -/
def objVariants (bs : List Byte) : List Variant :=
  (List.range (min (fieldAt bs 8 4) 15)).map fun i => objVariant bs (fieldAt bs 0x10 8 + 64 * i)

/-- The section of a type. -/
def Variant.sec (v : Variant) (typ : Nat) : Option ObjSec := v.secs.find? fun s => s.typ == typ

/-- The bytes of a section; .bss has zeros. -/
def ObjSec.bytes (s : ObjSec) (bs : List Byte) : List Byte :=
  if s.typ = 6 then List.replicate s.size 0#8 else (bs.drop s.off).take s.size

/-- The bytes of the section of a type. -/
def Variant.bytes (v : Variant) (bs : List Byte) (typ : Nat) : List Byte := ((v.sec typ).map fun s => s.bytes bs).getD []

/-- A NUL-terminated name inside a string table. -/
def nameIn (tab : List Byte) (o : Nat) : Option (List Byte) :=
  let r := tab.drop o
  if r.any (· == 0#8) then some (r.takeWhile (· != 0#8)) else none

/-- A symbol (R284). -/
def objSym (sym str : List Byte) (k : Nat) : Sym :=
  let o := 24 * k
  { bind := fieldAt sym (o + 5) 1, kind := fieldAt sym (o + 4) 1, section_ := fieldAt sym (o + 6) 2, value := fieldAt sym (o + 8) 8, size := fieldAt sym (o + 16) 8,
    name := (nameIn str (fieldAt sym o 4)).getD [] }

/-- The symbols of a variant, in number order. -/
def Variant.syms (v : Variant) (bs : List Byte) : List Sym :=
  let sym := v.bytes bs 9
  (List.range (sym.length / 24)).map (objSym sym (v.bytes bs 10))

/-- BIND of the symbols of a variant: 0 local, 1 global. -/
def Variant.binds (v : Variant) (bs : List Byte) : List Nat := (v.syms bs).map (·.bind)

/-- The names of a variant's global symbols. -/
def Variant.globals (v : Variant) (bs : List Byte) : List (List Byte) :=
  ((v.syms bs).filter fun e => e.bind == 1).map (·.name)

/-- A relocation: OFFSET, SECTION, KIND, SYM and ADDEND (R286). -/
def Variant.relocs (v : Variant) (bs : List Byte) : List (Nat × Nat × Nat × Nat × Nat) :=
  let r := v.bytes bs 8
  (List.range (r.length / 24)).map fun k =>
    (fieldAt r (24 * k) 8, fieldAt r (24 * k + 8) 2, fieldAt r (24 * k + 10) 2, fieldAt r (24 * k + 12) 4, fieldAt r (24 * k + 16) 8)

/-! ## Step 1: structure (R287) -/

/-- The limits of a section (R283). -/
def ObjSec.ok (s : ObjSec) (n : Nat) : Bool :=
  s.zero && 1 ≤ s.typ && s.typ ≤ 10 && s.align ≤ 16 &&
  (if s.typ = 6 then s.off == 0 else s.off + s.size ≤ n && s.off % 2 ^ s.align == 0) &&
  (s.typ != 1 || s.size % 4 == 0) && (s.typ != 2 || s.size % 12 == 0) && (s.typ != 3 || s.size % 8 == 0)

/-- The symbols keep R284: names, kinds, places, and globals first. -/
def Variant.symsOk (v : Variant) (bs : List Byte) : Bool :=
  let sym := v.bytes bs 9
  let str := v.bytes bs 10
  let n := sym.length / 24
  (List.range n).all (fun k => (nameIn str (fieldAt sym (24 * k) 4)).isSome && fieldAt sym (24 * k) 4 < str.length) &&
  (v.syms bs).all (fun s => s.kind ≤ 3 && (v.sec s.section_).any fun c => s.value + s.size ≤ c.size) &&
  (v.binds bs).all (· ≤ 1) && ((v.binds bs).dropWhile (· == 1)).all (· == 0)

/-- The relocations keep R286. -/
def Variant.relocsOk (v : Variant) (bs : List Byte) : Bool :=
  (v.relocs bs).all fun r =>
    (r.2.1 == 4 || r.2.1 == 5) && r.2.2.1 == 1 && r.2.2.2.1 < (v.syms bs).length && r.1 % 8 == 0 &&
    (v.sec r.2.1).any fun c => r.1 + 8 ≤ c.size

/-- A variant keeps R282 to R286. -/
def Variant.ok (v : Variant) (bs : List Byte) : Bool :=
  v.zero && 1 ≤ v.gen && v.gen ≤ 4 && 1 ≤ v.nsec && v.nsec ≤ 10 && v.toff + 32 * v.nsec ≤ bs.length &&
  v.secs.all (·.ok bs.length) && (v.secs.map (·.typ)).dedup.length == v.secs.length &&
  [1, 2, 3, 7, 9, 10].all (fun t => (v.sec t).isSome) && v.symsOk bs && v.relocsOk bs

/-- The parts of a file, as (offset, size). -/
def objParts (bs : List Byte) : List (Nat × Nat) :=
  [(0, 0x40), (fieldAt bs 0x10 8, 64 * fieldAt bs 8 4), (fieldAt bs 0x18 8, fieldAt bs 0x20 8), (fieldAt bs 0x28 8, fieldAt bs 0x30 8)] ++
  ((objVariants bs).map fun v => (v.toff, 32 * v.nsec) :: ((v.secs.filter (·.typ != 6)).map fun s => (s.off, s.size))).flatten

/-- No two parts share a byte. -/
def disjointParts : List (Nat × Nat) → Bool
  | [] => true
  | a :: r => (r.all fun b => a.2 == 0 || b.2 == 0 || a.1 + a.2 ≤ b.1 || b.1 + b.2 ≤ a.1) && disjointParts r

/-- The structure of an object is that of R281 to R287. -/
def objectOk (bs : List Byte) : Bool :=
  let n := bs.length
  let sarx := (fieldAt bs 0x18 8, fieldAt bs 0x20 8)
  let sign := (fieldAt bs 0x28 8, fieldAt bs 0x30 8)
  0x40 ≤ n && fieldAt bs 0 4 == 0x014F5647 && fieldAt bs 4 2 == 1 && zeroAt bs 6 2 && fieldAt bs 8 4 ≤ 15 && zeroAt bs 0xC 4 &&
  fieldAt bs 0x38 8 == n && fieldAt bs 0x10 8 + 64 * fieldAt bs 8 4 ≤ n && sarx.1 + sarx.2 ≤ n &&
  (sarx.1 != 0 || sarx.2 == 0) && (sarx.2 != 0 || sarx.1 == 0) && (sign == (0, 0) || (sign.2 == 512 && sign.1 + 512 == n)) &&
  (objVariants bs).all (·.ok bs) && disjointParts (objParts bs) &&
  ((objVariants bs).map (·.globals bs)).all (some · == ((objVariants bs).map (·.globals bs)).head?)

/-! ## Steps 2 and 3: signature and choice (R287) -/

/-- The signature step passes. `lflags` is LFLAGS of the command, `key` the tenant's registered key. -/
def signatureStep (bs : List Byte) (lflags : Nat) (key : Option Nat) : Bool :=
  let o := fieldAt bs 0x28 8
  if fieldAt bs 0x30 8 = 512 then key.any fun k => pssVerify k 65537 (bs.take o) (bs.drop o)
  else lflags % 2 == 0

/-- A variant is eligible. -/
def Variant.eligible (v : Variant) : Bool :=
  v.gen ≤ (featureWord 0).toNat % 256 && BitVec.ofNat 64 v.req1 &&& ~~~(featureWord 1) == 0#64 &&
  BitVec.ofNat 64 v.req2 &&& ~~~(featureWord 2) == 0#64

/-- The better of the variant chosen so far and the next in the table. -/
def betterVariant (best : Option Variant) (v : Variant) : Option Variant :=
  if !v.eligible then best
  else
    match best with
    | none => some v
    | some b => if b.gen < v.gen then some v else some b

/-- The variant the loader takes. -/
def chooseVariant (bs : List Byte) : Option Variant := (objVariants bs).foldl betterVariant none

/-! ## Step 4: translation and its cache (R288, R289) -/

/-- The .sarx section of an object. -/
def sarxOf (bs : List Byte) : List Byte := (bs.drop (fieldAt bs 0x18 8)).take (fieldAt bs 0x20 8)

/-- The header of a Sarxis module keeps R288. -/
def moduleOk (m : List Byte) : Bool :=
  32 ≤ m.length && fieldAt m 0 4 == 0x58524153 && 1 ≤ fieldAt m 4 2 && fieldAt m 4 2 ≤ 4 && zeroAt m 6 2 && fieldAt m 8 8 == m.length &&
  zeroAt m 0x14 12

/-- Bytes that count against TCACHEQ (R287, R289). -/
def Tenant.cacheUse (x : Tenant) : Nat := (x.objTop - x.objBase) + (x.tcache.map (·.size)).sum

/-- The next number by which uses of the cache are ranked. -/
def Tenant.cacheClock (x : Tenant) : Nat := x.tcache.foldl (fun n e => max n (e.used + 1)) 0

/-- A live handle uses the entry. -/
def Tenant.cacheHeld (x : Tenant) (d : BitVec 512) : Bool := x.objects.any fun o => o.2.module == some d

/-- The least recently used entry of a list. -/
def oldestEntry : List TCache → Option TCache
  | [] => none
  | e :: r =>
    match oldestEntry r with
    | none => some e
    | some f => some (if f.used < e.used then f else e)

/-- Entries that no live handle uses go, least recently used first, until `n` bytes more fit, or none is left to go (R289). -/
def Tenant.makeRoom (x : Tenant) (n : Nat) : Nat → Tenant
  | 0 => x
  | fuel + 1 =>
    if x.cacheUse + n ≤ x.quota.tcacheq then x
    else
      match oldestEntry (x.tcache.filter fun e => !x.cacheHeld e.digest) with
      | none => x
      | some e => { x with tcache := x.tcache.filter fun f => f.digest != e.digest }.makeRoom n fuel

/-- The window address where a translation of `n` bytes is kept (R289 gives no place): the lowest from the cache's base upward that is free.
Log entry 5. -/
def Tenant.cachePlace (x : Tenant) (n : Nat) : Nat :=
  ((sortNats (x.cacheBase :: x.tcache.map fun e => e.addr + e.size)).find? fun a =>
    x.cacheBase ≤ a && x.tcache.all fun e => a + n ≤ e.addr || e.addr + e.size ≤ a).getD x.cacheBase

/-- Root writes bytes at a window address of a tenant's own. -/
def State.areaWrite (s : State) (x : Tenant) (a : Nat) (bs : List Byte) : State :=
  match s.rootRange x 0#4 a bs.length with
  | some l => if bs.isEmpty then s else s.homeWrite ((pieceAddrs l).zip bs)
  | none => s

/-- The bytes of a translation in the tenant's cache (R289). -/
def State.cachedBytes (s : State) (x : Tenant) (e : TCache) : List Byte :=
  match s.rootRange x 0#4 e.addr e.size with
  | some l => (pieceAddrs l).map (memGet s.mem)
  | none => []

/-- Tildin's translation of a module: an object of one variant at least, which exports as many global symbols as the module's header says
(R288). -/
def translation (m : List Byte) : Option (List Byte) :=
  if moduleOk m then
    (Config.translate m).filter fun v => objectOk v && ((objVariants v).head?).any fun w => (w.globals v).length == fieldAt m 0x10 4
  else none

/-- The translation of a module for tenant `t`: its bytes, or a status, and the state with the cache brought up to date, where entries that were
evicted to make room are gone even if that was not enough (R289). -/
def State.translated (s : State) (t : Nat) (x : Tenant) (m : List Byte) : Except (Nat × State) (List Byte × State) :=
  let d := sha512 m
  match x.tcache.find? fun e => e.digest == d with
  | some e =>
    .ok (s.cachedBytes x e,
      s.updTenant t fun x => { x with tcache := x.tcache.map fun f => if f.digest = d then { f with used := x.cacheClock } else f })
  | none =>
    match translation m with
    | none => .error (stNoVariant, s)
    | some v =>
      let y := x.makeRoom v.length x.tcache.length
      let s := s.updTenant t fun _ => y
      let a := y.cachePlace v.length
      if y.quota.tcacheq < y.cacheUse + v.length || (s.rootRange y 0#4 a v.length).isNone then .error (stQuota, s)
      else
        .ok (v, (s.updTenant t fun _ => { y with tcache := { digest := d, addr := a, size := v.length, used := y.cacheClock } :: y.tcache }).areaWrite
          y a v)

/-! ## Step 5: placement (R287) -/

/-- The lowest multiple of `m` at or above `n`. -/
def roundUp (n m : Nat) : Nat := (n + m - 1) / m * m

/-- The sections of a variant placed from address `a`, as (TYPE, address, size), with the end of the last. -/
def placeSections : Nat → List ObjSec → List (Nat × Nat × Nat) × Nat
  | a, [] => ([], a)
  | a, s :: r =>
    let b := roundUp a (2 ^ s.align)
    let p := placeSections (b + s.size) r
    ((s.typ, b, s.size) :: p.1, p.2)

/-- The address of a section placed. -/
def placedAt (l : List (Nat × Nat × Nat)) (typ : Nat) : Nat := ((l.find? fun e => e.1 == typ).map (·.2.1)).getD 0

/-- The chosen variant `v` of the file `bs` is placed for tenant `t`: the handle with its generation, or QUOTA. Bowline maps it (R287), and no
TLB holds what was mapped there before. -/
def State.placeObject (s : State) (t : Nat) (v : Variant) (bs : List Byte) (gen : Nat) (digest : BitVec 512)
    (module : Option (BitVec 512)) (sarx : List Byte) : State × Nat × Nat :=
  match s.tenant? t with
  | none => (s, stQuota, 0)
  | some x =>
    let p := placeSections (roundUp x.objTop 65536) v.secs
    let h := x.objects.length
    if 1024 ≤ h || x.quota.tcacheq < x.cacheUse + (p.2 - x.objTop) || (s.rootRange x 0#4 x.objBase (p.2 - x.objBase)).isNone then
      (s, stQuota, 0)
    else
      let s := (v.secs.zip p.1).foldl (fun s e => s.areaWrite x e.2.2.1 (e.1.bytes bs)) s
      let addr (k : Nat) : Nat := (((v.syms bs)[k]?).map fun y => placedAt p.1 y.section_ + y.value).getD 0
      let s := (v.relocs bs).foldl (fun s r => s.areaWrite x (placedAt p.1 r.2.1 + r.1) (leBytes 8 (addr r.2.2.2.1 + r.2.2.2.2))) s
      let o : CodeObj := { gen := gen, sections := p.1, syms := v.syms bs, btab := v.bytes bs 3, digest := digest, module := module,
                           sarx := sarx }
      (s.updTenant t fun x => { x with objects := aset x.objects h o, objTop := p.2, tlb := if x.vendorMap then [] else x.tlb }, stOk, h + 2 ^ 16 * gen)

/-- LOAD_OBJECT's steps on the bytes it has read (R287): the state after, the status and the result. A translation's global symbols are those of
the file's variants (R284, R288). -/
def State.loadBytesOf (s : State) (t : Nat) (bs : List Byte) (lflags : Nat) : State × Nat × Nat :=
  match s.tenant? t with
  | none => (s, stBadObject, 0)
  | some x =>
    let digest := sha512 (if fieldAt bs 0x30 8 = 512 then bs.take (fieldAt bs 0x28 8) else bs)
    let m := sarxOf bs
    if !objectOk bs then (s, stBadObject, 0)
    else if !signatureStep bs lflags x.signKey then (s, stSignature, 0)
    else
      match chooseVariant bs with
      | some v => s.placeObject t v bs v.gen digest none m
      | none =>
        if m.isEmpty then (s, stNoVariant, 0)
        else
          match s.translated t x m with
          | .error (e, s') => (s', e, 0)
          | .ok (b, s') =>
            match if objectOk b then (objVariants b).head? else none with
            | none => (s', stNoVariant, 0)
            | some v =>
              if (objVariants bs).all fun w => w.globals bs == v.globals b then s'.placeObject t v b 0 digest (some (sha512 m)) m
              else (s', stNoVariant, 0)

/-! ## The commands -/

/-- LOAD_OBJECT starts (R48, R287): it reads the object once. -/
def execLoadObject (q : QRef) (seq : Nat) (s : State) : Host.Outcome State Fault Refusal :=
  runEvent (startTenant q seq 8
    (fun bs => zeroAt bs 0x2C 20 && fieldAt bs 0x28 4 < 2)
    fun t c => do
      match ← look fun s => s.ownRead (some t) needR (fieldAt c.bytes 0x18 8) (fieldAt c.bytes 0x20 8) with
      | none => endWith q seq stWindow 0
      | some bs =>
        let x ← must (← look fun s => s.queue? q)
        change fun s => s.setQueue q { x with running := x.running.map fun r => if r.seq == seq then { r with bytes := r.bytes ++ bs } else r }) s

/-- A loaded object of a tenant. -/
def State.object? (s : State) (t h : Nat) : Option CodeObj := (s.tenant? t).bind fun x => aget x.objects h

/-- TRANSLATE starts (R48, R289); a cache hit completes at once. -/
def execTranslate (q : QRef) (seq : Nat) (s : State) : Host.Outcome State Fault Refusal :=
  runEvent (startTenant q seq 9
    (fun bs => zeroAt bs 0x1C 36)
    fun t c => do
      let x ← getTenant t
      match aget x.objects (fieldAt c.bytes 0x18 4) with
      | none => endWith q seq stBadObject 0
      | some o =>
        if o.sarx.isEmpty then endWith q seq stNoVariant 0
        else if x.tcache.any fun e => e.digest == sha512 o.sarx then
          match ← look fun s => s.translated t x o.sarx with
          | .ok (_, s') => change fun _ => s'
          | .error _ => pure ()
          endWith q seq stOk 0
        else pure ()) s

/-- The bytes that FILL writes (R48). -/
def fillBytes (pattern width : Nat) : Nat → List Byte
  | 0 => []
  | n + 1 => leBytes width pattern ++ fillBytes pattern width n

/-- The object bytes that a LOAD_OBJECT judges: those it read, or, where a write came between, any mix of old and new parts (R287). -/
def mixedBytes (n a : Nat) (old now : List Byte) : List Byte :=
  ((List.range old.length).zip (old.zip now)).map fun e => if Config.partWritten n ((a + e.1) / 8) then e.2.2 else e.2.1

/-- A COPY, FILL, TRANSLATE or LOAD_OBJECT finishes its work and completes (R47, R48). -/
def execCommandComplete (q : QRef) (seq : Nat) (s : State) : Host.Outcome State Fault Refusal :=
  runEvent (do
    match q with
    | .mgmt => stall
    | .tenant t _ =>
      let x ← getTenant t
      let c ← must (← look fun s => s.runningCmd q seq)
      let f (o n : Nat) : Nat := fieldAt c.bytes o n
      match kindOf c.bytes with
      | 2 =>
        let n ← freshFree
        let ws ← look fun s => s.rootWindows x
        let moves := (windowPlaces ws needR (f 0x18 8) (f 0x28 8)).zip (windowPlaces ws needW (f 0x20 8) (f 0x28 8))
        let ends := (moves.map fun m => [m.1, m.2]).flatten
        if anyGone ends then stop (.fault .noSuchAddress) else pure ()
        change fun s => s.homePut (s.homeMoved moves n)
        endWith q seq stOk 0
      | 3 =>
        let w := f 0x30 1
        let bs := fillBytes (f 0x28 8) w (f 0x20 8 / w)
        let s' ← must (← look fun s => s.ownWrite (some t) (f 0x18 8) bs)
        change fun _ => s'
        endWith q seq stOk 0
      | 8 =>
        let n ← freshFree
        let old := c.bytes.drop 64
        let now ← look fun s => (s.ownRead (some t) needR (f 0x18 8) old.length).getD old
        let r ← look fun s => s.loadBytesOf t (mixedBytes n (f 0x18 8) old now) (f 0x28 4)
        change fun _ => r.1
        endWith q seq r.2.1 r.2.2
      | 9 =>
        let o ← must (aget x.objects (f 0x18 4))
        match ← look fun s => s.translated t x o.sarx with
        | .ok (_, s') =>
          change fun _ => s'
          endWith q seq stOk 0
        | .error (e, s') =>
          change fun _ => s'
          endWith q seq e 0
      | _ => stall) s

end Sys2Proof.Machine
end

