-- ==== Sys2Proof/Machine/Tenants.lean ====
section
/-! DEFINITION. The life of a tenant: creation, teardown, scrub, and the installation of a supervisor (R36 to R41, R61, R151, R172,
R240). -/

namespace Sys2Proof.Machine

/-! ## Creation (R37 to R41, R91, R112, R240) -/

/-- Physical ranges that no new window may overlap: those of other tenants, Root's DRAM reserve, and windows awaiting their scrub
(R40). -/
def State.takenSpans (s : State) : List (Nat × Nat) :=
  s.root.reserve :: (s.tenants.map fun e => (s.rootWindows e.2).map windowSpan).flatten ++ s.root.scrubbing.map fun e => windowSpan e.2

/-- The hypervisor accepts the windows (R39 to R41). -/
def State.windowsOk (s : State) (l : List Window) : Bool :=
  1 ≤ l.length && l.length ≤ 16 && l.all windowFormOk && windowsApart l &&
  (l.all fun w => w.reloc + (w.wend - w.wstart) ≤ physEnd && !(s.takenSpans.any fun x => spansMeet x (windowSpan w))) &&
  (l.head?).any fun w => 65536 ≤ w.wend - w.wstart && grants w.perm 11#4

/-- A quota record lies in its ranges (R38). -/
def quotaOk (q : Quota) : Bool :=
  q.groveq ≤ 9216 && q.accq ≤ 6144 && q.scratchq ≤ 49152 && q.slotq ≤ 786432 && q.commq ≤ 4096 && q.qpq ≤ 256 && q.tcacheq % 65536 == 0

/-- A core set keeps R91. -/
def coreSetOk (l : List Nat) : Bool := 1 ≤ l.length && l.length ≤ 384 && l.all (· < 384) && l.dedup.length == l.length

/-- The hypervisor's configuration of a tenant is one it accepts. -/
def State.configOk (s : State) (c : TenantCfg) : Bool :=
  c.num < 16 && (s.tenant? c.num).isNone && s.windowsOk c.windows && quotaOk c.quota && coreSetOk c.cores && 2 ^ 16 ≤ c.quantum &&
  c.quantum ≤ 2 ^ 40 && 1 ≤ c.ips.length && c.vlans.length == 2 &&
  (c.windows.any fun w => w.wstart ≤ c.objArea && c.objArea < w.wend) && c.objArea + c.quota.tcacheq ≤ c.cacheArea

/-- A tenant at its creation, with Bowline, whose initialisation has still to run (R28, R240). -/
def newTenant (c : TenantCfg) (bowline : BitVec 512) : Tenant :=
  { quota := c.quota, cores := c.cores, quantum := c.quantum, ips := c.ips, vlans := c.vlans, cfgBase := BitVec.ofNat 64 (512 * c.num),
    cfgLim := BitVec.ofNat 64 c.windows.length, winbase := 0, winlim := 0, ptbase := 0, tlb := [],
    queues := (List.range 32).map fun q => (q, emptyQueue), signals := [], events := { next := 0, held := [] }, qps := [], board := 0,
    armed := [], comms := [], objects := [], objBase := c.objArea, objTop := c.objArea, cacheBase := c.cacheArea, vendorMap := false,
    tcache := [], signKey := c.signKey,
    supv := { tvecS := c.supvBase &&& 0xFFFFFFFFFE00#64, meas := bowline, init := none, pending := none, previous := none, rerun := true,
              banks := c.bankModes },
    fds := [(0, { kind := 0 }), (1, { kind := 1 }), (2, { kind := 1 })], sockets := [], knotdisc := 0, rdmanak := 0, evlost := 0 }

/-- The BANKOWN copies of a tenant (R151, R240). -/
def State.grantBanks (s : State) (t : Nat) : List (Nat × W32) → State
  | [] => s
  | (c, v) :: r => (if c < 48 then s.setCluster c { s.cluster c with bankown := aset (s.cluster c).bankown t v } else s).grantBanks t r

/-- The hypervisor creates a tenant (R37), whose flows start afresh; a configuration that R40 or R41 refuses changes nothing. -/
def execTenantCreate (cfg : TenantCfg) (s : State) : Host.Outcome State Fault Refusal :=
  runEvent (do
    let r ← look (·.root)
    need (r.phase == .running && r.hvstate == 0#4 && r.fuses.lcstate != 3#2)
    need (← look fun s => s.configOk cfg)
    let base := 16 * cfg.num
    let tab := ((List.range cfg.windows.length).zip cfg.windows).foldl (fun m e => aset m (base + e.1) e.2) r.windows
    let block := (cfg.windows.head?).elim 0 (·.reloc)
    change fun s => ({ s with root := { s.root with windows := tab, flows := s.root.flows.filter fun w => w.ref.tenant != cfg.num },
                              tenants := aset s.tenants cfg.num (newTenant cfg r.bowlineMeas) }.homeWrite
      (bytesAt block (List.replicate 4096 0#8))).configureBanks cfg.bankModes
    change fun s => s.grantBanks cfg.num cfg.bankOwn) s

/-! ## Teardown and scrub (R36, R61) -/

/-- Every running command of a tenant's queues completes with TENANT_GONE. -/
def State.endCommands (s : State) (t : Nat) : List (Nat × Queue) → State
  | [] => s
  | (q, x) :: r => (x.running.foldl (fun s c => s.endCommand (.tenant t q) c.seq stTenantGone 0) s).endCommands t r

/-- The bytes of a tenant's windows leave the cluster caches: dirty ones to the home slices, clean ones dropped. -/
def State.uncache (s : State) (l : List (Nat × Nat)) : State :=
  let inside (a : Nat) : Bool := l.any fun x => x.1 ≤ a && a < x.1 + x.2
  (List.range 48).foldl (fun s c =>
    let s := s.writeBack c fun a _ => inside a
    let x := s.cluster c
    if x.clean.any fun e => inside e.1 then s.setCluster c { x with clean := x.clean.filter fun e => !inside e.1 } else s) s

/-- The tenant holds nothing any more: its teams, launches, partitions, BANKOWN copies and notices go, and its windows await their
scrub. -/
def State.forget (s : State) (t : Nat) (x : Tenant) : State :=
  let keys := (s.teams.filter fun e => e.2.tenant == t).map (·.1)
  let ws := s.rootWindows x
  let gone := (s.teams.filter fun e => e.2.tenant == t).map (·.2.hv)
  let mine (p : Partition) : Bool := keys.contains p.owner || p.attached.any keys.contains
  let s := s.uncache (ws.map windowSpan)
  { s with
      teams := s.teams.filter (fun e => e.2.tenant != t), launches := s.launches.filter (fun e => e.2.tenant != t),
      tenants := adel s.tenants t, cores := amap s.cores fun _ c => { c with parts := c.parts.filter fun p => !mine p.2 },
      clusters := amap s.clusters fun _ c => { c with bankown := adel c.bankown t },
      root := { s.root with hvWindows := s.root.hvWindows.filter (fun w => !gone.contains (some w)),
                            windows := s.root.windows.filter (fun e => e.1 / 16 != t), scrubbing := s.root.scrubbing ++ ws.map fun w => (t, w),
                            notices := s.root.notices.filter fun n => queueOwner n.q != some t } }

/-- The hypervisor tears a tenant down, up to the scrub of its windows (R61). What its teams have issued has drained by then. -/
def execTenantTeardown (t : Nat) (s : State) : Host.Outcome State Fault Refusal :=
  runEvent (do
    let x ← getTenant t
    need (← look fun s => s.teams.all fun e => e.2.tenant != t || (e.2.ctxs.all (·.cmds.isEmpty) && e.2.groups.all fun g => g.2.drained))
    change fun s => s.reportBreaks stTenantGone (x.comms.map fun c => (t, c.1))
    change fun s => (s.endCommands t x.queues).flushEvents (some t)
    change fun s => s.forget t x) s

/-- The wipe sequencer scrubs the windows of a tenant torn down, which are then free (R36, R61). -/
def execTenantScrub (t : Nat) (s : State) : Host.Outcome State Fault Refusal :=
  runEvent (do
    let l ← look fun s => s.root.scrubbing.filter fun e => e.1 == t
    change fun s =>
      { s with mem := l.foldl (fun m e => memClear m (windowSpan e.2).1 (windowSpan e.2).2) s.mem,
               root := { s.root with scrubbing := s.root.scrubbing.filter fun e => e.1 != t } }) s

/-! ## The installation of a supervisor (R240) -/

/-- The name of a supervisor image's vector base. -/
def nameVector : List Byte := [0x73#8, 0x75#8, 0x70#8, 0x76#8, 0x2E#8, 0x76#8, 0x65#8, 0x63#8, 0x74#8, 0x6F#8, 0x72#8]

/-- The name of its initialisation entry. -/
def nameInit : List Byte := [0x73#8, 0x75#8, 0x70#8, 0x76#8, 0x2E#8, 0x69#8, 0x6E#8, 0x69#8, 0x74#8]

/-- The loaded address of a section of an object. -/
def CodeObj.sectionAt (o : CodeObj) (typ : Nat) : Nat := placedAt o.sections typ

/-- The loaded address of the global symbol of KIND 0 with a name. -/
def CodeObj.codeSymbol (o : CodeObj) (name : List Byte) : Option Nat :=
  (o.syms.find? fun y => y.name == name && y.bind == 1 && y.kind == 0).map fun y => o.sectionAt y.section_ + y.value

/-- The vector base and the initialisation entry of an object that is a supervisor image. -/
def CodeObj.supervisor (o : CodeObj) : Option (Nat × Nat) :=
  (o.codeSymbol nameVector).bind fun v => (o.codeSymbol nameInit).bind fun i => if v % 512 = 0 then some (v, i) else none

/-- What an initialisation team takes. -/
def initNeed : Amounts := { groups := 1, teams := 1, slots := 8, accs := 0, parts := 0, grans := 0 }

/-- An initialisation team: one group, both of its streams in supervisor mode. -/
def initTeam (t core slot : Nat) (entry lcode : W64) : Team :=
  { launch := none, tid := 0, tenant := t, core := core, ngroups := 1, gx := 1, gy := 1, gz := 1, isOrdered := false, preempt := false,
    roles := [⟨entry, [], 8, 0, 1⟩], lcode := lcode, pbase := 0xFFFF, argptr := 0, granules := [], scratchBytes := 0, scratch := [], spare := 0,
    parts := [], attach := [], accs := [], groups := [(0, { freshGroup 0 0 8 entry 0 with slot := slot, mode := .supervisor })],
    knots := List.replicate 16 (freshKnot 1), ctxs := List.replicate 9 freshCtx, latches := [], quantum := 0, halt := none, isInit := true, hv := none,
    ended := false }

/-! ## Hypervisor teams (R22) -/

/-- Tildin has a module of the tenant to translate, or an object to load that may need it. -/
def Tenant.translating (x : Tenant) : Bool := x.queues.any fun q => q.2.running.any fun c => kindOf c.bytes == 8 || kindOf c.bytes == 9

/-- A hypervisor team of one group: both of its streams run in hypervisor mode. Log entry 5. -/
def hypervisorTeam (t core slot : Nat) (w : Window) (entry : W64) : Team :=
  let x := initTeam t core slot entry 0
  { x with isInit := false, hv := some w, groups := amap x.groups fun _ g => { g with mode := .hypervisor } }

/-- The hypervisor places a team of its own on a core of the requesting tenant's set, for a translation, and adds one descriptor to its
window table, through which the team reaches the tenant's memory (R22). -/
def State.placeHypervisor (s : State) (t core : Nat) (w : Window) (entry : W64) : State :=
  match s.tenant? t with
  | none => s
  | some x =>
    if s.root.phase == .running && s.root.hvstate == 0#4 && x.translating && x.cores.contains core && s.roomOn initNeed core noneGone &&
        windowFormOk w && windowsApart (s.root.hvWindows ++ [w]) &&
        (s.rootWindows x).any fun v => v.reloc ≤ w.reloc && w.reloc + (w.wend - w.wstart) ≤ v.reloc + (v.wend - v.wstart) then
      { s with nextKey := s.nextKey + 1, root := { s.root with hvWindows := s.root.hvWindows ++ [w] },
               teams := aset s.teams s.nextKey (hypervisorTeam t core (fewestSlot (s.slotCounts core)) w entry) }
    else s

/-- The .lcode address of the image whose initialisation entry is `entry`. -/
def Tenant.imageCode (x : Tenant) (entry : Nat) : Nat :=
  ((x.objects.find? fun o => o.2.supervisor.any fun p => p.2 == entry).map fun o => o.2.sectionAt 2).getD 0

/-- Root places the initialisation team, on the lowest-numbered core of the tenant's set. -/
def placeInit (t : Nat) (x : Tenant) (entry : W64) : M Unit := do
  let core ← must (sortNats x.cores).head?
  need (← look fun s => s.roomOn initNeed core noneGone)
  change fun s =>
    { s with nextKey := s.nextKey + 1,
             teams := aset s.teams s.nextKey (initTeam t core (fewestSlot (s.slotCounts core)) entry (BitVec.ofNat 64 (x.imageCode entry.toNat))) }
  modTenant t fun x => { x with winbase := x.cfgBase, winlim := x.cfgLim }

/-- Bowline's initialisation (R240, R287): its page tables are in force, and BANKMODE is as the tenant's configuration gives it. Log entry
81. -/
def State.bowlineInit (s : State) (t : Nat) (x : Tenant) : State :=
  (s.updTenant t fun x =>
    { x with vendorMap := true, ptbase := (Config.bowlineTable t &&& ptbaseMask) ||| 1#64, tlb := [] }).configureBanks x.supv.banks

/-- Bowline's page tables are no longer in force once another supervisor is: stage one is the identity until it sets PTBASE (R170, R240).
Log entry 81. -/
def Tenant.leaveBowline (x : Tenant) : Tenant := if x.vendorMap then { x with vendorMap := false, ptbase := 0, tlb := [] } else x

/-- A pending installation becomes active once no team of the tenant is resident, or an image that came into force without one runs its
initialisation: Bowline at the tenant's creation, or the previous image after a failed installation (R28, R240). -/
def execSupvInstallActivate (t : Nat) (s : State) : Host.Outcome State Fault Refusal :=
  runEvent (do
    let x ← getTenant t
    need (← look fun s => s.teams.all fun e => e.2.tenant != t || e.2.hv.isSome)
    let u := x.supv
    if u.rerun then
      modTenant t fun x => { x with supv := { x.supv with rerun := false } }
      match u.init with
      | some entry => placeInit t x entry
      | none => change fun s => s.bowlineInit t x
    else
      let h ← must u.pending
      let o ← must (aget x.objects h)
      let (v, i) ← must o.supervisor
      modTenant t fun x =>
        { x.leaveBowline with supv := { u with tvecS := BitVec.ofNat 64 v &&& 0xFFFFFFFFFE00#64, meas := o.digest,
                                               init := some (BitVec.ofNat 64 i), pending := none, previous := some (u.tvecS, u.meas, u.init) } }
      placeInit t x (BitVec.ofNat 64 i)) s

end Sys2Proof.Machine
end

