-- ==== Sys2Proof/Machine/Bowline.lean ====
section
/-! DEFINITION. What the vendor ships as handlers: the hypervisor's two calls (R226), the calls of Bowline (R239), and their answers to
every other trap. A handler's work, from its entry to its tret, is one step of the model (notes/assumptions/7.md). -/

namespace Sys2Proof.Machine

/-! ## A handler from its entry to its tret -/

/-- What a vendor handler knows: the position of its frame, the frame, and the lane context of a handler fragment. -/
structure HandlerCtx where
  pos   : Nat
  frame : TrapFrame
  lane  : Option LaneCtx

/-- The stream in focus stands at the entry of a handler of mode `m`; the handler does its work, and returns with tret (R227 to
R229). -/
def runHandler (m : Mode) (body : HandlerCtx → M Unit) (s : State) : Host.Outcome State Fault Refusal :=
  match s.stream with
  | .scalar =>
    runScalarTo (fun g => do
      let t ← hereT
      let pos ← must g.trap
      let fr ← must (aget g.traps pos)
      need (g.mode == m && g.pc == (← look fun s => s.vector t.tenant m))
      body { pos := pos, frame := fr, lane := none }
      change fun s => s.scalarReturn s.focus
      return (← hereG).pc) s
  | .lane _ =>
    runTurn noGuard (fun c => do
      let t ← hereT
      let g ← hereG
      let pos ← must c.frag.handler
      let fr ← must (aget g.traps pos)
      need (c.frag.mode == m && c.frag.frame.isNone && c.frag.pc == (← look fun s => s.vector t.tenant m) + 0x100)
      body { pos := pos, frame := fr, lane := some c }
      modFrag c.fid fun f => { f with wait := .tret }
      modHere fun g => { g with running := none }
      change fun s => s.lanePop s.focus pos) s

/-- The call number of the frame (R223). -/
def HandlerCtx.number (h : HandlerCtx) : Nat := h.frame.causeWord.toNat / 2 ^ 32

/-- The handler's tret ends the team (R229). -/
def endingTret (h : HandlerCtx) : M Unit :=
  modHere fun g => { g with traps := aupd g.traps h.pos fun fr => { fr with fin := true } }

/-- A Bowline code as a register holds it (R239). -/
def codeWord (x : Int) : W64 := BitVec.ofInt 64 x

/-! ## The calls of the vendor hypervisor (R226) -/

/-- A result in ks3. -/
def setKs3 (x : Int) : M Unit := modHere fun g => { g with ks := aset g.ks 3 (codeWord x) }

/-- A handler of hcall number `n`. -/
def onHcall (n : Nat) (body : HandlerCtx → M Unit) (s : State) : Host.Outcome State Fault Refusal :=
  runHandler .hypervisor (fun h => do
    need (h.frame.cause == .hcall && h.number == n)
    body h) s

/-- What a request to install the object with handle `h` answers (R239, R240): 0 when it is now pending. `busy` says whether other
teams of the tenant stand in its way. -/
def askInstall (t h : Nat) (busy : Bool) : M Int := do
  let x ← getTenant t
  match (aget x.objects h).bind (·.supervisor) with
  | none => return -6
  | some _ =>
    if busy || x.supv.pending.isSome then return -4
    else
      modTenant t fun x => { x with supv := { x.supv with pending := some h } }
      return 0

/-- hcall 0x01 SUPV_INSTALL (R226, R240). -/
def execSupvInstall (g : GRef) (st : StreamRef) (s : State) : Host.Outcome State Fault Refusal :=
  onStream g st (onHcall 1 fun _ => do
    let t ← hereT
    let g ← hereG
    setKs3 (← askInstall t.tenant ((aget g.ks 3).getD 0#64).toNat false)) s

/-- hcall 0x02 TEAM_END (R226, R229). -/
def execTeamEndCall (g : GRef) (st : StreamRef) (s : State) : Host.Outcome State Fault Refusal :=
  onStream g st (onHcall 2 fun h => do
    setKs3 0
    endingTret h) s

/-! ## Bowline's calls (R239) -/

/-- A result and the replies of the services that are left. -/
abbrev Served := Int × List Reply

/-- The error codes. -/
def eBadf : Int := -1
def eFault : Int := -2
def eBusy : Int := -4
def eNosys : Int := -5
def eInval : Int := -6
def eMfile : Int := -9

/-- A negative Bowline code. -/
def isCode (c : Int) : Bool := -9 ≤ c && c ≤ -1

/-- What is handed to the service behind a call. -/
def request (t call fd : Nat) (bs : List Byte) : M Unit :=
  change fun s => s.send (.service t call fd (Config.serviceRequest call bs))

/-- The address in two 32-bit arguments. -/
def argAddr (lo hi : W32) : Nat := lo.toNat + 2 ^ 32 * hi.toNat

/-- The physical addresses of a range that is mapped in supervisor mode; none where some byte is not. -/
def mapped (t a n : Nat) (nd : Need) : M (Option (List Nat)) := do
  let core := (← hereT).core
  match ← look fun s => s.translateRange t core .supervisor a n nd with
  | .ok (some l) => return some (pieceAddrs l)
  | .ok none => stop (.fault .noSuchAddress)
  | .error _ => return none

/-- The bytes at physical addresses, as the core of the team in focus reads them, once the accesses to them are done that its group has issued
(R198, R357). -/
def readBytes (l : List Nat) : M (List Byte) := do
  needBytes l
  let c := clusterOf (← hereT).core
  let x ← look fun s => s.loadBytes c false l
  change fun _ => x.2
  return x.1

/-- The descriptor a call names, where it is open. -/
def openFd (t : Nat) (a : W32) : M (Option Nat) := do
  let x ← getTenant t
  return (aget x.fds a.toNat).map (·.kind)

/-- A new descriptor, the lowest-numbered free one. -/
def newFd (t kind : Nat) : M Int := do
  let x ← getTenant t
  match afree x.fds 1024 0 with
  | none => return eMfile
  | some n =>
    modTenant t fun x => { x with fds := aset x.fds n { kind := kind } }
    return n

/-- No descriptor is free. -/
def fdsFull (t : Nat) : M Bool := do return (afree (← getTenant t).fds 1024 0).isNone

/-- The next reply of the services: a value computed from acceptance, or the error code. -/
def answered (rs : List Reply) (ok : Nat → Option (M Int)) : M Served := do
  match rs with
  | .done n :: r =>
    let m ← must (ok n)
    let v ← m
    return (v, r)
  | .error c :: r =>
    need (isCode c)
    return (c, r)
  | _ => stall

/-- READ. -/
def serveRead (t : Nat) (a : Nat → W32) (rs : List Reply) : M Served := do
  let n := (a 3).toNat
  match ← openFd t (a 0) with
  | none => return (eBadf, rs)
  | some kind =>
    if kind = 1 then return (eBadf, rs)
    else if 2 ^ 24 < n then return (eInval, rs)
    else
      match ← mapped t (argAddr (a 1) (a 2)) n needW with
      | none => return (eFault, rs)
      | some l =>
        request t 1 (a 0).toNat (leBytes 4 n)
        match rs with
        | .bytes bs :: r =>
          need (bs.length ≤ n)
          needBytes (l.take bs.length)
          let g ← here
          let c := clusterOf (← hereT).core
          match bs with
          | [] => pure ()
          | _ => change fun s => s.storeBytes g c false (l.zip bs)
          return (bs.length, r)
        | .error c :: r =>
          need (isCode c)
          return (c, r)
        | _ => stall

/-- WRITE: to the console go the bytes themselves, all of them, with no service to answer (R396); to a file or a socket goes a request to its
service, which says how many it has written. Log entry 94. -/
def serveWrite (t : Nat) (a : Nat → W32) (rs : List Reply) : M Served := do
  let n := (a 3).toNat
  match ← openFd t (a 0) with
  | none => return (eBadf, rs)
  | some kind =>
    if kind = 0 then return (eBadf, rs)
    else if 2 ^ 24 < n then return (eInval, rs)
    else
      match ← mapped t (argAddr (a 1) (a 2)) n needR with
      | none => return (eFault, rs)
      | some l =>
        let bs ← readBytes l
        if kind = 1 then
          change fun s => s.send (.console t (a 0).toNat bs)
          return (n, rs)
        else
          request t 2 (a 0).toNat bs
          answered rs fun k => if k ≤ n then some (return k) else none

/-- OPEN. -/
def serveOpen (t : Nat) (a : Nat → W32) (rs : List Reply) : M Served := do
  let n := (a 2).toNat
  if n = 0 ∨ 1024 < n ∨ 16 ≤ (a 3).toNat then return (eInval, rs)
  else
    match ← mapped t (argAddr (a 0) (a 1)) n needR with
    | none => return (eFault, rs)
    | some l =>
      if ← fdsFull t then return (eMfile, rs)
      else
        request t 3 (a 3).toNat (← readBytes l)
        answered rs fun _ => some (newFd t 2)

/-- CLOSE. -/
def serveClose (t : Nat) (a : Nat → W32) (rs : List Reply) : M Served := do
  match ← openFd t (a 0) with
  | none => return (eBadf, rs)
  | some _ =>
    request t 4 (a 0).toNat []
    modTenant t fun x => { x with fds := adel x.fds (a 0).toNat }
    return (0, rs)

/-- SOCKET. -/
def serveSocket (t : Nat) (a : Nat → W32) (rs : List Reply) : M Served := do
  if 1 < (a 0).toNat then return (eInval, rs)
  else
    let v ← newFd t (3 + (a 0).toNat)
    return (v, rs)

/-- CONNECT and BIND, with their call numbers: the 20-byte record goes to the service. -/
def serveRecord (call t : Nat) (a : Nat → W32) (rs : List Reply) : M Served := do
  match ← openFd t (a 0) with
  | none => return (eBadf, rs)
  | some kind =>
    if kind < 3 then return (eBadf, rs)
    else
      match ← mapped t (argAddr (a 1) (a 2)) 20 needR with
      | none => return (eFault, rs)
      | some l =>
        let bs ← readBytes l
        if fieldAt bs 0 2 = 4 ∨ fieldAt bs 0 2 = 6 then
          request t call (a 0).toNat bs
          answered rs fun _ => some (return 0)
        else return (eInval, rs)

/-- ACCEPT. -/
def serveAccept (t : Nat) (a : Nat → W32) (rs : List Reply) : M Served := do
  match ← openFd t (a 0) with
  | none => return (eBadf, rs)
  | some kind =>
    if kind ≠ 3 then return (eBadf, rs)
    else if ← fdsFull t then return (eMfile, rs)
    else
      request t 8 (a 0).toNat []
      answered rs fun _ => some (newFd t 3)

/-- SUPV_LOAD: −4 while a team of the tenant other than the calling one is resident. -/
def serveLoad (t : Nat) (a : Nat → W32) (rs : List Reply) : M Served := do
  let k := (← here).team
  let busy ← look fun s => s.teams.any fun e => e.2.tenant == t && e.1 != k && e.2.hv.isNone
  let v ← askInstall t (a 0).toNat busy
  return (v, rs)

/-! ## The calling convention (R239) -/

/-- The calls of the lanes, one after another in ascending order. -/
def serveLanes (serve : (Nat → W32) → List Reply → M Served) (args : List Tag) : List Nat → List Reply → M (List (Nat × Int))
  | [], _ => pure []
  | l :: ls, rs => do
    let x ← serve (fun i => (args.getD i .released).lane l) rs
    let r ← serveLanes serve args ls x.2
    return (l, x.1) :: r

/-- The k register in which Bowline builds its return value (R390). Log entry 7. -/
def returnK : Nat := 5

/-- SLOT_EXHAUSTED in a handler whose call has been served (R133, R224): what the call did stays. -/
def exhausted : M Unit := fun s => .error (.keep s (plainTrap .slotExhausted))

/-- The return value is built in its k register and written to v1 by tret (R224, R229, R239). -/
def returnValue (c : LaneCtx) (x : Tag) : M Unit := do
  let base ← windowBase
  let g ← hereG
  need (!g.vregBusy c.fid 1#10)
  match g.writeK (← hereT).spareFree returnK c.w x 0 with
  | none => exhausted
  | some g' =>
    modHere fun _ => g'
    match g'.writeV base true 1 c.w (resultTag [x] x.lane) 0 with
    | none => exhausted
    | some g'' => modHere fun _ => g''

/-- The value that tret writes: uniform when every lane called and every result is the same, general otherwise. -/
def resultOf (w : LaneMask) (l : List (Nat × Int)) : Tag :=
  let f (lane : Nat) : W32 := BitVec.ofInt 32 ((aget l lane).getD 0)
  if w = allLanes ∧ (laneList.all fun x => f x == f 0) = true then .uniform (f 0) else Tag.ofLanes f

/-- A Bowline call: `n` its number, `k` how many arguments it reads. -/
def onSyscall (n k : Nat) (serve : Nat → (Nat → W32) → List Reply → M Served) (rs : List Reply) (s : State) :
    Host.Outcome State Fault Refusal :=
  runHandler .supervisor (fun h => do
    let t := (← hereT).tenant
    let x ← getTenant t
    need (x.supv.init.isNone && h.frame.cause == .syscall && (h.number == n || (n == 0 && (h.number == 0 || 9 < h.number))))
    match h.lane with
    | some c =>
      let args ← readSrcs c (groupOf (.v 1#10) k)
      let l ← serveLanes (serve t) args (lanesOf c.w) rs
      returnValue c (resultOf c.w l)
    | none =>
      let args ← [3#6, 4#6, 5#6, 6#6].take k |>.mapM readS
      let x ← serve t (fun i => (args.getD i 0#64).setWidth 32) rs
      writeS 3#6 (codeWord x.1)) s

/-- READ, call 1. -/
def execBowlineRead (g : GRef) (st : StreamRef) (rs : List Reply) (s : State) : Host.Outcome State Fault Refusal :=
  onStream g st (onSyscall 1 4 serveRead rs) s

/-- WRITE, call 2. -/
def execBowlineWrite (g : GRef) (st : StreamRef) (rs : List Reply) (s : State) : Host.Outcome State Fault Refusal :=
  onStream g st (onSyscall 2 4 serveWrite rs) s

/-- OPEN, call 3. -/
def execBowlineOpen (g : GRef) (st : StreamRef) (rs : List Reply) (s : State) : Host.Outcome State Fault Refusal :=
  onStream g st (onSyscall 3 4 serveOpen rs) s

/-- CLOSE, call 4. -/
def execBowlineClose (g : GRef) (st : StreamRef) (rs : List Reply) (s : State) : Host.Outcome State Fault Refusal :=
  onStream g st (onSyscall 4 1 serveClose rs) s

/-- SOCKET, call 5. -/
def execBowlineSocket (g : GRef) (st : StreamRef) (rs : List Reply) (s : State) : Host.Outcome State Fault Refusal :=
  onStream g st (onSyscall 5 1 serveSocket rs) s

/-- CONNECT, call 6. -/
def execBowlineConnect (g : GRef) (st : StreamRef) (rs : List Reply) (s : State) : Host.Outcome State Fault Refusal :=
  onStream g st (onSyscall 6 3 (serveRecord 6) rs) s

/-- BIND, call 7. -/
def execBowlineBind (g : GRef) (st : StreamRef) (rs : List Reply) (s : State) : Host.Outcome State Fault Refusal :=
  onStream g st (onSyscall 7 3 (serveRecord 7) rs) s

/-- ACCEPT, call 8. -/
def execBowlineAccept (g : GRef) (st : StreamRef) (rs : List Reply) (s : State) : Host.Outcome State Fault Refusal :=
  onStream g st (onSyscall 8 1 serveAccept rs) s

/-- SUPV_LOAD, call 9 (R239, R240). -/
def execSupvLoad (g : GRef) (st : StreamRef) (rs : List Reply) (s : State) : Host.Outcome State Fault Refusal :=
  onStream g st (onSyscall 9 1 serveLoad rs) s

/-! ## Every other trap -/

/-- A call that Bowline does not list answers −5. -/
def serveUnlisted (_ : Nat) (_ : Nat → W32) (rs : List Reply) : M Served := return (eNosys, rs)

/-- The vendor hypervisor's answer to a trap other than its two calls: −5 to a number it does not list, a tret with END to the rest
(R226). -/
def answerHypervisor (h : HandlerCtx) : M Unit :=
  if h.frame.cause = .hcall then do
    need (h.number != 1 && h.number != 2)
    setKs3 eNosys
  else endingTret h

/-- Bowline's answer to a trap other than a system call: a tret with END (R239). -/
def answerBowline (h : HandlerCtx) : M Unit := do
  let x ← getTenant (← hereT).tenant
  need (x.supv.init.isNone && h.frame.cause != .syscall)
  endingTret h

/-- The vendor's handlers answer the trap whose handler stream `st` of group `g` is about to run, where no row of the table is that
answer. -/
def vendorAnswer (g : GRef) (st : StreamRef) (s : State) : Host.Outcome State Fault Refusal :=
  let mode : Mode :=
    match st with
    | .scalar => ((s.group? g).map (·.mode)).getD .user
    | .lane fid => ((s.group? g).bind fun x => (aget x.frags fid).map (·.mode)).getD .user
  let call : Bool :=
    match st with
    | .scalar => ((s.group? g).bind fun x => x.trap.bind fun p => (aget x.traps p).map fun fr => fr.cause == .syscall).getD false
    | .lane fid =>
      ((s.group? g).bind fun x => (aget x.frags fid).bind fun f => f.handler.bind fun p => (aget x.traps p).map fun fr =>
        fr.cause == .syscall).getD false
  match mode with
  | .hypervisor => onStream g st (runHandler .hypervisor answerHypervisor) s
  | .supervisor => onStream g st (if call then onSyscall 0 0 serveUnlisted [] else runHandler .supervisor answerBowline) s
  | .user => .next s

end Sys2Proof.Machine
end

