-- ==== Sys2Proof/Machine/ScalarAlu.lean ====
section
/-! DEFINITION. Scalar arithmetic (R305, R306). -/

namespace Sys2Proof.Machine

/-- A scalar form of two registers (R305). -/
def sop2 (d a b : SReg) (f : W64 → W64 → W64) (s : State) : Host.Outcome State Fault Refusal :=
  runScalar (fun _ => do
    let x ← readS a
    let y ← readS b
    writeS d (f x y)) s

/-- A scalar form of one register (R305, R306). -/
def sop1 (d a : SReg) (f : W64 → W64) (s : State) : Host.Outcome State Fault Refusal :=
  runScalar (fun _ => do
    let x ← readS a
    writeS d (f x)) s

/-- Leading zero bits of a word. -/
def leadingZeros {n : Nat} (x : BitVec n) : Nat := if x = 0 then n else n - 1 - x.toNat.log2

/-- Set bits of a word. -/
def popCount {n : Nat} (x : BitVec n) : Nat := ((List.range n).filter fun i => x.getLsbD i).length


/-- add (R305). -/
def execAdd (d a b : SReg) (s : State) : Host.Outcome State Fault Refusal := sop2 d a b (fun x y => x + y) s

/-- sub (R305). -/
def execSub (d a b : SReg) (s : State) : Host.Outcome State Fault Refusal := sop2 d a b (fun x y => x - y) s

/-- mul (R305). -/
def execMul (d a b : SReg) (s : State) : Host.Outcome State Fault Refusal := sop2 d a b (fun x y => x * y) s

/-- mulhi (R305). -/
def execMulhi (d a b : SReg) (s : State) : Host.Outcome State Fault Refusal := sop2 d a b (fun x y => BitVec.ofInt 64 (x.toInt * y.toInt / 2 ^ 64)) s

/-- mulhu (R305). -/
def execMulhu (d a b : SReg) (s : State) : Host.Outcome State Fault Refusal := sop2 d a b (fun x y => BitVec.ofNat 64 (x.toNat * y.toNat / 2 ^ 64)) s

/-- and (R305). -/
def execAnd (d a b : SReg) (s : State) : Host.Outcome State Fault Refusal := sop2 d a b (fun x y => x &&& y) s

/-- or (R305). -/
def execOr (d a b : SReg) (s : State) : Host.Outcome State Fault Refusal := sop2 d a b (fun x y => x ||| y) s

/-- xor (R305). -/
def execXor (d a b : SReg) (s : State) : Host.Outcome State Fault Refusal := sop2 d a b (fun x y => x ^^^ y) s

/-- andn (R305). -/
def execAndn (d a b : SReg) (s : State) : Host.Outcome State Fault Refusal := sop2 d a b (fun x y => x &&& ~~~y) s

/-- shl (R305). -/
def execShl (d a b : SReg) (s : State) : Host.Outcome State Fault Refusal := sop2 d a b (fun x y => x <<< (y.toNat % 64)) s

/-- shr (R305). -/
def execShr (d a b : SReg) (s : State) : Host.Outcome State Fault Refusal := sop2 d a b (fun x y => x >>> (y.toNat % 64)) s

/-- sar (R305). -/
def execSar (d a b : SReg) (s : State) : Host.Outcome State Fault Refusal := sop2 d a b (fun x y => x.sshiftRight (y.toNat % 64)) s

/-- min (R305). -/
def execMin (d a b : SReg) (s : State) : Host.Outcome State Fault Refusal := sop2 d a b (fun x y => if y.slt x then y else x) s

/-- max (R305). -/
def execMax (d a b : SReg) (s : State) : Host.Outcome State Fault Refusal := sop2 d a b (fun x y => if x.slt y then y else x) s

/-- minu (R305). -/
def execMinu (d a b : SReg) (s : State) : Host.Outcome State Fault Refusal := sop2 d a b (fun x y => if y.ult x then y else x) s

/-- maxu (R305). -/
def execMaxu (d a b : SReg) (s : State) : Host.Outcome State Fault Refusal := sop2 d a b (fun x y => if x.ult y then y else x) s

/-- slt (R305). -/
def execSlt (d a b : SReg) (s : State) : Host.Outcome State Fault Refusal := sop2 d a b (fun x y => boolWord 64 (x.slt y)) s

/-- sltu (R305). -/
def execSltu (d a b : SReg) (s : State) : Host.Outcome State Fault Refusal := sop2 d a b (fun x y => boolWord 64 (x.ult y)) s

/-- seq (R305). -/
def execSeq (d a b : SReg) (s : State) : Host.Outcome State Fault Refusal := sop2 d a b (fun x y => boolWord 64 (x == y)) s

/-- sne (R305). -/
def execSne (d a b : SReg) (s : State) : Host.Outcome State Fault Refusal := sop2 d a b (fun x y => boolWord 64 (x != y)) s

/-- clz (R305). -/
def execScalarClz (d a : SReg) (s : State) : Host.Outcome State Fault Refusal :=
  sop1 d a (fun x => BitVec.ofNat 64 (leadingZeros x)) s

/-- popc (R305). -/
def execScalarPopc (d a : SReg) (s : State) : Host.Outcome State Fault Refusal :=
  sop1 d a (fun x => BitVec.ofNat 64 (popCount x)) s

/-- sel (R305): the destination's previous value is the condition. -/
def execScalarSel (d a b : SReg) (s : State) : Host.Outcome State Fault Refusal :=
  runScalar (fun _ => do
    let x ← readS a
    let y ← readS b
    let z ← readS d
    writeS d (if z != 0#64 then x else y)) s

/-- addi (R306). -/
def execAddi (d a : SReg) (i : BitVec 14) (s : State) : Host.Outcome State Fault Refusal := sop1 d a (fun x => x + i.signExtend 64) s

/-- andi (R306). -/
def execAndi (d a : SReg) (i : BitVec 14) (s : State) : Host.Outcome State Fault Refusal := sop1 d a (fun x => x &&& i.signExtend 64) s

/-- ori (R306). -/
def execOri (d a : SReg) (i : BitVec 14) (s : State) : Host.Outcome State Fault Refusal := sop1 d a (fun x => x ||| i.signExtend 64) s

/-- xori (R306). -/
def execXori (d a : SReg) (i : BitVec 14) (s : State) : Host.Outcome State Fault Refusal := sop1 d a (fun x => x ^^^ i.signExtend 64) s

/-- shli (R306). -/
def execShli (d a : SReg) (i : BitVec 6) (s : State) : Host.Outcome State Fault Refusal := sop1 d a (fun x => x <<< i.toNat) s

/-- shri (R306). -/
def execShri (d a : SReg) (i : BitVec 6) (s : State) : Host.Outcome State Fault Refusal := sop1 d a (fun x => x >>> i.toNat) s

/-- sari (R306). -/
def execSari (d a : SReg) (i : BitVec 6) (s : State) : Host.Outcome State Fault Refusal := sop1 d a (fun x => x.sshiftRight i.toNat) s

/-- slti (R306). -/
def execSlti (d a : SReg) (i : BitVec 14) (s : State) : Host.Outcome State Fault Refusal :=
  sop1 d a (fun x => boolWord 64 (x.slt (i.signExtend 64))) s

/-- lui (R306). -/
def execLui (d : SReg) (i : BitVec 20) (s : State) : Host.Outcome State Fault Refusal :=
  runScalar (fun _ => writeS d ((i ++ 0#12).signExtend 64)) s

end Sys2Proof.Machine
end

