-- ==== Sys2Proof/Machine/LaneAlu.lean ====
section
/-! DEFINITION. Lane arithmetic and conversions, OP 0x01 to 0x09 and 0x0C (R329 to R343, R352). -/

namespace Sys2Proof.Machine

/-- The affine result of a sum (R332): affine and uniform in either order. -/
def affineAdd : Tag → Tag → Option Tag
  | .affine b s, .uniform u => some (.affine (b + u) s)
  | .uniform u, .affine b s => some (.affine (b + u) s)
  | _, _ => none

/-- The affine result of a difference (R332): affine minus uniform. -/
def affineSub : Tag → Tag → Option Tag
  | .affine b s, .uniform u => some (.affine (b - u) s)
  | _, _ => none

/-- The affine result of a product (R332): affine and uniform in either order. -/
def affineMul : Tag → Tag → Option Tag
  | .affine b s, .uniform u => some (.affine (b * u) (s * u))
  | .uniform u, .affine b s => some (.affine (b * u) (s * u))
  | _, _ => none


/-- iadd (R332). -/
def execIadd (h : LHdr) (d : VReg) (a b : Src) (s : State) : Host.Outcome State Fault Refusal :=
  alu2 h d a b affineAdd (fun _ x y => x + y) s

/-- isub (R332). -/
def execIsub (h : LHdr) (d : VReg) (a b : Src) (s : State) : Host.Outcome State Fault Refusal :=
  alu2 h d a b affineSub (fun _ x y => x - y) s

/-- imul (R332). -/
def execImul (h : LHdr) (d : VReg) (a b : Src) (s : State) : Host.Outcome State Fault Refusal :=
  alu2 h d a b affineMul (fun _ x y => x * y) s

/-- imulhi (R332). -/
def execImulhi (h : LHdr) (d : VReg) (a b : Src) (s : State) : Host.Outcome State Fault Refusal :=
  alu2 h d a b noAffine (fun _ x y => BitVec.ofInt 32 (x.toInt * y.toInt / 2 ^ 32)) s

/-- imulhu (R332). -/
def execImulhu (h : LHdr) (d : VReg) (a b : Src) (s : State) : Host.Outcome State Fault Refusal :=
  alu2 h d a b noAffine (fun _ x y => BitVec.ofNat 32 (x.toNat * y.toNat / 2 ^ 32)) s

/-- imad (R332). -/
def execImad (h : LHdr) (d : VReg) (a b c : Src) (s : State) : Host.Outcome State Fault Refusal :=
  alu3 h d a b c (fun _ x y z => x * y + z) s

/-- iand (R332). -/
def execIand (h : LHdr) (d : VReg) (a b : Src) (s : State) : Host.Outcome State Fault Refusal :=
  alu2 h d a b noAffine (fun _ x y => x &&& y) s

/-- ior (R332). -/
def execIor (h : LHdr) (d : VReg) (a b : Src) (s : State) : Host.Outcome State Fault Refusal :=
  alu2 h d a b noAffine (fun _ x y => x ||| y) s

/-- ixor (R332). -/
def execIxor (h : LHdr) (d : VReg) (a b : Src) (s : State) : Host.Outcome State Fault Refusal :=
  alu2 h d a b noAffine (fun _ x y => x ^^^ y) s

/-- iandn (R332). -/
def execIandn (h : LHdr) (d : VReg) (a b : Src) (s : State) : Host.Outcome State Fault Refusal :=
  alu2 h d a b noAffine (fun _ x y => x &&& ~~~y) s

/-- ishl (R332). -/
def execIshl (h : LHdr) (d : VReg) (a b : Src) (s : State) : Host.Outcome State Fault Refusal :=
  alu2 h d a b noAffine (fun _ x y => x <<< (y.toNat % 32)) s

/-- ishr (R332). -/
def execIshr (h : LHdr) (d : VReg) (a b : Src) (s : State) : Host.Outcome State Fault Refusal :=
  alu2 h d a b noAffine (fun _ x y => x >>> (y.toNat % 32)) s

/-- isar (R332). -/
def execIsar (h : LHdr) (d : VReg) (a b : Src) (s : State) : Host.Outcome State Fault Refusal :=
  alu2 h d a b noAffine (fun _ x y => x.sshiftRight (y.toNat % 32)) s

/-- imin (R332). -/
def execImin (h : LHdr) (d : VReg) (a b : Src) (s : State) : Host.Outcome State Fault Refusal :=
  alu2 h d a b noAffine (fun _ x y => if y.slt x then y else x) s

/-- imax (R332). -/
def execImax (h : LHdr) (d : VReg) (a b : Src) (s : State) : Host.Outcome State Fault Refusal :=
  alu2 h d a b noAffine (fun _ x y => if x.slt y then y else x) s

/-- iminu (R332). -/
def execIminu (h : LHdr) (d : VReg) (a b : Src) (s : State) : Host.Outcome State Fault Refusal :=
  alu2 h d a b noAffine (fun _ x y => if y.ult x then y else x) s

/-- imaxu (R332). -/
def execImaxu (h : LHdr) (d : VReg) (a b : Src) (s : State) : Host.Outcome State Fault Refusal :=
  alu2 h d a b noAffine (fun _ x y => if x.ult y then y else x) s

/-- iabs (R332). -/
def execIabs (h : LHdr) (d : VReg) (a : Src) (s : State) : Host.Outcome State Fault Refusal :=
  alu1 h d a (fun _ x => if x.msb then -x else x) s

/-- sel (R332). -/
def execLaneSel (h : LHdr) (d : VReg) (a b c : Src) (s : State) : Host.Outcome State Fault Refusal :=
  alu3 h d a b c (fun _ x y z => if z != 0#32 then x else y) s

/-- mov (R332). -/
def execMov (h : LHdr) (d : VReg) (a : Src) (s : State) : Host.Outcome State Fault Refusal :=
  alu1 h d a (fun _ x => x) s

/-- clz (R332). -/
def execLaneClz (h : LHdr) (d : VReg) (a : Src) (s : State) : Host.Outcome State Fault Refusal :=
  alu1 h d a (fun _ x => BitVec.ofNat 32 (leadingZeros x)) s

/-- popc (R332). -/
def execLanePopc (h : LHdr) (d : VReg) (a : Src) (s : State) : Host.Outcome State Fault Refusal :=
  alu1 h d a (fun _ x => BitVec.ofNat 32 (popCount x)) s

/-- brev (R332). -/
def execBrev (h : LHdr) (d : VReg) (a : Src) (s : State) : Host.Outcome State Fault Refusal :=
  alu1 h d a (fun _ x => x.reverse) s

/-- The field a control word names (R333): its position, and its bits inside the word. -/
def fieldPos (k : W32) : Nat := k.toNat % 32
def fieldWidth (k : W32) : Nat := min (min (k.toNat / 256 % 64) 32) (32 - fieldPos k)

/-- The low `w` bits of a word. -/
def lowBits (x : W32) (w : Nat) : W32 := BitVec.ofNat 32 (x.toNat % 2 ^ w)

/-- bfx (R333). -/
def execBfx (h : LHdr) (d : VReg) (a b : Src) (s : State) : Host.Outcome State Fault Refusal :=
  alu2 h d a b noAffine (fun _ x y => lowBits (x >>> fieldPos y) (fieldWidth y)) s

/-- bfxs (R333). -/
def execBfxs (h : LHdr) (d : VReg) (a b : Src) (s : State) : Host.Outcome State Fault Refusal :=
  alu2 h d a b noAffine (fun _ x y => ((x >>> fieldPos y) <<< (32 - fieldWidth y)).sshiftRight (32 - fieldWidth y)) s

/-- The bits a control word covers (R333). -/
def fieldMask (k : W32) : W32 := BitVec.ofNat 32 ((2 ^ fieldWidth k - 1) * 2 ^ fieldPos k)

/-- bfi (R333). -/
def execBfi (h : LHdr) (d : VReg) (a b c : Src) (s : State) : Host.Outcome State Fault Refusal :=
  alu3 h d a b c (fun _ x y z => (x &&& ~~~fieldMask z) ||| ((y <<< fieldPos z) &&& fieldMask z)) s

/-- The conditions of icmp (R334). -/
def iCompare (c : ICond) (x y : W32) : Bool :=
  match c with
  | .eq => x == y
  | .ne => x != y
  | .lt => x.slt y
  | .le => x.sle y
  | .gt => y.slt x
  | .ge => y.sle x
  | .ltu => x.ult y
  | .leu => x.ule y
  | .gtu => y.ult x
  | .geu => y.ule x

/-- icmp (R334). -/
def execIcmp (h : LHdr) (cond : ICond) (d : PReg) (a b : Src) (s : State) : Host.Outcome State Fault Refusal :=
  aluCompare h d a b (iCompare cond) s

/-- movk (R335). -/
def execMovk (h : LHdr) (hi : Bool) (d : VReg) (i : BitVec 21) (s : State) : Host.Outcome State Fault Refusal :=
  runAlu h (fun c => aluEnd c h [] [(d, .uniform (if hi then i ++ 0#11 else i.signExtend 32))]) s

/-- The rounding mode an instruction selects (R248, R300): the fragment's FMTR.RMODE when dynamic. -/
def rounding (m : RndSel) (f : Fragment) : Rnd :=
  match m with
  | .rne => .rne
  | .rtz => .rtz
  | .rup => .rup
  | .rdn => .rdn
  | .dyn =>
    match (f.fmtr.extractLsb' 14 2).toNat with
    | 0 => .rne
    | 1 => .rtz
    | 2 => .rup
    | _ => .rdn


/-- fadd (R336). -/
def execFadd (h : LHdr) (m : RndSel) (d : VReg) (a b : Src) (s : State) : Host.Outcome State Fault Refusal :=
  alu2 h d a b noAffine (fun c x y => fAdd (rounding m c.frag) x y) s

/-- fsub (R336). -/
def execFsub (h : LHdr) (m : RndSel) (d : VReg) (a b : Src) (s : State) : Host.Outcome State Fault Refusal :=
  alu2 h d a b noAffine (fun c x y => fSub (rounding m c.frag) x y) s

/-- fmul (R336). -/
def execFmul (h : LHdr) (m : RndSel) (d : VReg) (a b : Src) (s : State) : Host.Outcome State Fault Refusal :=
  alu2 h d a b noAffine (fun c x y => fMul (rounding m c.frag) x y) s

/-- fma (R336). -/
def execFma (h : LHdr) (m : RndSel) (d : VReg) (a b c : Src) (s : State) : Host.Outcome State Fault Refusal :=
  alu3 h d a b c (fun k x y z => fFma (rounding m k.frag) x y z) s

/-- fmin (R337). -/
def execFmin (h : LHdr) (d : VReg) (a b : Src) (s : State) : Host.Outcome State Fault Refusal :=
  alu2 h d a b noAffine (fun _ x y => selMin x y) s

/-- fmax (R337). -/
def execFmax (h : LHdr) (d : VReg) (a b : Src) (s : State) : Host.Outcome State Fault Refusal :=
  alu2 h d a b noAffine (fun _ x y => selMax x y) s

/-- fabs (R337). -/
def execFabs (h : LHdr) (d : VReg) (a : Src) (s : State) : Host.Outcome State Fault Refusal :=
  alu1 h d a (fun _ x => fAbs x) s

/-- fneg (R337). -/
def execFneg (h : LHdr) (d : VReg) (a : Src) (s : State) : Host.Outcome State Fault Refusal :=
  alu1 h d a (fun _ x => fNeg x) s

/-- fcmp (R338). -/
def execFcmp (h : LHdr) (cond : FCond) (d : PReg) (a b : Src) (s : State) : Host.Outcome State Fault Refusal :=
  aluCompare h d a b (fCompare cond) s

/-- frcp (R253, R339). -/
def execFrcp (h : LHdr) (d : VReg) (a : Src) (s : State) : Host.Outcome State Fault Refusal :=
  alu1 h d a (fun _ x => fRcp x) s

/-- frsq (R253, R339). -/
def execFrsq (h : LHdr) (d : VReg) (a : Src) (s : State) : Host.Outcome State Fault Refusal :=
  alu1 h d a (fun _ x => fRsq x) s

/-- fsqrt (R253, R339). -/
def execFsqrt (h : LHdr) (d : VReg) (a : Src) (s : State) : Host.Outcome State Fault Refusal :=
  alu1 h d a (fun _ x => fSqrt x) s

/-- fexp2 (R253, R339). -/
def execFexp2 (h : LHdr) (d : VReg) (a : Src) (s : State) : Host.Outcome State Fault Refusal :=
  alu1 h d a (fun _ x => fExp2 x) s

/-- flog2 (R253, R339). -/
def execFlog2 (h : LHdr) (d : VReg) (a : Src) (s : State) : Host.Outcome State Fault Refusal :=
  alu1 h d a (fun _ x => fLog2 x) s

/-- fln (R253, R339). -/
def execFln (h : LHdr) (d : VReg) (a : Src) (s : State) : Host.Outcome State Fault Refusal :=
  alu1 h d a (fun _ x => fLn x) s

/-- fcls (R340). -/
def execFcls (h : LHdr) (d : VReg) (a : Src) (s : State) : Host.Outcome State Fault Refusal :=
  alu1 h d a (fun _ x => fClass x) s

/-- cvt (R252, R341). -/
def execCvt (h : LHdr) (k : CvtKind) (m : RndSel) (d : VReg) (a : Src) (s : State) : Host.Outcome State Fault Refusal :=
  alu1 h d a (fun c x => fCvt k (rounding m c.frag) x) s

/-- npenc (R258, R342). -/
def execNpenc (h : LHdr) (d : VReg) (a : Src) (s : State) : Host.Outcome State Fault Refusal :=
  alu1 h d a (fun _ x => (npEnc x).setWidth 32) s

/-- npdec (R257, R342). -/
def execNpdec (h : LHdr) (planes : BitVec 4) (f32 : Bool) (d : VReg) (a : Src) (s : State) : Host.Outcome State Fault Refusal :=
  alu1 h d a (fun _ x =>
    let v := npVal (x.setWidth 8) planes.toNat
    if f32 then intToF32 v else BitVec.ofInt 32 v) s

/-- The plane word of one beat (R343): bit j from lane 32b + j of W. -/
def planeWord (w : LaneMask) (p : Nat) (x : Tag) (b : Nat) : W32 :=
  BitVec.ofNat 32 ((List.range 32).foldl (fun n j =>
    if w.getLsbD (32 * b + j) && (x.lane (32 * b + j)).getLsbD (7 - p) then n + 2 ^ j else n) 0)

/-- plx (R343). -/
def execPlx (h : LHdr) (plane : BitVec 3) (d : VReg) (a : Src) (s : State) : Host.Outcome State Fault Refusal :=
  runAlu h (fun c => do
    privSources c [a]
    let x ← readSrc c a
    let words := (List.range 3).map (planeWord c.w plane.toNat x)
    let word (l : Nat) : W32 := words.getD (l / 32) 0#32
    aluEnd c h [a] [(d, if c.w = allLanes then resultTag [x] word else Tag.ofLanes word)]) s

/-- One code with a plane's bit replaced (R343): negative zero becomes 0. -/
def insertPlane (p : Nat) (x : W32) (t : Bool) : W32 :=
  let m : W32 := 1#32 <<< (7 - p)
  let c := (x &&& 0xFF#32 &&& ~~~m) ||| (if t then m else 0#32)
  if c = 0x80#32 then 0#32 else c

/-- pli (R343): each lane reads its own bit, so the result is general. -/
def execPli (h : LHdr) (plane : BitVec 3) (d : VReg) (a b : Src) (s : State) : Host.Outcome State Fault Refusal :=
  runAlu h (fun c => do
    privSources c [a, b]
    let x ← readSrc c a
    let y ← readSrc c b
    aluEnd c h [a, b] [(d, Tag.ofLanes fun l => insertPlane plane.toNat (x.lane l) ((y.lane l).getLsbD (l % 32)))]) s

/-- The three results of a Welford form, lane by lane (R352). -/
def triple (srcs : List Tag) (f : Nat → W32 × W32 × W32) (d : VReg) : List (VReg × Tag) :=
  [(d, resultTag srcs fun l => (f l).1), (d + 1, resultTag srcs fun l => (f l).2.1), (d + 2, resultTag srcs fun l => (f l).2.2)]

/-- A triple's value in a lane. -/
def lane3 (x : List Tag) (l : Nat) : W32 × W32 × W32 :=
  ((x.getD 0 .released).lane l, (x.getD 1 .released).lane l, (x.getD 2 .released).lane l)

/-- welf (R262, R352). -/
def execWelf (h : LHdr) (d a : VReg) (b : Src) (s : State) : Host.Outcome State Fault Refusal :=
  runAlu h (fun c => do
    privSources c [b]
    let x ← readSrcs c (groupOf (.v a) 3)
    let y ← readSrc c b
    aluEnd c h (groupOf (.v a) 3 ++ [b]) (triple (y :: x) (fun l => welf3 (lane3 x l) (y.lane l)) d)) s

/-- wmerge (R263, R352). -/
def execWmerge (h : LHdr) (d a b : VReg) (s : State) : Host.Outcome State Fault Refusal :=
  runAlu h (fun c => do
    let x ← readSrcs c (groupOf (.v a) 3)
    let y ← readSrcs c (groupOf (.v b) 3)
    aluEnd c h (groupOf (.v a) 3 ++ groupOf (.v b) 3) (triple (x ++ y) (fun l => wmerge3 (lane3 x l) (lane3 y l)) d)) s

end Sys2Proof.Machine
end

