-- ==== Sys2Proof/Machine/LaneCross.lean ====
section
/-! DEFINITION. Predicates, ballots, movement between lanes, folds and prefixes, OP 0x0A and 0x0B (R330, R344 to R350). -/

namespace Sys2Proof.Machine

/-- A predicate form (R344): of one or two predicates. -/
def predOp (h : LHdr) (d a b : PReg) (f : LaneMask → LaneMask → LaneMask) (s : State) : Host.Outcome State Fault Refusal :=
  runAlu h (fun c => do
    let x ← readPred a
    let y ← readPred b
    writePred c d (f x y)
    return none) s

/-- pand (R344). -/
def execPand (h : LHdr) (d a b : PReg) (s : State) : Host.Outcome State Fault Refusal := predOp h d a b (fun x y => x &&& y) s

/-- por (R344). -/
def execPor (h : LHdr) (d a b : PReg) (s : State) : Host.Outcome State Fault Refusal := predOp h d a b (fun x y => x ||| y) s

/-- pxor (R344). -/
def execPxor (h : LHdr) (d a b : PReg) (s : State) : Host.Outcome State Fault Refusal := predOp h d a b (fun x y => x ^^^ y) s

/-- pnot (R344). -/
def execPnot (h : LHdr) (d a : PReg) (s : State) : Host.Outcome State Fault Refusal := predOp h d a a (fun x _ => ~~~x) s

/-- pmov (R344). -/
def execPmov (h : LHdr) (d a : PReg) (s : State) : Host.Outcome State Fault Refusal := predOp h d a a (fun x _ => x) s

/-- The three words of a ballot (R345): the bits of the lanes of W where the predicate is true. -/
def ballotWord (w p : LaneMask) (k : Nat) : W32 := (w &&& p).extractLsb' (32 * k) 32

/-- ballot, the register form (R345). -/
def execBallot (h : LHdr) (d : VReg) (a : PReg) (s : State) : Host.Outcome State Fault Refusal :=
  runAlu h (fun c => do
    let p ← readPred a
    aluEnd c h [] [(d, .uniform (ballotWord c.w p 0)), (d + 1, .uniform (ballotWord c.w p 1)),
      (d + 2, .uniform (ballotWord c.w p 2))]) s

/-- ballot, the queue form (R345): two entries as one step. -/
def execBallotLq (h : LHdr) (a : PReg) (s : State) : Host.Outcome State Fault Refusal :=
  runAlu h (fun c => do
    let p ← readPred a
    pushLq [ballotWord c.w p 1 ++ ballotWord c.w p 0, (ballotWord c.w p 2).setWidth 64]
    return none) s

/-- vote (R346). -/
def execVote (h : LHdr) (k : VoteKind) (d a : PReg) (s : State) : Host.Outcome State Fault Refusal :=
  runAlu h (fun c => do
    let p ← readPred a
    let t := c.w &&& p
    let r : Bool :=
      match k with
      | .all => t == c.w
      | .any => t != 0#96
      | .uni => t == c.w || t == 0#96
    writePred c d (if r then allLanes else 0#96)
    return none) s

/-- shfl (R330, R347): the lane an index names, whatever fragment carries it. -/
def execShfl (h : LHdr) (d : VReg) (a b : Src) (s : State) : Host.Outcome State Fault Refusal :=
  runAlu h (fun c => do
    privSources c [a, b]
    let x ← readSrc c a
    let y ← readSrc c b
    aluEnd c h [a, b] [(d, resultTag [x, y] fun l =>
      if (y.lane l).toNat < 96 then x.lane (y.lane l).toNat else 0#32)]) s

/-- xchg (R330, R348). -/
def execXchg (h : LHdr) (d : VReg) (a b : Src) (s : State) : Host.Outcome State Fault Refusal :=
  runAlu h (fun c => do
    privSources c [a, b]
    let x ← readSrc c a
    let y ← readUniform c b
    let q (l : Nat) : Nat := l ^^^ (y.toNat % 128)
    aluEnd c h [a, b] [(d, resultTag [x] fun l => if q l < 96 then x.lane (q l) else x.lane l)]) s

/-- One step of a fold (R349). -/
def foldOp (op : FoldOp) (r x : W32) : W32 :=
  match op with
  | .add => r + x
  | .and => r &&& x
  | .or => r ||| x
  | .xor => r ^^^ x
  | .min => if x.slt r then x else r
  | .max => if r.slt x then x else r
  | .minu => if x.ult r then x else r
  | .maxu => if r.ult x then x else r
  | .fadd => fAdd .rne r x
  | .fmin => selMin r x
  | .fmax => selMax r x

/-- The identity of a fold (R349). -/
def foldIdentity : FoldOp → W32
  | .add => 0#32
  | .and => 0xFFFFFFFF#32
  | .or => 0#32
  | .xor => 0#32
  | .min => 0x7FFFFFFF#32
  | .max => 0x80000000#32
  | .minu => 0xFFFFFFFF#32
  | .maxu => 0#32
  | .fadd => 0#32
  | .fmin => 0x7F800000#32
  | .fmax => 0xFF800000#32

/-- The fold over the lanes of W in ascending order, from the first lane's value (R349). -/
def foldLanes (op : FoldOp) (x : Tag) (w : LaneMask) : W32 :=
  match lanesOf w with
  | [] => foldIdentity op
  | l :: r => r.foldl (fun acc k => foldOp op acc (x.lane k)) (x.lane l)

/-- redux, the register form (R349). -/
def execRedux (h : LHdr) (op : FoldOp) (d : VReg) (a : Src) (s : State) : Host.Outcome State Fault Refusal :=
  runAlu h (fun c => do
    privSources c [a]
    let x ← readSrc c a
    let r := foldLanes op x c.w
    aluEnd c h [a] [(d, resultTag [x] fun _ => r)]) s

/-- redux, the queue form (R349). -/
def execReduxLq (h : LHdr) (op : FoldOp) (a : Src) (s : State) : Host.Outcome State Fault Refusal :=
  runAlu h (fun c => do
    privSources c [a]
    let x ← readSrc c a
    pushLq [(foldLanes op x c.w).setWidth 64]
    decSources [a] []
    return none) s

/-- The prefixes of a fold, lane by lane (R350): with `.excl` a lane's result leaves its own value out. -/
def scanLanes (op : FoldOp) (excl : Bool) (x : Tag) : Option W32 → List Nat → AList W32
  | _, [] => []
  | acc, l :: r =>
    let next := match acc with | none => x.lane l | some v => foldOp op v (x.lane l)
    (l, if excl then acc.getD (foldIdentity op) else next) :: scanLanes op excl x (some next) r

/-- scan (R350): scan.add of a uniform value over all lanes is affine, every other result general. -/
def execScan (h : LHdr) (op : FoldOp) (excl : Bool) (d : VReg) (a : Src) (s : State) : Host.Outcome State Fault Refusal :=
  runAlu h (fun c => do
    privSources c [a]
    let x ← readSrc c a
    let t : Tag :=
      match op, x with
      | .add, .uniform u => .affine (if excl then 0#32 else u) u
      | _, _ => .released
    let general := Tag.ofLanes fun l => (aget (scanLanes op excl x none (lanesOf c.w)) l).getD 0#32
    aluEnd c h [a] [(d, if c.w = allLanes ∧ t ≠ .released then t else general)]) s

end Sys2Proof.Machine
end

