-- ==== Sys2Proof/Machine/LaneCtrl.lean ====
section
/-! DEFINITION. The control of fragments, OP 0x10 (R125 to R130, R385). -/

namespace Sys2Proof.Machine

/-- The target of lbr, ljmp and mark (R298, R385). -/
def laneTarget (pc : W64) (i : BitVec 21) : W64 := pc + 12 * sext64 i

/-- The fragment that runs next, in an ordered launch (R110). -/
def runNext (k : Nat) : M Unit := modHere fun g => { g with running := some k }

/-- lbr (R126, R385): none, all, or some of the active lanes branch; the last splits the fragment, and in an ordered launch the half of
the higher rank runs on (R110). -/
def execLbr (h : LHdr) (inv : Bool) (a : PReg) (i : BitVec 21) (s : State) : Host.Outcome State Fault Refusal :=
  runTurn h (fun c => do
    let p ← readPred a
    let t : LaneMask := c.w &&& (if inv then ~~~p else p)
    let target := laneTarget c.frag.pc i
    if t = 0#96 then
      nextLane c.fid
      runNext c.fid
    else if t = c.frag.mask then
      modFrag c.fid fun f => { f with pc := target }
      runNext c.fid
    else
      let n ← orTrap (afree (← hereG).frags 8 0) .splitOverflow
      let stay := { c.frag with pc := c.frag.pc + 12, mask := c.frag.mask &&& ~~~t, span := c.frag.span &&& ~~~t }
      let go := { c.frag with pc := target, mask := t, span := t }
      modHere fun g => { g with frags := aset (aset g.frags c.fid stay) n go }
      runNext (if rankLt (fragRank n go) (fragRank c.fid stay) then n else c.fid)) s

/-- ljmp (R385). -/
def execLjmp (i : BitVec 21) (s : State) : Host.Outcome State Fault Refusal :=
  runCtl noGuard (fun c => modFrag c.fid fun f => { f with pc := laneTarget f.pc i }) s

/-- mark (R127, R385). -/
def execMark (i : BitVec 21) (s : State) : Host.Outcome State Fault Refusal :=
  runCtl noGuard (fun c => do
    let f := c.frag
    let n ← orTrap (afree (← hereG).frames 16 0) .stackOverflow
    modHere fun g => { g with
      frames := aset g.frames n { rejoin := laneTarget f.pc i, mask := f.mask, span := f.span, fmtr := f.fmtr, link := f.frame },
      frags := aset g.frags c.fid { f with pc := f.pc + 12, span := f.mask, frame := some n } }) s

/-- The union of the spans of some fragments. -/
def spanUnion (l : AList Fragment) : LaneMask := l.foldl (fun m e => m ||| e.2.span) 0#96

/-- When every lane of a frame has arrived at its join, the waiting fragments become one and the frame goes (R128). -/
def Group.tryJoin (g : Group) (n : Nat) (fr : Frame) : Group :=
  let here (f : Fragment) : Bool := f.frame == some n && f.wait == .join
  let waiting := g.frags.filter fun e => here e.2
  match waiting with
  | [] => g
  | (k, f) :: _ =>
    if spanUnion waiting = fr.mask then
      { g with frames := adel g.frames n,
               frags := aset (g.frags.filter fun e => !here e.2) k
                 { f with pc := fr.rejoin + 12, mask := fr.mask, span := fr.span, fmtr := fr.fmtr, frame := fr.link, wait := .none } }
    else g

/-- join (R128). In an ordered launch the next fragment in rank runs (R110). -/
def execJoin (s : State) : Host.Outcome State Fault Refusal :=
  runTurn noGuard (fun c => do
    let g ← hereG
    let n ← orTrap c.frag.frame .joinUnmatched
    let fr ← orTrap (aget g.frames n) .joinUnmatched
    unlessTrap (fr.rejoin == c.frag.pc) .joinUnmatched
    modFrag c.fid fun f => { f with wait := .join }
    modHere fun g => { g.tryJoin n fr with running := none }) s

/-- lend (R129). In an ordered launch the turn passes back to the scalar stream (R110). -/
def execLend (s : State) : Host.Outcome State Fault Refusal :=
  runTurn noGuard (fun c => do
    unlessTrap (c.frag.frame.isNone && c.frag.handler.isNone) .lendUnbalanced
    modHere fun g => { g with frags := adel g.frags c.fid, laneTurn := false, running := none }) s

/-- lfmt (R130, R385). -/
def execLfmt (i : W16) (s : State) : Host.Outcome State Fault Refusal :=
  runLane noGuard (fun c => do
    unlessTrap (fmtrValid (zext64 i)) .fmtInvalid
    modFrag c.fid fun f => { f with fmtr := zext64 i }) s

/-- Word `n` of a mask (R125). -/
def maskWord (m : LaneMask) (n : Nat) : W32 := m.extractLsb' (32 * n) 32

/-- A mask with word `n` replaced. -/
def setMaskWord (m : LaneMask) (n : Nat) (w : W32) : LaneMask :=
  (m &&& ~~~((BitVec.allOnes 32).setWidth 96 <<< (32 * n))) ||| (w.setWidth 96 <<< (32 * n))

/-- mkrd (R125, R385). -/
def execMkrd (cc : BitVec 3) (n : BitVec 2) (d : VReg) (s : State) : Host.Outcome State Fault Refusal :=
  runLane noGuard (fun c => writeRegs c cc.toNat [(d, .uniform (maskWord c.frag.mask n.toNat))]) s

/-- mkwr (R125, R385). -/
def execMkwr (n : BitVec 2) (a : Src) (s : State) : Host.Outcome State Fault Refusal :=
  runLane noGuard (fun c => do
    privSources c [a]
    let w ← readUniform c a
    decSources [a] []
    modFrag c.fid fun f => { f with mask := setMaskWord f.mask n.toNat w &&& f.span }) s

end Sys2Proof.Machine
end

