-- ==== Sys2Proof/Machine/LaneMem.lean ====
section
/-! DEFINITION. Lane memory instructions and atomics, OP 0x14 to 0x1D (R353 to R363). -/

namespace Sys2Proof.Machine

/-! ## Addresses (R353, R354) -/

/-- The addresses of a memory instruction, lane by lane, and whether one address serves every lane. -/
structure LaneAddr where
  at_  : Nat → W64
  unif : Bool

/-- A register of an address, which some forms require to be uniform. -/
def readAddrReg (c : LaneCtx) (needUnif : Bool) (a : Src) : M Tag := do
  if needUnif then return .uniform (← readUniform c a) else readSrc c a

/-- The device addresses of the lanes (R353). -/
def readAddr (c : LaneCtx) (needUnif a64 : Bool) (a : Src) (i : BitVec 21) : M LaneAddr := do
  let lo ← readAddrReg c needUnif a
  if a64 then
    let hi ← readUniform c (Src.nth a 1)
    return { at_ := fun l => (hi ++ lo.lane l) + sext64 i, unif := lo.isUniform }
  else return { at_ := fun l => zext64 (lo.lane l) + sext64 i, unif := lo.isUniform }

/-- The scratch offsets of the lanes (R353). -/
def readOff (c : LaneCtx) (a : Src) (i : BitVec 21) : M LaneAddr := do
  let x ← readSrc c a
  return { at_ := fun l => zext64 (x.lane l + i.signExtend 32), unif := x.isUniform }

/-- The registers that an address operand names. -/
def addrNames (a64 : Bool) (a : Src) : List Src := groupOf a (if a64 then 2 else 1)

/-- TRAP(MISALIGNED) for the lowest lane of W whose address is not a multiple of `n` (R355). -/
def needAligned (c : LaneCtx) (x : LaneAddr) (n : Nat) : M Unit :=
  match (lanesOf c.w).find? fun l => (x.at_ l).toNat % n != 0 with
  | some l => trapAt .misaligned (some l) 0 (x.at_ l)
  | none => pure ()

/-- The lanes that make an access of their own: every lane of W, or one where one address serves them all (R356). -/
def accLanes (c : LaneCtx) (x : LaneAddr) : List Nat := if x.unif && c.w == allLanes then [0] else lanesOf c.w

/-- One read delivers a uniform result (R356). -/
def oneRead (c : LaneCtx) (x : LaneAddr) : Bool := x.unif && c.w == allLanes

/-- The physical addresses of some lanes, from the lowest (R234, R355). -/
def xlateLanes (c : LaneCtx) (x : LaneAddr) (nd : Need) : List Nat → M (List (Nat × Nat))
  | [] => pure []
  | l :: r => do
    let pa ← xlateVA c.frag.mode (some l) (x.at_ l).toNat nd
    let rest ← xlateLanes c x nd r
    return (l, pa) :: rest

/-- The parts of a device access. -/
def deviceItems (ps : List (Nat × Nat)) (n : Nat) (data cmp : Nat → List Byte) : List LaneAcc :=
  ps.map fun p => { lane := p.1, addr := p.2, live := true, size := n, data := data p.1, cmp := cmp p.1 }

/-- The parts of a scratch access: a lane that reaches beyond the range `size` touches nothing (R354). -/
def scratchItems (range : Nat) (x : LaneAddr) (ls : List Nat) (n : Nat) (data cmp : Nat → List Byte) : List LaneAcc :=
  ls.map fun l =>
    { lane := l, addr := (x.at_ l).toNat, live := (x.at_ l).toNat + n ≤ range, size := n, data := data l, cmp := cmp l }

/-- No bytes. -/
def noData (_ : Nat) : List Byte := []

/-- The low `n` bytes of the words of a register group, in a lane (R358). -/
def groupBytes (ts : List Tag) (n : Nat) (l : Nat) : List Byte := ((ts.map fun t => leBytes 4 (t.lane l).toNat).flatten).take n

/-! ## Ordered operations (R107, R111, R357) -/

/-- An access marked .ord in an ordered launch waits for its turn and is performed at once. -/
def ordTurn (i : Instr) (m : MemMod) : M Bool := do
  if (← isOrdered) && m.ord && (m.scope == .clu || m.scope == .dev) then
    awaitTurn i false []
    return true
  else return false

/-- Whether an atomic's final value does not depend on order: an integer reduction returning nothing (R111, R360). -/
def plainReduction (op : AtomOp) (ret : Bool) : Bool :=
  !ret && match op with
    | .add | .and | .or | .xor | .min | .max | .minu | .maxu => true
    | .xchg | .cas | .fadd | .fmin | .fmax => false

/-- The scope check of an atomic in an ordered launch (R111). -/
def atomScope (reduction : Bool) (sc : Scope) : M Unit := do
  if (← isOrdered) && !reduction && !(sc == .grp || sc == .team) then trap .orderedScope else pure ()

/-- An ordered atomic waits for its turn in its team (R107, R108). -/
def atomTurn (i : Instr) (reduction : Bool) : M Bool := do
  if (← isOrdered) && !reduction then
    awaitTurn i true []
    return true
  else return false

/-! ## The common end (R355) -/

/-- An access with the fields of MOD. -/
def modAccess (c : LaneCtx) (m : MemMod) (p : Path) (scratch : Bool) (k : AccKind) (items : List LaneAcc) : M Access := do
  let g ← hereG
  return { newAccess k with path := some p, scratch := scratch, scope := m.scope, order := m.order, promote := m.promote,
                            active := c.w, items := items, shadow := g.proposal && c.frag.mode == .user }

/-- The destination takes its shape, slot and count, the sources are decremented, and the access is issued (R355, R356). -/
def issueLane (c : LaneCtx) (now : Bool) (cc : Nat) (dests : List VReg) (unif : Bool) (names : List Src) (a : Access) : M Unit := do
  writeRegs c cc (dests.map fun d => (d, if unif then .uniform 0#32 else Tag.ofLanes fun _ => 0#32))
  decSources names (writtenBy c dests)
  issueAccess now a

/-! ## ld, st, lds, sts (R358) -/

/-- ld. -/
def execLaneLd (h : LHdr) (m : MemMod) (a64 : Bool) (w : LdWidth) (d : VReg) (a : Src) (i : BitVec 21) (s : State) :
    Host.Outcome State Fault Refusal :=
  runLane h (fun c => do
    privSources c [a]
    let x ← readAddr c false a64 a i
    needAligned c x (ldBytes w)
    let ps ← xlateLanes c x needR (accLanes c x)
    let now ← ordTurn (.laneLd h m a64 w d a i) m
    let acc ← modAccess c m .ld false (.load w d (oneRead c x)) (deviceItems ps (ldBytes w) noData noData)
    issueLane c now h.cc.toNat (regsFrom d (ldCount w)) (oneRead c x) (addrNames a64 a) acc) s

/-- The data of a store of a width: a single register, or a group. -/
def storeNames (w : StWidth) (b : Src) : List Src :=
  match w with
  | .b64 => groupOf b 2
  | .b128 => groupOf b 4
  | _ => [b]

/-- st. -/
def execLaneSt (h : LHdr) (m : MemMod) (a64 : Bool) (w : StWidth) (a b : Src) (i : BitVec 21) (s : State) :
    Host.Outcome State Fault Refusal :=
  runLane h (fun c => do
    privSources c [a, b]
    let x ← readAddr c false a64 a i
    let ts ← readSrcs c (storeNames w b)
    needAligned c x (stBytes w)
    let ps ← xlateLanes c x needW (lanesOf c.w)
    let now ← ordTurn (.laneSt h m a64 w a b i) m
    let acc ← modAccess c m .st false .store (deviceItems ps (stBytes w) (groupBytes ts (stBytes w)) noData)
    issueLane c now 0 [] false (addrNames a64 a ++ storeNames w b) acc) s

/-- lds. -/
def execLaneLds (h : LHdr) (m : MemMod) (w : LdWidth) (d : VReg) (a : Src) (i : BitVec 21) (s : State) :
    Host.Outcome State Fault Refusal :=
  runLane h (fun c => do
    privSources c [a]
    let x ← readOff c a i
    needAligned c x (ldBytes w)
    let t ← hereT
    let acc ← modAccess c m .sx true (.load w d (oneRead c x))
      (scratchItems t.scratchBytes x (accLanes c x) (ldBytes w) noData noData)
    issueLane c false h.cc.toNat (regsFrom d (ldCount w)) (oneRead c x) [a] acc) s

/-- sts. -/
def execSts (h : LHdr) (m : MemMod) (w : StWidth) (a b : Src) (i : BitVec 21) (s : State) : Host.Outcome State Fault Refusal :=
  runLane h (fun c => do
    privSources c [a, b]
    let x ← readOff c a i
    let ts ← readSrcs c (storeNames w b)
    needAligned c x (stBytes w)
    let t ← hereT
    let acc ← modAccess c m .sx true .store
      (scratchItems t.scratchBytes x (lanesOf c.w) (stBytes w) (groupBytes ts (stBytes w)) noData)
    issueLane c false 0 [] false (a :: storeNames w b) acc) s

/-! ## atom, atoms, smaxpk (R360 to R362) -/

/-- The registers that an operand of an atomic names. -/
def atomNames (w64 : Bool) (b : Src) : List Src := groupOf b (if w64 then 2 else 1)

/-- The operands after the address: b, and c for cas. -/
def atomOperands (w64 : Bool) (op : AtomOp) (b e : Src) : List Src :=
  atomNames w64 b ++ (if op = .cas then atomNames w64 e else [])

/-- Bytes of an atomic operation. -/
def atomSize (w64 : Bool) : Nat := if w64 then 8 else 4

/-- atom. -/
def execAtom (h : LHdr) (m : MemMod) (a64 ret w64 : Bool) (op : AtomOp) (d : VReg) (a b e : Src) (i : BitVec 21) (s : State) :
    Host.Outcome State Fault Refusal :=
  runLane h (fun c => do
    privSources c [a, b, e]
    let n := atomSize w64
    let x ← readAddr c false a64 a i
    let bs ← readSrcs c (atomNames w64 b)
    let es ← readSrcs c (if op = .cas then atomNames w64 e else [])
    atomScope (plainReduction op ret) m.scope
    needAligned c x n
    let ps ← xlateLanes c x needRW (lanesOf c.w)
    let now ← atomTurn (.atom h m a64 ret w64 op d a b e i) (plainReduction op ret)
    let acc ← modAccess c m (if ret then .ld else .st) false (.atom op w64 ret d) (deviceItems ps n (groupBytes bs n) (groupBytes es n))
    issueLane c now h.cc.toNat (if ret then regsFrom d (if w64 then 2 else 1) else []) false
      (addrNames a64 a ++ atomOperands w64 op b e) acc) s

/-- atoms. -/
def execAtoms (h : LHdr) (m : MemMod) (ret w64 : Bool) (op : AtomOp) (d : VReg) (a b e : Src) (i : BitVec 21) (s : State) :
    Host.Outcome State Fault Refusal :=
  runLane h (fun c => do
    privSources c [a, b, e]
    let n := atomSize w64
    let x ← readOff c a i
    let bs ← readSrcs c (atomNames w64 b)
    let es ← readSrcs c (if op = .cas then atomNames w64 e else [])
    needAligned c x n
    let now ← atomTurn (.atoms h m ret w64 op d a b e i) (plainReduction op ret)
    let t ← hereT
    let acc ← modAccess c m .sx true (.atom op w64 ret d)
      (scratchItems t.scratchBytes x (lanesOf c.w) n (groupBytes bs n) (groupBytes es n))
    issueLane c now h.cc.toNat (if ret then regsFrom d (if w64 then 2 else 1) else []) false
      (a :: atomOperands w64 op b e) acc) s

/-- The word that smaxpk offers for a score and an expert (R264, R361). -/
def gateWord (score expert : W32) : Nat := (gateKey score).toNat * 2 ^ 32 + (0xFFFFFFFF - expert.toNat)

/-- The launch has met a NaN score (R265). -/
def setGnan : M Unit := do
  let t ← hereT
  change fun s => match t.launch with
    | some l => s.updLaunch l fun l => { l with gnan := true }
    | none => s

/-- smaxpk. -/
def execSmaxpk (h : LHdr) (m : MemMod) (a64 ret : Bool) (d : VReg) (a b e : Src) (i : BitVec 21) (s : State) :
    Host.Outcome State Fault Refusal :=
  runLane h (fun c => do
    privSources c [a, b, e]
    let x ← readAddr c false a64 a i
    let y ← readSrc c b
    let z ← readSrc c e
    atomScope (!ret) m.scope
    needAligned c x 16
    let ps ← xlateLanes c x needRW (lanesOf c.w)
    let now ← atomTurn (.smaxpk h m a64 ret d a b e i) (!ret)
    if (lanesOf c.w).any fun l => isNan (y.lane l) then setGnan else pure ()
    let acc ← modAccess c m (if ret then .ld else .st) false (.smaxpk ret d)
      (deviceItems ps 16 (fun l => leBytes 8 (gateWord (y.lane l) (z.lane l))) noData)
    issueLane c now h.cc.toNat (if ret then regsFrom d 2 else []) false (addrNames a64 a ++ [b, e]) acc) s

/-! ## pst and pld (R359) -/

/-- The three words of a packed predicate, at a uniform address: their addresses. -/
def packedAddr (x : LaneAddr) (k : Nat) : W64 := x.at_ 0 + BitVec.ofNat 64 (4 * k)

/-- The physical addresses of the three words, none when W is empty. -/
def xlatePacked (c : LaneCtx) (x : LaneAddr) (nd : Need) : M (List (Nat × Nat)) := do
  match lowestLane c.w with
  | none => return []
  | some l =>
    let p0 ← xlateVA c.frag.mode (some l) (packedAddr x 0).toNat nd
    let p1 ← xlateVA c.frag.mode (some l) (packedAddr x 1).toNat nd
    let p2 ← xlateVA c.frag.mode (some l) (packedAddr x 2).toNat nd
    return [(0, p0), (1, p1), (2, p2)]

/-- pst. -/
def execPst (h : LHdr) (m : MemMod) (a64 each : Bool) (a : Src) (b : PReg) (i : BitVec 21) (s : State) :
    Host.Outcome State Fault Refusal :=
  runLane h (fun c => do
    privSources c [a]
    let x ← readAddr c (!each) a64 a i
    let p ← readPred b
    if each then pure () else needAligned c x 4
    let ps ← if each then xlateLanes c x needW (lanesOf c.w) else xlatePacked c x needW
    let now ← ordTurn (.pst h m a64 each a b i) m
    let data (l : Nat) : List Byte :=
      if each then [boolWord 8 (p.getLsbD l)] else leBytes 4 (maskWord96 (c.w &&& p) l).toNat
    let acc ← modAccess c m .st false .store (deviceItems ps (if each then 1 else 4) data noData)
    issueLane c now 0 [] false (addrNames a64 a) acc) s
where
  /-- Word `k` of 96 bits. -/
  maskWord96 (w : LaneMask) (k : Nat) : W32 := w.extractLsb' (32 * k) 32

/-- pld. -/
def execPld (h : LHdr) (m : MemMod) (a64 each : Bool) (d : PReg) (a : Src) (i : BitVec 21) (s : State) :
    Host.Outcome State Fault Refusal :=
  runLane h (fun c => do
    privSources c [a]
    let x ← readAddr c (!each) a64 a i
    if each then pure () else needAligned c x 4
    let ps ← if each then xlateLanes c x needR (lanesOf c.w) else xlatePacked c x needR
    let now ← ordTurn (.pld h m a64 each d a i) m
    need (!(← hereG).predBusy d)
    let acc ← modAccess c m .ld false (.pld d each) (deviceItems ps (if each then 1 else 4) noData noData)
    issueLane c now 0 [] false (addrNames a64 a) acc) s

/-! ## lfence (R363) -/

/-- lfence. -/
def execLfence (sc : Scope) (o : Order) (s : State) : Host.Outcome State Fault Refusal := runLane noGuard (fun _ => fenceOp sc o) s

/-! ## Returns (R158, R356) -/

/-- The access returns with a result, or is a klook or kread. -/
def Access.returns (a : Access) : Bool :=
  match a.kind with
  | .load _ _ _ | .pld _ _ | .deliver _ _ _ => true
  | .atom _ _ ret _ => ret
  | .smaxpk ret _ => ret
  | _ => false

/-- The access is a store, or an atomic that returns nothing. -/
def Access.stores (a : Access) : Bool :=
  match a.kind with
  | .store => true
  | .atom _ _ ret _ => !ret
  | .smaxpk ret _ => !ret
  | _ => false

/-- A lane ld, lds, pld, returning atomic, klook or kread returns (R158, R356). -/
def execMemoryAccessReturn (g : GRef) (id : Nat) (s : State) : Host.Outcome State Fault Refusal := performEvent g id Access.returns s

/-- A lane st, sts, pst or non-returning atomic is performed (R158). -/
def execStorePerformed (g : GRef) (id : Nat) (s : State) : Host.Outcome State Fault Refusal := performEvent g id Access.stores s

end Sys2Proof.Machine
end

