-- ==== Sys2Proof/Machine/Matrix.lean ====
section
/-! DEFINITION. Matrix multiply-accumulate, gangs, and the accumulators, OP 0x28 (R146, R235, R256 to R261, R375 to R384). -/

namespace Sys2Proof.Machine

/-! ## Formats (R256, R378, R379) -/

/-- The planes of an NP operand code; 0 for a float code. -/
def npPlanes (code : Nat) : Nat := if 2 ≤ code ∧ code ≤ 8 then code else 0

/-- The combination of FMTR's operand codes and kind is one that mma takes (R378). -/
def mmaLegal (f : W64) : Bool :=
  let a := fmtrA f
  let b := fmtrB f
  if fmtrAcck f then 0 < npPlanes a && 0 < npPlanes b else a ≤ 1 && b ≤ 1

/-- B registers of an mma (R378). -/
def mmaRegs (f : W64) : Nat := if fmtrAcck f then 3 * npPlanes (fmtrB f) else 24

/-- The parts of a row of A that are fetched, as (offset in the row, bytes) (R379). -/
def rowParts (f : W64) : List (Nat × Nat) :=
  if fmtrAcck f then [(0, 4 * npPlanes (fmtrA f)), (32, 4 * npPlanes (fmtrA f)), (64, 4 * npPlanes (fmtrA f))] else [(0, 96)]

/-- The float format of an operand code. -/
def floatFmt (code : Nat) : Fmt := if code = 0 then bf16 else fp16

/-- Byte `k` of a list. -/
def byteAt (bs : List Byte) (k : Nat) : Byte := bs.getD k 0#8

/-- An NP8 code whose plane `p` is `bit p`: plane 0 is bit 7, plane p bit 7 − p (R256). -/
def npCode (planes : Nat) (bit : Nat → Bool) : Byte :=
  (List.range planes).foldl (fun c p => if bit p then c ||| (1#8 <<< (7 - p)) else c) 0#8

/-- Element `j` of a fetched row of A, NP: block `j / 32` holds its planes in `4 × ka` bytes (R256, R379). -/
def rowNp (ka : Nat) (row : List Byte) (j : Nat) : Int :=
  npVal (npCode ka fun p => (byteAt row (4 * ka * (j / 32) + 4 * p + j % 32 / 8)).getLsbD (j % 8)) ka

/-- Element `j` of a fetched row of A, float. -/
def rowFloat (code : Nat) (row : List Byte) (j : Nat) : FVal := (floatFmt code).read (fieldAt row (2 * j) 2)

/-- Element `j` of a column of B, NP (R379). -/
def colNp (kb : Nat) (col : List W32) (j : Nat) : Int :=
  npVal (npCode kb fun p => (col.getD (kb * (j / 32) + p) 0#32).getLsbD (j % 32)) kb

/-- Element `j` of a column of B, float. -/
def colFloat (code : Nat) (col : List W32) (j : Nat) : FVal :=
  (floatFmt code).read ((col.getD (j / 2) 0#32).toNat / 2 ^ (16 * (j % 2)) % 2 ^ 16)

/-- The new word of one element, and whether it was clamped (R259, R260). -/
def mmaElement (f : W64) (row : List Byte) (col : List W32) (c : W32) : W32 × Bool :=
  if fmtrAcck f then
    mmaInt c ((List.range 96).map fun j => rowNp (npPlanes (fmtrA f)) row j * colNp (npPlanes (fmtrB f)) col j).sum
  else
    (mmaFloat c ((List.range 48).map fun j => mulVal (rowFloat (fmtrA f) row j) (colFloat (fmtrB f) col j)), false)

/-! ## Accumulators (R375) -/

/-- Word (row, column). -/
def Acc.word (a : Acc) (r c : Nat) : W32 := (aget a.words (96 * r + c)).getD 0#32

/-- The accumulator with a word replaced; a word of 0 has no entry. -/
def Acc.setWord (a : Acc) (r c : Nat) (w : W32) : Acc :=
  { a with words := if w = 0#32 then adel a.words (96 * r + c) else aset a.words (96 * r + c) w }

/-- One element updated. -/
def Acc.step (a : Acc) (f : W64) (row : List Byte) (r : Nat) (col : Nat × List W32) : Acc :=
  let x := mmaElement f row col.2 (a.word r col.1)
  { a.setWord r col.1 x.1 with sat := a.sat || x.2 }

/-- The rows of the fetched bytes. -/
def rowsOf (n : Nat) (bs : List Byte) : List (List Byte) := (List.range 64).map fun r => (bs.drop (n * r)).take n

/-- The update of an mma (R380): every written column of every row, the kind and the version. With no A fetched no word changes. -/
def Acc.mma (a : Acc) (f : W64) (bytes : List Byte) (cols : List (Nat × List W32)) : Acc :=
  let n := ((rowParts f).map (·.2)).sum
  let rows := (List.range 64).zip (rowsOf n bytes)
  let a := if bytes.isEmpty then a
    else rows.foldl (fun a r => cols.foldl (fun a col => a.step f r.2 r.1 col) a) a
  { a with int := fmtrAcck f, version := a.version + 1 }

/-- The team with an accumulator replaced. -/
def Team.setAcc (t : Team) (n : Nat) (a : Acc) : Team := { t with accs := t.accs.set n a }

/-- The accumulator an instruction names, or TRAP(ACC_RANGE). -/
def needAcc (n : Nat) : M Acc := do orTrap ((← hereT).accs[n]?) .accRange

/-! ## Issue of mma (R380) -/

/-- The checks of mma before it reads anything (R379, R380). -/
def mmaChecks (f : W64) (b : BitVec 11) (acc : Nat) : M Unit := do
  let _ ← needAcc acc
  unlessTrap (mmaLegal f) .mmaFormat
  unlessTrap (!b.getLsbD 10 && b.toNat + mmaRegs f ≤ 1024) .illegalOperand

/-- The registers an mma names: the pair and the run. -/
def mmaNames (f : W64) (a : VReg) (b : BitVec 11) : List VReg := regsFrom a 2 ++ regsFrom (b.setWidth 10) (mmaRegs f)

/-- The operands of an mma read: the A address, and each written lane's column of B. The registers named are decremented (R380). -/
def mmaRead (c : LaneCtx) (a : VReg) (b : BitVec 11) : M (W64 × List (Nat × List W32)) := do
  let f := c.frag.fmtr
  let ea ← readUniformPair c (.v a)
  let ts ← readSrcs c ((regsFrom (b.setWidth 10) (mmaRegs f)).map .v)
  decSources ((mmaNames f a b).map .v) []
  return (ea, (lanesOf c.w).map fun l => (l, ts.map fun t => t.lane l))

/-- The physical addresses of the A bytes, row by row (R169, R379). -/
def mmaRows (mode : Mode) (f : W64) (ea : W64) : List Nat → M (List Nat)
  | [] => pure []
  | r :: rest => do
    let start := (ea + BitVec.ofNat 64 (96 * r)).toNat
    let last := ((rowParts f).map fun p => p.1 + p.2).foldl max 0
    if start < 2 ^ 48 ∧ 2 ^ 48 < start + last then stop (.trap (xlateTrap none 7 start)) else pure ()
    let ps ← mmaParts start (rowParts f)
    let qs ← mmaRows mode f ea rest
    return ps ++ qs
where
  /-- The parts of one row. -/
  mmaParts (start : Nat) : List (Nat × Nat) → M (List Nat)
    | [] => pure []
    | (o, n) :: rest => do
      let p ← xlateBytes mode none (start + o) n needR
      let q ← mmaParts start rest
      return p ++ q

/-- The A tile fetched as a plain read at group scope (R235, R380). -/
def mmaFetch (c : LaneCtx) (f : W64) (ea : W64) : M (List Byte) := do
  if ea.toNat % 128 ≠ 0 then trapAt .misaligned none 0 ea else pure ()
  let addrs ← mmaRows c.frag.mode f ea (List.range 64)
  readNow addrs

/-- An mma that has its operands waits for its turn at its accumulator. -/
def mmaIssue (c : LaneCtx) (acc : Nat) (cols : List (Nat × List W32)) (bytes : List Byte) (after : Option (Nat × Nat)) : M Unit :=
  pushAccess { newAccess (.mma acc c.frag.fmtr cols after) with
    active := c.w, items := [{ lane := 0, addr := 0, live := false, size := 0, data := bytes, cmp := [] }] }

/-- A ganged mma of a latch is still to be paired or replayed: its fragment stands at it (R146). -/
def latchLive (t : Team) (e : Nat × Nat × W64) : Bool :=
  (aget t.groups e.1).any fun g => (aget g.frags e.2.1).any fun f => f.pc == e.2.2

/-- The ganged mma of a latch with one that a fragment of a group issues: one that it issues again after a fault keeps its place (R146). -/
def latchEnter (t : Team) (l : List (Nat × Nat × W64)) (e : Nat × Nat × W64) : List (Nat × Nat × W64) :=
  if l.contains e then l else (l.filter fun x => latchLive t x && !(x.1 == e.1 && x.2.1 == e.2.1)) ++ [e]

/-- The fragment waits at its gang's rendezvous latch, its run ended (R146, R147, R382). An mma that names a register which another waiting mma
of the group has still to read does not come so far: it stalls until that one has paired (R382). -/
def gangWait (c : LaneCtx) (h : LHdr) (a : VReg) (b : BitVec 11) (acc : BitVec 4) : M Unit := do
  let r ← here
  let g ← hereG
  let n := gangNum g.gang
  need ((mmaNames c.frag.fmtr a b).all fun v => !g.stillNamed c.fid v)
  modTeam r.team fun t => { t with latches := aset t.latches n (latchEnter t ((aget t.latches n).getD []) (r.group, c.fid, c.frag.pc)) }
  modHere fun g => { g.waitAt c.fid (.mma h a b acc) (mmaNames c.frag.fmtr a b) with run := none }
  modFrag c.fid fun f => { f with wait := .rendezvous }
  change fun s => s.strandCheck r.team
  hold

/-- mma (R380). -/
def execMma (h : LHdr) (a : VReg) (b : BitVec 11) (acc : BitVec 4) (s : State) : Host.Outcome State Fault Refusal :=
  runLane h (fun c => do
    mmaChecks c.frag.fmtr b acc.toNat
    if gangSize (← hereG).gang != 0 then gangWait c h a b acc
    else
      let (ea, cols) ← mmaRead c a b
      let bytes ← if c.w = 0#96 then pure [] else mmaFetch c c.frag.fmtr ea
      mmaIssue c acc.toNat cols bytes none) s

/-! ## The rendezvous (R146, R382) -/

/-- A member of a gang at the pairing: where it waits, and its mma's fields. -/
structure Member where
  ref  : GRef
  ctx  : LaneCtx
  h    : LHdr
  a    : VReg
  b    : BitVec 11
  acc  : BitVec 4

/-- The earliest ganged mma of group `i` in a latch, as a member; one that has faulted and is not yet issued again keeps its gang waiting. -/
def gangMember (s : State) (k : Nat) (t : Team) (latch : List (Nat × Nat × W64)) (i : Nat) : Option Member :=
  match latch.find? fun e => e.1 == i && latchLive t e with
  | none => none
  | some (_, fid, _) =>
    let ref : GRef := { team := k, group := i }
    match s.group? ref with
    | none => none
    | some g =>
      match aget g.frags fid, aget g.waiting fid with
      | some f, some (.mma h a b acc, _) =>
        let guard := if h.pn then ~~~(g.pred h.pr) else g.pred h.pr
        if f.parkedBy.isNone && !g.predBusy h.pr then
          some { ref := ref, ctx := { fid := fid, frag := f, w := f.mask &&& guard }, h := h, a := a, b := b, acc := acc }
        else none
      | _, _ => none

/-- Every member, by ascending GINDEX, once the gang is whole and each has a ganged mma waiting. -/
def gangReady (s : State) (k : Nat) (t : Team) (n : Nat) : Option (List Member) :=
  let m := t.gangMembers n
  match m with
  | [] => none
  | (_, g) :: _ =>
    if m.length = gangSize g.gang then
      (List.range m.length).mapM fun i =>
        (m.find? fun e => gangIndex e.2.gang == i).bind fun e => gangMember s k t ((aget t.latches n).getD []) e.1
    else none

/-- Run a piece of a meaning on a member's stream. -/
def onMember {α : Type} (m : Member) (x : M α) : M α := do
  change fun s => { s with focus := m.ref, stream := .lane m.ctx.fid }
  x

/-- How the pairing of a gang ends: every member's mma issued, or one member's trap, in which no other takes part. -/
inductive Pairing where
  | done (s : State)
  | wait
  | trap (m : Member) (i : TrapInfo)
  | fault (f : Fault)

/-- The members' operands read, one after another; each other member's AFMT must be the leader's (R382). -/
def pairRead (lead : W64) : List Member → State → Pairing × List (W64 × List (Nat × List W32))
  | [], s => (.done s, [])
  | m :: r, s =>
    match onMember m (do
        unlessTrap (fmtrA m.ctx.frag.fmtr == fmtrA lead) .mmaFormat
        mmaRead m.ctx m.a m.b) s with
    | .ok (x, s') =>
      let y := pairRead lead r s'
      (y.1, x :: y.2)
    | .error (.trap i) => (.trap m i, [])
    | .error (.keep _ i) => (.trap m i, [])
    | .error (.fault f) => (.fault f, [])
    | .error _ => (.wait, [])

/-- The last update of a list of members' updates at an accumulator, as (group, access). -/
def lastAt (l : List (Nat × Nat × Nat)) (acc : Nat) : Option (Nat × Nat) := (l.find? fun e => e.1 == acc).map (·.2)

/-- Each member's mma issued with the bytes of A, its RCOUNT raised, and its fragment going on. `prior` holds the updates already
issued, newest first. -/
def pairIssue (bytes : List Byte) : List (Member × List (Nat × List W32)) → List (Nat × Nat × Nat) → M Unit
  | [], _ => pure ()
  | (m, cols) :: r, prior => do
    onMember m do
      let id := (← hereG).nextId
      mmaIssue m.ctx m.acc.toNat cols bytes (lastAt prior m.acc.toNat)
      modHere fun g => { g with gang := (g.gang &&& 0x3F#64) ||| ((g.gang + 0x100#64) &&& 0xFF00#64) }
      modFrag m.ctx.fid fun f => { f with wait := .none, pc := f.pc + 12 }
      change fun s => s.retireLane s.focus m.ctx.fid (m.ctx.frag.mode == Mode.user) false none
      pairIssue bytes r ((m.acc.toNat, m.ref.group, id) :: prior)

/-- The whole pairing (R146, R382). -/
def pairGang (ms : List Member) (s : State) : Pairing :=
  match ms with
  | [] => .wait
  | lead :: _ =>
    match pairRead lead.ctx.frag.fmtr ms s with
    | (.done s1, xs) =>
      let need := ms.any fun m => m.ctx.w != 0#96
      let ea := (xs.head?.map (·.1)).getD 0#64
      match onMember lead (if need then mmaFetch lead.ctx lead.ctx.frag.fmtr ea else pure []) s1 with
      | .ok (bytes, s2) =>
        match pairIssue bytes (ms.zip (xs.map (·.2))) [] s2 with
        | .ok (_, s3) => .done s3
        | .error _ => .wait
      | .error (.trap i) => .trap lead i
      | .error (.keep _ i) => .trap lead i
      | .error (.fault f) => .fault f
      | .error _ => .wait
    | (p, _) => p

/-- The members' places in the latch go. -/
def clearLatch (t : Team) (n : Nat) (gone : List (Nat × Nat)) : Team :=
  match ((aget t.latches n).getD []).filter fun e => !gone.contains (e.1, e.2.1) with
  | [] => { t with latches := adel t.latches n }
  | l => { t with latches := aset t.latches n l }

/-- A gang pairs (R146, R382): each member's earliest waiting mma issues, or the member that faults takes its trap, at the boundary of any
latch run of its group, while the others go on waiting. A halt keeps a gang with a member in user mode from pairing (R232). -/
def execGangRendezvous (team gang : Nat) (s : State) : Host.Outcome State Fault Refusal :=
  match s.team? team with
  | none => .next s
  | some t =>
    if t.ended then .next s
    else
      match gangReady s team t gang with
      | none => .next s
      | some ms =>
        if t.halt.isSome && ms.any (fun m => m.ctx.frag.mode == .user) then .next s
        else
        match pairGang ms s with
        | .done s' =>
          .next { s'.updTeam team fun t => clearLatch t gang (ms.map fun m => (m.ref.group, m.ctx.fid)) with
                  focus := s.focus, stream := s.stream }
        | .wait => .next s
        | .trap m i =>
          if (s.group? m.ref).any fun g => inLatchRun s t g then .next s
          else
            let s := s.updGroup m.ref fun g => { g with frags := aupd g.frags m.ctx.fid fun f => { f with wait := .none },
                                                        waiting := adel g.waiting m.ctx.fid }
            .next (s.takeLaneTrap m.ref m.ctx.fid i)
        | .fault f => .fault f

/-- The update of an issued mma at its accumulator (R380, R382). -/
def execMmaUpdate (r : GRef) (id : Nat) (s : State) : Host.Outcome State Fault Refusal :=
  runEvent (do
    let t ← getTeam r.team
    let g ← getGroup r
    let x ← must (g.ready id)
    match x.kind with
    | .mma n f cols after =>
      need (match after with
        | some (k, j) => ((s.group? { team := r.team, group := k }).bind fun g => g.accesses.find? fun a => a.id == j && !a.done).isNone
        | none => true)
      let a ← must t.accs[n]?
      modTeam r.team fun t => t.setAcc n (a.mma f ((x.items.map (·.data)).flatten) cols)
      modGroup r fun g => { g with accesses := markDone id g.accesses }
    | _ => stall) s

/-! ## Access to accumulators (R376, R377, R383, R384) -/

/-- An operation on an accumulator may be performed now: no acquire and no mma on it are outstanding. -/
def needAccTurn (n : Nat) : M Unit := do
  let g ← hereG
  need (g.noAcquire && g.accFree n)

/-- TRAP(ACC_RANGE) for the lowest lane of W whose row is neither 0 to 63 nor the status row 64. -/
def needRows (c : LaneCtx) (x : Tag) : M Unit :=
  match (lanesOf c.w).find? fun l => 64 < (x.lane l).toNat with
  | some l => trapAt .accRange (some l) 0 0
  | none => pure ()

/-- accrd (R383). -/
def execAccrd (h : LHdr) (d : VReg) (a : Src) (acc : BitVec 4) (s : State) : Host.Outcome State Fault Refusal :=
  runLane h (fun c => do
    privSources c [a]
    let y ← needAcc acc.toNat
    let x ← readSrc c a
    needRows c x
    needAccTurn acc.toNat
    writeRegs c h.cc.toNat [(d, Tag.ofLanes fun l =>
      if (x.lane l).toNat = 64 then boolWord 32 y.sat else y.word (x.lane l).toNat l)]
    decSources [a] (writtenBy c [d])) s

/-- One lane of accwr. -/
def Acc.writeLane (a : Acc) (row x : W32) (l : Nat) : Acc :=
  if row.toNat = 64 then { a with sat := a.sat && !x.getLsbD 0 } else a.setWord row.toNat l x

/-- accwr (R383). -/
def execAccwr (h : LHdr) (a b : Src) (acc : BitVec 4) (s : State) : Host.Outcome State Fault Refusal :=
  runLane h (fun c => do
    privSources c [a, b]
    let y ← needAcc acc.toNat
    let x ← readSrc c a
    let v ← readSrc c b
    needRows c x
    needAccTurn acc.toNat
    let y := (lanesOf c.w).foldl (fun y l => y.writeLane (x.lane l) (v.lane l) l) y
    let r ← here
    modTeam r.team fun t => t.setAcc acc.toNat { y with version := y.version + 1, int := fmtrAcck c.frag.fmtr }
    decSources [a, b] []) s

/-- accver (R383). -/
def execAccver (h : LHdr) (d : VReg) (acc : BitVec 4) (s : State) : Host.Outcome State Fault Refusal :=
  runLane h (fun c => do
    let y ← needAcc acc.toNat
    needAccTurn acc.toNat
    writeRegs c h.cc.toNat [(d, .uniform (y.version.setWidth 32))]) s

/-- The words of one row that accst stores: their physical addresses, lane by lane (R169, R384). -/
def accstRow (c : LaneCtx) (start : Nat) : List Nat → M (List (Nat × Nat))
  | [] => pure []
  | l :: r => do
    let pa ← xlateVA c.frag.mode (some l) (start + 4 * l) needW
    let rest ← accstRow c start r
    return (l, pa) :: rest

/-- The same for the rows of a list. A row that reaches beyond the address space faults as a whole, at its first byte (R169). -/
def accstRows (c : LaneCtx) (et : W64) : List Nat → M (List (Nat × List (Nat × Nat)))
  | [] => pure []
  | r :: rest => do
    let start := (et + BitVec.ofNat 64 (384 * r)).toNat
    if c.w ≠ 0#96 ∧ 2 ^ 48 < start + 384 then stop (.trap (xlateTrap (lowestLane c.w) 7 start)) else pure ()
    let ps ← accstRow c start (lanesOf c.w)
    let qs ← accstRows c et rest
    return (r, ps) :: qs

/-- The physical addresses of `n` scale words from an address. -/
def scaleAddrs (c : LaneCtx) (e : W64) : Nat → Nat → M (List Nat)
  | _, 0 => pure []
  | k, n + 1 => do
    let p ← xlateBytes c.frag.mode none (e + BitVec.ofNat 64 (4 * k)).toNat 4 needR
    let q ← scaleAddrs c e (k + 1) n
    return p ++ q

/-- Scale word `k` of the bytes read. -/
def scaleWord (bs : List Byte) (k : Nat) : W32 := BitVec.ofNat 32 (fieldAt bs (4 * k) 4)

/-- The rows stored one after another. -/
def accstStores (r : GRef) (cl : Nat) (value : Nat → Nat → W32) (rows : List (Nat × List (Nat × Nat))) (s : State) : State :=
  rows.foldl (fun s row => s.putItems r cl false (row.2.map fun p =>
    { lane := p.1, addr := p.2, live := true, size := 4, data := leBytes 4 (value row.1 p.1).toNat, cmp := [] })) s

/-- accst (R261, R384). -/
def execAccst (h : LHdr) (t r e : VReg) (acc : BitVec 4) (s : State) : Host.Outcome State Fault Refusal :=
  runLane h (fun c => do
    let y ← needAcc acc.toNat
    let et ← readUniformPair c (.v t)
    let es ← readUniformPair c (.v r)
    let eu ← readUniformPair c (.v e)
    let sc := fmtrScale c.frag.fmtr
    let rows := sc.getLsbD 0
    let cols := sc.getLsbD 1
    if et.toNat % 128 ≠ 0 then trapAt .misaligned none 0 et else pure ()
    if rows ∧ es.toNat % 4 ≠ 0 then trapAt .misaligned none 0 es else pure ()
    if cols ∧ eu.toNat % 4 ≠ 0 then trapAt .misaligned none 0 eu else pure ()
    let ps ← accstRows c et (List.range 64)
    let ra ← if rows then scaleAddrs c es 0 64 else pure []
    let ca ← if cols then scaleAddrs c eu 0 96 else pure []
    needAccTurn acc.toNat
    let rb ← readNow ra
    let cb ← readNow ca
    needBytes ((ps.map fun p => (p.2.map fun q => (List.range 4).map (q.2 + ·)).flatten).flatten)
    let k ← hereT
    let ref ← here
    change (accstStores ref (clusterOf k.core) (fun row l => accstValue y.int sc (y.word row l) (scaleWord rb row) (scaleWord cb l)) ps)
    decSources ((regsFrom t 2 ++ regsFrom r 2 ++ regsFrom e 2).map .v) []) s

end Sys2Proof.Machine
end

