-- ==== Sys2Proof/Machine/Mgmt.lean ====
section
/-! DEFINITION. The signed commands of the management channel (R26, R27, R31 to R34, R64, R65). -/

namespace Sys2Proof.Machine

/-- A 64-byte record with SIGADDR replaced by zero (R64). -/
def unsignedRecord (bs : List Byte) : List Byte := bs.take 0x18 ++ leBytes 8 0 ++ (bs.take 64).drop 0x20

/-- The signature block that a record names (R64): none where it does not lie in the management window. -/
def State.signBlock (s : State) (bs : List Byte) : Option (List Byte) := s.ownRead none needR (fieldAt bs 0x18 8) 0x408

/-- The block's fields keep R64. -/
def signBlockOk (b : List Byte) : Bool := fieldAt b 0x200 1 < 2 && zeroAt b 0x201 7 && (fieldAt b 0x200 1 == 1 || zeroAt b 0x208 512)

/-- The signature of a block over a message verifies under the key that KEYSEL names (R31, R64). -/
def Root.signedBy (r : Root) (b msg : List Byte) : Bool :=
  let sig := b.take 512
  if fieldAt b 0x200 1 = 0 then
    let h := Config.imageHeader (if r.slot then r.flash.slotB else r.flash.slotA)
    keyMatches h.key r.fuses.vendorKey && signatureOk h.key msg sig
  else
    let n := (b.drop 0x208).take 512
    keyMatches n r.fuses.ownerKey && pssVerify (beNat n) 65537 msg sig

/-- The bytes whose digest a signed command's message ends with; none where they do not lie in the management window. -/
def State.signedData (s : State) (kind : Nat) (bs : List Byte) : Option (List Byte) :=
  match kind with
  | 0xC => s.ownRead none needR (fieldAt bs 0x28 8) (fieldAt bs 0x24 4)
  | 0xD => s.ownRead none needR (fieldAt bs 0x20 8) (fieldAt bs 0x28 8)
  | _ => some []

/-- A signed command (R64): its fields, then its signature, then `body` with KEYSEL and the data signed. The nonce is consumed
whatever comes of it. -/
def signedCommand (seq kind : Nat) (accepts fields dataOk : List Byte → Bool) (body : Cmd → Nat → List Byte → M Unit) : M Unit := do
  let q := QRef.mgmt
  let c ← beginCommand q seq fun bs => kindOf bs == kind && accepts bs
  let r ← look (·.root)
  let n ← freshFree
  change fun s => { s with root := { s.root with nonce := Config.nonce n } }
  if !(← look fun s => s.headerOk q c) || !fields c.bytes || fieldAt c.bytes 0x18 8 % 8 != 0 then endWith q seq stBadField 0
  else
    match ← look fun s => (s.signBlock c.bytes, s.signedData kind c.bytes) with
    | (some b, some data) =>
      let digest := if kind = 0xB then [] else shaBytes data
      if !signBlockOk b || !dataOk data then endWith q seq stBadField 0
      else if !r.signedBy b (unsignedRecord c.bytes ++ leBytes 64 r.nonce.toNat ++ digest) then endWith q seq stSignature 0
      else body c (fieldAt b 0x200 1) data
    | _ => endWith q seq stWindow 0

/-- The COMPLETE event is written, and the device resets (R65). While an earlier WAIT of the channel runs, the timeline has not reached the
command (R59), and the device resets without the event. Log entry 80. -/
def completeAndBoot (seq : Nat) (f : Root → Root) (cause : BitVec 4) (env : BootEnv) : M Unit := do
  endWith .mgmt seq stOk 0
  change fun s =>
    let s := s.flushEvents none
    { s with root := f s.root }.boot cause env

/-- RESET (R65). -/
def execReset (seq : Nat) (env : BootEnv) (s : State) : Host.Outcome State Fault Refusal :=
  runEvent (signedCommand seq 0xB (fun _ => true) (fun bs => zeroAt bs 0x20 32) (fun _ => true) fun _ key _ => do
    let lc ← look (·.root.fuses.lcstate)
    if key = 1 ∧ lc ≠ 2#2 then endWith .mgmt seq stSignature 0
    else completeAndBoot seq (fun r => r) 1#4 env) s

/-- The fields of an LC_TRANSITION whose data has `n` bytes. -/
def lcFields (n : Nat) (bs : List Byte) : Bool :=
  1 ≤ fieldAt bs 0x20 1 && fieldAt bs 0x20 1 ≤ 3 && zeroAt bs 0x21 3 && fieldAt bs 0x24 4 == n && zeroAt bs 0x30 16 &&
  (n != 0 || zeroAt bs 0x28 8)

/-- LC_TRANSITION to PROVISIONED (R27, R32, R33, R65); it also takes the records whose TARGET names no state. -/
def execLcTransitionProvisioned (seq : Nat) (env : BootEnv) (s : State) : Host.Outcome State Fault Refusal :=
  runEvent (signedCommand seq 0xC (fun bs => fieldAt bs 0x20 1 != 2 && fieldAt bs 0x20 1 != 3) (lcFields 16)
    (fun d => zeroAt d 6 2 && fieldAt d 0 1 % 0x20 == 0) fun _ key data => do
    let lc ← look (·.root.fuses.lcstate)
    if lc ≠ 0#2 ∨ key ≠ 0 then endWith .mgmt seq stLcRefused 0
    else
      let n ← freshFree
      let k := Config.identityKey n
      completeAndBoot seq (fun r =>
        { r with fuses := { r.fuses with lcstate := 1#2, macBase := BitVec.ofNat 48 (fieldAt data 0 6), serial := BitVec.ofNat 64 (fieldAt data 8 8) },
                 flash := { r.flash with key := some k, cert := Config.certificate k.modulus k.verify } }) 4#4 env) s

/-- LC_TRANSITION to DEPLOYED (R32, R33, R65). -/
def execLcTransitionDeployed (seq : Nat) (env : BootEnv) (s : State) : Host.Outcome State Fault Refusal :=
  runEvent (signedCommand seq 0xC (fun bs => fieldAt bs 0x20 1 == 2) (lcFields 64) (fun _ => true) fun _ key data => do
    let lc ← look (·.root.fuses.lcstate)
    if lc ≠ 1#2 ∨ key ≠ 0 then endWith .mgmt seq stLcRefused 0
    else completeAndBoot seq (fun r =>
        { r with fuses := { r.fuses with lcstate := 2#2, ownerKey := BitVec.ofNat 512 (fieldAt data 0 64) } }) 4#4 env) s

/-- LC_TRANSITION to RETURNED (R32, R33, R65). -/
def execLcTransitionReturned (seq : Nat) (env : BootEnv) (s : State) : Host.Outcome State Fault Refusal :=
  runEvent (signedCommand seq 0xC (fun bs => fieldAt bs 0x20 1 == 3) (lcFields 0) (fun _ => true) fun _ _ _ => do
    let lc ← look (·.root.fuses.lcstate)
    if lc ≠ 2#2 then endWith .mgmt seq stLcRefused 0
    else completeAndBoot seq (fun r =>
        { r with fuses := { r.fuses with lcstate := 3#2, revoked := true }, flash := { r.flash with key := none } }) 4#4 env) s

/-- FW_UPDATE (R26, R65). -/
def execFwUpdate (seq : Nat) (s : State) : Host.Outcome State Fault Refusal :=
  runEvent (signedCommand seq 0xD (fun _ => true)
    (fun bs => zeroAt bs 0x30 16 && 1 ≤ fieldAt bs 0x28 8 && fieldAt bs 0x28 8 ≤ stagingBytes) (fun _ => true) fun _ key img => do
    let r ← look (·.root)
    if r.fuses.lcstate = 3#2 then endWith .mgmt seq stLcRefused 0
    else if (key = 1 ∧ r.fuses.lcstate ≠ 2#2) ∨ !imageOk r.fuses img then endWith .mgmt seq stSignature 0
    else
      change fun s =>
        { s with root := { s.root with flash := s.root.flash.putSlot (!r.slot) img } }
      endWith .mgmt seq stOk 0) s

end Sys2Proof.Machine
end

