-- ==== Sys2Proof/Machine/Network.lean ====
section
/-! DEFINITION. The network engine: RoCEv2 connections, RDMA requests, packets and frames that it discards (R16 to R20, R40, R43, R50,
R62, R203). -/

namespace Sys2Proof.Machine

/-- The device runs its firmware, with the hypervisor where tenants are concerned (R24). -/
def firmwareRuns : M Unit := do need ((← look (·.root.phase)) == .running)

/-- A connection. -/
def State.conn? (s : State) : Conn → Option Qp
  | .tenant t i => (s.tenant? t).bind fun x => aget x.qps i
  | .mgmt i => aget s.root.mgmtConns i

/-- A connection changed. -/
def State.updConn (s : State) (c : Conn) (f : Qp → Qp) : State :=
  match c with
  | .tenant t i => s.updTenant t fun x => { x with qps := aupd x.qps i f }
  | .mgmt i => { s with root := { s.root with mgmtConns := aupd s.root.mgmtConns i f } }

/-- The connection exists and is not in the error state. -/
def State.connUp (s : State) (c : Conn) : Bool := (s.conn? c).any fun q => !q.error

/-- Connection `qp` of a tenant, or of the management channel. -/
def connOf (t : Option Nat) (qp : Nat) : Conn :=
  match t with
  | some t => .tenant t qp
  | none => .mgmt qp

/-- The owner of a connection. -/
def connOwner : Conn → Option Nat
  | .tenant t _ => some t
  | .mgmt _ => none

/-! ## Connection setup (R18, R62) -/

/-- A new connection. -/
def freshQp (front retries : Nat) : Qp := { front := front, retries := 0, limit := retries, error := false, cuts := 0, retrying := false }

/-- Queue pairs in use on the device, the management connections among them. -/
def State.qpCount (s : State) : Nat := (s.tenants.map fun e => e.2.qps.length).sum + s.root.mgmtConns.length

/-- A connection request to a tenant: accepted within its quota and the device's limits, refused beyond (R18, R38). -/
def execRcConnectionSetup (t front retries : Nat) (s : State) : Host.Outcome State Fault Refusal :=
  runEvent (do
    firmwareRuns
    let x ← getTenant t
    need (front < 2 && (← look (·.root.frontlink)).getLsbD front)
    let n ← look State.qpCount
    if x.qps.length < min x.quota.qpq 256 && n < 4096 then
      let i ← must (afree x.qps 256 0)
      modTenant t fun x => { x with qps := aset x.qps i (freshQp front retries) }
    else pure ()) s

/-- The address fused for recovery and the management channel (R25, R62). -/
def Fuses.isRecovery (f : Fuses) (ip vlan : Nat) : Bool := ip == f.recIp && vlan == f.recVlan

/-- A connection request at the address fused for recovery: the management channel accepts up to 4 at once, within the device's limit (R18,
R62); Root ROM in recovery accepts one, on front port 0 (R25). -/
def execMgmtConnectionSetup (req : MgmtRequest) (s : State) : Host.Outcome State Fault Refusal :=
  runEvent (do
    let r ← look (·.root)
    need (r.phase == .running || (r.phase == .recovery && req.front == 0))
    need (req.front < 2 && r.frontlink.getLsbD req.front && r.fuses.isRecovery req.ip req.vlan)
    let n ← look State.qpCount
    match if n < 4096 then afree r.mgmtConns (if r.phase = .running then 4 else 1) 0 else none with
    | some i => change fun s => { s with root := { s.root with mgmtConns := aset s.root.mgmtConns i (freshQp req.front req.retries) } }
    | none => pure ()) s

/-! ## RDMA requests (R18, R19, R40, R62, R203) -/

/-- PERM bits an RDMA READ needs: read, and bit 3. -/
def rdmaR : BitVec 4 := 9#4

/-- PERM bits a WRITE or a SEND that places data needs: write, and bit 3. -/
def rdmaW : BitVec 4 := 10#4

/-- A request is refused with Remote Access Error, and counted at its tenant (R19, R50). -/
def refuseAccess (c : Conn) : M Unit := change fun s =>
  let s := s.send (.nak c false)
  match connOwner c with
  | some t => s.updTenant t fun x => { x with rdmanak := x.rdmanak + 1 }
  | none => s

/-- Bytes that arrive are written at the home slices, or in the management window; an RDMA WRITE among them notifies (R43, R203). -/
def State.rdmaPut (s : State) (o : Option Nat) (a : Nat) (bs : List Byte) (write : Bool) : Option State :=
  match o with
  | some t => ((s.tenant? t).bind fun x => s.rootRange x rdmaW a bs.length).map fun l =>
      match (pieceAddrs l).zip bs with
      | [] => s
      | w => if write then (s.homeWrite w).notice t w else s.homeWrite w
  | none =>
    if a + bs.length ≤ mgmtBytes then
      let w := bytesAt a bs
      some { s with root := { s.root with mgmtMem := memSetN s.root.mgmtMem a bs,
                                          notices := if write then s.root.notices ++ noticesOf none 0 w else s.root.notices } }
    else none

/-- A connection that has been torn down (R61) or stands in the error state, or none, has no request answered but with a NAK, which RDMANAK
counts: the model's choice, since no rule says how such a request ends. Log entry 89. -/
def rdmaRequest (c : Conn) (body : M Unit) : M Unit := do
  firmwareRuns
  if ← look fun s => s.connUp c then body else refuseAccess c

/-- An RDMA WRITE, with or without immediate. -/
def execRdmaWrite (c : Conn) (keyOk : Bool) (addr : Nat) (data : List Byte) (_imm : Option W32) (s : State) :
    Host.Outcome State Fault Refusal :=
  runEvent (rdmaRequest c (do
    match ← look fun s => if keyOk then s.rdmaPut (connOwner c) addr data true else none with
    | some s' => change fun _ => s'.send (.ack c)
    | none => refuseAccess c)) s

/-- Bytes that an RDMA READ answers with. -/
def State.rdmaGet (s : State) (o : Option Nat) (a n : Nat) : Option (List Byte) := s.ownRead o rdmaR a n

/-- An RDMA READ. -/
def execRdmaRead (c : Conn) (keyOk : Bool) (addr len : Nat) (s : State) : Host.Outcome State Fault Refusal :=
  runEvent (rdmaRequest c (do
    match ← look fun s => if keyOk then s.rdmaGet (connOwner c) addr len else none with
    | some bs => change fun s => s.send (.readData c bs)
    | none => refuseAccess c)) s

/-- A SEND, with or without immediate: where it places data, that needs the write permission. It notifies no queue (R43). -/
def execRdmaSend (c : Conn) (place : Option Nat) (data : List Byte) (_imm : Option W32) (s : State) :
    Host.Outcome State Fault Refusal :=
  runEvent (rdmaRequest c (do
    match place with
    | none => change fun s => s.send (.ack c)
    | some a =>
      match ← look fun s => s.rdmaPut (connOwner c) a data false with
      | some s' => change fun _ => s'.send (.ack c)
      | none => refuseAccess c)) s

/-- An atomic request is answered with a NAK of Invalid Request (R18). -/
def execRdmaAtomicRequest (c : Conn) (s : State) : Host.Outcome State Fault Refusal :=
  runEvent (rdmaRequest c (change fun s => s.send (.nak c true))) s

/-! ## Retries (R20) -/

/-- The transport timer of a connection expires: it retransmits and counts one retry. -/
def execRcTransportTimeout (t : Option Nat) (qp : Nat) (s : State) : Host.Outcome State Fault Refusal :=
  runEvent (do
    let c := connOf t qp
    let q ← must (← look fun s => s.conn? c)
    need (!q.error && q.retries < q.limit)
    change fun s => (s.updConn c fun q => { q with retries := q.retries + 1, retrying := true }).send (.retransmit c)) s

/-- A connection has exhausted its retries: it enters the error state, and its tenant receives QP_ERROR (R20, R405); a management connection
has no tenant. -/
def execRcRetryExhausted (t : Option Nat) (qp : Nat) (s : State) : Host.Outcome State Fault Refusal :=
  runEvent (do
    let c := connOf t qp
    let q ← must (← look fun s => s.conn? c)
    need (!q.error && q.retrying && q.limit ≤ q.retries)
    change fun s => s.updConn c fun q => { q with error := true }
    match t with
    | some t => change fun s => s.emit (some t) (eventBytes 2 3 stLinkDown qp 0 0xFF 0 0 0) none
    | none => pure ()) s

/-! ## Congestion (R18) -/

/-- A packet with an ECN CE mark is answered with a CNP. -/
def execEcnMarkedPacket (c : Conn) (s : State) : Host.Outcome State Fault Refusal :=
  runEvent (do
    need (← look fun s => s.connUp c)
    change fun s => s.send (.cnp c)) s

/-- A CNP makes the requester reduce its rate. -/
def execCnp (c : Conn) (s : State) : Host.Outcome State Fault Refusal :=
  runEvent (do
    need (← look fun s => s.connUp c)
    change fun s => s.updConn c fun q => { q with cuts := q.cuts + 1 }) s

/-! ## What is discarded and counted (R16 to R19, R50) -/

/-- The device's counters changed. -/
def count (f : Counters → Counters) : M Unit := change fun s => { s with root := { s.root with counters := f s.root.counters } }

/-- The tenant that owns a destination address and VLAN on a front port (R19). The manual does not say that two tenants hold different ones:
of two that hold the same, the lower-numbered owns the packet. DESIGN CHOICE, log entry 84. -/
def State.packetOwner (s : State) (front ip vlan : Nat) : Option Nat :=
  (s.tenants.find? fun e => e.2.ips.contains ip && e.2.vlans[front]? == some vlan).map (·.1)

/-- UD, UC and XRC packets. -/
def execUnsupportedTransportPacket (s : State) : Host.Outcome State Fault Refusal :=
  runEvent (do
    firmwareRuns
    count fun c => { c with transp := c.transp + 1 }) s

/-- A packet whose ICRC fails. -/
def execIcrcFailPacket (s : State) : Host.Outcome State Fault Refusal :=
  runEvent (do
    firmwareRuns
    count fun c => { c with icrc := c.icrc + 1 }) s

/-- A packet that matches no tenant. -/
def execNoTenantPacket (front ip vlan : Nat) (s : State) : Host.Outcome State Fault Refusal :=
  runEvent (do
    firmwareRuns
    need (front < 2 && (← look fun s => (s.packetOwner front ip vlan).isNone && !s.root.fuses.isRecovery ip vlan))
    count fun c => { c with notenant := c.notenant + 1 }) s

/-- A packet that is not RoCEv2 goes to the socket path of the tenant that owns its address. -/
def execSocketPacket (front ip vlan : Nat) (data : List Byte) (s : State) : Host.Outcome State Fault Refusal :=
  runEvent (do
    firmwareRuns
    let t ← must (← look fun s => s.packetOwner front ip vlan)
    need (front < 2)
    modTenant t fun x => { x with sockets := x.sockets ++ [data] }) s

/-- A Clause 31 PAUSE frame. -/
def execPauseFrame (port : Nat) (s : State) : Host.Outcome State Fault Refusal :=
  runEvent (do
    firmwareRuns
    need (port < 2)
    count fun c => if port = 0 then { c with pause0 := c.pause0 + 1 } else { c with pause1 := c.pause1 + 1 }) s

/-- An IEEE 1588 or 802.1AS frame. -/
def execTimeSyncFrame (port : Nat) (s : State) : Host.Outcome State Fault Refusal :=
  runEvent (do
    firmwareRuns
    need (port < 2)
    count fun c => if port = 0 then { c with tsync0 := c.tsync0 + 1 } else { c with tsync1 := c.tsync1 + 1 }) s

/-- A fabric frame of another EtherType. -/
def execFabricTypeDiscard (port ethertype : Nat) (s : State) : Host.Outcome State Fault Refusal :=
  runEvent (do
    firmwareRuns
    need (port < 16 && ethertype != 0x88B5)
    count fun c => { c with fabtype := c.fabtype + 1 }) s

end Sys2Proof.Machine
end

