-- ==== Sys2Proof/Machine/Ordered.lean ====
section
/-! DEFINITION. The moment an ordered operation is performed (R107, R108). -/

namespace Sys2Proof.Machine

/-- An ordered atomic, whose range is its team (R108). -/
def teamRange : Instr → Bool
  | .atom _ _ _ _ _ _ _ _ _ _ _ => true
  | .atoms _ _ _ _ _ _ _ _ _ _ => true
  | .smaxpk _ _ _ _ _ _ _ _ _ => true
  | _ => false

/-- The meaning of an instruction that may be an ordered operation (R107). -/
def orderedRun (i : Instr) (s : State) : Host.Outcome State Fault Refusal :=
  match i with
  | .laneLd h m a64 w d a i => execLaneLd h m a64 w d a i s
  | .laneSt h m a64 w a b i => execLaneSt h m a64 w a b i s
  | .pst h m a64 each a b i => execPst h m a64 each a b i s
  | .pld h m a64 each d a i => execPld h m a64 each d a i s
  | .atom h m a64 ret w64 op d a b e i => execAtom h m a64 ret w64 op d a b e i s
  | .atoms h m ret w64 op d a b e i => execAtoms h m ret w64 op d a b e i s
  | .smaxpk h m a64 ret d a b e i => execSmaxpk h m a64 ret d a b e i s
  | .kacc h p f k v a b => execKacc h p f k v a b s
  | .cpost d a => execCpost d a s
  | .knotArrive a => execKnotArrive a s
  | _ => .next s

/-- The wait of a group's ordered operation, with the turn granted. -/
def grantTurn (g : Group) : Group := { g with ordered := g.ordered.map fun o => { o with granted := true } }

/-- An ordered operation whose pair is the lowest of its range is performed, or takes the trap it raises then (R108, R183); one that must
wait for something else still waits. -/
def execOrderedOperationPerform (r : GRef) (st : StreamRef) (s : State) : Host.Outcome State Fault Refusal :=
  match (s.group? r).bind (·.ordered) with
  | none => .next s
  | some o =>
    if o.stream == st && s.turnOf r (teamRange o.instr) o.stamp then
      match onStream r st (orderedRun o.instr) (s.updGroup r grantTurn) with
      | .next s' => if ((s'.group? r).bind (·.ordered)).any (·.granted) then .next s else .next s'
      | .fault f => .fault f
      | .refused f => .refused f
    else .next s

end Sys2Proof.Machine
end

