-- ==== Sys2Proof/Machine/Proposal.lean ====
section
/-! DEFINITION. The proposal bank and uniform draws, OP 0x24 (R266 to R268, R369 to R374). -/

namespace Sys2Proof.Machine

/-- Only user mode may use the form (R222). -/
def userOnly (c : LaneCtx) : M Unit := unlessTrap (c.frag.mode == .user) .proposalMode

/-- No return into a window register is outstanding (R370). -/
def Group.windowQuiet (g : Group) (pbase : Nat) : Bool := g.accesses.all fun a => a.dests.all fun d => !inWindow pbase d.toNat

/-- Wait until no return into a window register is outstanding. -/
def windowWait : M Unit := do
  let base ← windowBase
  need ((← hereG).windowQuiet base)

/-- propose (R371). -/
def execPropose (s : State) : Host.Outcome State Fault Refusal :=
  runLane noGuard (fun c => do
    userOnly c
    let base ← windowBase
    unlessTrap (base != 0xFFFF) .proposalNone
    unlessTrap (!(← hereG).proposal) .proposalNested
    windowWait
    modHere fun g => { g with proposal := true, shadows := [] }) s

/-- pabort (R373). -/
def execPabort (s : State) : Host.Outcome State Fault Refusal :=
  runLane noGuard (fun c => do
    userOnly c
    unlessTrap (← hereG).proposal .proposalNone
    windowWait
    modHere fun g => { g with proposal := false, shadows := [] }) s

/-- The global index of a lane of the group in focus, as DRAW takes it (R118, R266). -/
def laneIndex (t : Team) (r : GRef) (l : Nat) : W32 := BitVec.ofNat 32 (96 * (t.tid * t.ngroups + r.group) + l)

/-- Whether a lane accepts (R268, R372): its log-ratio is no NaN and at least LN of its draw. -/
def accepts (g : Group) (t : Team) (r : GRef) (x : Tag) (l : Nat) : Bool :=
  !isNan (x.lane l) && fCompare .ge (x.lane l) (fLn (drawU (drawK g.rseed (laneIndex t r l) g.rctr)))

/-- The main register of a window register after an accept (R372): the shadow in the lanes that accept, held as general. -/
def commitShadow (g : Group) (ok : LaneMask) (e : Nat × Shadow) : Group :=
  let lanes := ok &&& e.2.written
  if lanes = 0#96 then g
  else
    let old := g.vreg e.1
    let tag := Tag.ofLanes fun l => if lanes.getLsbD l then e.2.words.getD l 0#32 else old.tag.lane l
    { g with vregs := aset g.vregs e.1 { tag := tag, cc := old.cc, spare := false } }

/-- accept (R372). -/
def execAccept (h : LHdr) (d : PReg) (a : Src) (s : State) : Host.Outcome State Fault Refusal :=
  runLane h (fun c => do
    userOnly c
    privSources c [a]
    unlessTrap (← hereG).proposal .proposalNone
    let x ← readSrc c a
    windowWait
    let g ← hereG
    let t ← hereT
    let r ← here
    let ok := maskOf (fun l => c.w.getLsbD l && accepts g t r x l)
    writePred c d ok
    decSources [a] []
    modHere fun g => g.shadows.foldl (fun g e => commitShadow g ok e) g
    let nan := (lanesOf c.w).any fun l => isNan (x.lane l)
    modHere fun g => { g with proposal := false, shadows := [], rctr := g.rctr + 1, pnan := g.pnan || nan }
    modHere fun g => { g with pprop := g.pprop + BitVec.ofNat 64 (lanesOf c.w).length,
                              pacc := g.pacc + BitVec.ofNat 64 (lanesOf ok).length }) s

/-- rand (R374). -/
def execRand (h : LHdr) (k : Bool) (d : VReg) (s : State) : Host.Outcome State Fault Refusal :=
  runLane h (fun c => do
    userOnly c
    let g ← hereG
    let t ← hereT
    let r ← here
    let draw (l : Nat) : W32 := drawK g.rseed (laneIndex t r l) g.rctr
    writeRegs c h.cc.toNat [(d, Tag.ofLanes fun l => if k then draw l else drawU (draw l))]
    modHere fun g => { g with rctr := g.rctr + 1 }) s

end Sys2Proof.Machine
end

