-- ==== Sys2Proof/Machine/Queries.lean ====
section
/-! DEFINITION. QUERY and its items (R13, R14, R27 to R30, R34, R38, R48 to R50, R64, R290). -/

namespace Sys2Proof.Machine

/-- The device status word (R13). -/
def Root.statusWord (r : Root) : W64 :=
  0#8 ++ r.fwmajor ++ r.fwminor ++ r.aclk ++ r.fclk ++ r.tjmax ++ 0#4 ++ r.rstcause ++ r.hvstate ++ r.frontlink ++ r.fuses.lcstate

/-- The fabric link word (R14). -/
def Root.linkWord (r : Root) : W64 := 0#32 ++ r.faberr ++ r.fabup

/-- The 32 bytes of a quota record (R38). -/
def quotaBytes (x : Quota) : List Byte :=
  leBytes 4 x.groveq ++ leBytes 4 x.accq ++ leBytes 4 x.scratchq ++ leBytes 4 x.slotq ++ leBytes 2 x.commq ++ leBytes 2 x.qpq ++
  leBytes 4 0 ++ leBytes 8 x.tcacheq

/-- The device counters (R50). -/
def Counters.bytes (c : Counters) : List Byte :=
  ([c.pause0, c.pause1, c.tsync0, c.tsync1, c.fabtype, c.splice, c.transp, c.icrc, c.notenant, 0#64].map fun w =>
    leBytes 8 w.toNat).flatten

/-- The counters of a tenant (R50). -/
def Tenant.counterBytes (x : Tenant) : List Byte :=
  ([x.knotdisc, x.rdmanak, x.evlost, 0#64].map fun w => leBytes 8 w.toNat).flatten

/-- Bytes 0x000 to 0x157 of the attestation report of tenant `t` (R29). -/
def Root.reportBody (r : Root) (t : Nat) (meas : BitVec 512) (nonce : List Byte) : List Byte :=
  leBytes 4 1 ++ leBytes 1 r.fuses.lcstate.toNat ++ leBytes 3 0 ++ leBytes 8 r.fuses.serial.toNat ++ nonce ++
  leBytes 64 r.fwMeas.toNat ++ leBytes 64 r.hvMeas.toNat ++ leBytes 64 r.tildinMeas.toNat ++ leBytes 2 t ++ leBytes 6 0 ++
  leBytes 64 meas.toNat

/-- The body keeps R48: its reserved bytes are zero, and NONCE too where the item takes none. -/
def queryFields (bs : List Byte) : Bool :=
  zeroAt bs 0x1B 5 && zeroAt bs 0x2C 4 && zeroAt bs 0x38 8 && (fieldAt bs 0x18 2 == 3 || zeroAt bs 0x30 8)

/-- The item is served on this queue now (R34, R49). -/
def State.itemServed (s : State) (o : Option Nat) (item : Nat) : Bool :=
  1 ≤ item && item ≤ 9 && !(o.isSome && (item == 7 || item == 8)) &&
  (s.root.fuses.lcstate != 3#2 || item == 1 || item == 2 || item == 7)

/-- The tenant that TNUM names for an item (R48): none where TNUM breaks its rule. -/
def State.queryTenant (s : State) (o : Option Nat) (item tnum : Nat) : Option (Option Nat) :=
  match o with
  | some t => if tnum = 0xFF ∨ tnum = t then some (some t) else none
  | none =>
    if item = 3 ∨ item = 5 ∨ item = 9 then (if (s.tenant? tnum).isSome then some (some tnum) else none)
    else if tnum = 0xFF then some none
    else none

/-- The bytes of an item; none where the nonce of an attestation cannot be read. -/
def State.itemBytes (s : State) (o who : Option Nat) (item nonce n : Nat) : Option (List Byte) :=
  let x := who.bind s.tenant?
  match item with
  | 1 => some (leBytes 8 s.root.statusWord.toNat)
  | 2 => some (leBytes 8 s.root.linkWord.toNat)
  | 3 => (s.ownRead o needR nonce 64).map fun b =>
      let body := s.root.reportBody (who.getD 0) ((x.map (·.supv.meas)).getD 0) b
      body ++ (s.root.flash.key.elim (List.replicate 512 0#8) fun k => pssSign k (leBytes 64 (Config.salt n).toNat) body)
  | 4 => some (leBytes 8 s.root.flash.cert.length ++ s.root.flash.cert)
  | 5 => some ((x.map fun y => quotaBytes y.quota).getD [])
  | 6 => some (((List.range 16).map fun i => leBytes 8 (featureWord i).toNat).flatten)
  | 7 => some (leBytes 64 s.root.nonce.toNat)
  | 8 => some s.root.counters.bytes
  | _ => some ((x.map (·.counterBytes)).getD [])

/-- The bytes an item takes in the buffer (R49). -/
def State.itemSize (s : State) (item : Nat) : Nat :=
  match item with
  | 1 => 8
  | 2 => 8
  | 3 => 856
  | 4 => 8 + s.root.flash.cert.length
  | 5 => 32
  | 6 => 128
  | 7 => 64
  | 8 => 80
  | _ => 32

/-- A QUERY that the test on its item accepts (R48, R49): its checks in turn, then the item is written and the command completes. -/
def queryItem (accepts : Nat → Bool) (q : QRef) (seq : Nat) (s : State) : Host.Outcome State Fault Refusal :=
  runEvent (do
    let c ← beginCommand q seq fun bs => kindOf bs == 0xA && accepts (fieldAt bs 0x18 2)
    let o := queueOwner q
    let item := fieldAt c.bytes 0x18 2
    let ok ← look fun s => s.headerOk q c && queryFields c.bytes
    let r ← look (·.root)
    let who ← look fun s => s.queryTenant o item (fieldAt c.bytes 0x1A 1)
    let size ← look fun s => s.itemSize item
    if !ok then endWith q seq stBadField 0
    else if !(← look fun s => s.itemServed o item) then endWith q seq stBadItem 0
    else if item == 3 && (r.hvstate != 0 || r.flash.key.isNone) then endWith q seq stNotAttestable 0
    else if who.isNone || fieldAt c.bytes 0x28 4 < size then endWith q seq stBadField 0
    else
      let n ← freshFree
      match ← look fun s => (s.itemBytes o (who.getD none) item (fieldAt c.bytes 0x30 8) n).bind fun b => s.ownWrite o (fieldAt c.bytes 0x20 8) b with
      | none => endWith q seq stWindow 0
      | some s' =>
        change fun _ => s'
        endWith q seq stOk 0) s

/-- QUERY item 0x0001, and any item the manual does not list (R13, R49). -/
def execQueryDeviceStatus (q : QRef) (seq : Nat) (s : State) : Host.Outcome State Fault Refusal :=
  queryItem (fun i => i = 1 || i = 0 || 9 < i) q seq s

/-- QUERY item 0x0002 (R14). -/
def execQueryFabricLink (q : QRef) (seq : Nat) (s : State) : Host.Outcome State Fault Refusal := queryItem (· == 2) q seq s

/-- QUERY item 0x0003 (R29, R30). -/
def execQueryAttestation (q : QRef) (seq : Nat) (s : State) : Host.Outcome State Fault Refusal := queryItem (· == 3) q seq s

/-- QUERY item 0x0004 (R27). -/
def execQueryCertificate (q : QRef) (seq : Nat) (s : State) : Host.Outcome State Fault Refusal := queryItem (· == 4) q seq s

/-- QUERY item 0x0005 (R38). -/
def execQueryQuota (q : QRef) (seq : Nat) (s : State) : Host.Outcome State Fault Refusal := queryItem (· == 5) q seq s

/-- QUERY item 0x0006 (R290). -/
def execQueryFeatures (q : QRef) (seq : Nat) (s : State) : Host.Outcome State Fault Refusal := queryItem (· == 6) q seq s

/-- QUERY item 0x0007 (R64). -/
def execQueryMgmtNonce (q : QRef) (seq : Nat) (s : State) : Host.Outcome State Fault Refusal := queryItem (· == 7) q seq s

/-- QUERY item 0x0008 (R50). -/
def execQueryDiscardCounters (q : QRef) (seq : Nat) (s : State) : Host.Outcome State Fault Refusal := queryItem (· == 8) q seq s

/-- QUERY item 0x0009 (R50). -/
def execQueryTenantCounters (q : QRef) (seq : Nat) (s : State) : Host.Outcome State Fault Refusal := queryItem (· == 9) q seq s

end Sys2Proof.Machine
end

