-- ==== Sys2Proof/Machine/Dispatch.lean ====
section
/-! DEFINITION. The meaning of each step of the table: one arm per constructor of `Instr`. -/

namespace Sys2Proof.Machine

/-- The meaning of a step. -/
def exec (i : Instr) (s : State) : Host.Outcome State Fault Refusal :=
  match i with
  | .add d a b => Sys2Proof.Machine.execAdd d a b s
  | .sub d a b => Sys2Proof.Machine.execSub d a b s
  | .mul d a b => Sys2Proof.Machine.execMul d a b s
  | .mulhi d a b => Sys2Proof.Machine.execMulhi d a b s
  | .mulhu d a b => Sys2Proof.Machine.execMulhu d a b s
  | .and d a b => Sys2Proof.Machine.execAnd d a b s
  | .or d a b => Sys2Proof.Machine.execOr d a b s
  | .xor d a b => Sys2Proof.Machine.execXor d a b s
  | .andn d a b => Sys2Proof.Machine.execAndn d a b s
  | .shl d a b => Sys2Proof.Machine.execShl d a b s
  | .shr d a b => Sys2Proof.Machine.execShr d a b s
  | .sar d a b => Sys2Proof.Machine.execSar d a b s
  | .min d a b => Sys2Proof.Machine.execMin d a b s
  | .max d a b => Sys2Proof.Machine.execMax d a b s
  | .minu d a b => Sys2Proof.Machine.execMinu d a b s
  | .maxu d a b => Sys2Proof.Machine.execMaxu d a b s
  | .slt d a b => Sys2Proof.Machine.execSlt d a b s
  | .sltu d a b => Sys2Proof.Machine.execSltu d a b s
  | .seq d a b => Sys2Proof.Machine.execSeq d a b s
  | .sne d a b => Sys2Proof.Machine.execSne d a b s
  | .scalarClz d a => Sys2Proof.Machine.execScalarClz d a s
  | .scalarPopc d a => Sys2Proof.Machine.execScalarPopc d a s
  | .scalarSel d a b => Sys2Proof.Machine.execScalarSel d a b s
  | .addi d a imm => Sys2Proof.Machine.execAddi d a imm s
  | .andi d a imm => Sys2Proof.Machine.execAndi d a imm s
  | .ori d a imm => Sys2Proof.Machine.execOri d a imm s
  | .xori d a imm => Sys2Proof.Machine.execXori d a imm s
  | .shli d a imm => Sys2Proof.Machine.execShli d a imm s
  | .shri d a imm => Sys2Proof.Machine.execShri d a imm s
  | .sari d a imm => Sys2Proof.Machine.execSari d a imm s
  | .slti d a imm => Sys2Proof.Machine.execSlti d a imm s
  | .lui d imm => Sys2Proof.Machine.execLui d imm s
  | .scalarLd d a z imm => Sys2Proof.Machine.execScalarLd d a z imm s
  | .scalarLds d a z imm => Sys2Proof.Machine.execScalarLds d a z imm s
  | .scalarSt d a z imm => Sys2Proof.Machine.execScalarSt d a z imm s
  | .amo op d a imm => Sys2Proof.Machine.execAmo op d a imm s
  | .j o => Sys2Proof.Machine.execJ o s
  | .jal o => Sys2Proof.Machine.execJal o s
  | .jr d a => Sys2Proof.Machine.execJr d a s
  | .beq a b o => Sys2Proof.Machine.execBeq a b o s
  | .bne a b o => Sys2Proof.Machine.execBne a b o s
  | .blt a b o => Sys2Proof.Machine.execBlt a b o s
  | .bge a b o => Sys2Proof.Machine.execBge a b o s
  | .bltu a b o => Sys2Proof.Machine.execBltu a b o s
  | .bgeu a b o => Sys2Proof.Machine.execBgeu a b o s
  | .sqpush a => Sys2Proof.Machine.execSqpush a s
  | .lqpop d => Sys2Proof.Machine.execLqpop d s
  | .lrun a => Sys2Proof.Machine.execLrun a s
  | .lsync => Sys2Proof.Machine.execLsync s
  | .fmt a => Sys2Proof.Machine.execFmt a s
  | .acopy d a => Sys2Proof.Machine.execAcopy d a s
  | .acopyx d a => Sys2Proof.Machine.execAcopyx d a s
  | .agath d a => Sys2Proof.Machine.execAgath d a s
  | .rcopy d a => Sys2Proof.Machine.execRcopy d a s
  | .scalarWait p a => Sys2Proof.Machine.execScalarWait p a s
  | .twait d a => Sys2Proof.Machine.execTwait d a s
  | .tread d a => Sys2Proof.Machine.execTread d a s
  | .knotArrive a => Sys2Proof.Machine.execKnotArrive a s
  | .knotWait d a => Sys2Proof.Machine.execKnotWait d a s
  | .knotExpect d a => Sys2Proof.Machine.execKnotExpect d a s
  | .knotInit d a => Sys2Proof.Machine.execKnotInit d a s
  | .tarm d a => Sys2Proof.Machine.execTarm d a s
  | .tset a => Sys2Proof.Machine.execTset a s
  | .tclr a => Sys2Proof.Machine.execTclr a s
  | .cpost d a => Sys2Proof.Machine.execCpost d a s
  | .cstat d a => Sys2Proof.Machine.execCstat d a s
  | .kcfgDefine d a => Sys2Proof.Machine.execKcfgDefine d a s
  | .kcfgStream d a => Sys2Proof.Machine.execKcfgStream d a s
  | .kcfgClear d a => Sys2Proof.Machine.execKcfgClear d a s
  | .kcfgStatus d a => Sys2Proof.Machine.execKcfgStatus d a s
  | .kcfgAttach d a => Sys2Proof.Machine.execKcfgAttach d a s
  | .kdrain a => Sys2Proof.Machine.execKdrain a s
  | .scalarSysc a => Sys2Proof.Machine.execScalarSysc a s
  | .scalarHcall a => Sys2Proof.Machine.execScalarHcall a s
  | .scalarTret => Sys2Proof.Machine.execScalarTret s
  | .scalarSrd d a => Sys2Proof.Machine.execScalarSrd d a s
  | .scalarSwr d a => Sys2Proof.Machine.execScalarSwr d a s
  | .feat d a => Sys2Proof.Machine.execFeat d a s
  | .role a => Sys2Proof.Machine.execRole a s
  | .yield => Sys2Proof.Machine.execYield s
  | .mwait d a => Sys2Proof.Machine.execMwait d a s
  | .fence sc o => Sys2Proof.Machine.execFence sc o s
  | .exit => Sys2Proof.Machine.execExit s
  | .scalarBrk a => Sys2Proof.Machine.execScalarBrk a s
  | .scalarNop => Sys2Proof.Machine.execScalarNop s
  | .iadd h d a b => Sys2Proof.Machine.execIadd h d a b s
  | .isub h d a b => Sys2Proof.Machine.execIsub h d a b s
  | .imul h d a b => Sys2Proof.Machine.execImul h d a b s
  | .imulhi h d a b => Sys2Proof.Machine.execImulhi h d a b s
  | .imulhu h d a b => Sys2Proof.Machine.execImulhu h d a b s
  | .imad h d a b c => Sys2Proof.Machine.execImad h d a b c s
  | .iand h d a b => Sys2Proof.Machine.execIand h d a b s
  | .ior h d a b => Sys2Proof.Machine.execIor h d a b s
  | .ixor h d a b => Sys2Proof.Machine.execIxor h d a b s
  | .iandn h d a b => Sys2Proof.Machine.execIandn h d a b s
  | .ishl h d a b => Sys2Proof.Machine.execIshl h d a b s
  | .ishr h d a b => Sys2Proof.Machine.execIshr h d a b s
  | .isar h d a b => Sys2Proof.Machine.execIsar h d a b s
  | .imin h d a b => Sys2Proof.Machine.execImin h d a b s
  | .imax h d a b => Sys2Proof.Machine.execImax h d a b s
  | .iminu h d a b => Sys2Proof.Machine.execIminu h d a b s
  | .imaxu h d a b => Sys2Proof.Machine.execImaxu h d a b s
  | .iabs h d a => Sys2Proof.Machine.execIabs h d a s
  | .laneSel h d a b c => Sys2Proof.Machine.execLaneSel h d a b c s
  | .mov h d a => Sys2Proof.Machine.execMov h d a s
  | .laneClz h d a => Sys2Proof.Machine.execLaneClz h d a s
  | .lanePopc h d a => Sys2Proof.Machine.execLanePopc h d a s
  | .brev h d a => Sys2Proof.Machine.execBrev h d a s
  | .bfx h d a b => Sys2Proof.Machine.execBfx h d a b s
  | .bfxs h d a b => Sys2Proof.Machine.execBfxs h d a b s
  | .bfi h d a b c => Sys2Proof.Machine.execBfi h d a b c s
  | .icmp h cond d a b => Sys2Proof.Machine.execIcmp h cond d a b s
  | .movk h hi d imm => Sys2Proof.Machine.execMovk h hi d imm s
  | .fadd h m d a b => Sys2Proof.Machine.execFadd h m d a b s
  | .fsub h m d a b => Sys2Proof.Machine.execFsub h m d a b s
  | .fmul h m d a b => Sys2Proof.Machine.execFmul h m d a b s
  | .fma h m d a b c => Sys2Proof.Machine.execFma h m d a b c s
  | .fmin h d a b => Sys2Proof.Machine.execFmin h d a b s
  | .fmax h d a b => Sys2Proof.Machine.execFmax h d a b s
  | .fabs h d a => Sys2Proof.Machine.execFabs h d a s
  | .fneg h d a => Sys2Proof.Machine.execFneg h d a s
  | .fcmp h cond d a b => Sys2Proof.Machine.execFcmp h cond d a b s
  | .frcp h d a => Sys2Proof.Machine.execFrcp h d a s
  | .frsq h d a => Sys2Proof.Machine.execFrsq h d a s
  | .fsqrt h d a => Sys2Proof.Machine.execFsqrt h d a s
  | .fexp2 h d a => Sys2Proof.Machine.execFexp2 h d a s
  | .flog2 h d a => Sys2Proof.Machine.execFlog2 h d a s
  | .fln h d a => Sys2Proof.Machine.execFln h d a s
  | .fcls h d a => Sys2Proof.Machine.execFcls h d a s
  | .cvt h k m d a => Sys2Proof.Machine.execCvt h k m d a s
  | .npenc h d a => Sys2Proof.Machine.execNpenc h d a s
  | .npdec h planes f32 d a => Sys2Proof.Machine.execNpdec h planes f32 d a s
  | .plx h plane d a => Sys2Proof.Machine.execPlx h plane d a s
  | .pli h plane d a b => Sys2Proof.Machine.execPli h plane d a b s
  | .pand h d a b => Sys2Proof.Machine.execPand h d a b s
  | .por h d a b => Sys2Proof.Machine.execPor h d a b s
  | .pxor h d a b => Sys2Proof.Machine.execPxor h d a b s
  | .pnot h d a => Sys2Proof.Machine.execPnot h d a s
  | .pmov h d a => Sys2Proof.Machine.execPmov h d a s
  | .ballot h d a => Sys2Proof.Machine.execBallot h d a s
  | .ballotLq h a => Sys2Proof.Machine.execBallotLq h a s
  | .vote h k d a => Sys2Proof.Machine.execVote h k d a s
  | .shfl h d a b => Sys2Proof.Machine.execShfl h d a b s
  | .xchg h d a b => Sys2Proof.Machine.execXchg h d a b s
  | .redux h op d a => Sys2Proof.Machine.execRedux h op d a s
  | .reduxLq h op a => Sys2Proof.Machine.execReduxLq h op a s
  | .scan h op excl d a => Sys2Proof.Machine.execScan h op excl d a s
  | .welf h d a b => Sys2Proof.Machine.execWelf h d a b s
  | .wmerge h d a b => Sys2Proof.Machine.execWmerge h d a b s
  | .lbr h inv a imm => Sys2Proof.Machine.execLbr h inv a imm s
  | .ljmp imm => Sys2Proof.Machine.execLjmp imm s
  | .mark imm => Sys2Proof.Machine.execMark imm s
  | .join => Sys2Proof.Machine.execJoin s
  | .lend => Sys2Proof.Machine.execLend s
  | .lfmt imm => Sys2Proof.Machine.execLfmt imm s
  | .mkrd cc n d => Sys2Proof.Machine.execMkrd cc n d s
  | .mkwr n a => Sys2Proof.Machine.execMkwr n a s
  | .laneLd h m a64 w d a imm => Sys2Proof.Machine.execLaneLd h m a64 w d a imm s
  | .laneSt h m a64 w a b imm => Sys2Proof.Machine.execLaneSt h m a64 w a b imm s
  | .laneLds h m w d a imm => Sys2Proof.Machine.execLaneLds h m w d a imm s
  | .sts h m w a b imm => Sys2Proof.Machine.execSts h m w a b imm s
  | .atom h m a64 ret w64 op d a b c imm => Sys2Proof.Machine.execAtom h m a64 ret w64 op d a b c imm s
  | .atoms h m ret w64 op d a b c imm => Sys2Proof.Machine.execAtoms h m ret w64 op d a b c imm s
  | .smaxpk h m a64 ret d a b c imm => Sys2Proof.Machine.execSmaxpk h m a64 ret d a b c imm s
  | .pst h m a64 each a b imm => Sys2Proof.Machine.execPst h m a64 each a b imm s
  | .pld h m a64 each d a imm => Sys2Proof.Machine.execPld h m a64 each d a imm s
  | .lfence sc o => Sys2Proof.Machine.execLfence sc o s
  | .kacc h p f key64 val64 a b => Sys2Proof.Machine.execKacc h p f key64 val64 a b s
  | .klook h p f key64 d a hit => Sys2Proof.Machine.execKlook h p f key64 d a hit s
  | .klookLq h p f key64 a hit => Sys2Proof.Machine.execKlookLq h p f key64 a hit s
  | .kread h p f d a valid => Sys2Proof.Machine.execKread h p f d a valid s
  | .kclr h p key64 a => Sys2Proof.Machine.execKclr h p key64 a s
  | .propose => Sys2Proof.Machine.execPropose s
  | .accept h d a => Sys2Proof.Machine.execAccept h d a s
  | .pabort => Sys2Proof.Machine.execPabort s
  | .rand h k d => Sys2Proof.Machine.execRand h k d s
  | .mma h a b acc => Sys2Proof.Machine.execMma h a b acc s
  | .accrd h d a acc => Sys2Proof.Machine.execAccrd h d a acc s
  | .accwr h a b acc => Sys2Proof.Machine.execAccwr h a b acc s
  | .accst h t r c acc => Sys2Proof.Machine.execAccst h t r c acc s
  | .accver h d acc => Sys2Proof.Machine.execAccver h d acc s
  | .lqpush h b64 a => Sys2Proof.Machine.execLqpush h b64 a s
  | .sqpop cc write d => Sys2Proof.Machine.execSqpop cc write d s
  | .laneSrd h hi d sel => Sys2Proof.Machine.execLaneSrd h hi d sel s
  | .laneSwr h hi a sel => Sys2Proof.Machine.execLaneSwr h hi a sel s
  | .kmov h d a => Sys2Proof.Machine.execKmov h d a s
  | .laneSysc h n => Sys2Proof.Machine.execLaneSysc h n s
  | .laneHcall h n => Sys2Proof.Machine.execLaneHcall h n s
  | .laneBrk h n => Sys2Proof.Machine.execLaneBrk h n s
  | .laneNop h => Sys2Proof.Machine.execLaneNop h s
  | .laneTret h write fin d a => Sys2Proof.Machine.execLaneTret h write fin d a s
  | .fmtrWrite w => Sys2Proof.Machine.execFmtrWrite w s
  | .gangWrite w => Sys2Proof.Machine.execGangWrite w s
  | .ptbaseWrite w => Sys2Proof.Machine.execPtbaseWrite w s
  | .winbaseWrite w => Sys2Proof.Machine.execWinbaseWrite w s
  | .winlimWrite w => Sys2Proof.Machine.execWinlimWrite w s
  | .bankmodeWrite w => Sys2Proof.Machine.execBankmodeWrite w s
  | .bankownWrite w => Sys2Proof.Machine.execBankownWrite w s
  | .gnanClear w => Sys2Proof.Machine.execGnanClear w s
  | .pnanClear w => Sys2Proof.Machine.execPnanClear w s
  | .teamPlace => Sys2Proof.Machine.execTeamPlace s
  | .teamRetire team => Sys2Proof.Machine.execTeamRetire team s
  | .preemptQuantum team => Sys2Proof.Machine.execPreemptQuantum team s
  | .preemptRequest which => Sys2Proof.Machine.execPreemptRequest which s
  | .teamHaltEnd team => Sys2Proof.Machine.execTeamHaltEnd team s
  | .blockStart g => Sys2Proof.Machine.execBlockStart g s
  | .memoryAccessReturn g id => Sys2Proof.Machine.execMemoryAccessReturn g id s
  | .orderedOperationPerform g stream => Sys2Proof.Machine.execOrderedOperationPerform g stream s
  | .gangRendezvous team gang => Sys2Proof.Machine.execGangRendezvous team gang s
  | .mmaUpdate g id => Sys2Proof.Machine.execMmaUpdate g id s
  | .engineCommandComplete team ctx seq => Sys2Proof.Machine.execEngineCommandComplete team ctx seq s
  | .engineFault team ctx seq => Sys2Proof.Machine.execEngineFault team ctx seq s
  | .knotRemoteArrival launch index => Sys2Proof.Machine.execKnotRemoteArrival launch index s
  | .armedCopyFire t entry => Sys2Proof.Machine.execArmedCopyFire t entry s
  | .armedChunkFire t entry => Sys2Proof.Machine.execArmedChunkFire t entry s
  | .groveStreamRoom core part => Sys2Proof.Machine.execGroveStreamRoom core part s
  | .mwaitWritten g => Sys2Proof.Machine.execMwaitWritten g s
  | .mwaitTimeout g => Sys2Proof.Machine.execMwaitTimeout g s
  | .powerFail => Sys2Proof.Machine.execPowerFail s
  | .rcTransportTimeout t qp => Sys2Proof.Machine.execRcTransportTimeout t qp s
  | .spliceFrameWrongPsn f ftype => Sys2Proof.Machine.execSpliceFrameWrongPsn f ftype s
  | .commandComplete q seq => Sys2Proof.Machine.execCommandComplete q seq s
  | .scalarLoadReturn g id => Sys2Proof.Machine.execScalarLoadReturn g id s
  | .storePerformed g id => Sys2Proof.Machine.execStorePerformed g id s
  | .powerOn env => Sys2Proof.Machine.execPowerOn env s
  | .thermalTrip env => Sys2Proof.Machine.execThermalTrip env s
  | .clockThrottle aclk fclk => Sys2Proof.Machine.execClockThrottle aclk fclk s
  | .clockRaise aclk fclk => Sys2Proof.Machine.execClockRaise aclk fclk s
  | .rootWatchdogExpiry env => Sys2Proof.Machine.execRootWatchdogExpiry env s
  | .frontLinkUp port => Sys2Proof.Machine.execFrontLinkUp port s
  | .frontLinkDown port => Sys2Proof.Machine.execFrontLinkDown port s
  | .rcRetryExhausted t qp => Sys2Proof.Machine.execRcRetryExhausted t qp s
  | .fabricLinkUp port => Sys2Proof.Machine.execFabricLinkUp port s
  | .fabricLinkDown port => Sys2Proof.Machine.execFabricLinkDown port s
  | .rcConnectionSetup t front retries => Sys2Proof.Machine.execRcConnectionSetup t front retries s
  | .mgmtConnectionSetup req => Sys2Proof.Machine.execMgmtConnectionSetup req s
  | .rdmaWrite c keyOk addr data imm => Sys2Proof.Machine.execRdmaWrite c keyOk addr data imm s
  | .rdmaRead c keyOk addr len => Sys2Proof.Machine.execRdmaRead c keyOk addr len s
  | .rdmaSend c place data imm => Sys2Proof.Machine.execRdmaSend c place data imm s
  | .rdmaAtomicRequest c => Sys2Proof.Machine.execRdmaAtomicRequest c s
  | .unsupportedTransportPacket => Sys2Proof.Machine.execUnsupportedTransportPacket s
  | .icrcFailPacket => Sys2Proof.Machine.execIcrcFailPacket s
  | .noTenantPacket front ip vlan => Sys2Proof.Machine.execNoTenantPacket front ip vlan s
  | .socketPacket front ip vlan data => Sys2Proof.Machine.execSocketPacket front ip vlan data s
  | .pauseFrame port => Sys2Proof.Machine.execPauseFrame port s
  | .timeSyncFrame port => Sys2Proof.Machine.execTimeSyncFrame port s
  | .ecnMarkedPacket c => Sys2Proof.Machine.execEcnMarkedPacket c s
  | .cnp c => Sys2Proof.Machine.execCnp c s
  | .fabricTypeDiscard port ethertype => Sys2Proof.Machine.execFabricTypeDiscard port ethertype s
  | .spliceFrameDiscard f => Sys2Proof.Machine.execSpliceFrameDiscard f s
  | .splicePostFrame f rank index sig l => Sys2Proof.Machine.execSplicePostFrame f rank index sig l s
  | .spliceTicketFrame f index value => Sys2Proof.Machine.execSpliceTicketFrame f index value s
  | .spliceDataFrame f rank inst offset data => Sys2Proof.Machine.execSpliceDataFrame f rank inst offset data s
  | .spliceAckFrame w next => Sys2Proof.Machine.execSpliceAckFrame w next s
  | .spliceFailFrame f status => Sys2Proof.Machine.execSpliceFailFrame f status s
  | .spliceBuildFrame f rank digest => Sys2Proof.Machine.execSpliceBuildFrame f rank digest s
  | .spliceRebuildFrame f rank => Sys2Proof.Machine.execSpliceRebuildFrame f rank s
  | .spliceResendTimeout w oldest => Sys2Proof.Machine.execSpliceResendTimeout w oldest s
  | .commBuildTimeout c => Sys2Proof.Machine.execCommBuildTimeout c s
  | .commRebuildTimeout c => Sys2Proof.Machine.execCommRebuildTimeout c s
  | .collectiveStart c seq => Sys2Proof.Machine.execCollectiveStart c seq s
  | .collectiveComplete c seq => Sys2Proof.Machine.execCollectiveComplete c seq s
  | .recoveryImageWrite addr data => Sys2Proof.Machine.execRecoveryImageWrite addr data s
  | .recoverySend data env => Sys2Proof.Machine.execRecoverySend data env s
  | .queueNotification q => Sys2Proof.Machine.execQueueNotification q s
  | .qenableWrite q => Sys2Proof.Machine.execQenableWrite q s
  | .eventHeldWrite t => Sys2Proof.Machine.execEventHeldWrite t s
  | .launch q seq => Sys2Proof.Machine.execLaunch q seq s
  | .launchCollPost id => Sys2Proof.Machine.execLaunchCollPost id s
  | .launchComplete id => Sys2Proof.Machine.execLaunchComplete id s
  | .copy q seq => Sys2Proof.Machine.execCopy q seq s
  | .fill q seq => Sys2Proof.Machine.execFill q seq s
  | .signal q seq => Sys2Proof.Machine.execSignal q seq s
  | .wait q seq => Sys2Proof.Machine.execWait q seq s
  | .commBuild q seq => Sys2Proof.Machine.execCommBuild q seq s
  | .commRebuild q seq => Sys2Proof.Machine.execCommRebuild q seq s
  | .loadObject q seq => Sys2Proof.Machine.execLoadObject q seq s
  | .translate q seq => Sys2Proof.Machine.execTranslate q seq s
  | .queryDeviceStatus q seq => Sys2Proof.Machine.execQueryDeviceStatus q seq s
  | .queryFabricLink q seq => Sys2Proof.Machine.execQueryFabricLink q seq s
  | .queryAttestation q seq => Sys2Proof.Machine.execQueryAttestation q seq s
  | .queryCertificate q seq => Sys2Proof.Machine.execQueryCertificate q seq s
  | .queryQuota q seq => Sys2Proof.Machine.execQueryQuota q seq s
  | .queryFeatures q seq => Sys2Proof.Machine.execQueryFeatures q seq s
  | .queryMgmtNonce q seq => Sys2Proof.Machine.execQueryMgmtNonce q seq s
  | .queryDiscardCounters q seq => Sys2Proof.Machine.execQueryDiscardCounters q seq s
  | .queryTenantCounters q seq => Sys2Proof.Machine.execQueryTenantCounters q seq s
  | .reset seq env => Sys2Proof.Machine.execReset seq env s
  | .lcTransitionProvisioned seq env => Sys2Proof.Machine.execLcTransitionProvisioned seq env s
  | .lcTransitionDeployed seq env => Sys2Proof.Machine.execLcTransitionDeployed seq env s
  | .lcTransitionReturned seq env => Sys2Proof.Machine.execLcTransitionReturned seq env s
  | .fwUpdate seq => Sys2Proof.Machine.execFwUpdate seq s
  | .badKindCommand q seq => Sys2Proof.Machine.execBadKindCommand q seq s
  | .tenantCreate cfg => Sys2Proof.Machine.execTenantCreate cfg s
  | .tenantTeardown t => Sys2Proof.Machine.execTenantTeardown t s
  | .tenantScrub t => Sys2Proof.Machine.execTenantScrub t s
  | .supvInstallActivate t => Sys2Proof.Machine.execSupvInstallActivate t s
  | .supvInstall g stream => Sys2Proof.Machine.execSupvInstall g stream s
  | .teamEndCall g stream => Sys2Proof.Machine.execTeamEndCall g stream s
  | .bowlineRead g stream replies => Sys2Proof.Machine.execBowlineRead g stream replies s
  | .bowlineWrite g stream replies => Sys2Proof.Machine.execBowlineWrite g stream replies s
  | .bowlineOpen g stream replies => Sys2Proof.Machine.execBowlineOpen g stream replies s
  | .bowlineClose g stream replies => Sys2Proof.Machine.execBowlineClose g stream replies s
  | .bowlineSocket g stream replies => Sys2Proof.Machine.execBowlineSocket g stream replies s
  | .bowlineConnect g stream replies => Sys2Proof.Machine.execBowlineConnect g stream replies s
  | .bowlineBind g stream replies => Sys2Proof.Machine.execBowlineBind g stream replies s
  | .bowlineAccept g stream replies => Sys2Proof.Machine.execBowlineAccept g stream replies s
  | .supvLoad g stream replies => Sys2Proof.Machine.execSupvLoad g stream replies s

end Sys2Proof.Machine
end

