-- ==== Sys2Proof/Machine/Step.lean ====
section
/-! DEFINITION. One step of the device: what the agenda says comes next, or, when it is empty, the next instruction of the stream
in focus. -/

namespace Sys2Proof.Machine

/-- The stream in focus issues: what its next instruction does, or the trap it takes; a stream that cannot issue leaves the
state. -/
def issue (s : State) : Host.Outcome State Fault Refusal :=
  match fetch s with
  | .idle => .next s
  | .instr i => exec i s
  | .trap t => .next (s.takeTrap t)
  | .fault f => .fault f

/-- What a choice of the agenda does. An instruction of a stream is no event: it comes only by its stream. -/
def perform (c : Choice) (s : State) : Host.Outcome State Fault Refusal :=
  match c with
  | .event i => if (encode i).isSome then .next s else exec i s
  | .run g st => issue { s with focus := g, stream := st }
  | .cacheFill c a => .next (s.cacheFill c a)
  | .cacheEvict c a => .next (s.cacheEvict c a)
  | .tlbFill h t m a => .next (s.tlbFill h t m a)
  | .tlbEvict h t m a => .next (s.tlbEvict h t m a)
  | .vendorAnswer g st => vendorAnswer g st s
  | .engineBegin t c n => .next (s.engineBegin t c n)
  | .tile k => .next (s.tileExit k)
  | .temperature n => .next (s.measure n)
  | .hvTeam t c w e => .next (s.placeHypervisor t c w e)
  | .cycles c n => .next (s.setCore c { s.core c with cyc := (s.core c).cyc + BitVec.ofNat 64 n })

/-- One step. -/
def step (s : State) : Host.Outcome State Fault Refusal :=
  match s.agenda with
  | [] => issue s
  | c :: r => perform c { s with agenda := r }

/-- The state with an instruction stored where the next step fetches it. -/
def State.withFetchWord (s : State) (nbits w : Nat) : State := s.placeWord nbits w

end Sys2Proof.Machine
end

