-- ==== Sys2Proof/Safety.lean ====
section
/-! DEFINITION. What counts as a safe run, and the terms in which claims speak of the machine: when a stream can issue, and the state
after an instruction has retired. -/

namespace Sys2Proof

/-- `k` steps from a state end in a state: neither a fault nor a refusal is met. -/
def SafeFor (k : Nat) (s : Machine.State) : Prop := ∃ t, Host.Core.run Sys2Proof.core k s = .next t

namespace Machine

/-- The scalar stream in focus can issue: its team and group are there, the group has not exited, none of its ordered operations
waits, and a halt leaves it room (R97, R108, R232). -/
structure ScalarReady (s : State) (t : Team) (g : Group) : Prop where
  team  : s.team? s.focus.team = some t
  group : s.group? s.focus = some g
  issue : scalarMayIssue t g = true

/-- The fragment `fid` in focus can issue an instruction with a header's guard (R97, R232, R329). -/
structure LaneReady (s : State) (t : Team) (g : Group) (fid : Nat) (f : Fragment) (h : LHdr) : Prop where
  team   : s.team? s.focus.team = some t
  group  : s.group? s.focus = some g
  stream : s.stream = .lane fid
  frag   : aget g.frags fid = some f
  issue  : laneMayIssue t g fid f = true
  guard  : g.predBusy h.pr = false

/-- The context in which a lane instruction of a fragment runs; `w` is W, the lanes of the fragment's mask whose guard is true
(R329). -/
def laneCtx (g : Group) (fid : Nat) (f : Fragment) (h : LHdr) : LaneCtx :=
  { fid := fid, frag := f, w := f.mask &&& if h.pn then ~~~(g.pred h.pr) else g.pred h.pr }

/-- One more where the condition holds. -/
def one (b : Bool) : Nat := if b then 1 else 0

/-- The group of the stream in focus and its team's quantum count after an instruction: nothing else changes. -/
def withGroup (s : State) (t : Team) (g : Group) (user : Bool) : State :=
  let t' : Team := { t with quantum := t.quantum + one user, groups := aset t.groups s.focus.group g }
  { s with teams := aset s.teams s.focus.team t' }

/-- The state after a scalar instruction of the group in focus that leaves the group as `g` and goes on at `pc`: in user mode
LCLOCK, the team's quantum count and, under a halt, the skid count go up by 1 (R106, R112, R232); an instruction that had waited waits no
more; nothing else changes. -/
def scalarNext (s : State) (t : Team) (g : Group) (user : Bool) (pc : W64) : State :=
  withGroup s t { g with pc := pc, syncing := false, held := false, ordered := g.ordered.filter (·.stream != .scalar), lclock := g.lclock + BitVec.ofNat 64 (one user),
                         scalarSkid := g.scalarSkid + one (user && t.halt.isSome) } user

/-- The state after a lane instruction of fragment `fid` that leaves the group as `g`: the same counts, the latch run carried on or
ended (R138, R139), nothing of the fragment waiting any more, and the fragment the one that runs (R110; `turn` says that the instruction
itself decides it); nothing else changes. -/
def laneNext (s : State) (t : Team) (g : Group) (fid : Nat) (user alu : Bool) (push : Option Tag) (turn : Bool := false) : State :=
  withGroup s t { g.retired fid alu push turn with lclock := g.lclock + BitVec.ofNat 64 (one user),
                                                   laneSkid := g.laneSkid + one (user && t.halt.isSome) } user

/-- A group with a scalar register written: s0 stays, and a load on its way into the register delivers nowhere. -/
def wrote (g : Group) (d : SReg) (v : W64) : Group := { g.setSreg d v with accesses := g.accesses.map (·.dropSreg d) }

/-- No load is on its way into one of the registers (R158). -/
def ScalarsHere (g : Group) (l : List SReg) : Prop := ∀ x ∈ l, g.sregPending x = false

/-- The fragment goes on at the next lane instruction (R292). -/
def Group.advance (g : Group) (fid : Nat) : Group := { g with frags := aupd g.frags fid fun f => { f with pc := f.pc + 12 } }

/-- A source as a fragment finds it (R293, R329): none for a register that is released or that it may not touch yet, a k register in
user mode, a latch that is not valid, or the head of an empty queue. -/
def sourceTag (t : Team) (g : Group) (fid : Nat) (f : Fragment) : Src → Option Tag
  | .v n => if g.vregBusy fid n || g.view t.pbase n.toNat == .released then none else some (g.view t.pbase n.toNat)
  | .k n => if f.mode = .user ∨ (g.kreg n.toNat).tag = .released then none else some (g.kreg n.toNat).tag
  | .latch n => (g.runOf fid).bind fun r => r.pushes[n.toNat]?
  | .sq => g.sq.head?.map fun x => .uniform (x.setWidth 32)

/-- The values of a list of sources. -/
def Sources (t : Team) (g : Group) (fid : Nat) (f : Fragment) (l : List Src) (ts : List Tag) : Prop :=
  l.map (sourceTag t g fid f) = ts.map some

/-- W: the lanes of the fragment's mask whose guard is true (R329). -/
def written (g : Group) (f : Fragment) (h : LHdr) : LaneMask := f.mask &&& if h.pn then ~~~(g.pred h.pr) else g.pred h.pr

/-- Registers written one after another, where a slot is found for each (R132, R133, R136). -/
def writeAll (pbase : Nat) (shadow : Bool) (w : LaneMask) (cc : Nat) : Group → List (VReg × Tag) → Option Group
  | g, [] => some g
  | g, (d, x) :: r => (g.writeV pbase shadow d.toNat w x cc).bind fun g' => writeAll pbase shadow w cc g' r

end Machine

end Sys2Proof
end

