-- ==== Sys2Proof/Certificates/Slice0/Obligations.lean ====
section
/-! DEFINITION. The statements about the machine, each after the rules of spec/ that it formalises, with the terms they are made
of. -/

section

open Sys2Proof Sys2Proof.Machine

/-! ## The scalar stream -/

namespace Sys2Proof.Claims

/-- What a scalar form of R305 and R306 writes, of registers read by `r`: its destination and the value. -/
def scalarValue (r : SReg → W64) : Instr → Option (SReg × W64)
  | .add d a b => some (d, r a + r b)
  | .sub d a b => some (d, r a - r b)
  | .mul d a b => some (d, r a * r b)
  | .mulhi d a b => some (d, ((r a).signExtend 128 * (r b).signExtend 128).extractLsb' 64 64)
  | .mulhu d a b => some (d, ((r a).setWidth 128 * (r b).setWidth 128).extractLsb' 64 64)
  | .and d a b => some (d, r a &&& r b)
  | .or d a b => some (d, r a ||| r b)
  | .xor d a b => some (d, r a ^^^ r b)
  | .andn d a b => some (d, r a &&& ~~~(r b))
  | .shl d a b => some (d, r a <<< ((r b).extractLsb' 0 6).toNat)
  | .shr d a b => some (d, r a >>> ((r b).extractLsb' 0 6).toNat)
  | .sar d a b => some (d, (r a).sshiftRight ((r b).extractLsb' 0 6).toNat)
  | .min d a b => some (d, if (r a).toInt ≤ (r b).toInt then r a else r b)
  | .max d a b => some (d, if (r a).toInt ≥ (r b).toInt then r a else r b)
  | .minu d a b => some (d, if (r a).toNat ≤ (r b).toNat then r a else r b)
  | .maxu d a b => some (d, if (r a).toNat ≥ (r b).toNat then r a else r b)
  | .slt d a b => some (d, if (r a).toInt < (r b).toInt then 1#64 else 0#64)
  | .sltu d a b => some (d, if (r a).toNat < (r b).toNat then 1#64 else 0#64)
  | .seq d a b => some (d, if r a = r b then 1#64 else 0#64)
  | .sne d a b => some (d, if r a = r b then 0#64 else 1#64)
  | .scalarClz d a => some (d, BitVec.ofNat 64 ((List.range 64).takeWhile fun i => !(r a).getLsbD (63 - i)).length)
  | .scalarPopc d a => some (d, BitVec.ofNat 64 ((List.range 64).countP fun i => (r a).getLsbD i))
  | .scalarSel d a b => some (d, if r d = 0#64 then r b else r a)
  | .addi d a i => some (d, r a + sext64 i)
  | .andi d a i => some (d, r a &&& sext64 i)
  | .ori d a i => some (d, r a ||| sext64 i)
  | .xori d a i => some (d, r a ^^^ sext64 i)
  | .shli d a i => some (d, r a <<< i.toNat)
  | .shri d a i => some (d, r a >>> i.toNat)
  | .sari d a i => some (d, (r a).sshiftRight i.toNat)
  | .slti d a i => some (d, if (r a).toInt < i.toInt then 1#64 else 0#64)
  | .lui d i => some (d, sext64 (i ++ 0#12))
  | _ => none

/-- The registers that a scalar form reads. -/
def scalarReads : Instr → List SReg
  | .add _ a b | .sub _ a b | .mul _ a b | .mulhi _ a b | .mulhu _ a b | .and _ a b | .or _ a b | .xor _ a b | .andn _ a b
  | .shl _ a b | .shr _ a b | .sar _ a b | .min _ a b | .max _ a b | .minu _ a b | .maxu _ a b | .slt _ a b | .sltu _ a b
  | .seq _ a b | .sne _ a b => [a, b]
  | .scalarSel d a b => [a, b, d]
  | .scalarClz _ a | .scalarPopc _ a | .addi _ a _ | .andi _ a _ | .ori _ a _ | .xori _ a _ | .shli _ a _ | .shri _ a _
  | .sari _ a _ | .slti _ a _ => [a]
  | .beq a b _ | .bne a b _ | .blt a b _ | .bge a b _ | .bltu a b _ | .bgeu a b _ => [a, b]
  | .jr _ a | .scalarLd _ a _ _ | .scalarLds _ a _ _ | .sqpush a | .lrun a | .fmt a | .acopy _ a | .acopyx _ a | .agath _ a
  | .rcopy _ a | .scalarWait _ a | .tread _ a | .knotArrive a | .tset a | .tclr a | .cpost _ a | .cstat _ a | .kcfgStatus _ a
  | .kdrain a | .kcfgDefine _ a | .kcfgStream _ a | .kcfgClear _ a | .kcfgAttach _ a | .tarm _ a | .scalarSysc a | .scalarHcall a | .scalarBrk a | .scalarSrd _ a | .feat _ a | .role a | .mwait _ a => [a]
  | .scalarSt d a _ _ | .amo _ d a _ | .twait d a | .knotWait d a | .knotExpect d a | .knotInit d a
  | .scalarSwr d a => [d, a]
  | _ => []

end Sys2Proof.Claims

open Sys2Proof.Claims

/-- R305, R306: every scalar arithmetic form answers the state in which its destination holds the value the rule gives, the stream goes on at
PC + 4, a load under way into the destination no longer delivers there (a choice of the model), and nothing else has changed but the
counts. What it takes from the choices of the model is named in notes/assumptions/26.md. -/
def Obligations.ScalarArithmeticResult : Prop :=
  ∀ (s : State) (t : Team) (g : Group) (i : Instr) (d : SReg) (v : W64), ScalarReady s t g → ScalarsHere g (scalarReads i) →
    scalarValue g.sreg i = some (d, v) → exec i s = .next (scalarNext s t (wrote g d v) (g.mode == .user) (g.pc + 4))

namespace Sys2Proof.Claims

/-- Where a branch or jump of R309 goes, and the link it writes; yield and nop only go on (R325). -/
def scalarJump (r : SReg → W64) (pc : W64) : Instr → Option (W64 × Option SReg)
  | .yield | .scalarNop => some (pc + 4, none)
  | .j o => some (pc + 4 * sext64 o, none)
  | .jal o => some (pc + 4 * sext64 o, some 1#6)
  | .jr d a => some (r a, some d)
  | .beq a b o => some (if r a = r b then pc + 4 * sext64 o else pc + 4, none)
  | .bne a b o => some (if r a = r b then pc + 4 else pc + 4 * sext64 o, none)
  | .blt a b o => some (if (r a).toInt < (r b).toInt then pc + 4 * sext64 o else pc + 4, none)
  | .bge a b o => some (if (r a).toInt ≥ (r b).toInt then pc + 4 * sext64 o else pc + 4, none)
  | .bltu a b o => some (if (r a).toNat < (r b).toNat then pc + 4 * sext64 o else pc + 4, none)
  | .bgeu a b o => some (if (r a).toNat ≥ (r b).toNat then pc + 4 * sext64 o else pc + 4, none)
  | _ => none

end Sys2Proof.Claims

/-- R309, R325: every branch and jump, yield and nop answers the state in which the stream goes on at the target the rule gives, with the link
register written where it links, a load under way into it no longer delivering there (a choice of the model), and nothing else changed but
the counts. What it takes from the choices of the model is named in notes/assumptions/26.md. -/
def Obligations.ScalarJumpResult : Prop :=
  ∀ (s : State) (t : Team) (g : Group) (i : Instr) (pc : W64) (l : Option SReg), ScalarReady s t g →
    ScalarsHere g (scalarReads i) → scalarJump g.sreg g.pc i = some (pc, l) →
    exec i s = .next (scalarNext s t (match l with | some d => wrote g d (g.pc + 4) | none => g) (g.mode == .user) pc)

/-- R304: s0 reads 0 and is never written. -/
def Obligations.ScalarZeroRegister : Prop :=
  ∀ (g : Group) (v : W64), g.sreg 0#6 = 0#64 ∧ (g.setSreg 0#6 v).sregs = g.sregs ∧ ∀ e, (g.setSreg 0#6 v).sreg e = g.sreg e

namespace Sys2Proof.Claims

/-- The register that a scalar arithmetic form or a jump writes. -/
def written? (g : Group) (i : Instr) : Option SReg :=
  ((scalarValue g.sreg i).map (·.1)).or ((scalarJump g.sreg g.pc i).bind (·.2))

end Sys2Proof.Claims

/-- The frame of the scalar forms that neither touch memory nor a queue: such a form changes its destination register, the pc and the counts
of R106, R112 and R232; it ends what the model keeps of a scalar instruction that waited, and a load under way into the destination no
longer delivers there (a choice of the model); every other register, predicate, queue, special register, trap frame, accumulator, access
under way and byte of memory is as it was. What it takes from the choices of the model is named in notes/assumptions/26.md. -/
def Obligations.ScalarArithmeticFrame : Prop :=
  ∀ (s s' : State) (t : Team) (g : Group) (i : Instr), ScalarReady s t g →
    ((scalarValue g.sreg i).isSome ∨ (scalarJump g.sreg g.pc i).isSome) → exec i s = .next s' →
    ∃ t' g', s'.team? s.focus.team = some t' ∧ s'.group? s.focus = some g' ∧
      (∀ e, some e ≠ written? g i → g'.sreg e = g.sreg e) ∧
      g' = { g with sregs := g'.sregs, pc := g'.pc, lclock := g.lclock + BitVec.ofNat 64 (one (g.mode == .user)),
                    scalarSkid := g.scalarSkid + one (g.mode == .user && t.halt.isSome), syncing := false, held := false,
                    ordered := g.ordered.filter (·.stream != .scalar),
                    accesses := (written? g i).elim g.accesses fun d => g.accesses.map (·.dropSreg d) } ∧
      t' = { t with quantum := t'.quantum, groups := t'.groups } ∧ s' = { s with teams := s'.teams } ∧
      (∀ k, k ≠ s.focus.group → aget t'.groups k = aget t.groups k) ∧
      (∀ k, k ≠ s.focus.team → s'.team? k = s.team? k) ∧
      (∀ a, memGet s'.mem a = memGet s.mem a) ∧ ∀ c a, s'.cachedByte c a = s.cachedByte c a

/-! ## Memory accesses of the scalar stream -/

namespace Sys2Proof.Claims

/-- A group with one more access outstanding, under the next number; one on a path that has no active lane and orders nothing returns at
once (R159). -/
def issued (g : Group) (a : Access) : Group :=
  { g with accesses := pruneAccesses (g.accesses ++
             [{ a with id := g.nextId, home := false, done := a.path.isSome && a.active == 0#96 && a.order == .plain }]),
           nextId := g.nextId + 1 }

/-- Bytes that a scalar load or store moves (R307). -/
def byteCount : SSize → Nat
  | .b => 1
  | .h => 2
  | .w => 4
  | .d => 8

/-- A scalar load of R307: destination, base, size, whether it extends the sign, offset. -/
def loadForm : Instr → Option (SReg × SReg × SSize × Bool × BitVec 12)
  | .scalarLd d a z i => some (d, a, z, false, i)
  | .scalarLds d a z i => some (d, a, z, true, i)
  | _ => none

/-- R158, R307: a scalar load whose address is aligned and translates issues its access and goes on; the value arrives later, and
until then only a read of sD waits. An earlier load under way into sD no longer delivers there (a choice of the model). -/
def LoadIssue : Prop :=
  ∀ (s : State) (t : Team) (g : Group) (i : Instr) (d a : SReg) (z : SSize) (sx : Bool) (o : BitVec 12) (pa : Nat),
    ScalarReady s t g → ScalarsHere g [a] → loadForm i = some (d, a, z, sx, o) → (g.sreg a + sext64 o).toNat % byteCount z = 0 →
    s.translate t.tenant t.core g.mode (g.sreg a + sext64 o).toNat 1#4 = .ok pa →
    exec i s = .next (scalarNext s t
      (issued { g with accesses := g.accesses.map (·.dropSreg d) }
        { newAccess (.scalarLoad d sx) with items := [scalarItem pa (byteCount z) []] }) (g.mode == .user) (g.pc + 4))

/-- What `n` bytes, lowest first, load as: extended by zeros, or by their highest bit (R307). -/
def loadedValue (n : Nat) (sx : Bool) (bs : List Byte) : W64 :=
  if sx ∧ 2 ^ (8 * n - 1) ≤ leNat bs then BitVec.ofInt 64 (leNat bs - 2 ^ (8 * n)) else BitVec.ofNat 64 (leNat bs)

/-- R307: when the value of a scalar load arrives, sD receives the bytes that its cluster finds at the address, zero- or
sign-extended, and nothing else changes but the list of outstanding accesses. -/
def LoadValue : Prop :=
  ∀ (s : State) (t : Team) (g : Group) (r : GRef) (id : Nat) (d : SReg) (sx : Bool) (z : SSize) (pa : Nat),
    s.team? r.team = some t → s.group? r = some g →
    g.ready id = some { newAccess (.scalarLoad d sx) with id := id, items := [scalarItem pa (byteCount z) []] } →
    exec (.scalarLoadReturn r id) s = .next (s.updGroup r fun g =>
      { g.setSreg d (loadedValue (byteCount z) sx ((List.range (byteCount z)).map fun k => s.cachedByte (clusterOf t.core) (pa + k)))
        with accesses := markDone id g.accesses })

end Sys2Proof.Claims

/-- R307: a scalar store of the low bytes of sD, at an address that is aligned and translates, is a plain access at group scope. What it takes
from the choices of the model is named in notes/assumptions/24.md. -/
def Obligations.ScalarStoreResult : Prop :=
  ∀ (s : State) (t : Team) (g : Group) (d a : SReg) (z : SSize) (o : BitVec 12) (pa : Nat),
    ScalarReady s t g → ScalarsHere g [d, a] → (g.sreg a + sext64 o).toNat % byteCount z = 0 →
    s.translate t.tenant t.core g.mode (g.sreg a + sext64 o).toNat 2#4 = .ok pa → g.noAcquire = true →
    g.bytesFree false ((List.range (byteCount z)).map (pa + ·)) = true →
    exec (.scalarSt d a z o) s = .next (scalarNext
      (s.storeBytes s.focus (clusterOf t.core) false (bytesAt pa (leBytes (byteCount z) (g.sreg d).toNat))) t g (g.mode == .user)
      (g.pc + 4))

namespace Sys2Proof.Claims

/-- The bytes of memory that no copy hides: the byte that a cluster holds dirty, or the home slice's. -/
def coherent (s : State) (c a : Nat) : Byte := ((aget (s.cluster c).dirty a).map (·.val)).getD (memGet s.mem a)

end Sys2Proof.Claims

/-- The frame of a store by a group of cluster `c` of the bytes `bs` at physical address `pa` (R152, R155): its own cluster reads the bytes
there; no other cluster has changed; where the cluster has a cache way, device memory has not changed at all and its own cluster reads
every other byte as before; where it has none, device memory has the bytes, every other byte that the cluster did not hold dirty is as it
was, and one that it did hold dirty may have been written back. -/
def Obligations.StoreFrame : Prop :=
  ∀ (s s' : State) (r : GRef) (c pa : Nat) (bs : List Byte), s.mem.wf = true →
    s' = s.storeBytes r c false (bytesAt pa bs) →
    (∀ k, (h : k < bs.length) → s'.cachedByte c (pa + k) = bs[k]) ∧
    (∀ x, x < pa ∨ pa + bs.length ≤ x →
      (memGet s'.mem x = memGet s.mem x ∨ ∃ d, (x, d) ∈ (s.cluster c).dirty ∧ memGet s'.mem x = d.val) ∧
      ((s.cluster c).hasCache = true ∨ aget (s.cluster c).dirty x = none → coherent s' c x = coherent s c x)) ∧
    (∀ k, k ≠ c → s'.cluster k = s.cluster k) ∧
    ((s.cluster c).hasCache = true → s'.mem = s.mem ∧
      ∀ x, x < pa ∨ pa + bs.length ≤ x → s'.cachedByte c x = s.cachedByte c x) ∧
    ((s.cluster c).hasCache = false → ∀ k, (h : k < bs.length) → memGet s'.mem (pa + k) = bs[k]) ∧
    s' = { s with mem := s'.mem, watch := s'.watch, clusters := s'.clusters }

namespace Sys2Proof.Claims

/-- R308: amo issues an .ar access at device scope, and the stream goes on; an earlier load under way into sD no longer delivers there (a choice
of the model). -/
def AtomicIssue : Prop :=
  ∀ (s : State) (t : Team) (g : Group) (op : AmoOp) (d a : SReg) (o : BitVec 8) (pa : Nat),
    ScalarReady s t g → ScalarsHere g [d, a] → t.isOrdered = false → (g.sreg a + sext64 o).toNat % 8 = 0 →
    s.translate t.tenant t.core g.mode (g.sreg a + sext64 o).toNat 3#4 = .ok pa →
    exec (.amo op d a o) s = .next (scalarNext s t
      (issued { g with accesses := g.accesses.map (·.dropSreg d) }
        { newAccess (.amo op d) with scope := .dev, order := .ar, items := [scalarItem pa 8 (leBytes 8 (g.sreg d).toNat)] })
      (g.mode == .user) (g.pc + 4))

/-- The new word of an amo (R308). -/
def amoNew (op : AmoOp) (old v : W64) : W64 :=
  match op with
  | .add => old + v
  | .and => old &&& v
  | .or => old ||| v
  | .xor => old ^^^ v
  | .min => if old.toInt ≤ v.toInt then old else v
  | .max => if old.toInt ≥ v.toInt then old else v
  | .minu => if old.toNat ≤ v.toNat then old else v
  | .maxu => if old.toNat ≥ v.toNat then old else v
  | .xchg => v

/-- R199, R308: an amo performs as one event: a device-scope release of what precedes it, the new word at the home slice, an acquire,
and the old word in sD. -/
def AtomicValue : Prop :=
  ∀ (s : State) (t : Team) (g : Group) (r : GRef) (id : Nat) (op : AmoOp) (d : SReg) (v : W64) (pa : Nat),
    s.team? r.team = some t → s.group? r = some g →
    g.ready id = some { newAccess (.amo op d) with id := id, scope := .dev, order := .ar,
                                                   items := [scalarItem pa 8 (leBytes 8 v.toNat)] } →
    let c := clusterOf t.core
    let s1 := (s.release r c true).openLines c ((List.range 8).map (pa + ·))
    let old := BitVec.ofNat 64 (leNat (memGetN s1.mem pa 8))
    exec (.scalarLoadReturn r id) s = .next
      (((s1.homeWrite (bytesAt pa (leBytes 8 (amoNew op old v).toNat))).acquire c true).updGroup r fun g =>
        { g.setSreg d old with accesses := markDone id g.accesses })

/-- A scalar access of R307 and R308: its base, offset, size and what it needs of a page. -/
def scalarAccess : Instr → Option (SReg × W64 × Nat × Need)
  | .scalarLd _ a z i | .scalarLds _ a z i => some (a, sext64 i, byteCount z, 1#4)
  | .scalarSt _ a z i => some (a, sext64 i, byteCount z, 2#4)
  | .amo _ _ a i => some (a, sext64 i, 8, 3#4)
  | _ => none

end Sys2Proof.Claims

/-- R307, R308: an address that is no multiple of the size raises MISALIGNED with that address, one that does not translate raises XLATE with
the reason of R171, and an amo of an ordered launch raises ORDERED_SCOPE. What it takes from the choices of the model is named in
notes/assumptions/21.md. -/
def Obligations.ScalarAccessTraps : Prop :=
  ∀ (s : State) (t : Team) (g : Group) (i : Instr) (a : SReg) (o : W64) (n : Nat) (nd : Need),
    ScalarReady s t g → ScalarsHere g (scalarReads i) → scalarAccess i = some (a, o, n, nd) →
    let ea := g.sreg a + o
    let orderedAmo := (∃ op d a o, i = .amo op d a o) ∧ t.isOrdered = true
    (orderedAmo → exec i s = .next (s.takeScalarTrap s.focus
      { cause := .orderedScope, lane := none, info := 0, bad := 0, set := none })) ∧
    (¬ orderedAmo → ea.toNat % n ≠ 0 → exec i s = .next (s.takeScalarTrap s.focus
      { cause := .misaligned, lane := none, info := 0, bad := ea, set := none })) ∧
    (¬ orderedAmo → ea.toNat % n = 0 → ∀ reason bad, s.translate t.tenant t.core g.mode ea.toNat nd = .fail reason bad →
      exec i s = .next (s.takeScalarTrap s.focus
        { cause := .xlate, lane := none, info := BitVec.ofNat 32 reason, bad := BitVec.ofNat 64 bad, set := none }))

/-- R158, R307, R308: a scalar load or amo whose address is aligned and translates issues its access, of its scope and order, and the stream
goes on; the value arrives later, and an earlier load under way into the destination no longer delivers there. What it takes from the
choices of the model is named in notes/assumptions/24.md, 26.md. -/
def Obligations.ScalarReadIssue : Prop := LoadIssue ∧ AtomicIssue

/-- R199, R307, R308: what the arriving access of a scalar load or amo reads, writes and delivers. What it takes from the choices of the model
is named in notes/assumptions/24.md. -/
def Obligations.ScalarReadValue : Prop := LoadValue ∧ AtomicValue

/-! ## Queues, dispatch and waits of the scalar stream -/

namespace Sys2Proof.Claims

/-- A value that FMTR may hold (R130): both operand codes at most 8, and bits [10:8] and [63:16] zero. -/
def FormatOk (v : W64) : Prop :=
  (v.extractLsb' 0 4).toNat ≤ 8 ∧ (v.extractLsb' 4 4).toNat ≤ 8 ∧ v.extractLsb' 8 3 = 0#3 ∧ v.extractLsb' 16 48 = 0#48

/-- The lane stream has nothing to do (R122). -/
def LaneIdle (g : Group) : Prop := g.frags = [] ∧ g.dispatch = []

/-- What a queue, dispatch or wait form that does not wait leaves of its group. -/
inductive QueueForm (t : Team) (g : Group) : Instr → Group → Prop
  | push (a : SReg) : g.sq.length < 16 → QueueForm t g (.sqpush a) { g with sq := g.sq ++ [g.sreg a] }
  | pop (d : SReg) (x : W64) (r : List W64) : g.lq = x :: r → QueueForm t g (.lqpop d) (wrote { g with lq := r } d x)
  | run (a : SReg) (i : W32) : (t.roleOf g).table[(g.sreg a).toNat]? = some i → g.dispatch.length < 4 →
      QueueForm t g (.lrun a) { g with dispatch := g.dispatch ++ [(i, g.fmtr)], laneTurn := g.laneTurn || t.isOrdered }
  | sync : LaneIdle g → QueueForm t g .lsync g
  | format (a : SReg) : FormatOk (g.sreg a) → QueueForm t g (.fmt a) { g with fmtr := g.sreg a }
  | wait (p : Path) (a : SReg) : g.inflight p ≤ (g.sreg a).toNat → QueueForm t g (.scalarWait p a) g

/-- R123, R310, R311, R312, R317: sqpush appends to sq where it is not full, lqpop takes the head of lq, lrun appends a block of the
role's table with the scalar FMTR, lsync goes on once the lane stream is idle, fmt sets FMTR to a valid value, and wait goes on once
the path has at most sA instructions in flight; nothing else changes. -/
def QueueForms : Prop :=
  ∀ (s : State) (t : Team) (g g' : Group) (i : Instr), ScalarReady s t g → ScalarsHere g (scalarReads i) → QueueForm t g i g' →
    exec i s = .next (scalarNext s t g' (g.mode == .user) (g.pc + 4))

/-- R110, R121, R122, R123, R124, R130, R311, R317: a queue the lane stream can never act on again raises QUEUE_ORPHAN, a block outside the table
raises BLOCK_RANGE, and a format that may not be held raises FMT_INVALID; where the lane stream can still act, a form that finds its queue
full or empty, an lrun that finds the dispatch queue full, an lsync whose lane stream is not idle and a wait whose path is over its bound
wait: they change nothing but the mark that the stream waits and, in an ordered launch, whose turn it is (the model's reading of R110). -/
def QueueTraps : Prop :=
  ∀ (s : State) (t : Team) (g : Group) (i : Instr), ScalarReady s t g → ScalarsHere g (scalarReads i) →
    let traps (c : Cause) : Prop := exec i s = .next (s.takeScalarTrap s.focus
      { cause := c, lane := none, info := 0, bad := 0, set := none })
    let stuck : Prop := (∃ a, i = .sqpush a ∧ 16 ≤ g.sq.length) ∨ (∃ d, i = .lqpop d ∧ g.lq = [])
    (stuck → LaneIdle g → traps .queueOrphan) ∧
    (s.stream = .scalar → stuck → ¬ LaneIdle g → exec i s = .next (s.updGroup s.focus fun g =>
      { g with held := true, laneTurn := g.laneTurn || t.isOrdered })) ∧
    (s.stream = .scalar → ∀ a, i = .lrun a → (g.sreg a).toNat < (t.roleOf g).table.length → 4 ≤ g.dispatch.length →
      exec i s = .next (s.updGroup s.focus fun g => { g with held := true, laneTurn := g.laneTurn || t.isOrdered })) ∧
    (i = .lsync → ¬ LaneIdle g → exec i s = .next (s.updGroup s.focus fun g =>
      { g with syncing := true, laneTurn := g.laneTurn || t.isOrdered })) ∧
    (∀ a, i = .lrun a → (t.roleOf g).table.length ≤ (g.sreg a).toNat → traps .blockRange) ∧
    (∀ a, i = .fmt a → ¬ FormatOk (g.sreg a) → traps .fmtInvalid) ∧
    (∀ p a, i = .scalarWait p a → s.stream = .scalar → (g.sreg a).toNat < g.inflight p →
      exec i s = .next (s.updGroup s.focus fun g => { g with held := true }))

end Sys2Proof.Claims

/-- R110, R121, R122, R123, R124, R130, R310, R311, R312, R317: what the queue, dispatch and wait forms do, where they wait, and where they
trap. What it takes from the choices of the model is named in notes/assumptions/28.md, 29.md. -/
def Obligations.ScalarQueueForms : Prop := QueueForms ∧ QueueTraps

/-! ## Timelines, knots and memory waits -/

namespace Sys2Proof.Claims

/-- The value of the timeline that a name names for a team (R46, R162, R163): a queue, a signal, a communicator that is built, or one
of the team's engine contexts; none for any other name. -/
def namedTimeline (s : State) (t : Team) (name : W64) : Option Nat :=
  let i := (name.extractLsb' 0 28).toNat
  let x := s.tenant? t.tenant
  match (name.extractLsb' 28 36).toNat with
  | 1 => if i < 32 then x.map fun x => ((aget x.queues i).map (·.timeline)).getD 0 else none
  | 2 => if i < 256 then x.map fun x => (aget x.signals i).getD 0 else none
  | 3 => x.bind fun x => (aget x.comms i).bind fun c => if c.phase = .building then none else some c.timeline
  | 4 => if i < 8 then (t.ctxs[i]?).map (·.timeline) else none
  | 5 => if i = 0 then (t.ctxs[8]?).map (·.timeline) else none
  | _ => none

/-- A wait for value `v` of the timeline that a name names is one at device scope (R163): any but a context of the team whose first command of
device or system scope has a number above `v`. -/
def waitsWide (t : Team) (name : W64) (v : Nat) : Bool :=
  let ctx : Option Nat := match (name.extractLsb' 28 36).toNat with
    | 4 => some (name.extractLsb' 0 28).toNat
    | 5 => some 8
    | _ => none
  match ctx with
  | some i => match (t.ctxs[i]?).bind (·.wide) with | some n => decide (n ≤ v) | none => false
  | none => true

end Sys2Proof.Claims

/-- R163, R318: twait goes on once the timeline has reached sD, and tread writes its value; either acquires, but for a wait for 0: at device
scope, or, of a context of the team, at device scope where one of the commands up to the value had that scope; a name that names no
timeline raises BAD_HANDLE; a wait for a value that the timeline has not reached only marks the stream as waiting. What it takes from the
choices of the model is named in notes/assumptions/1.md, 29.md, 30.md, 31.md. -/
def Obligations.TimelineForms : Prop :=
  ∀ (s : State) (t : Team) (g : Group) (d a : SReg), ScalarReady s t g → ScalarsHere g [d, a] →
    let acquired (v : Nat) := s.acquire (clusterOf t.core) (waitsWide t (g.sreg a) v)
    (∀ n, namedTimeline s t (g.sreg a) = some n →
      ((g.sreg d).toNat ≤ n → exec (.twait d a) s = .next
        (scalarNext (if g.sreg d = 0#64 then s else acquired (g.sreg d).toNat) t g (g.mode == .user) (g.pc + 4))) ∧
      (s.stream = .scalar → n < (g.sreg d).toNat → exec (.twait d a) s = .next (s.updGroup s.focus fun g => { g with held := true })) ∧
      exec (.tread d a) s = .next (scalarNext (acquired n) t (wrote g d (BitVec.ofNat 64 n)) (g.mode == .user) (g.pc + 4))) ∧
    (namedTimeline s t (g.sreg a) = none → ∀ i, i = .twait d a ∨ i = .tread d a → exec i s = .next (s.takeScalarTrap s.focus
      { cause := .badHandle, lane := none, info := 0, bad := 0, set := none }))

namespace Sys2Proof.Claims

/-- R109, R165, R166: after every operation on a knot its phase is complete when no arrival and no byte is awaited: PHASE toggles, PEND
returns to EXPECT, the scopes and the highest stamp of what the phase received become those of the phase that has completed, and the groups that wait on it wait no
longer; every other knot and every other group is as it was. The last group
arrival of a phase, with stamp c, raises the LCLOCK of every group that waits on the knot to at least c + 1, and leaves the others. -/
def KnotCompletion : Prop :=
  (∀ (t : Team) (n : Nat) (k : Knot), n < t.knots.length →
    let t' := t.knotOp n k none
    t'.knots[n]? = some (if k.pend = 0 ∧ k.bytes = 0 then
      { k with phase := !k.phase, pend := k.expect, wide := false, last := k.wide, stamp := 0, lastStamp := k.stamp } else k) ∧
    (∀ m, m ≠ n → t'.knots[m]? = t.knots[m]?) ∧
    (∀ i, aget t'.groups i = (aget t.groups i).map fun g =>
      if (k.pend = 0 ∧ k.bytes = 0) ∧ g.waitsOn n = true then { g with blocked := none } else g) ∧
    t' = { t with knots := t'.knots, groups := t'.groups }) ∧
  ∀ (t : Team) (n c i : Nat) (g : Group), aget t.groups i = some g → c < 2 ^ 64 - 1 →
    ∃ g', aget (t.rejoin n c).groups i = some g' ∧
      (g.waitsOn n = true → g'.lclock.toNat = max g.lclock.toNat (c + 1) ∧ g'.blocked = some (n, false)) ∧
      (g.waitsOn n = false → g' = g)

/-- R109, R166, R167: an arrival with stamp `c` on a knot of a team. It is none that the knot takes where the phase awaits no arrival. Otherwise
PEND goes down by 1, and the scope of the arrival's release and the phase's highest stamp are kept; where nothing more is awaited, PHASE toggles, PEND
returns to EXPECT, and what was kept becomes that of the completed phase. The last arrival of a phase raises the LCLOCK of every group that waits on
the knot to at least c + 1, in an ordered launch to 1 above the phase's highest stamp (R220, the model's reading: notes/assumptions/93.md), and, where
no byte is awaited, those groups wait no longer. Every other knot and group, and the rest of the team but its quantum count, is as
it was. -/
def KnotArrival : Prop :=
  ∀ (t : Team) (n c : Nat) (w : Bool) (k : Knot), t.knots[n]? = some k →
    let top := if t.isOrdered = true then max (c + 1) k.stamp else c + 1
    (k.pend = 0 → t.arrive n c w = none) ∧
    ∀ p, k.pend = p + 1 → ∃ t', t.arrive n c w = some t' ∧
      t'.knots[n]? = some (if p = 0 ∧ k.bytes = 0
        then { k with phase := !k.phase, pend := k.expect, wide := false, last := k.wide || w, stamp := 0, lastStamp := max k.stamp (c + 1) }
        else { k with pend := p, wide := k.wide || w, stamp := max k.stamp (c + 1) }) ∧
      (∀ m, m ≠ n → t'.knots[m]? = t.knots[m]?) ∧
      (∀ i, aget t.groups i = none → aget t'.groups i = none) ∧
      (∀ i g, aget t.groups i = some g → (g.waitsOn n = false ∨ p ≠ 0) → aget t'.groups i = some g) ∧
      (∀ i g, aget t.groups i = some g → g.waitsOn n = true → p = 0 → top < 2 ^ 64 →
        ∃ g', aget t'.groups i = some g' ∧ g'.lclock.toNat = max g.lclock.toNat top ∧
          g' = { g with lclock := g'.lclock, blocked := if k.bytes = 0 then none else some (n, false) }) ∧
      t' = { t with knots := t'.knots, groups := t'.groups, quantum := t'.quantum }

/-- What a knot form leaves of the state, the team and the group: knot.init and knot.expect on a knot of the team, knot.wait once the
phase has moved on, which in an ordered launch takes up the highest stamp of the phase that has completed (R109, R220), and knot.arrive on a
knot of the team or, outside an ordered launch, of another (R166 to R168, R319). -/
inductive KnotForm (s : State) (t : Team) (g : Group) : Instr → State → Team → Group → Prop
  | init (d a : SReg) (t' : Team) (g' : Group) : (g.sreg a).toNat < 16 → 1 ≤ (g.sreg d).toNat → (g.sreg d).toNat ≤ 255 →
      (∀ e ∈ t.groups, e.2.waitsOn (g.sreg a).toNat = false) → (t.knot (g.sreg a).toNat).bytes = 0 →
      (t.knot (g.sreg a).toNat).pend = (t.knot (g.sreg a).toNat).expect →
      (t' = t.knotOp (g.sreg a).toNat
        { t.knot (g.sreg a).toNat with expect := (g.sreg d).toNat, pend := (g.sreg d).toNat } none) →
      aget t'.groups s.focus.group = some g' → KnotForm s t g (.knotInit d a) s t' g'
  | expect (d a : SReg) (t' : Team) (g' : Group) : (g.sreg a).toNat < 16 →
      -(2 ^ 46) ≤ (t.knot (g.sreg a).toNat).bytes + (g.sreg d).toInt → (t.knot (g.sreg a).toNat).bytes + (g.sreg d).toInt < 2 ^ 46 →
      (t' = t.knotOp (g.sreg a).toNat
        { t.knot (g.sreg a).toNat with bytes := (t.knot (g.sreg a).toNat).bytes + (g.sreg d).toInt } none) →
      aget t'.groups s.focus.group = some g' → KnotForm s t g (.knotExpect d a) s t' g'
  | wait (d a : SReg) (up : Nat) : (g.sreg a).toNat < 16 → (g.sreg d).toNat < 2 →
      (t.knot (g.sreg a).toNat).phase = (g.sreg d == 0#64) →
      (up = if t.isOrdered = true then (t.knot (g.sreg a).toNat).lastStamp - g.lclock.toNat else 0) →
      KnotForm s t g (.knotWait d a) (s.acquire (clusterOf t.core) (t.knot (g.sreg a).toNat).last) { t with quantum := t.quantum + up }
        { g with blocked := none, lclock := g.lclock + BitVec.ofNat 64 up }
  | arrive (a : SReg) (t' : Team) (g' : Group) : (g.sreg a).extractLsb' 4 27 = 0#27 →
      ((g.sreg a).getLsbD 31 = false ∧ (g.sreg a).extractLsb' 32 32 = 0#32 ∨
       (g.sreg a).getLsbD 31 = true ∧ ((g.sreg a).extractLsb' 32 32).toNat = t.tid) →
      ((g.sreg a).extractLsb' 32 32).toNat < ((t.launch.bind s.launch?).map fun l => l.gx * l.gy * l.gz).getD 1 →
      g.drained = true → t.arrive ((g.sreg a).extractLsb' 0 4).toNat g.lclock.toNat false = some t' →
      aget t'.groups s.focus.group = some g' →
      KnotForm s t g (.knotArrive a) (s.release s.focus (clusterOf t.core) false) t' g'
  | arriveOther (a : SReg) (l : Nat) (x : Launch) : (g.sreg a).extractLsb' 4 27 = 0#27 → (g.sreg a).getLsbD 31 = true →
      ((g.sreg a).extractLsb' 32 32).toNat ≠ t.tid → t.isOrdered = false → g.ordered = none → t.launch = some l →
      s.launch? l = some x → ((g.sreg a).extractLsb' 32 32).toNat < x.gx * x.gy * x.gz → g.drained = true →
      KnotForm s t g (.knotArrive a)
        ((s.release s.focus (clusterOf t.core) true).updLaunch l fun l =>
          { l with arrivals := l.arrivals ++ [(((g.sreg a).extractLsb' 32 32).toNat, ((g.sreg a).extractLsb' 0 4).toNat,
                                               g.lclock.toNat)] }) t g

/-- R109, R166, R167, R168, R319: what each knot form does where none of its checks fails and it does not wait; and knot.wait, while
the phase is the one it names, waits and leaves the group marked as waiting on the knot, which takes it out of the ranges of R108 while
an arrival is awaited; where none is, in an ordered launch, it takes up the phase's highest stamp at once (R220). -/
def KnotOperations : Prop :=
  (∀ (s s' : State) (t t' : Team) (g g' : Group) (i : Instr), ScalarReady s t g → ScalarsHere g (scalarReads i) →
    KnotForm s t g i s' t' g' → exec i s = .next (scalarNext s' t' g' (g.mode == .user) (g.pc + 4))) ∧
  ∀ (s : State) (t : Team) (g : Group) (d a : SReg), ScalarReady s t g → ScalarsHere g [d, a] → (g.sreg a).toNat < 16 →
    (g.sreg d).toNat < 2 → (t.knot (g.sreg a).toNat).phase = (g.sreg d == 1#64) →
    let k := t.knot (g.sreg a).toNat
    let s1 := if k.pend = 0 ∧ t.isOrdered = true then s.tick s.focus (k.stamp - g.lclock.toNat) else s
    exec (.knotWait d a) s = .next (s1.updGroup s.focus fun g => { g with blocked := some ((g.sreg a).toNat, k.pend != 0) })

end Sys2Proof.Claims

/-- R109, R165 to R168, R220, R319: what the knot forms do, where they wait, and what every operation on a knot ends with. What it takes from
the choices of the model is named in notes/assumptions/1.md, 29.md, 30.md, 54.md, 93.md. -/
def Obligations.KnotForms : Prop := KnotCompletion ∧ KnotArrival ∧ KnotOperations

namespace Sys2Proof.Claims

/-- What an arrival with stamp `c` on knot `n` of team `team` of launch `l`, of key `k`, makes of a state (R166, R168). -/
inductive ArrivalReaches (s : State) (k : Nat) (l : Launch) (team n c : Nat) : State → Prop
  | taken (key : Nat) (t t' : Team) : s.residentTeam k team = some key → s.team? key = some t → t.arrive n c true = some t' →
      ArrivalReaches s k l team n c (s.setTeam key t')
  | over (key : Nat) (t : Team) : s.residentTeam k team = some key → s.team? key = some t → t.arrive n c true = none →
      ArrivalReaches s k l team n c (s.updTenant l.tenant fun x => { x with knotdisc := x.knotdisc + 1 })
  | kept : s.residentTeam k team = none → (l.saved.any (·.2.tid == team) = true ∨ l.next ≤ team ∧ team ∉ l.exited) →
      ArrivalReaches s k l team n c (s.updLaunch k fun l => { l with held := l.held ++ [(team, n, c)] })
  | gone : s.residentTeam k team = none → l.saved.any (·.2.tid == team) = false → (l.next > team ∨ team ∈ l.exited) →
      ArrivalReaches s k l team n c (s.updTenant l.tenant fun x => { x with knotdisc := x.knotdisc + 1 })

end Sys2Proof.Claims

/-- R166, R168: an arrival on its way reaches the knot of its resident team, and does there what an arrival does, as one that releases at
device scope; one that the knot does not await is discarded and counted in KNOTDISC; one for a team not placed yet, or pre-empted, is
held. What it takes from the choices of the model is named in notes/assumptions/1.md, 93.md. -/
def Obligations.RemoteArrival : Prop :=
  KnotArrival ∧ ∀ (s s' : State) (l : Launch) (k index team n c : Nat), s.launch? k = some l → l.arrivals[index]? = some (team, n, c) →
    ArrivalReaches (s.updLaunch k fun l => { l with arrivals := l.arrivals.eraseIdx index }) k l team n c s' →
    exec (.knotRemoteArrival k index) s = .next s'

namespace Sys2Proof.Claims

/-- R238, R326: mwait arms a watch at the line of its address and waits; once the wait has ended, it writes the status and goes on. -/
def WaitArms : Prop :=
  ∀ (s : State) (t : Team) (g : Group) (d a : SReg), ScalarReady s t g → ScalarsHere g [a] →
    (∀ w n, g.mwait = some w → w.result = some n →
      exec (.mwait d a) s = .next (scalarNext s t (wrote { g with mwait := none } d (BitVec.ofNat 64 n)) (g.mode == .user)
        (g.pc + 4))) ∧
    (∀ w, g.mwait = some w → w.result = none → exec (.mwait d a) s = .next s) ∧
    (∀ pa, g.mwait = none → (g.sreg a).toNat % 8 = 0 → s.translate t.tenant t.core g.mode (g.sreg a).toNat 1#4 = .ok pa →
      exec (.mwait d a) s = .next
        ({ s with watch := aset s.watch (pa / 128) (s.lineWrites (pa / 128)) }.updGroup s.focus fun g =>
          { g with mwait := some { line := pa / 128, seen := s.lineWrites (pa / 128), armed := (s.core t.core).cyc,
                                   result := none } }))

/-- R326: what ends a wait of mwait: a write to the line after arming (status 0), or 2^20 cycles of the core (status 1). -/
def WaitEnds : Prop :=
  ∀ (s : State) (t : Team) (g : Group) (r : GRef) (w : MWatch), s.team? r.team = some t → s.group? r = some g →
    g.mwait = some w → w.result = none →
    let ended (n : Nat) := s.updGroup r fun g => { g with mwait := some { w with result := some n } }
    (w.seen < s.lineWrites w.line → exec (.mwaitWritten r) s = .next (ended 0)) ∧
    (w.seen ≥ s.lineWrites w.line → exec (.mwaitWritten r) s = .next s) ∧
    (2 ^ 20 ≤ ((s.core t.core).cyc - w.armed).toNat → exec (.mwaitTimeout r) s = .next (ended 1)) ∧
    (((s.core t.core).cyc - w.armed).toNat < 2 ^ 20 → exec (.mwaitTimeout r) s = .next s)

end Sys2Proof.Claims

/-- R238, R326: mwait from its arming to its end. What it takes from the choices of the model is named in notes/assumptions/1.md, 57.md,
76.md. -/
def Obligations.MemoryWait : Prop := WaitArms ∧ WaitEnds

/-! ## Engines, communicators and Grove partitions from the scalar stream -/

namespace Sys2Proof.Claims

/-- The four engine instructions with SEL (R313). -/
def engineForm : Instr → Option (Nat × SReg × SReg)
  | .acopy d a => some (0, d, a)
  | .acopyx d a => some (1, d, a)
  | .agath d a => some (2, d, a)
  | .rcopy d a => some (3, d, a)
  | _ => none

/-- A record of `n` bytes, aligned to its size, that the scalar stream of `g` reads at the address in a register: the bytes as plain
loads find them now. -/
def RecordAt (s : State) (t : Team) (g : Group) (a : SReg) (n : Nat) (bs : List Byte) : Prop :=
  (g.sreg a).toNat % n = 0 ∧ g.noAcquire = true ∧ ∃ l, s.translateRange t.tenant t.core g.mode (g.sreg a).toNat n 1#4 = .ok (some l) ∧
    g.bytesFree false (pieceAddrs l) = true ∧ bs = (pieceAddrs l).map (s.cachedByte (clusterOf t.core))

end Sys2Proof.Claims

/-- R314, R316: an engine instruction with a valid descriptor queues one command, numbered one more than the last, on its context, after a
release at the command's scope, and writes its sequence number; an invalid descriptor, or an rcopy whose communicator is not held or
broken, writes −2 or −3 and queues nothing. -/
def Obligations.EngineIssue : Prop :=
  ∀ (s : State) (t : Team) (g : Group) (i : Instr) (kind : Nat) (d a : SReg) (bs : List Byte), ScalarReady s t g →
    ScalarsHere g [a] → engineForm i = some (kind, d, a) → RecordAt s t g a 64 bs →
    let e := engineDesc kind bs
    let ok := e.valid = true ∧ e.scratchFits t.scratchBytes = true
    let next (s : State) (t : Team) (v : W64) := Host.Outcome.next (scalarNext s t (wrote g d v) (g.mode == .user) (g.pc + 4))
    (¬ ok → exec i s = next s t (-2#64)) ∧
    (∀ n, ok → rcopyRefusal (s.tenant? t.tenant) e = some n → exec i s = next s t (BitVec.ofInt 64 n)) ∧
    (∀ x, ok → rcopyRefusal (s.tenant? t.tenant) e = none → t.ctxs[e.context]? = some x → x.cmds.length < 64 → g.drained = true →
      exec i s = next (s.release s.focus (clusterOf t.core) (3 ≤ e.scope))
        { t with ctxs := t.ctxs.set e.context (x.queue e s.focus.group g.mode) }
        (BitVec.ofNat 64 (x.issued + 1)))

namespace Sys2Proof.Claims

/-- R69, R72: cpost, outside an ordered launch, posts the next instance of its communicator after a release at device scope and writes
its sequence number, or writes why it does not; cstat writes the state of an instance, and raises BAD_HANDLE for a communicator that
the tenant does not hold. -/
def CommunicatorForms : Prop :=
  ∀ (s : State) (t : Team) (g : Group) (x : Tenant) (d a : SReg), ScalarReady s t g → ScalarsHere g [a] →
    s.tenant? t.tenant = some x →
    let next (s : State) (v : W64) := Host.Outcome.next (scalarNext s t (wrote g d v) (g.mode == .user) (g.pc + 4))
    (∀ bs, RecordAt s t g a 64 bs → t.isOrdered = false → g.ordered = none →
      (∀ n, s.postRefusal x (postDesc bs) = some n → exec (.cpost d a) s = next s (BitVec.ofInt 64 n)) ∧
      (s.postRefusal x (postDesc bs) = none → g.drained = true →
        let r := (s.release s.focus (clusterOf t.core) true).post t.tenant (postDesc bs)
        exec (.cpost d a) s = next r.1 (BitVec.ofNat 64 r.2))) ∧
    (∀ c, x.heldComm (3 * 2 ^ 28 + (g.sreg a).toNat / 2 ^ 48) = some c →
      exec (.cstat d a) s = next s (c.stat ((g.sreg a).toNat % 2 ^ 48))) ∧
    (x.heldComm (3 * 2 ^ 28 + (g.sreg a).toNat / 2 ^ 48) = none → exec (.cstat d a) s = .next (s.takeScalarTrap s.focus
      { cause := .badHandle, lane := none, info := 0, bad := 0, set := none }))

/-- A partition of the core of team `t` replaced. -/
def withPart (s : State) (t : Team) (k : Nat) (q : Partition) : State :=
  s.setCore t.core { s.core t.core with parts := aset (s.core t.core).parts k q }

/-- No operation of the group in focus waits at a port of its core (R188, R190). -/
def NoneAtPort (s : State) (t : Team) : Prop := ∀ e ∈ (s.core t.core).parts, ∀ x ∈ e.2.tokens, x.g ≠ s.focus

/-- Index `n` names partition `q`, of key `k`, to team `t`, and no operation waits at its port, nor one of this group at any (R174, R182, R188,
R190). -/
def PartFree (s : State) (t : Team) (n k : Nat) (q : Partition) : Prop :=
  (if n < 24 then t.parts[n]? else aget t.attach n) = some k ∧ aget (s.core t.core).parts k = some q ∧ q.tokens = [] ∧ NoneAtPort s t

/-- The stream that a STREAM record names, from consumer index `c` (R180, R186). -/
def streamOf (bs : List Byte) (c : W32) : GStream :=
  { sbase := BitVec.ofNat 64 (fieldAt bs 8 8), slog := fieldAt bs 2 1, p := c, pidx := BitVec.ofNat 64 (fieldAt bs 0x10 8),
    cidx := BitVec.ofNat 64 (fieldAt bs 0x18 8) }

/-- What a kcfg with a valid record of its KOP leaves of the state, and what it writes (R180 to R182, R186). -/
inductive KcfgForm (s : State) (t : Team) (g : Group) (bs : List Byte) : Instr → SReg → SReg → State → W64 → Prop
  | define (d a : SReg) (k : Nat) (q : Partition) : fieldAt bs 0 1 = 0 → PartFree s t (fieldAt bs 1 1) k q → q.entries = [] →
      KcfgForm s t g bs (.kcfgDefine d a) d a (withPart s t k
        { q with width := fieldAt bs 2 1, gop := fieldAt bs 3 1, evict := fieldAt bs 4 1 == 1, fullcnt := 0, ovfcnt := 0,
                 limit := if fieldAt bs 8 4 = 0 then 65536 / (8 * 2 ^ fieldAt bs 2 1) else fieldAt bs 8 4 }) 0#64
  | defineFull (d a : SReg) (k : Nat) (q : Partition) : fieldAt bs 0 1 = 0 → PartFree s t (fieldAt bs 1 1) k q → q.entries ≠ [] →
      KcfgForm s t g bs (.kcfgDefine d a) d a (withPart s t k q) (-2#64)
  | unstream (d a : SReg) (k : Nat) (q : Partition) : fieldAt bs 0 1 = 1 → fieldAt bs 2 1 = 0 → PartFree s t (fieldAt bs 1 1) k q →
      KcfgForm s t g bs (.kcfgStream d a) d a (withPart s t k { q with stream := none }) 0#64
  | stream (d a : SReg) (k : Nat) (q : Partition) (lc lp lr : List (Nat × Nat)) (s1 : State) (c : W32) :
      fieldAt bs 0 1 = 1 → fieldAt bs 2 1 ≠ 0 → PartFree s t (fieldAt bs 1 1) k q → g.readsDone = true →
      s.translateRange t.tenant t.core g.mode (fieldAt bs 0x18 8) 4 1#4 = .ok (some lc) →
      s.translateRange t.tenant t.core g.mode (fieldAt bs 0x10 8) 4 2#4 = .ok (some lp) →
      s1 = s.openLines (clusterOf t.core) (pieceAddrs lc) →
      s1.translateRange t.tenant t.core g.mode (fieldAt bs 0x18 8) 4 1#4 = .ok (some lr) →
      c = BitVec.ofNat 32 (leNat ((pieceAddrs lr).map (memGet s1.mem))) →
      KcfgForm s t g bs (.kcfgStream d a) d a
        (withPart ((s1.acquire (clusterOf t.core) true).storeBytes s.focus (clusterOf t.core) true
          ((pieceAddrs lp).zip (leBytes 4 c.toNat))) t k { q with stream := some (streamOf bs c) }) 0#64
  | clear (d a : SReg) (k : Nat) (q : Partition) : fieldAt bs 0 1 = 2 → PartFree s t (fieldAt bs 1 1) k q →
      KcfgForm s t g bs (.kcfgClear d a) d a (withPart s t k { q with entries := [], stale := [] }) 0#64
  | status (d a : SReg) (k : Nat) (q : Partition) : fieldAt bs 0 1 = 3 → PartFree s t (fieldAt bs 1 1) k q →
      KcfgForm s t g bs (.kcfgStatus d a) d a (withPart s t k q) (q.status s.focus.team)
  | attachNone (d a : SReg) : fieldAt bs 0 1 = 4 → t.preempt = false ∨ t.isOrdered = true →
      attachTarget s t (fieldAt bs 8 4) (fieldAt bs 2 1) = none →
      NoneAtPort s t → KcfgForm s t g bs (.kcfgAttach d a) d a s (-3#64)

/-- R179, R180, R181, R182, R186: each kcfg with a valid record configures, streams, clears, reports or attaches, and writes its
result. ATTACH of another team's partition also enters it among the team's own and this team among those attached. -/
def GroveConfig : Prop :=
  (∀ (s s' : State) (t : Team) (g : Group) (i : Instr) (d a : SReg) (bs : List Byte) (v : W64), ScalarReady s t g →
    ScalarsHere g [a] → RecordAt s t g a 32 bs → kcfgValid bs = true → KcfgForm s t g bs i d a s' v → exec i s = .next (scalarNext s' t (wrote g d v) (g.mode == .user) (g.pc + 4))) ∧
  ∀ (s : State) (t : Team) (g : Group) (d a : SReg) (bs : List Byte) (k : Nat) (q : Partition), ScalarReady s t g →
    ScalarsHere g [a] → RecordAt s t g a 32 bs → kcfgValid bs = true → fieldAt bs 0 1 = 4 → t.preempt = false ∨ t.isOrdered = true →
    NoneAtPort s t → attachTarget s t (fieldAt bs 8 4) (fieldAt bs 2 1) = some k → aget (s.core t.core).parts k = some q → q.tokens = [] →
    aget t.attach (fieldAt bs 1 1) = none →
    exec (.kcfgAttach d a) s = .next (scalarNext
      (withPart s t k { q with attached := s.focus.team :: q.attached.filter (· != s.focus.team) })
      { t with attach := aset t.attach (fieldAt bs 1 1) k } (wrote g d (BitVec.ofNat 64 (fieldAt bs 1 1))) (g.mode == .user)
      (g.pc + 4))

/-- Records stored at device scope, in order, by a group of cluster `c` (R187). -/
def recordsStored (r : GRef) (c : Nat) : State → List (List Nat × (W64 × List Byte)) → State
  | s, [] => s
  | s, (a, (k, pl)) :: l => recordsStored r c (s.storeBytes r c true (a.zip (leBytes 8 k.toNat ++ pl))) l

/-- Records published in a stream at the places of `pl`, and the new producer index behind them (R187). -/
def published (s : State) (t : Team) (st : GStream) (pl : List (List Nat)) (pidx : List Nat) (recs : List (W64 × List Byte)) : State :=
  let c := clusterOf t.core
  ((recordsStored s.focus c s (pl.zip recs)).release s.focus c true).storeBytes s.focus c true
    (pidx.zip (leBytes 4 (st.p + BitVec.ofNat 32 recs.length).toNat))

/-- The places of the next `n` records of a stream, and of its producer index, in a mode; and the stream has room for them (R186,
R187). -/
def StreamPlaces (s : State) (t : Team) (m : Mode) (q : Partition) (st : GStream) (n : Nat) (pl : List (List Nat))
    (pidx : List Nat) : Prop :=
  (∃ l used, s.translateRange t.tenant t.core m st.cidx.toNat 4 1#4 = .ok (some l) ∧
    used = (st.p - BitVec.ofNat 32 (leNat ((pieceAddrs l).map (memGet s.mem)))).toNat ∧ used + n ≤ 2 ^ st.slog) ∧
  pl.length = n ∧
  (∀ j, (h : j < pl.length) → ∃ l, s.translateRange t.tenant t.core m
    (st.sbase + BitVec.ofNat 64 ((st.p.toNat + j) % 2 ^ 32 % 2 ^ st.slog * (8 + 8 * 2 ^ q.width))).toNat (8 + 8 * 2 ^ q.width) 2#4 =
      .ok (some l) ∧ pl[j] = pieceAddrs l) ∧
  ∃ l, s.translateRange t.tenant t.core m st.pidx.toNat 4 2#4 = .ok (some l) ∧ pidx = pieceAddrs l

/-- R187, R189, R320: kdrain of an empty partition goes on; of one whose entries all find room in its stream, it writes them in
ascending key order, publishes the producer index as a release, and leaves the partition empty. -/
def GroveDrain : Prop :=
  ∀ (s : State) (t : Team) (g : Group) (a : SReg) (k : Nat) (q : Partition), ScalarReady s t g → ScalarsHere g [a] →
    (g.sreg a).toNat < 32 → PartFree s t (g.sreg a).toNat k q →
    (q.entries = [] → exec (.kdrain a) s = .next (scalarNext (withPart s t k q) t g (g.mode == .user) (g.pc + 4))) ∧
    (∀ st pl pidx, q.entries ≠ [] → g.drained = true → q.stream = some st → StreamPlaces s t g.mode q st q.entries.length pl pidx →
      exec (.kdrain a) s = .next (scalarNext
        (withPart (published s t st pl pidx (q.sorted.map fun e => (e.2.key, e.2.payload))) t k
          { q with entries := [], stream := some { st with p := st.p + BitVec.ofNat 32 q.entries.length } })
        t g (g.mode == .user) (g.pc + 4)))

end Sys2Proof.Claims

/-- R179 to R182, R186, R187, R189, R320: what kcfg and kdrain do with a valid record and a port that no operation holds. What it takes from
the choices of the model is named in notes/assumptions/38.md, 92.md. -/
def Obligations.GroveScalarForms : Prop := GroveConfig ∧ GroveDrain

namespace Sys2Proof.Claims

/-- R83, R84: tset and tclr, after a release at device scope, set or clear the scoreboard bits that sA names, and every armed operation
whose bits are all set is due; a range outside the scoreboard raises SCOREBOARD_RANGE. tarm arms the operation of its descriptor in the
lowest free entry and writes the entry, or writes why it does not. -/
def ScoreboardForms : Prop :=
  ∀ (s : State) (t : Team) (g : Group) (x : Tenant) (d a : SReg), ScalarReady s t g → ScalarsHere g [a] →
    s.tenant? t.tenant = some x →
    let v := g.sreg a
    let first := (v.extractLsb' 0 12).toNat
    let count := (v.extractLsb' 16 13).toNat
    let ok := v.extractLsb' 12 4 = 0#4 ∧ v.extractLsb' 29 35 = 0#35 ∧ count ≠ 0 ∧ first + count ≤ 4096
    let due (f : BitVec 4096 → BitVec 4096) := (s.release s.focus (clusterOf t.core) true).updTenant t.tenant fun x =>
      { x with board := f x.board, armed := amap x.armed fun _ e => { e with due := e.due || boardFull (f x.board) e.first e.count } }
    (ok → g.drained = true → exec (.tset a) s = .next (scalarNext (due fun b => b ||| boardRange first count) t g (g.mode == .user)
      (g.pc + 4)) ∧
      exec (.tclr a) s = .next (scalarNext (due fun b => b &&& ~~~ boardRange first count) t g (g.mode == .user) (g.pc + 4))) ∧
    (¬ ok → ∀ i, i = .tset a ∨ i = .tclr a → exec i s = .next (s.takeScalarTrap s.focus
      { cause := .scoreboardRange, lane := none, info := 0, bad := 0, set := none })) ∧
    (∀ bs, RecordAt s t g a 64 bs →
      let next (s : State) (v : W64) := Host.Outcome.next (scalarNext s t (wrote g d v) (g.mode == .user) (g.pc + 4))
      (afree x.armed 256 0 = none → exec (.tarm d a) s = next s (-1#64)) ∧
      (∀ k n, afree x.armed 256 0 = some k → s.armDesc x bs s.focus.team s.focus.group = .error n →
        exec (.tarm d a) s = next s (BitVec.ofInt 64 n)) ∧
      (∀ k e, afree x.armed 256 0 = some k → s.armDesc x bs s.focus.team s.focus.group = .ok e →
        exec (.tarm d a) s = next (s.updTenant t.tenant fun x =>
          { x with armed := amap (aset x.armed k e) fun _ e => { e with due := e.due || boardFull x.board e.first e.count } })
          (BitVec.ofNat 64 k)))

/-- A range of the scoreboard is FIRST and the COUNT − 1 bits after it (R83). -/
def BoardBits : Prop :=
  ∀ first count i, first + count ≤ 4096 → (boardRange first count).getLsbD i = decide (first ≤ i ∧ i < first + count)

end Sys2Proof.Claims

/-- R69, R72, R83, R84: what cpost, cstat, tset, tclr and tarm do. What it takes from the choices of the model is named in
notes/assumptions/45.md, 46.md, 47.md, 79.md. -/
def Obligations.SpliceScalarForms : Prop := CommunicatorForms ∧ ScoreboardForms ∧ BoardBits

/-! ## Traps and their return in the scalar stream -/

namespace Sys2Proof.Claims

/-- The calls of the scalar stream, with their cause (R321). -/
def callForm : Instr → Option (Cause × SReg)
  | .scalarSysc a => some (.syscall, a)
  | .scalarHcall a => some (.hcall, a)
  | .scalarBrk a => some (.brk, a)
  | _ => none

/-- The modes that may make a call (R226, R321). -/
def CallAllowed (c : Cause) (m : Mode) : Prop := c = .brk ∨ (c = .syscall ∧ m = .user) ∨ (c = .hcall ∧ m = .supervisor)

end Sys2Proof.Claims

/-- R321: each call enters a scalar trap with bits [20:0] of sA as its call number, whatever the others are; the frame of sysc and hcall has
the address of the next instruction, that of brk its own; the lane fragments are as they were; sysc is for user mode, hcall for supervisor
mode and brk for any, and a mode that the table does not allow raises PRIV_INSTRUCTION; the words are those of OP 0x38, and 0xE0014000 is
sysc s5. One reached in user mode while the team halts is not executed. -/
def Obligations.ScalarCalls : Prop :=
  (∀ a : SReg, decodeTableWord 32 (0xE0000000 + a.toNat * 2 ^ 14) = some (.scalarSysc a) ∧
    decodeTableWord 32 (0xE0000001 + a.toNat * 2 ^ 14) = some (.scalarHcall a) ∧
    decodeTableWord 32 (0xE000000B + a.toNat * 2 ^ 14) = some (.scalarBrk a)) ∧
  decodeTableWord 32 0xE0014000 = some (.scalarSysc 5#6) ∧
  (∀ (s : State) (t : Team) (g : Group) (i : Instr) (c : Cause) (a : SReg), ScalarReady s t g → ScalarsHere g [a] →
    callForm i = some (c, a) →
    (CallAllowed c g.mode → g.mode ≠ .user ∨ t.halt = none → exec i s = .next (s.takeScalarTrap s.focus
      { cause := c, lane := none, info := ((g.sreg a).extractLsb' 0 21).setWidth 32, bad := 0, set := none })) ∧
    (CallAllowed c g.mode → g.mode = .user → t.halt ≠ none → exec i s = .next s) ∧
    (¬ CallAllowed c g.mode → exec i s = .next (s.takeScalarTrap s.focus
      { cause := .privInstruction, lane := none, info := 0, bad := 0, set := none })) ∧
    (CallAllowed c g.mode → g.mode ≠ .user ∨ t.halt = none → ∀ pos, g.freeFrame = some pos →
      ∃ s' g' fr, exec i s = .next s' ∧ s'.group? s.focus = some g' ∧ g'.trap = some pos ∧ aget g'.traps pos = some fr ∧ fr.cause = c ∧
        fr.causeWord = causeWord c (((g.sreg a).extractLsb' 0 21).setWidth 32) true g.mode 0x1FF ∧
        fr.epc = (if c = .brk then g.pc else g.pc + 4) &&& 0xFFFFFFFFFFFF#64 ∧ g'.frags = g.frags))

namespace Sys2Proof.Claims

/-- The mode of a cause's handler, and whether the trap is delivered to the hypervisor (R226). -/
def handlerOf (c : Cause) (info : W32) (m : Mode) : Mode :=
  if c = .syscall then .supervisor
  else if c = .hcall then .hypervisor
  else if m = .hypervisor then .hypervisor
  else if c = .xlate ∧ (info = 5#32 ∨ info = 6#32) then .hypervisor
  else .supervisor

end Sys2Proof.Claims

/-- R194, R223, R225, R226, R228, R230, R232: a scalar trap with a free frame saves its cause, its address and the mode in that frame, and the
stream goes on at the vector base of the handler's mode, in that mode; the registers, predicates, queues and lane fragments of the group,
every other group's, and memory are as they were, but for what the team has waiting at Grove ports, which a halt withdraws (R194); a fault
or an error halts the team, where a scalar stream that waits, at a Grove port among others, stops, and a call does not. With four frames
in use, the team ends and DOUBLE_FAULT is reported. What it takes from the choices of the model is named in notes/assumptions/21.md,
23.md. -/
def Obligations.ScalarTrapEntry : Prop :=
  ∀ (s : State) (t : Team) (g : Group) (r : GRef) (i : TrapInfo), s.team? r.team = some t → s.group? r = some g →
    let s' := s.takeScalarTrap r i
    (∀ pos, g.freeFrame = some pos → ∃ t' g' fr, s'.team? r.team = some t' ∧ s'.group? r = some g' ∧
      aget g'.traps pos = some fr ∧ g'.trap = some pos ∧ fr.cause = i.cause ∧
      fr.causeWord = causeWord i.cause i.info true g.mode 0x1FF ∧
      fr.epc = (if i.cause = .syscall ∨ i.cause = .hcall then g.pc + 4 else g.pc) &&& 0xFFFFFFFFFFFF#64 ∧
      fr.badaddr = i.bad &&& 0xFFFFFFFFFFFF#64 ∧ fr.pmode = g.mode ∧ fr.callmask = 0#96 ∧ fr.frag = none ∧ fr.fin = false ∧
      fr.prop = g.proposal ∧ fr.prev = g.trap ∧
      g'.mode = handlerOf i.cause i.info g.mode ∧
      g'.pc = (match handlerOf i.cause i.info g.mode with
        | .hypervisor => s.root.tvecH
        | _ => ((s.tenant? t.tenant).map (·.supv.tvecS)).getD 0#64) ∧
      (∀ p, p ≠ pos → aget g'.traps p = aget g.traps p) ∧
      g'.sregs = g.sregs ∧ g'.vregs = g.vregs ∧ g'.preds = g.preds ∧ g'.sq = g.sq ∧ g'.lq = g.lq ∧ g'.frags = g.frags ∧
      g'.ks = g.ks ∧ g'.accesses.Sublist g.accesses ∧ (∀ a ∈ g.accesses, (∀ n, a.kind ≠ .reserved n) → a ∈ g'.accesses) ∧
      g'.lclock = g.lclock ∧ s'.mem = s.mem ∧ s'.clusters = s.clusters ∧
      s'.tenants = s.tenants ∧ s'.root = s.root ∧
      t'.halt.isSome = (t.halt.isSome || !(i.cause == .syscall || i.cause == .hcall || i.cause == .brk)) ∧
      (i.cause ∉ [.syscall, .hcall, .brk] → (∀ e ∈ (s'.core t.core).parts, ∀ x ∈ e.2.tokens, x.g.team ≠ r.team) ∧
        ∀ j o, j ≠ r.group → aget t.groups j = some o →
          (o.waits = true ∧ t.halt = none) ∨ (s.core t.core).scalarWaits ⟨r.team, j⟩ = true →
          ∃ o', aget t'.groups j = some o' ∧ o'.stopped = true)) ∧
    (g.freeFrame = none → (∃ t', s'.team? r.team = some t' ∧ t'.ended = true) ∧ s'.sent.head? = some (.doubleFault r.team))

namespace Sys2Proof.Claims

/-- A halt under which a frame with END, or of an error, has popped: the team will end as the halt does, by TEAM_END where every such frame was
TEAM_END's (R229, R233, R240). -/
def willEnd (hl : Halt) (fr : TrapFrame) : Halt := { fin := true, teamEnd := fr.cause == .hcall && (!hl.fin || hl.teamEnd) }

/-- A group whose scalar stream has popped such a frame under a halt: none of its scalar frames is left, and the stream stops (R233). -/
def scalarStops (g : Group) (p : Nat) (fr : TrapFrame) : Group :=
  { g with traps := (adel g.traps p).filter (·.2.frag.isSome), trap := none, pc := fr.epc, mode := .user, stopped := true,
           syncing := false, held := false, ordered := g.ordered.filter (·.stream != .scalar) }

/-- A group whose lane stream has popped such a frame under a halt: none of its lane frames, of its fragments and of its blocks is left
(R233). -/
def laneStops (g : Group) (p : Nat) (fr : TrapFrame) : Group :=
  { g with traps := (adel g.traps p).filter (·.2.frag.isNone), running := fr.frag, frags := [], frames := [], dispatch := [] }

end Sys2Proof.Claims

/-- R106, R229, R232, R233, R322: a scalar tret of a call's or a translation fault's frame pops it: the stream goes on at the saved address in
the saved mode, the frame before it is current again, and a SYSCALL's counts now; under a halt a stream back in user mode stops. In user
mode it raises PRIV_INSTRUCTION, and without a frame TRET_UNBALANCED. The frame of an error, or one with END, ends the team: under a halt,
which an error always brings, it pops, the stream is done, and the team ends as the halt does; without one, at once. -/
def Obligations.ScalarReturn : Prop :=
  ∀ (s : State) (t : Team) (g : Group), ScalarReady s t g →
    let traps (c : Cause) : Prop := exec .scalarTret s = .next (s.takeScalarTrap s.focus
      { cause := c, lane := none, info := 0, bad := 0, set := none })
    (g.mode = .user → traps .privInstruction) ∧
    (g.mode ≠ .user → g.trap = none → traps .tretUnbalanced) ∧
    (∀ p fr, g.mode ≠ .user → g.trap = some p → aget g.traps p = some fr →
      (fr.fin = false ∧ fr.cause ∈ [.syscall, .hcall, .brk, .xlate] → exec .scalarTret s = .next (withGroup s t
        { g with traps := adel g.traps p, trap := fr.prev, pc := fr.epc, mode := fr.pmode, syncing := false, held := false,
                 ordered := g.ordered.filter (·.stream != .scalar),
                 stopped := g.stopped || (t.halt.isSome && fr.pmode == .user),
                 lclock := g.lclock + BitVec.ofNat 64 (one (fr.cause == .syscall)) } (fr.cause == .syscall))) ∧
      (fr.fin = true ∨ fr.cause ∉ [.syscall, .hcall, .brk, .xlate] → t.halt = none →
        ∃ s' t', exec .scalarTret s = .next s' ∧ s'.team? s.focus.team = some t' ∧ t'.ended = true ∧
          ∀ e ∈ t'.groups, e.2.exited = true) ∧
      (fr.fin = true ∨ fr.cause ∉ [.syscall, .hcall, .brk, .xlate] → ∀ hl, t.halt = some hl →
        exec .scalarTret s = .next (withGroup s { t with halt := some (willEnd hl fr) } (scalarStops g p fr) false)))

/-! ## Special registers, roles, fences and the end of a group -/

namespace Sys2Proof.Claims

/-- The lowest mode that reads a special register (R303). -/
def readMode (sel : Nat) : Option Mode :=
  if sel ∈ [0x000, 0x001, 0x002, 0x003, 0x004, 0x005, 0x006, 0x007, 0x008, 0x010, 0x011, 0x012, 0x013, 0x014, 0x015, 0x016, 0x017,
            0x018, 0x019, 0x01A] then some .user
  else if sel ∈ [0x100, 0x101, 0x103, 0x104, 0x105, 0x106, 0x107, 0x10A, 0x10B, 0x10C, 0x200, 0x201, 0x202, 0x203, 0x204, 0x205,
                 0x206, 0x207, 0x208, 0x209, 0x20A, 0x20B, 0x20C, 0x20D, 0x20E, 0x20F] then some .supervisor
  else if sel ∈ [0x102, 0x108, 0x109] then some .hypervisor
  else none

/-- The lowest mode that writes a special register (R303). -/
def writeMode (sel : Nat) : Option Mode :=
  if sel ∈ [0x010, 0x011, 0x012, 0x014, 0x015, 0x016, 0x017, 0x01A] then some .user
  else if sel ∈ [0x101, 0x104, 0x107, 0x10B, 0x200, 0x201, 0x202, 0x203, 0x204, 0x205, 0x206, 0x207, 0x208, 0x209, 0x20A, 0x20B,
                 0x20C, 0x20D, 0x20E, 0x20F] then some .supervisor
  else if sel ∈ [0x102, 0x108, 0x109, 0x10C] then some .hypervisor
  else none

end Sys2Proof.Claims

/-- R118: GID (its low 32 bits), LANEBASE (its low 40 bits), CLUSTER and DIE follow from TEAM, GROUP and CORE, and the fields of TPOS, where
the grid's fit theirs, are the position of TEAM in the grid, x first. What it takes from the choices of the model is named in
notes/assumptions/91.md. -/
def Obligations.GroupIdentity : Prop :=
  ∀ (s : State) (r : GRef) (t : Team) (g : Group) (x : SregReader),
    let v (sel : Nat) := s.sregValue r t g x sel
    v 0 = ((v 1 * BitVec.ofNat 64 t.ngroups + v 2).setWidth 32).setWidth 64 ∧
    v 3 = ((96#64 * (v 1 * BitVec.ofNat 64 t.ngroups + v 2)).setWidth 40).setWidth 64 ∧
    (t.core < 384 → (v 5).toNat = (v 4).toNat / 8 ∧ (v 6).toNat = (v 4).toNat / 96) ∧
    (0 < t.gx → t.gx < 2 ^ 21 → 0 < t.gy → t.gy < 2 ^ 21 → t.gz < 2 ^ 21 → t.tid < t.gx * t.gy * t.gz →
      (v 7).extractLsb' 0 21 = BitVec.ofNat 21 t.gx ∧ (v 7).extractLsb' 21 21 = BitVec.ofNat 21 t.gy ∧
      (v 7).extractLsb' 42 21 = BitVec.ofNat 21 t.gz ∧
      ((v 8).extractLsb' 0 21).toNat < t.gx ∧ ((v 8).extractLsb' 21 21).toNat < t.gy ∧
      ((v 8).extractLsb' 0 21).toNat + t.gx * (((v 8).extractLsb' 21 21).toNat + t.gy * ((v 8).extractLsb' 42 21).toNat) = t.tid)

namespace Sys2Proof.Claims

/-- What a write of `v` to a special register by a stream of group `g` leaves (R130, R144, R150 to R152, R170, R223, R224, R265, R267,
R303, R369). `frame` is the trap frame of the handler that writes, `setF` the group with the stream's own FMTR set. -/
inductive SpecialWrite (s : State) (t : Team) (g : Group) (m : Mode) (frame : Option Nat) (setF : W64 → Group) :
    Nat → W64 → State → Team → Group → Prop
  | fmtr (v : W64) : FormatOk v → SpecialWrite s t g m frame setF 0x010 v s t (setF v)
  | rseed (v : W64) : SpecialWrite s t g m frame setF 0x011 v s t { g with rseed := v.setWidth 32 }
  | rctr (v : W64) : SpecialWrite s t g m frame setF 0x012 v s t { g with rctr := v.setWidth 32 }
  | pacc (v : W64) : SpecialWrite s t g m frame setF 0x014 v s t { g with pacc := v }
  | pprop (v : W64) : SpecialWrite s t g m frame setF 0x015 v s t { g with pprop := v }
  | pnan (v : W64) : SpecialWrite s t g m frame setF 0x016 v s t { g with pnan := g.pnan && !v.getLsbD 0 }
  | gang (v : W64) (s1 s2 : State) (t' : Team) (g' : Group) : g.frags = [] → gangAllowed t s.focus.group v = true →
      (s1 = s.updGroup s.focus fun g => { g with gang := v &&& 0x3F#64 }) →
      (s2 = if gangSize g.gang ≠ 0 ∧ (gangNum g.gang ≠ gangNum v ∨ gangSize v = 0) then s1.leaveGang s.focus.team (gangNum g.gang)
        else s1) →
      (s2.strandCheck s.focus.team).team? s.focus.team = some t' → (s2.strandCheck s.focus.team).group? s.focus = some g' →
      SpecialWrite s t g m frame setF 0x017 v (s2.strandCheck s.focus.team) t' g'
  | gnan (v : W64) (l : Nat) : t.launch = some l →
      SpecialWrite s t g m frame setF 0x01A v (s.updLaunch l fun l => { l with gnan := l.gnan && !v.getLsbD 0 }) t g
  | gnanNone (v : W64) : t.launch = none → SpecialWrite s t g m frame setF 0x01A v s t g
  | tvecS (v : W64) : SpecialWrite s t g m frame setF 0x101 v
      (s.updTenant t.tenant fun x => { x with supv := { x.supv with tvecS := v &&& 0xFFFFFFFFFE00#64 } }) t g
  | tvecH (v : W64) : SpecialWrite s t g m frame setF 0x102 v { s with root := { s.root with tvecH := v &&& 0xFFFFFFFFFE00#64 } } t g
  | epc (v : W64) (p : Nat) : frame = some p → SpecialWrite s t g m frame setF 0x104 v s t
      { g with traps := aupd g.traps p fun fr => if fr.cause.isError then fr else { fr with epc := v &&& 0xFFFFFFFFFFFF#64 } }
  | epcNone (v : W64) : frame = none → SpecialWrite s t g m frame setF 0x104 v s t g
  | ptbase (v : W64) : SpecialWrite s t g m frame setF 0x107 v
      (s.updTenant t.tenant fun x => { x with ptbase := v &&& 0xFFFFFFFFF001#64, vendorMap := false, tlb := [] }) t g
  | winbase (v : W64) : SpecialWrite s t g m frame setF 0x108 v
      (s.updTenant t.tenant fun x => { x with winbase := v &&& 0xFFFFE0#64, tlb := [] }) t g
  | winlim (v : W64) : (v.extractLsb' 0 5).toNat ≤ 16 → SpecialWrite s t g m frame setF 0x109 v
      (s.updTenant t.tenant fun x => { x with winlim := v &&& 0x1F#64, tlb := [] }) t g
  | bankmode (v : W64) : (∀ i < 32, bankField v i ≠ 3) →
      (∀ i < 32, bankField (s.cluster (clusterOf t.core)).bankmode i ≠ bankField v i →
        (m = .supervisor → ((aget (s.cluster (clusterOf t.core)).bankown t.tenant).getD 0#32).getLsbD i = true) ∧
        s.bankBusy (clusterOf t.core) (s.cluster (clusterOf t.core)).bankmode i = false) →
      SpecialWrite s t g m frame setF 0x10B v (s.setBanks (clusterOf t.core) v) t g
  | bankown (v : W64) : SpecialWrite s t g m frame setF 0x10C v
      (s.setCluster (clusterOf t.core) { s.cluster (clusterOf t.core) with
        bankown := aset (s.cluster (clusterOf t.core)).bankown t.tenant (v.setWidth 32) }) t g
  | ks (i : Nat) (v : W64) : i < 16 → SpecialWrite s t g m frame setF (0x200 + i) v s t { g with ks := aset g.ks i v }

/-- The registers of a scalar swr, under any of the names the table gives it (R323). -/
def scalarSwrForm : Instr → Option (SReg × SReg)
  | .scalarSwr d a | .fmtrWrite (.scalar d a) | .gangWrite (.scalar d a) | .ptbaseWrite (.scalar d a) | .winbaseWrite (.scalar d a)
  | .winlimWrite (.scalar d a) | .bankmodeWrite (.scalar d a) | .bankownWrite (.scalar d a) | .gnanClear (.scalar d a)
  | .pnanClear (.scalar d a) => some (d, a)
  | _ => none

/-- The value of a special register as its stream reads it (R118, R223, R303, R369): `gid` is the logical group number, `fr` the frame whose
handler the stream runs. -/
def specialValue (s : State) (r : GRef) (t : Team) (g : Group) (x : SregReader) (sel : Nat) : W64 :=
  let gid := BitVec.ofNat 64 t.tid * BitVec.ofNat 64 t.ngroups + BitVec.ofNat 64 r.group
  let fr := x.frame.bind fun p => aget g.traps p
  let flag (b : Bool) : W64 := if b then 1#64 else 0#64
  let grid (x y z : Nat) : W64 := (0#1 ++ BitVec.ofNat 21 z ++ BitVec.ofNat 21 y ++ BitVec.ofNat 21 x).setWidth 64
  ([(0x000, (gid.setWidth 32).setWidth 64), (0x001, BitVec.ofNat 64 t.tid), (0x002, BitVec.ofNat 64 r.group),
    (0x003, ((96#64 * gid).setWidth 40).setWidth 64), (0x004, BitVec.ofNat 64 t.core), (0x005, BitVec.ofNat 64 (t.core / 8)),
    (0x006, BitVec.ofNat 64 (t.core / 96)), (0x007, grid t.gx t.gy t.gz),
    (0x008, grid (t.tid % t.gx) (t.tid / t.gx % t.gy) (t.tid / (t.gx * t.gy))), (0x010, x.fmtr),
    (0x011, g.rseed.setWidth 64), (0x012, g.rctr.setWidth 64), (0x013, BitVec.ofNat 64 t.pbase), (0x014, g.pacc), (0x015, g.pprop),
    (0x016, flag g.pnan), (0x017, g.gang), (0x018, g.lclock), (0x019, (s.core t.core).cyc),
    (0x01A, flag (((t.launch.bind s.launch?).map (·.gnan)).getD false)),
    (0x100, match x.mode with | .user => 0#64 | .supervisor => 1#64 | .hypervisor => 2#64),
    (0x101, ((s.tenant? t.tenant).map (·.supv.tvecS)).getD 0#64), (0x102, s.root.tvecH),
    (0x103, (flag (x.frame.isSome && x.scalar) <<< 7) + (BitVec.ofNat 64 (x.frame.getD 0) <<< 4) + BitVec.ofNat 64 g.traps.length),
    (0x104, (fr.map (·.epc)).getD 0#64), (0x105, (fr.map (·.causeWord)).getD 0#64), (0x106, (fr.map (·.badaddr)).getD 0#64),
    (0x107, ((s.tenant? t.tenant).map (·.ptbase)).getD 0#64), (0x108, ((s.tenant? t.tenant).map (·.winbase)).getD 0#64),
    (0x109, ((s.tenant? t.tenant).map (·.winlim)).getD 0#64), (0x10A, BitVec.ofNat 64 t.tenant),
    (0x10B, (s.cluster (t.core / 8)).bankmode),
    (0x10C, ((aget (s.cluster (t.core / 8)).bankown t.tenant).getD 0#32).setWidth 64)].lookup sel).getD
      ((aget g.ks (sel - 0x200)).getD 0#64)

end Sys2Proof.Claims

/-- R118, R130, R144, R150, R151, R170, R223, R303, R323: srd writes to sD the value that its table gives the selected register; swr writes sD
to it, where the mode is at least the one the table gives and the register's own checks pass. What it takes from the choices of the model
is named in notes/assumptions/33.md. -/
def Obligations.ScalarSpecialRegisters : Prop :=
  ∀ (s : State) (t : Team) (g : Group) (d a : SReg), ScalarReady s t g →
    let sel := (g.sreg a).toNat % 2 ^ 14
    (∀ m, ScalarsHere g [a] → readMode sel = some m → m.code ≤ g.mode.code → exec (.scalarSrd d a) s = .next
      (scalarNext s t (wrote g d (specialValue s s.focus t g ⟨g.mode, g.fmtr, g.trap, true⟩ sel)) (g.mode == .user) (g.pc + 4))) ∧
    (∀ i m s' t' g', ScalarsHere g [d, a] → scalarSwrForm i = some (d, a) → writeMode sel = some m → m.code ≤ g.mode.code →
      SpecialWrite s t g g.mode g.trap (fun f => { g with fmtr := f }) sel (g.sreg d) s' t' g' →
      exec i s = .next (scalarNext s' t' g' (g.mode == .user) (g.pc + 4)))

/-- R222, R303: a selector that the table does not list raises SREG_RANGE; a read in a mode below the one shown, a write in such a mode, and a
write of a register that is never written raise PRIV_OPERAND. -/
def Obligations.SpecialRegisterPrivilege : Prop :=
  ∀ (s : State) (t : Team) (g : Group) (i : Instr) (d a : SReg), ScalarReady s t g → ScalarsHere g [d, a] →
    let sel := (g.sreg a).toNat % 2 ^ 14
    let traps (i : Instr) (c : Cause) : Prop := exec i s = .next (s.takeScalarTrap s.focus
      { cause := c, lane := none, info := 0, bad := 0, set := none })
    (i = .scalarSrd d a ∨ scalarSwrForm i = some (d, a) → readMode sel = none → traps i .sregRange) ∧
    (∀ m, readMode sel = some m → g.mode.code < m.code → traps (.scalarSrd d a) .privOperand) ∧
    (scalarSwrForm i = some (d, a) → readMode sel ≠ none → writeMode sel = none → traps i .privOperand) ∧
    (∀ m, scalarSwrForm i = some (d, a) → writeMode sel = some m → g.mode.code < m.code → traps i .privOperand)

/-- R119, R120, R290, R324, R327: feat writes a feature word, and raises SREG_RANGE at 16 and above; role moves a quiescent group in user mode
to a role whose allotment fits, and goes on at its entry; a fence is a release once every earlier access of the group has been performed,
an acquire once every earlier read has, or both. -/
def Obligations.ScalarSystemForms : Prop :=
  ∀ (s : State) (t : Team) (g : Group) (d a : SReg), ScalarReady s t g →
    (ScalarsHere g [a] → (g.sreg a).toNat % 2 ^ 14 < 16 → exec (.feat d a) s = .next (scalarNext s t
      (wrote g d (([0x0000000101806004#64, 0x000000000003FFFF#64, 0x00000000000000FF#64, 0x0000410081018800#64,
        0x0000060010023020#64][(g.sreg a).toNat % 2 ^ 14]?).getD 0#64)) (g.mode == .user) (g.pc + 4))) ∧
    (ScalarsHere g [a] → 16 ≤ (g.sreg a).toNat % 2 ^ 14 → exec (.feat d a) s = .next (s.takeScalarTrap s.focus
      { cause := .sregRange, lane := none, info := 0, bad := 0, set := none })) ∧
    (∀ x, ScalarsHere g [a] → g.mode = .user → t.roles[(g.sreg a).toNat]? = some x → g.quiescent = true →
      x.slots ≤ g.allot + t.spareFree → g.slotsUsed ≤ x.slots →
      exec (.role a) s = .next (scalarNext s { t with spare := t.spare + g.allot - x.slots }
        { g with role := (g.sreg a).toNat, prio := x.prio, allot := x.slots } true x.entry)) ∧
    (∀ sc o, (o = .rel ∨ o = .ar → g.drained = true) → g.readsDone = true →
      let c := clusterOf t.core
      let wide := sc = .dev ∨ sc = .sys
      let s1 := if o = .rel ∨ o = .ar then s.release s.focus c (decide wide) else s
      exec (.fence sc o) s = .next (scalarNext (if o = .acq ∨ o = .ar then s1.acquire c (decide wide) else s1) t g (g.mode == .user)
        (g.pc + 4)))

namespace Sys2Proof.Claims

/-- Fragment `f` of group `i` waits at its gang's rendezvous, and no GANG_ORPHAN is due to its group. -/
def MateWaits (t : Team) (i f : Nat) : Prop :=
  ∃ g x, aget t.groups i = some g ∧ aget g.frags f = some x ∧ x.wait = .rendezvous ∧ ∀ e ∈ g.frags, e.2.wait ≠ .orphan

/-- The state once the last group of team `t` has exited: its launch notes the exit of the team, in the order of the exits (R87). -/
def exitNoted (s : State) (t : Team) : State :=
  match t.launch with
  | none => s
  | some k => s.updLaunch k fun l => { l with tiled := if t.tid ∈ l.tiled then l.tiled else t.tid :: l.tiled }

/-- No latch run but fragment `fid`'s of group `r` is under way on the group's slot (R99, R142). -/
def NoRunElse (s : State) (r : GRef) (t : Team) (g : Group) (fid : Nat) : Prop :=
  ∀ e ∈ s.teams, e.2.core = t.core → e.2.ended = false → ∀ x ∈ e.2.groups, x.2.slot = g.slot → x.2.exited = false →
    inLatchRun s e.2 x.2 = true → e.1 = r.team ∧ x.1 = r.group ∧ ∃ y, x.2.run = some y ∧ y.frag = fid

end Sys2Proof.Claims

/-- R87, R110, R124, R142, R147, R227, R328: exit of a group in user mode whose lane stream is idle ends the group: its queues, its shadow and
its place in its gang are gone, to every other group that still waits at the gang a GANG_ORPHAN is due, once, and no fragment or
dispatched block of the group can issue again; elsewhere it raises PRIV_INSTRUCTION, and while the lane stream has work it waits, in an
ordered launch passing the turn (the model's reading of R110). The last exit of a team's groups is noted by its launch. A GANG_ORPHAN that
is due is taken by the first fragment that waits in its group, when it is not parked and no latch run is under way (log entry 95). What it
takes from the choices of the model is named in notes/assumptions/1.md, 28.md, 95.md. -/
def Obligations.GroupExit : Prop :=
  ∀ (s : State) (t : Team) (g : Group), (ScalarReady s t g →
    (g.mode ≠ .user → exec .exit s = .next (s.takeScalarTrap s.focus
      { cause := .privInstruction, lane := none, info := 0, bad := 0, set := none })) ∧
    (g.mode = .user → ¬ LaneIdle g → exec .exit s = .next (s.updGroup s.focus fun g =>
      { g with syncing := true, laneTurn := g.laneTurn || t.isOrdered })) ∧
    (g.mode = .user → LaneIdle g → (∀ e ∈ t.groups, gangSize e.2.gang = 0) → exec .exit s = .next (scalarNext
      (if ∀ e ∈ aset t.groups s.focus.group { g with exited := true }, e.2.exited = true then exitNoted s t else s) t
      { g with exited := true, sq := [], lq := [], proposal := false, shadows := [], gang := 0, waiting := [], running := none,
               latched := [] } true (g.pc + 4))) ∧
    (g.mode = .user → LaneIdle g → ∃ s' t' g', exec .exit s = .next s' ∧ s'.team? s.focus.team = some t' ∧
      s'.group? s.focus = some g' ∧ g'.exited = true ∧ g'.sq = [] ∧ g'.lq = [] ∧ gangSize g'.gang = 0 ∧
      (∀ fid f, laneMayIssue t' g' fid f = false) ∧ exec (.blockStart s.focus) s' = .next s') ∧
    (g.mode = .user → LaneIdle g → gangSize g.gang ≠ 0 → ∀ l, aget t.latches (gangNum g.gang) = some l →
      (∀ n, n ≠ gangNum g.gang → aget t.latches n = none) →
      (∀ e ∈ l, e.1 ≠ s.focus.group ∧ MateWaits t e.1 e.2.1) → ∃ s' t', exec .exit s = .next s' ∧
        s'.team? s.focus.team = some t' ∧ aget t'.latches (gangNum g.gang) = none ∧
        ∀ e, l.find? (fun x => x.1 == e.1) = some e → ∀ o x, aget t.groups e.1 = some o → aget o.frags e.2.1 = some x →
          ∃ o', aget t'.groups e.1 = some o' ∧ aget o'.frags e.2.1 = some { x with wait := .orphan } ∧
            ∀ k, k ≠ e.2.1 → aget o'.frags k = aget o.frags k)) ∧
    ∀ (o : Group) (fid : Nat) (x : Fragment), s.agenda = [] → s.stream = .lane fid → s.team? s.focus.team = some t →
      s.group? s.focus = some o → aget o.frags fid = some x → x.wait = .orphan → t.ended = false → o.exited = false → x.parkedBy = none →
      NoRunElse s s.focus t o fid → step s = .next
        ((s.updGroup s.focus fun o => { o with frags := aupd o.frags fid fun f => { f with wait := .none } }).takeLaneTrap s.focus fid
          { cause := .gangOrphan, lane := none, info := 0, bad := 0, set := none })

/-- R22, R121, R122, R129, R221, R240: a dispatched block starts on an idle lane stream with one fragment of all 96 lanes at the block's first
instruction, with the format of its dispatch entry and no frame, in the mode in which the team's streams start. What it takes from the
choices of the model is named in notes/assumptions/1.md. -/
def Obligations.BlockStart : Prop :=
  ∀ (s : State) (t : Team) (g : Group) (r : GRef) (i : W32) (f : W64) (l : List (W32 × W64)), s.team? r.team = some t →
    s.group? r = some g → g.frags = [] → g.exited = false → t.ended = false → t.halt = none ∨ t.isInit = true ∨ t.hv ≠ none →
    g.dispatch = (i, f) :: l →
    let x : Fragment := { pc := t.lcode + 12 * i.setWidth 64, mask := BitVec.allOnes 96, span := BitVec.allOnes 96, fmtr := f,
                          mode := if t.isInit then .supervisor else if t.hv ≠ none then .hypervisor else .user, frame := none, wait := .none, handler := none,
                          parkedBy := none }
    exec (.blockStart r) s = .next (s.updGroup r fun g => { g with dispatch := l, frames := [], run := none, frags := [(0, x)] })

/-! ## The lane stream: operands and results -/

namespace Sys2Proof.Claims

/-- Registers are written with a count, then the sources decrement, but for those just written (R136). -/
def Writes (t : Team) (g : Group) (fid : Nat) (f : Fragment) (w : LaneMask) (cc : Nat) (names : List Src) (dests : List (VReg × Tag))
    (g' : Group) : Prop :=
  (∀ e ∈ dests, g.vregBusy fid e.1 = false) ∧ ∃ g1, writeAll t.pbase (f.mode == .user) w cc g dests = some g1 ∧
    g' = g1.decAll names (if w = 0#96 then [] else dests.map (Src.v ·.1))

/-- What a destination register holds before an ALU instruction: in user mode as the stream sees it, in a handler the register itself (R236,
R370). -/
def destBefore (t : Team) (g : Group) (f : Fragment) (d : VReg) : Tag :=
  if f.mode = .user then g.view t.pbase d.toNat else (g.vreg d.toNat).tag

/-- What the write of a result pushes (R138, R329): the register as it then is, which with W empty is what the instruction's decrements have
left of it, or 0 where it is released. -/
def pushed (w : LaneMask) (x old : Tag) : Tag :=
  if w = 0#96 then (if old = .released then .uniform 0#32 else old) else Tag.merge w x old

/-- What an ALU instruction with register destinations leaves of its group, and what it pushes (R137, R138, R329). -/
def AluEnds (t : Team) (g : Group) (fid : Nat) (f : Fragment) (h : LHdr) (names : List Src) (dests : List (VReg × Tag)) (g' : Group)
    (push : Option Tag) : Prop :=
  if h.wbs then
    g' = (g.decAll names []).advance fid ∧ push = dests.head?.map fun e => Tag.merge (written g f h) e.2 (.uniform 0#32)
  else ∃ g1, Writes t g fid f (written g f h) h.cc.toNat names dests g1 ∧ g' = g1.advance fid ∧
    push = dests.head?.map fun e => pushed (written g f h) e.2 (destBefore t (if written g f h = 0#96 then g1 else g) f e.1)

/-- The result of lane-wise values (R132 rules 2 and 4). -/
def plainTag (ts : List Tag) (res : Nat → W32) : Tag := if ts.all (·.isUniform) then .uniform (res 0) else Tag.ofLanes res

end Sys2Proof.Claims

/-! ## Integers -/

namespace Sys2Proof.Claims

/-- Operations of one, two and three words. -/
def op1 (f : W32 → W32) (v : List W32) : W32 := f (v.getD 0 0#32)
def op2 (f : W32 → W32 → W32) (v : List W32) : W32 := f (v.getD 0 0#32) (v.getD 1 0#32)
def op3 (f : W32 → W32 → W32 → W32) (v : List W32) : W32 := f (v.getD 0 0#32) (v.getD 1 0#32) (v.getD 2 0#32)

/-- Position and width of the field that a control word names (R333). -/
def posOf (k : W32) : Nat := (k.extractLsb' 0 5).toNat
def widthOf (k : W32) : Nat := min (min (k.extractLsb' 8 6).toNat 32) (32 - posOf k)

/-- The unsigned field of a word. -/
def fieldOf (x k : W32) : Nat := x.toNat / 2 ^ posOf k % 2 ^ widthOf k

/-- The integer forms of R332, R333 and R335: destination, sources, and the operation of R332 and R333 in a lane. -/
def intForm : Instr → Option (LHdr × VReg × List Src × (List W32 → W32))
  | .iadd h d a b => some (h, d, [a, b], op2 fun x y => x + y)
  | .isub h d a b => some (h, d, [a, b], op2 fun x y => x - y)
  | .imul h d a b => some (h, d, [a, b], op2 fun x y => x * y)
  | .imulhi h d a b => some (h, d, [a, b], op2 fun x y => (x.signExtend 64 * y.signExtend 64).extractLsb' 32 32)
  | .imulhu h d a b => some (h, d, [a, b], op2 fun x y => (x.setWidth 64 * y.setWidth 64).extractLsb' 32 32)
  | .imad h d a b c => some (h, d, [a, b, c], op3 fun x y z => x * y + z)
  | .iand h d a b => some (h, d, [a, b], op2 fun x y => x &&& y)
  | .ior h d a b => some (h, d, [a, b], op2 fun x y => x ||| y)
  | .ixor h d a b => some (h, d, [a, b], op2 fun x y => x ^^^ y)
  | .iandn h d a b => some (h, d, [a, b], op2 fun x y => x &&& ~~~y)
  | .ishl h d a b => some (h, d, [a, b], op2 fun x y => x <<< (y.extractLsb' 0 5).toNat)
  | .ishr h d a b => some (h, d, [a, b], op2 fun x y => x >>> (y.extractLsb' 0 5).toNat)
  | .isar h d a b => some (h, d, [a, b], op2 fun x y => x.sshiftRight (y.extractLsb' 0 5).toNat)
  | .imin h d a b => some (h, d, [a, b], op2 fun x y => if x.toInt ≤ y.toInt then x else y)
  | .imax h d a b => some (h, d, [a, b], op2 fun x y => if x.toInt ≥ y.toInt then x else y)
  | .iminu h d a b => some (h, d, [a, b], op2 fun x y => if x.toNat ≤ y.toNat then x else y)
  | .imaxu h d a b => some (h, d, [a, b], op2 fun x y => if x.toNat ≥ y.toNat then x else y)
  | .iabs h d a => some (h, d, [a], op1 fun x => BitVec.ofNat 32 x.toInt.natAbs)
  | .laneSel h d a b c => some (h, d, [a, b, c], op3 fun x y z => if z = 0#32 then y else x)
  | .mov h d a => some (h, d, [a], op1 fun x => x)
  | .laneClz h d a => some (h, d, [a], op1 fun x =>
      BitVec.ofNat 32 ((List.range 32).takeWhile fun i => !x.getLsbD (31 - i)).length)
  | .lanePopc h d a => some (h, d, [a], op1 fun x => BitVec.ofNat 32 ((List.range 32).countP fun i => x.getLsbD i))
  | .brev h d a => some (h, d, [a], op1 fun x => BitVec.ofFnLE fun i : Fin 32 => x.getLsbD (31 - i))
  | .bfx h d a b => some (h, d, [a, b], op2 fun x k => BitVec.ofNat 32 (fieldOf x k))
  | .bfxs h d a b => some (h, d, [a, b], op2 fun x k =>
      if widthOf k ≠ 0 ∧ 2 ^ (widthOf k - 1) ≤ fieldOf x k then BitVec.ofInt 32 (fieldOf x k - 2 ^ widthOf k)
      else BitVec.ofNat 32 (fieldOf x k))
  | .bfi h d a b c => some (h, d, [a, b, c], op3 fun x y k => BitVec.ofFnLE fun i : Fin 32 =>
      if posOf k ≤ i ∧ i < posOf k + widthOf k then y.getLsbD (i - posOf k) else x.getLsbD i)
  | .movk h hi d i => some (h, d, [], fun _ => if hi then i ++ 0#11 else i.signExtend 32)
  | _ => none

/-- The affine results of R132 and R332. -/
def affineOf : Instr → List Tag → Option Tag
  | .iadd _ _ _ _, [.affine b s, .uniform u] => some (.affine (b + u) s)
  | .iadd _ _ _ _, [.uniform u, .affine b s] => some (.affine (b + u) s)
  | .isub _ _ _ _, [.affine b s, .uniform u] => some (.affine (b - u) s)
  | .imul _ _ _ _, [.affine b s, .uniform u] => some (.affine (b * u) (s * u))
  | .imul _ _ _ _, [.uniform u, .affine b s] => some (.affine (b * u) (s * u))
  | _, _ => none

/-- R132, R133, R136, R137, R138, R329, R332, R333, R335: an integer form writes the operation of its sources in the lanes of W, with
the shape of R132; its sources decrement, its value is pushed, and the fragment goes on at the next instruction. -/
def IntegerResult : Prop :=
  ∀ (s : State) (t : Team) (g g' : Group) (fid : Nat) (f : Fragment) (h : LHdr) (i : Instr) (d : VReg) (l : List Src)
    (op : List W32 → W32) (ts : List Tag) (push : Option Tag), LaneReady s t g fid f h → intForm i = some (h, d, l, op) →
    Sources t g fid f l ts →
    AluEnds t g fid f h l [(d, (affineOf i ts).getD (plainTag ts fun k => op (ts.map (·.lane k))))] g' push →
    exec i s = .next (laneNext s t g' fid (f.mode == .user) true push)

/-- R131, R132: an affine result holds in each lane what the operation gives there. -/
def AffineExact : Prop :=
  ∀ (i : Instr) (h : LHdr) (d : VReg) (l : List Src) (op : List W32 → W32) (ts : List Tag) (x : Tag) (k : Nat),
    intForm i = some (h, d, l, op) → affineOf i ts = some x → x.lane k = op (ts.map (·.lane k))

end Sys2Proof.Claims

/-- R131 to R133, R136 to R138, R329, R332, R333, R335: the integer forms of the lane stream. -/
def Obligations.LaneIntegerForms : Prop := IntegerResult ∧ AffineExact

/-! ## Floats and conversions -/

namespace Sys2Proof.Claims

/-- The rounding mode of a form in a fragment (R248, R300): its own, or FMTR.RMODE where it is dynamic. -/
def modeOf (m : RndSel) (f : Fragment) : Rnd :=
  match m with
  | .rne => .rne
  | .rtz => .rtz
  | .rup => .rup
  | .rdn => .rdn
  | .dyn => [Rnd.rne, .rtz, .rup, .rdn].getD (f.fmtr.extractLsb' 14 2).toNat .rne

/-- The float forms and conversions of R336 to R342, with their operation in a lane: exact arithmetic, then one rounding (R247, R252,
R253, R257, R258). -/
def floatForm (f : Fragment) : Instr → Option (LHdr × VReg × List Src × (List W32 → W32))
  | .fadd h m d a b => some (h, d, [a, b], op2 fun x y => fAdd (modeOf m f) x y)
  | .fsub h m d a b => some (h, d, [a, b], op2 fun x y => fSub (modeOf m f) x y)
  | .fmul h m d a b => some (h, d, [a, b], op2 fun x y => fMul (modeOf m f) x y)
  | .fma h m d a b c => some (h, d, [a, b, c], op3 fun x y z => fFma (modeOf m f) x y z)
  | .fmin h d a b => some (h, d, [a, b], op2 fun x y => selMin x y)
  | .fmax h d a b => some (h, d, [a, b], op2 fun x y => selMax x y)
  | .fabs h d a => some (h, d, [a], op1 fun x => if val32 x = .nan then 0x7FC00000#32 else x &&& 0x7FFFFFFF#32)
  | .fneg h d a => some (h, d, [a], op1 fun x => if val32 x = .nan then 0x7FC00000#32 else x ^^^ 0x80000000#32)
  | .frcp h d a => some (h, d, [a], op1 fRcp)
  | .frsq h d a => some (h, d, [a], op1 fRsq)
  | .fsqrt h d a => some (h, d, [a], op1 fSqrt)
  | .fexp2 h d a => some (h, d, [a], op1 fExp2)
  | .flog2 h d a => some (h, d, [a], op1 fLog2)
  | .fln h d a => some (h, d, [a], op1 fLn)
  | .fcls h d a => some (h, d, [a], op1 fClass)
  | .cvt h k m d a => some (h, d, [a], op1 fun x => fCvt k (modeOf m f) x)
  | .npenc h d a => some (h, d, [a], op1 fun x => (npEnc x).setWidth 32)
  | .npdec h p w d a => some (h, d, [a], op1 fun x =>
      if w then intToF32 (npVal (x.setWidth 8) p.toNat) else BitVec.ofInt 32 (npVal (x.setWidth 8) p.toNat))
  | _ => none

/-- R329, R336 to R342: a float form or conversion writes its operation of the sources in the lanes of W. -/
def FloatResult : Prop :=
  ∀ (s : State) (t : Team) (g g' : Group) (fid : Nat) (f : Fragment) (h : LHdr) (i : Instr) (d : VReg) (l : List Src)
    (op : List W32 → W32) (ts : List Tag) (push : Option Tag), LaneReady s t g fid f h → floatForm f i = some (h, d, l, op) →
    Sources t g fid f l ts → AluEnds t g fid f h l [(d, plainTag ts fun k => op (ts.map (·.lane k)))] g' push →
    exec i s = .next (laneNext s t g' fid (f.mode == .user) true push)

/-- R246, R247, R249: a finite word of a format is the rounding of its own value, in every mode; and an arithmetic form with a NaN
operand, and a product of zero and infinity, give the canonical NaN. -/
def FloatWords : Prop :=
  (∀ (f : Fmt) (m : Rnd) (x : Nat) (neg : Bool) (n : Nat) (e : Int), f = f32 ∨ f = bf16 ∨ f = fp16 →
    x < 2 ^ (1 + f.eb + f.fb) → f.read x = .fin neg n e → f.round m neg n e = x) ∧
  (∀ (m : Rnd) (x y z : W32), val32 x = .nan → fAdd m x y = 0x7FC00000#32 ∧ fAdd m y x = 0x7FC00000#32 ∧
    fSub m x y = 0x7FC00000#32 ∧ fSub m y x = 0x7FC00000#32 ∧ fMul m x y = 0x7FC00000#32 ∧ fMul m y x = 0x7FC00000#32 ∧
    fFma m x y z = 0x7FC00000#32 ∧ fFma m y z x = 0x7FC00000#32 ∧ selMin x y = 0x7FC00000#32 ∧ selMax y x = 0x7FC00000#32) ∧
  ∀ (m : Rnd) (x y : W32) (a b : Bool) (e : Int), val32 x = .inf a → val32 y = .fin b 0 e → fMul m x y = 0x7FC00000#32

/-- (−1)^neg × n × 2^e as a real number. -/
noncomputable def realOf (neg : Bool) (n : Nat) (e : Int) : ℝ := (if neg then -1 else 1) * n * (2 : ℝ) ^ e

/-- The word `w` of a format is finite and stands for `x` (R244). -/
def IsNum (f : Fmt) (w : Nat) (x : ℝ) : Prop := ∃ neg n e, f.read w = .fin neg n e ∧ x = realOf neg n e

/-- A value on the grid of a format whose exponent range has no upper limit (R246). -/
def OnGrid (f : Fmt) (y : ℝ) : Prop := ∃ neg n e, n < 2 ^ (f.fb + 1) ∧ f.emin ≤ e ∧ y = realOf neg n e

/-- One whose fraction field ends in 0. -/
def EvenPlace (f : Fmt) (y : ℝ) : Prop :=
  ∃ neg n e, n % 2 = 0 ∧ n < 2 ^ (f.fb + 1) ∧ f.emin ≤ e ∧ (2 ^ f.fb ≤ n ∨ e = f.emin) ∧ y = realOf neg n e

/-- `y` is the value of the grid that a mode takes for `x` (R246). -/
def Nearest (f : Fmt) (m : Rnd) (x y : ℝ) : Prop :=
  OnGrid f y ∧ match m with
  | .rne => ∀ z, OnGrid f z → |x - y| ≤ |x - z| ∧ (z ≠ y → |x - z| = |x - y| → EvenPlace f y)
  | .rtz => |y| ≤ |x| ∧ 0 ≤ x * y ∧ ∀ z, OnGrid f z → |z| ≤ |x| → |z| ≤ |y|
  | .rup => x ≤ y ∧ ∀ z, OnGrid f z → x ≤ z → y ≤ z
  | .rdn => y ≤ x ∧ ∀ z, OnGrid f z → z ≤ x → z ≤ y

/-- The word `w` is ROUND of a number other than 0 to a format in a mode, with the overflow of that mode (R246). -/
def RoundsTo (f : Fmt) (m : Rnd) (x : ℝ) (w : Nat) : Prop :=
  ∃ y neg, Nearest f m x y ∧ (neg = true ↔ x < 0) ∧
    (|y| ≤ realOf false (2 ^ (f.fb + 1) - 1) (f.emin + 2 ^ f.eb - 3) → ∃ n e, f.read w = .fin neg n e ∧ y = realOf neg n e) ∧
    (realOf false (2 ^ (f.fb + 1) - 1) (f.emin + 2 ^ f.eb - 3) < |y| → w = f.signBits neg +
      if m = .rne ∨ (m = .rup ∧ neg = false) ∨ (m = .rdn ∧ neg = true) then f.infBits else f.infBits - 1)

/-- The zero of a sign. -/
def zeroOf (neg : Bool) : W32 := if neg then 0x80000000#32 else 0#32

/-- The sign of an exact zero sum of operands with signs `a` and `b` (R247). -/
def zeroSum (m : Rnd) (a b : Bool) : Bool := if a = b then a else m == .rdn

/-- R246, R247, R336: on finite operands fadd, fsub, fmul and fma answer their exact result rounded once, and an exact zero with its sign. -/
def ArithmeticRounds : Prop :=
  ∀ (m : Rnd) (a b c : W32) (x y z : ℝ), IsNum f32 a.toNat x → IsNum f32 b.toNat y → IsNum f32 c.toNat z →
    (x + y ≠ 0 → RoundsTo f32 m (x + y) (fAdd m a b).toNat) ∧ (x + y = 0 → fAdd m a b = zeroOf (zeroSum m a.msb b.msb)) ∧
    (x - y ≠ 0 → RoundsTo f32 m (x - y) (fSub m a b).toNat) ∧ (x - y = 0 → fSub m a b = zeroOf (zeroSum m a.msb (!b.msb))) ∧
    (x * y ≠ 0 → RoundsTo f32 m (x * y) (fMul m a b).toNat) ∧ (x * y = 0 → fMul m a b = zeroOf (a.msb != b.msb)) ∧
    (x * y + z ≠ 0 → RoundsTo f32 m (x * y + z) (fFma m a b c).toNat) ∧
    (x * y + z = 0 → fFma m a b c = zeroOf (zeroSum m (a.msb != b.msb) c.msb))

/-- `k` is the integer that a mode takes for `x` (R252). -/
def NearestInt (m : Rnd) (x : ℝ) (k : Int) : Prop :=
  match m with
  | .rne => |x - k| ≤ 1 / 2 ∧ (|x - k| = 1 / 2 → k % 2 = 0)
  | .rtz => |(k : ℝ)| ≤ |x| ∧ |x| < |(k : ℝ)| + 1 ∧ 0 ≤ x * k
  | .rup => x ≤ k ∧ (k : ℝ) < x + 1
  | .rdn => (k : ℝ) ≤ x ∧ x < k + 1

/-- R252: a conversion between float formats rounds the value, one to an integer rounds it to an integer and clamps, and one from an integer
rounds the integer; a NaN converts to the integer 0. -/
def ConversionRounds : Prop :=
  (∀ (m : Rnd) (a : W32) (x : ℝ), x ≠ 0 →
    (IsNum f32 a.toNat x → RoundsTo bf16 m x (fCvt .bf16F32 m a).toNat ∧ RoundsTo fp16 m x (fCvt .fp16F32 m a).toNat) ∧
    (IsNum bf16 (a.toNat % 2 ^ 16) x → IsNum f32 (fCvt .f32Bf16 m a).toNat x ∧ RoundsTo fp16 m x (fCvt .fp16Bf16 m a).toNat) ∧
    (IsNum fp16 (a.toNat % 2 ^ 16) x → IsNum f32 (fCvt .f32Fp16 m a).toNat x ∧ RoundsTo bf16 m x (fCvt .bf16Fp16 m a).toNat)) ∧
  (∀ (m : Rnd) (a : W32) (x : ℝ) (k : Int), IsNum f32 a.toNat x → NearestInt m x k →
    (fCvt .i32F32 m a).toInt = max (-(2 ^ 31)) (min (2 ^ 31 - 1) k) ∧ ((fCvt .u32F32 m a).toNat : Int) = max 0 (min (2 ^ 32 - 1) k)) ∧
  (∀ (m : Rnd) (a : W32), a ≠ 0#32 →
    RoundsTo f32 m (a.toInt : ℝ) (fCvt .f32I32 m a).toNat ∧ RoundsTo f32 m (a.toNat : ℝ) (fCvt .f32U32 m a).toNat) ∧
  ∀ (m : Rnd) (a : W32), val32 a = .nan → fCvt .i32F32 m a = 0#32 ∧ fCvt .u32F32 m a = 0#32

/-- R253: frcp, frsq and fsqrt of a finite operand are RNE of the exact value; fexp2 of an integer in range and flog2 of a power of two are
exact, and fexp2 overflows from 128 on. The inexact results of fexp2, flog2 and fln are not stated here. -/
def FunctionRounds : Prop :=
  (∀ (a : W32) (x : ℝ), IsNum f32 a.toNat x →
    (x ≠ 0 → RoundsTo f32 .rne (1 / x) (fRcp a).toNat) ∧
    (0 < x → RoundsTo f32 .rne (Real.sqrt x) (fSqrt a).toNat ∧ RoundsTo f32 .rne (1 / Real.sqrt x) (fRsq a).toNat) ∧
    (x < 0 → fSqrt a = 0x7FC00000#32 ∧ fRsq a = 0x7FC00000#32 ∧ fLog2 a = 0x7FC00000#32 ∧ fLn a = 0x7FC00000#32) ∧
    (∀ k : Int, x = k → -149 ≤ k → k < 128 → IsNum f32 (fExp2 a).toNat ((2 : ℝ) ^ k)) ∧
    (128 ≤ x → fExp2 a = 0x7F800000#32) ∧
    (∀ k : Int, x = (2 : ℝ) ^ k → IsNum f32 (fLog2 a).toNat k)) ∧
  ∀ (a : W32), val32 a = .nan → [fRcp a, fRsq a, fSqrt a, fExp2 a, fLog2 a, fLn a] = List.replicate 6 0x7FC00000#32

/-- The special operands of R253, with frcp, frsq, fsqrt, fexp2, flog2 and fln of each. -/
def specialRows : List (W32 × List W32) :=
  [(0x00000000#32, [0x7F800000#32, 0x7F800000#32, 0x00000000#32, 0x3F800000#32, 0xFF800000#32, 0xFF800000#32]),
   (0x80000000#32, [0xFF800000#32, 0xFF800000#32, 0x80000000#32, 0x3F800000#32, 0xFF800000#32, 0xFF800000#32]),
   (0x7F800000#32, [0x00000000#32, 0x00000000#32, 0x7F800000#32, 0x7F800000#32, 0x7F800000#32, 0x7F800000#32]),
   (0xFF800000#32, [0x80000000#32, 0x7FC00000#32, 0x7FC00000#32, 0x00000000#32, 0x7FC00000#32, 0x7FC00000#32]),
   (0x3F800000#32, [0x3F800000#32, 0x3F800000#32, 0x3F800000#32, 0x40000000#32, 0x00000000#32, 0x00000000#32])]

/-- R253: the special operands. -/
def SpecialOperands : Prop :=
  ∀ e ∈ specialRows, [fRcp e.1, fRsq e.1, fSqrt e.1, fExp2 e.1, fLog2 e.1, fLn e.1] = e.2

end Sys2Proof.Claims

/-- R244, R246, R247, R249, R250, R252, R253, R257, R258, R329, R336 to R342: the float forms and conversions of the lane stream: their
plumbing, and that fadd, fsub, fmul, fma, cvt, frcp, frsq and fsqrt are the exact result rounded; of fexp2, flog2 and fln the special
operands and the exact results. What it takes from the choices of the model is named in notes/assumptions/51.md. -/
def Obligations.LaneFloatForms : Prop :=
  FloatResult ∧ FloatWords ∧ ArithmeticRounds ∧ ConversionRounds ∧ FunctionRounds ∧ SpecialOperands

/-! ## Predicates and movement between lanes -/

namespace Sys2Proof.Claims

/-- The mask of the lanes below 96 at which a test holds. -/
def maskWhere (p : Nat → Bool) : LaneMask := BitVec.ofFnLE fun i : Fin 96 => p i

/-- The conditions of icmp (R334). -/
def intHolds (c : ICond) (x y : W32) : Bool :=
  match c with
  | .eq => x == y
  | .ne => x != y
  | .lt => x.toInt < y.toInt
  | .le => x.toInt ≤ y.toInt
  | .gt => x.toInt > y.toInt
  | .ge => x.toInt ≥ y.toInt
  | .ltu => x.toNat < y.toNat
  | .leu => x.toNat ≤ y.toNat
  | .gtu => x.toNat > y.toNat
  | .geu => x.toNat ≥ y.toNat

/-- The forms whose destination is a predicate: the register sources, the predicate sources, and the lanes at which the result is true,
of W and the sources' values (R334, R338, R344, R346). -/
def predForm : Instr → Option (LHdr × PReg × List Src × List PReg × (LaneMask → List Tag → List LaneMask → LaneMask))
  | .icmp h c d a b => some (h, d, [a, b], [], fun _ ts _ => maskWhere fun l => intHolds c ((ts.map (·.lane l)).getD 0 0#32)
      ((ts.map (·.lane l)).getD 1 0#32))
  | .fcmp h c d a b => some (h, d, [a, b], [], fun _ ts _ => maskWhere fun l => fCompare c ((ts.map (·.lane l)).getD 0 0#32)
      ((ts.map (·.lane l)).getD 1 0#32))
  | .pand h d a b => some (h, d, [], [a, b], fun _ _ ps => ps.getD 0 0#96 &&& ps.getD 1 0#96)
  | .por h d a b => some (h, d, [], [a, b], fun _ _ ps => ps.getD 0 0#96 ||| ps.getD 1 0#96)
  | .pxor h d a b => some (h, d, [], [a, b], fun _ _ ps => ps.getD 0 0#96 ^^^ ps.getD 1 0#96)
  | .pnot h d a => some (h, d, [], [a], fun _ _ ps => ~~~(ps.getD 0 0#96))
  | .pmov h d a => some (h, d, [], [a], fun _ _ ps => ps.getD 0 0#96)
  | .vote h k d a => some (h, d, [], [a], fun w _ ps =>
      let n := w &&& ps.getD 0 0#96
      if (k = .all ∧ n = w) ∨ (k = .any ∧ n ≠ 0#96) ∨ (k = .uni ∧ (n = w ∨ n = 0#96)) then BitVec.allOnes 96 else 0#96)
  | _ => none

/-- R334, R338, R344, R346: a form with a predicate destination writes it in the lanes of W, leaves its other lanes, and pushes
nothing. -/
def PredicateResult : Prop :=
  ∀ (s : State) (t : Team) (g : Group) (fid : Nat) (f : Fragment) (h : LHdr) (i : Instr) (d : PReg) (l : List Src) (pl : List PReg)
    (op : LaneMask → List Tag → List LaneMask → LaneMask) (ts : List Tag), LaneReady s t g fid f h →
    predForm i = some (h, d, l, pl, op) → Sources t g fid f l ts → (∀ p ∈ d :: pl, g.predBusy p = false) →
    let w := written g f h
    let bits := op w ts (pl.map g.pred)
    let g1 := if w = 0#96 then g else { g with preds := aset g.preds d.toNat ((g.pred d &&& ~~~w) ||| (bits &&& w)) }
    exec i s = .next (laneNext s t ((g1.decAll l []).advance fid) fid (f.mode == .user) true none)

/-- The lanes of a mask, ascending. -/
def lanesIn (w : LaneMask) : List Nat := (List.range 96).filter fun l => w.getLsbD l

/-- One step of a fold (R349). -/
def foldStep (op : FoldOp) (r x : W32) : W32 :=
  match op with
  | .add => r + x
  | .and => r &&& x
  | .or => r ||| x
  | .xor => r ^^^ x
  | .min => if r.toInt ≤ x.toInt then r else x
  | .max => if r.toInt ≥ x.toInt then r else x
  | .minu => if r.toNat ≤ x.toNat then r else x
  | .maxu => if r.toNat ≥ x.toNat then r else x
  | .fadd => fAdd .rne r x
  | .fmin => selMin r x
  | .fmax => selMax r x

/-- The identity of a fold (R349). -/
def foldUnit : FoldOp → W32
  | .add | .or | .xor | .maxu | .fadd => 0#32
  | .and | .minu => 0xFFFFFFFF#32
  | .min => 0x7FFFFFFF#32
  | .max => 0x80000000#32
  | .fmin => 0x7F800000#32
  | .fmax => 0xFF800000#32

/-- The fold of a list of words, from the first (R349). -/
def foldWords (op : FoldOp) : List W32 → W32
  | [] => foldUnit op
  | x :: r => r.foldl (foldStep op) x

/-- Three registers of a triple. -/
def tripleOf (ts : List Tag) (f : Nat → W32 × W32 × W32) (d : VReg) : List (VReg × Tag) :=
  [(d, plainTag ts fun l => (f l).1), (d + 1, plainTag ts fun l => (f l).2.1), (d + 2, plainTag ts fun l => (f l).2.2)]

/-- The three words of a triple in a lane, at place `k` of the sources. -/
def wordsAt (ts : List Tag) (k l : Nat) : W32 × W32 × W32 :=
  ((ts.getD k .released).lane l, (ts.getD (k + 1) .released).lane l, (ts.getD (k + 2) .released).lane l)

/-- The forms that move values between lanes or planes, and those of triples: the register sources, and the destinations with their
values, of W, the sources' values and the predicates (R343, R345, R347 to R350, R352). -/
def crossForm (g : Group) (w : LaneMask) (ts : List Tag) : Instr → Option (LHdr × List Src × List (VReg × Tag))
  | .plx h p d a => some (h, [a], [(d,
      let word (l : Nat) : W32 := BitVec.ofFnLE fun j : Fin 32 =>
        w.getLsbD (l / 32 * 32 + j) && ((ts.getD 0 .released).lane (l / 32 * 32 + j)).getLsbD (7 - p.toNat)
      if w = BitVec.allOnes 96 then plainTag ts word else Tag.ofLanes word)])
  | .pli h p d a b => some (h, [a, b], [(d, Tag.ofLanes fun l =>
      let c : W32 := BitVec.ofFnLE fun k : Fin 32 => k < 8 &&
        (if k.val = 7 - p.toNat then ((ts.getD 1 .released).lane l).getLsbD (l % 32) else ((ts.getD 0 .released).lane l).getLsbD k)
      if c = 0x80#32 then 0#32 else c)])
  | .ballot h d a => some (h, [], [(d, .uniform ((w &&& g.pred a).extractLsb' 0 32)),
      (d + 1, .uniform ((w &&& g.pred a).extractLsb' 32 32)), (d + 2, .uniform ((w &&& g.pred a).extractLsb' 64 32))])
  | .shfl h d a b => some (h, [a, b], [(d, plainTag ts fun l =>
      let k := ((ts.getD 1 .released).lane l).toNat
      if k < 96 then (ts.getD 0 .released).lane k else 0#32)])
  | .xchg h d a b => some (h, [a, b], [(d, plainTag (ts.take 1) fun l =>
      let q := l ^^^ (((ts.getD 1 .released).lane 0).extractLsb' 0 7).toNat
      if q < 96 then (ts.getD 0 .released).lane q else (ts.getD 0 .released).lane l)])
  | .redux h op d a => some (h, [a], [(d, plainTag ts fun _ => foldWords op ((lanesIn w).map (ts.getD 0 .released).lane))])
  | .scan h op excl d a => some (h, [a], [(d,
      match op, ts, w == BitVec.allOnes 96 with
      | .add, [.uniform u], true => .affine (if excl then 0#32 else u) u
      | _, _, _ => Tag.ofLanes fun l => if w.getLsbD l then
          foldWords op (((lanesIn w).filter fun k => k < l || (k == l && !excl)).map (ts.getD 0 .released).lane) else 0#32)])
  | .welf h d a b => some (h, groupOf (.v a) 3 ++ [b], tripleOf ts (fun l => welf3 (wordsAt ts 0 l) ((ts.getD 3 .released).lane l)) d)
  | .wmerge h d a b => some (h, groupOf (.v a) 3 ++ groupOf (.v b) 3, tripleOf ts (fun l => wmerge3 (wordsAt ts 0 l) (wordsAt ts 3 l)) d)
  | _ => none

/-- The predicate source of a ballot. -/
def ballotPred : Instr → PReg
  | .ballot _ _ a | .ballotLq _ a => a
  | _ => 0#4

/-- R343, R345, R347 to R350, R352: the plane, ballot, movement, fold and triple forms write what their rules give of values read before
any write, whatever fragment carries the lanes they read; xchg's second source must be uniform. -/
def CrossResult : Prop :=
  ∀ (s : State) (t : Team) (g g' : Group) (fid : Nat) (f : Fragment) (h : LHdr) (i : Instr) (l : List Src) (ts : List Tag)
    (dests : List (VReg × Tag)) (push : Option Tag), LaneReady s t g fid f h →
    crossForm g (written g f h) ts i = some (h, l, dests) → Sources t g fid f l ts → g.predBusy (ballotPred i) = false →
    ((∃ h d a b, i = .xchg h d a b) → ∃ x u, ts = [x, .uniform u]) → AluEnds t g fid f h l dests g' push →
    exec i s = .next (laneNext s t g' fid (f.mode == .user) true push)

/-- R345, R349: ballot.lq and redux.lq push their words to lq as one step, where it has room, even when W is empty. -/
def QueueResult : Prop :=
  ∀ (s : State) (t : Team) (g : Group) (fid : Nat) (f : Fragment) (h : LHdr), LaneReady s t g fid f h →
    (∀ a, g.predBusy a = false → g.lq.length + 2 ≤ 16 → exec (.ballotLq h a) s = .next (laneNext s t
      ({ g with lq := g.lq ++ [((written g f h &&& g.pred a).extractLsb' 0 64), ((written g f h &&& g.pred a).extractLsb' 64 32).setWidth 64] }.advance
        fid) fid (f.mode == .user) true none)) ∧
    (∀ op a x, Sources t g fid f [a] [x] → g.lq.length + 1 ≤ 16 → exec (.reduxLq h op a) s = .next (laneNext s t
      (({ g with lq := g.lq ++ [(foldWords op ((lanesIn (written g f h)).map x.lane)).setWidth 64] }.decAll [a] []).advance fid) fid
      (f.mode == .user) true none))

end Sys2Proof.Claims

/-- R334, R338, R343 to R350, R352: the predicate forms, and those that move values between lanes. -/
def Obligations.LanePredicateForms : Prop := PredicateResult ∧ CrossResult ∧ QueueResult

/-- R132, R133, R136, R140, R329, R370: the frame of an ALU form that writes registers. Of its group it changes only the lane registers it
writes, the counts (and with them the release) of the registers it names, the latch run, the fragment's pc and the counts of instructions;
a written register keeps its other lanes, a source keeps its value unless its count runs out, and every other register is as it was; no
byte of memory changes, and nothing outside the group but its team's quantum count. -/
def Obligations.LaneAluFrame : Prop :=
  ∀ (t : Team) (g g' : Group) (fid : Nat) (f : Fragment) (h : LHdr) (l : List Src) (dests : List (VReg × Tag)) (push : Option Tag),
    AluEnds t g fid f h l dests g' push →
    g' = { g with vregs := g'.vregs, kregs := g'.kregs, shadows := g'.shadows, frags := g'.frags } ∧
    (∀ n : VReg, n ∉ dests.map (·.1) → .v n ∉ l → g'.vreg n.toNat = g.vreg n.toNat ∧ aget g'.shadows n.toNat = aget g.shadows n.toNat) ∧
    (∀ n : VReg, n ∉ dests.map (·.1) → (g'.vreg n.toNat).tag = (g.vreg n.toNat).tag ∨
      (.v n ∈ l ∧ (g.vreg n.toNat).cc = 1 ∧ (g'.vreg n.toNat).tag = .released)) ∧
    (∀ n : VReg, n ∈ dests.map (·.1) → h.wbs = false → g.proposal = false → (dests.map (·.1)).Nodup → written g f h ≠ 0#96 →
      ∃ x, (n, x) ∈ dests ∧ (g'.vreg n.toNat).cc = h.cc.toNat ∧
        ∀ k < 96, (g'.vreg n.toNat).tag.lane k = if (written g f h).getLsbD k then x.lane k else (g.vreg n.toNat).tag.lane k) ∧
    (∀ k, k ≠ fid → aget g'.frags k = aget g.frags k) ∧
    ∀ s user, let s' := laneNext s t g' fid user true push
      s' = { s with teams := s'.teams } ∧ ∀ k, k ≠ s.focus.team → s'.team? k = s.team? k

/-! ## Control of fragments -/

namespace Sys2Proof.Claims

/-- The instruction that lies `i` lane instructions from a fragment's (R298). -/
def branchTarget (f : Fragment) (i : BitVec 21) : W64 := f.pc + 12 * sext64 i

/-- A group with a fragment changed. -/
def moved (g : Group) (fid : Nat) (f : Fragment → Fragment) : Group := { g with frags := aupd g.frags fid f }

/-- The lanes that a branch takes: those of W at which its predicate holds, or with `inv` does not (R385). -/
def taken (g : Group) (f : Fragment) (h : LHdr) (inv : Bool) (a : PReg) : LaneMask :=
  written g f h &&& if inv then ~~~(g.pred a) else g.pred a

/-- What a control form that takes no trap leaves of its group (R125 to R130, R385). -/
inductive ControlForm (t : Team) (g : Group) (fid : Nat) (f : Fragment) : Instr → LHdr → Group → Prop
  | pass (h : LHdr) (inv : Bool) (a : PReg) (i : BitVec 21) : g.predBusy a = false → taken g f h inv a = 0#96 →
      ControlForm t g fid f (.lbr h inv a i) h { g.advance fid with running := some fid }
  | branch (h : LHdr) (inv : Bool) (a : PReg) (i : BitVec 21) : g.predBusy a = false → taken g f h inv a ≠ 0#96 →
      taken g f h inv a = f.mask → ControlForm t g fid f (.lbr h inv a i) h
        { moved g fid fun f => { f with pc := branchTarget f i } with running := some fid }
  | split (h : LHdr) (inv : Bool) (a : PReg) (i : BitVec 21) (n j k : Nat) (x : LaneMask) : g.predBusy a = false →
      x = taken g f h inv a → x ≠ 0#96 → x ≠ f.mask → afree g.frags 8 0 = some n →
      (lanesIn x).head? = some j → (lanesIn (f.mask &&& ~~~x)).head? = some k →
      ControlForm t g fid f (.lbr h inv a i) h
        { g with frags := aset (aset g.frags fid { f with pc := f.pc + 12, mask := f.mask &&& ~~~x, span := f.span &&& ~~~x }) n
                            { f with pc := branchTarget f i, mask := x, span := x },
                 running := some (if j < k then n else fid) }
  | jump (i : BitVec 21) : ControlForm t g fid f (.ljmp i) noGuard (moved g fid fun f => { f with pc := branchTarget f i })
  | mark (i : BitVec 21) (n : Nat) : afree g.frames 16 0 = some n → ControlForm t g fid f (.mark i) noGuard
      { g with frames := aset g.frames n { rejoin := branchTarget f i, mask := f.mask, span := f.span, fmtr := f.fmtr,
                                           link := f.frame },
               frags := aset g.frags fid { f with pc := f.pc + 12, span := f.mask, frame := some n } }
  | join (n : Nat) (fr : Frame) : f.frame = some n → aget g.frames n = some fr → fr.rejoin = f.pc →
      ControlForm t g fid f .join noGuard { (moved g fid fun f => { f with wait := .join }).tryJoin n fr with running := none }
  | lend : f.frame = none → f.handler = none →
      ControlForm t g fid f .lend noGuard { g with frags := adel g.frags fid, laneTurn := false, running := none }
  | format (i : W16) : FormatOk (zext64 i) →
      ControlForm t g fid f (.lfmt i) noGuard (moved g fid fun f => { f with fmtr := zext64 i, pc := f.pc + 12 })
  | maskRead (cc : BitVec 3) (n : BitVec 2) (d : VReg) (g' : Group) :
      Writes t g fid f f.mask cc.toNat [] [(d, .uniform (f.mask.extractLsb' (32 * n.toNat) 32))] g' →
      ControlForm t g fid f (.mkrd cc n d) noGuard (g'.advance fid)
  | maskWrite (n : BitVec 2) (a : Src) (x : W32) : Sources t g fid f [a] [.uniform x] →
      ControlForm t g fid f (.mkwr n a) noGuard (moved (g.decAll [a] []) fid fun f =>
        { f with mask := f.span &&& (BitVec.ofFnLE fun i : Fin 96 =>
                           if i.val / 32 = n.toNat then x.getLsbD (i % 32) else f.mask.getLsbD i), pc := f.pc + 12 })

/-- The forms that say which fragment runs next in an ordered launch (R110). -/
def endsRun : Instr → Bool
  | .lbr _ _ _ _ | .join | .lend => true
  | _ => false

/-- R110, R125 to R130, R385: every control form that takes no trap; after it the fragment is the one that runs in an ordered launch, but after
a split that half of it runs which holds the lower lane, and after join and lend none does. -/
def ControlForms : Prop :=
  ∀ (s : State) (t : Team) (g g' : Group) (fid : Nat) (f : Fragment) (i : Instr) (h : LHdr), LaneReady s t g fid f h →
    ControlForm t g fid f i h g' → exec i s = .next (laneNext s t g' fid (f.mode == .user) false none (endsRun i))

/-- R128: when the spans of the fragments that wait at a frame make up its mask, they become one fragment, in the lowest of their
entries, at the instruction after the join, with the frame's mask, span, format and link; the frame is gone. Until then they wait. -/
def JoinMerge : Prop :=
  ∀ (g : Group) (n : Nat) (fr : Frame), keysRise g.frags = true →
    let waits (k : Nat) : Prop := ∃ f, aget g.frags k = some f ∧ f.frame = some n ∧ f.wait = .join
    let whole : Prop := ∀ i < 96, fr.mask.getLsbD i = true ↔
      ∃ k f, aget g.frags k = some f ∧ f.frame = some n ∧ f.wait = .join ∧ f.span.getLsbD i = true
    (¬ whole → g.tryJoin n fr = g) ∧
    (whole → ∀ k f, waits k → (∀ j < k, ¬ waits j) → aget g.frags k = some f →
      let g' := g.tryJoin n fr
      aget g'.frags k = some { f with pc := fr.rejoin + 12, mask := fr.mask, span := fr.span, fmtr := fr.fmtr, frame := fr.link,
                                      wait := .none } ∧
      (∀ j, j ≠ k → waits j → aget g'.frags j = none) ∧ (∀ j, ¬ waits j → aget g'.frags j = aget g.frags j) ∧
      g' = { g with frames := adel g.frames n, frags := g'.frags })

/-- The state after a lane trap of a plain cause. -/
def laneTrapped (s : State) (fid : Nat) (c : Cause) : State :=
  s.takeLaneTrap s.focus fid { cause := c, lane := none, info := 0, bad := 0, set := none }

/-- R126 to R130, R134, R385: where a control form traps: a branch that would split with no entry free, a mark with no frame free, a
join that is not its frame's, a lend inside a frame or a handler, a format that may not be held, and a mask word that is not uniform. -/
def ControlTraps : Prop :=
  ∀ (s : State) (t : Team) (g : Group) (fid : Nat) (f : Fragment) (h : LHdr), LaneReady s t g fid f h →
    let traps (i : Instr) (c : Cause) : Prop := exec i s = .next (laneTrapped s fid c)
    (∀ inv a i, g.predBusy a = false → taken g f h inv a ≠ 0#96 → taken g f h inv a ≠ f.mask → afree g.frags 8 0 = none →
      traps (.lbr h inv a i) .splitOverflow) ∧
    (∀ i, afree g.frames 16 0 = none → traps (.mark i) .stackOverflow) ∧
    ((∀ n fr, f.frame = some n → aget g.frames n = some fr → fr.rejoin ≠ f.pc) → traps .join .joinUnmatched) ∧
    (f.frame ≠ none ∨ f.handler ≠ none → traps .lend .lendUnbalanced) ∧
    (∀ i, ¬ FormatOk (zext64 i) → traps (.lfmt i) .fmtInvalid) ∧
    (∀ n a x, Sources t g fid f [a] [x] → (∀ w, x ≠ .uniform w) → traps (.mkwr n a) .shapeMismatch)

end Sys2Proof.Claims

/-- R110, R125 to R130, R385: the control of fragments. What it takes from the choices of the model is named in notes/assumptions/23.md,
28.md. -/
def Obligations.LaneControlForms : Prop := ControlForms ∧ ControlTraps ∧ JoinMerge

/-! ## Lane memory: issue -/

namespace Sys2Proof.Claims

/-- The device address of each lane, of a 64-bit pair with a uniform high word or a 32-bit offset (R353), and whether the low word is
uniform. -/
def DeviceAddr (t : Team) (g : Group) (fid : Nat) (f : Fragment) (a64 : Bool) (a : Src) (i : BitVec 21) (addr : Nat → W64)
    (unif : Bool) : Prop :=
  ∃ lo, Sources t g fid f [a] [lo] ∧ unif = lo.isUniform ∧
    ((a64 = false ∧ addr = fun l => (lo.lane l).setWidth 64 + sext64 i) ∨
     (a64 = true ∧ ∃ hi, Sources t g fid f [Src.nth a 1] [.uniform hi] ∧ addr = fun l => (hi ++ lo.lane l) + sext64 i))

/-- The scratch offset of each lane (R353). -/
def ScratchAddr (t : Team) (g : Group) (fid : Nat) (f : Fragment) (a : Src) (i : BitVec 21) (addr : Nat → W64) (unif : Bool) : Prop :=
  ∃ x, Sources t g fid f [a] [x] ∧ unif = x.isUniform ∧ addr = fun l => (x.lane l + i.signExtend 32).setWidth 64

/-- Each address of the lanes of W is a multiple of the size (R355). -/
def Aligned (g : Group) (f : Fragment) (h : LHdr) (addr : Nat → W64) (n : Nat) : Prop :=
  ∀ l ∈ lanesIn (written g f h), (addr l).toNat % n = 0

/-- The lanes of a list with their physical addresses (R355). -/
def Translated (s : State) (t : Team) (f : Fragment) (nd : Need) (addr : Nat → W64) (ls : List Nat) (ps : List (Nat × Nat)) : Prop :=
  ps.map (·.1) = ls ∧ ∀ p ∈ ps, s.translate t.tenant t.core f.mode (addr p.1).toNat nd = .ok p.2

/-- One read serves every lane: the address is uniform and every lane is active (R356). -/
def oneForAll (g : Group) (f : Fragment) (h : LHdr) (unif : Bool) : Bool := unif && written g f h == BitVec.allOnes 96

/-- The lanes that access memory for themselves. -/
def askers (g : Group) (f : Fragment) (h : LHdr) (unif : Bool) : List Nat :=
  if oneForAll g f h unif then [0] else lanesIn (written g f h)

/-- Registers into which results will be delivered, with the shape they take at issue (R356). -/
def landing (unif : Bool) (d : VReg) (n : Nat) : List (VReg × Tag) :=
  (regsFrom d n).map fun d => (d, if unif then .uniform 0#32 else Tag.ofLanes fun _ => 0#32)

/-- An access of a fragment, with the fields of MOD (R299, R355). -/
def laneAccess (g : Group) (f : Fragment) (h : LHdr) (m : MemMod) (p : Path) (scratch : Bool) (k : AccKind) (items : List LaneAcc) :
    Access :=
  { newAccess k with path := some p, scratch := scratch, scope := m.scope, order := m.order, promote := m.promote,
                     active := written g f h, items := items, shadow := g.proposal && f.mode == .user }

/-- Parts at physical addresses, and parts in scratch, which touch nothing beyond the team's range (R354). -/
def atDevice (ps : List (Nat × Nat)) (n : Nat) (data cmp : Nat → List Byte) : List LaneAcc :=
  ps.map fun p => { lane := p.1, addr := p.2, live := true, size := n, data := data p.1, cmp := cmp p.1 }
def atScratch (t : Team) (addr : Nat → W64) (ls : List Nat) (n : Nat) (data cmp : Nat → List Byte) : List LaneAcc :=
  ls.map fun l => { lane := l, addr := (addr l).toNat, live := decide ((addr l).toNat + n ≤ t.scratchBytes), size := n,
                    data := data l, cmp := cmp l }

/-- The low `n` bytes of a register group in a lane (R358). -/
def lowBytes (ts : List Tag) (n l : Nat) : List Byte := ((ts.map fun t => leBytes 4 (t.lane l).toNat).flatten).take n

/-- A register operand of `n` registers. -/
def sized (w64 : Bool) : Nat := if w64 then 2 else 1

/-- The registers that a store reads. -/
def storeRegs (w : StWidth) (b : Src) : List Src := groupOf b (stBytes w / 4 + if stBytes w < 4 then 1 else 0)

/-- An access that an ordered launch makes at its turn: one marked .ord (R107, R111, R357). -/
def marked (t : Team) (m : MemMod) : Prop := t.isOrdered = true ∧ m.ord = true ∧ (m.scope = .clu ∨ m.scope = .dev)

/-- An atomic whose result does not depend on order: a reduction on integers that returns nothing (R111). -/
def orderFree (op : AtomOp) (ret : Bool) : Prop := ret = false ∧ op ∈ [.add, .and, .or, .xor, .min, .max, .minu, .maxu]

/-- What a lane memory form issues: the state it leaves otherwise, the registers it fills, those it names as sources, and its access
(R353 to R362). In an ordered launch, the forms here are those that no turn orders. -/
inductive MemForm (s : State) (t : Team) (g : Group) (fid : Nat) (f : Fragment) :
    Instr → LHdr → State → List (VReg × Tag) → List Src → Access → Prop
  | ld (h : LHdr) (m : MemMod) (a64 : Bool) (w : LdWidth) (d : VReg) (a : Src) (i : BitVec 21) (addr : Nat → W64) (u : Bool)
      (ps : List (Nat × Nat)) : DeviceAddr t g fid f a64 a i addr u → Aligned g f h addr (ldBytes w) →
      Translated s t f 1#4 addr (askers g f h u) ps → ¬ marked t m →
      MemForm s t g fid f (.laneLd h m a64 w d a i) h s (landing (oneForAll g f h u) d (ldCount w)) (groupOf a (sized a64))
        (laneAccess g f h m .ld false (.load w d (oneForAll g f h u)) (atDevice ps (ldBytes w) (fun _ => []) fun _ => []))
  | st (h : LHdr) (m : MemMod) (a64 : Bool) (w : StWidth) (a b : Src) (i : BitVec 21) (addr : Nat → W64) (u : Bool)
      (ps : List (Nat × Nat)) (ts : List Tag) : DeviceAddr t g fid f a64 a i addr u → Sources t g fid f (storeRegs w b) ts → Aligned g f h addr (stBytes w) →
      Translated s t f 2#4 addr (lanesIn (written g f h)) ps → ¬ marked t m →
      MemForm s t g fid f (.laneSt h m a64 w a b i) h s [] (groupOf a (sized a64) ++ storeRegs w b)
        (laneAccess g f h m .st false .store (atDevice ps (stBytes w) (lowBytes ts (stBytes w)) fun _ => []))
  | lds (h : LHdr) (m : MemMod) (w : LdWidth) (d : VReg) (a : Src) (i : BitVec 21) (addr : Nat → W64) (u : Bool) :
      ScratchAddr t g fid f a i addr u → Aligned g f h addr (ldBytes w) →
      MemForm s t g fid f (.laneLds h m w d a i) h s (landing (oneForAll g f h u) d (ldCount w)) [a]
        (laneAccess g f h m .sx true (.load w d (oneForAll g f h u))
          (atScratch t addr (askers g f h u) (ldBytes w) (fun _ => []) fun _ => []))
  | sts (h : LHdr) (m : MemMod) (w : StWidth) (a b : Src) (i : BitVec 21) (addr : Nat → W64) (u : Bool) (ts : List Tag) :
      ScratchAddr t g fid f a i addr u → Sources t g fid f (storeRegs w b) ts →
      Aligned g f h addr (stBytes w) →
      MemForm s t g fid f (.sts h m w a b i) h s [] (a :: storeRegs w b)
        (laneAccess g f h m .sx true .store
          (atScratch t addr (lanesIn (written g f h)) (stBytes w) (lowBytes ts (stBytes w)) fun _ => []))
  | atom (h : LHdr) (m : MemMod) (a64 ret w64 : Bool) (op : AtomOp) (d : VReg) (a b e : Src) (i : BitVec 21) (addr : Nat → W64)
      (u : Bool) (ps : List (Nat × Nat)) (bs es : List Tag) : DeviceAddr t g fid f a64 a i addr u →
      Sources t g fid f (groupOf b (sized w64)) bs → (if op = .cas then Sources t g fid f (groupOf e (sized w64)) es else es = []) →
      (f.mode ≠ .user ∨ ∀ n, e ≠ .k n) → Aligned g f h addr (4 * sized w64) →
      Translated s t f 3#4 addr (lanesIn (written g f h)) ps → t.isOrdered = false ∨ orderFree op ret →
      MemForm s t g fid f (.atom h m a64 ret w64 op d a b e i) h s (if ret then landing false d (sized w64) else [])
        (groupOf a (sized a64) ++ (groupOf b (sized w64) ++ if op = .cas then groupOf e (sized w64) else []))
        (laneAccess g f h m (if ret then .ld else .st) false (.atom op w64 ret d)
          (atDevice ps (4 * sized w64) (lowBytes bs (4 * sized w64)) (lowBytes es (4 * sized w64))))
  | atoms (h : LHdr) (m : MemMod) (ret w64 : Bool) (op : AtomOp) (d : VReg) (a b e : Src) (i : BitVec 21) (addr : Nat → W64)
      (u : Bool) (bs es : List Tag) : ScratchAddr t g fid f a i addr u →
      Sources t g fid f (groupOf b (sized w64)) bs → (if op = .cas then Sources t g fid f (groupOf e (sized w64)) es else es = []) →
      (f.mode ≠ .user ∨ ∀ n, e ≠ .k n) → Aligned g f h addr (4 * sized w64) → t.isOrdered = false ∨ orderFree op ret →
      MemForm s t g fid f (.atoms h m ret w64 op d a b e i) h s (if ret then landing false d (sized w64) else [])
        (a :: (groupOf b (sized w64) ++ if op = .cas then groupOf e (sized w64) else []))
        (laneAccess g f h m .sx true (.atom op w64 ret d)
          (atScratch t addr (lanesIn (written g f h)) (4 * sized w64) (lowBytes bs (4 * sized w64)) (lowBytes es (4 * sized w64))))
  | smaxpk (h : LHdr) (m : MemMod) (a64 ret : Bool) (d : VReg) (a b e : Src) (i : BitVec 21) (addr : Nat → W64) (u : Bool)
      (ps : List (Nat × Nat)) (y z : Tag) (s1 : State) : DeviceAddr t g fid f a64 a i addr u →
      Sources t g fid f [b, e] [y, z] → Aligned g f h addr 16 → Translated s t f 3#4 addr (lanesIn (written g f h)) ps →
      t.isOrdered = false ∨ ret = false →
      (s1 = if ∃ l ∈ lanesIn (written g f h), val32 (y.lane l) = .nan then
        (match t.launch with | some l => s.updLaunch l fun l => { l with gnan := true } | none => s) else s) →
      MemForm s t g fid f (.smaxpk h m a64 ret d a b e i) h s1 (if ret then landing false d 2 else []) (groupOf a (sized a64) ++ [b, e])
        (laneAccess g f h m (if ret then .ld else .st) false (.smaxpk ret d) (atDevice ps 16
          (fun l => leBytes 8 ((gateKey (y.lane l)).toNat * 2 ^ 32 + (0xFFFFFFFF - (z.lane l).toNat))) fun _ => []))
  | pstPacked (h : LHdr) (m : MemMod) (a64 : Bool) (a : Src) (b : PReg) (i : BitVec 21) (addr : Nat → W64) (ps : List (Nat × Nat)) :
      DeviceAddr t g fid f a64 a i addr true → g.predBusy b = false → Aligned g f h addr 4 →
      Translated s t f 2#4 (fun k => addr 0 + BitVec.ofNat 64 (4 * k)) (if written g f h = 0#96 then [] else [0, 1, 2]) ps →
      ¬ marked t m →
      MemForm s t g fid f (.pst h m a64 false a b i) h s [] (groupOf a (sized a64))
        (laneAccess g f h m .st false .store (atDevice ps 4
          (fun k => leBytes 4 ((written g f h &&& g.pred b).extractLsb' (32 * k) 32).toNat) fun _ => []))
  | pstEach (h : LHdr) (m : MemMod) (a64 : Bool) (a : Src) (b : PReg) (i : BitVec 21) (addr : Nat → W64) (u : Bool)
      (ps : List (Nat × Nat)) : DeviceAddr t g fid f a64 a i addr u → g.predBusy b = false →
      Translated s t f 2#4 addr (lanesIn (written g f h)) ps → ¬ marked t m →
      MemForm s t g fid f (.pst h m a64 true a b i) h s [] (groupOf a (sized a64))
        (laneAccess g f h m .st false .store (atDevice ps 1 (fun l => [if (g.pred b).getLsbD l then 1#8 else 0#8]) fun _ => []))
  | pldPacked (h : LHdr) (m : MemMod) (a64 : Bool) (d : PReg) (a : Src) (i : BitVec 21) (addr : Nat → W64) (ps : List (Nat × Nat)) :
      DeviceAddr t g fid f a64 a i addr true → g.predBusy d = false → Aligned g f h addr 4 →
      Translated s t f 1#4 (fun k => addr 0 + BitVec.ofNat 64 (4 * k)) (if written g f h = 0#96 then [] else [0, 1, 2]) ps →
      ¬ marked t m →
      MemForm s t g fid f (.pld h m a64 false d a i) h s [] (groupOf a (sized a64))
        (laneAccess g f h m .ld false (.pld d false) (atDevice ps 4 (fun _ => []) fun _ => []))
  | pldEach (h : LHdr) (m : MemMod) (a64 : Bool) (d : PReg) (a : Src) (i : BitVec 21) (addr : Nat → W64) (u : Bool)
      (ps : List (Nat × Nat)) : DeviceAddr t g fid f a64 a i addr u → g.predBusy d = false →
      Translated s t f 1#4 addr (lanesIn (written g f h)) ps → ¬ marked t m →
      MemForm s t g fid f (.pld h m a64 true d a i) h s [] (groupOf a (sized a64))
        (laneAccess g f h m .ld false (.pld d true) (atDevice ps 1 (fun _ => []) fun _ => []))

/-- R159, R353 to R362: a lane memory form whose addresses are aligned and translate gives its destinations their shape, slot and count,
decrements its sources, and issues its access on its path; the access is performed later. -/
def MemoryForms : Prop :=
  ∀ (s s1 : State) (t : Team) (g g' : Group) (fid : Nat) (f : Fragment) (i : Instr) (h : LHdr) (dests : List (VReg × Tag))
    (names : List Src) (a : Access), LaneReady s t g fid f h → MemForm s t g fid f i h s1 dests names a →
    (∀ p, a.path = some p → g.inflight p < 255) → Writes t g fid f (written g f h) h.cc.toNat names dests g' →
    exec i s = .next (laneNext s1 t ((issued g' a).advance fid) fid (f.mode == .user) false none)

/-- R199, R327, R363: lfence is the fence of the scalar stream. -/
def LaneFence : Prop :=
  ∀ (s : State) (t : Team) (g : Group) (fid : Nat) (f : Fragment) (sc : Scope) (o : Order), LaneReady s t g fid f noGuard →
    (o = .rel ∨ o = .ar → g.drained = true) → g.readsDone = true →
    let c := clusterOf t.core
    let wide := sc = .dev ∨ sc = .sys
    let s1 := if o = .rel ∨ o = .ar then s.release s.focus c (decide wide) else s
    exec (.lfence sc o) s = .next (laneNext (if o = .acq ∨ o = .ar then s1.acquire c (decide wide) else s1) t (g.advance fid) fid
      (f.mode == .user) false none)

end Sys2Proof.Claims

/-- R158, R159, R199, R353 to R363: what the lane memory forms issue, and lfence. What it takes from the choices of the model is named in
notes/assumptions/24.md. -/
def Obligations.LaneMemoryIssue : Prop := MemoryForms ∧ LaneFence

/-! ## Lane memory: traps -/

namespace Sys2Proof.Claims

/-- A lane form that accesses device memory lane by lane: header, 64-bit base, base, offset, need, alignment (R355, R358 to R361); and
one that accesses scratch: header, base, offset, alignment. -/
def deviceForm : Instr → Option (LHdr × Bool × Src × BitVec 21 × Need × Nat)
  | .laneLd h _ a64 w _ a i => some (h, a64, a, i, 1#4, ldBytes w)
  | .laneSt h _ a64 w a _ i => some (h, a64, a, i, 2#4, stBytes w)
  | .atom h _ a64 _ w64 _ _ a _ _ i => some (h, a64, a, i, 3#4, 4 * sized w64)
  | .smaxpk h _ a64 _ _ a _ _ i => some (h, a64, a, i, 3#4, 16)
  | .pst h _ a64 true a _ i => some (h, a64, a, i, 2#4, 1)
  | .pld h _ a64 true _ a i => some (h, a64, a, i, 1#4, 1)
  | _ => none
def scratchForm : Instr → Option (LHdr × Src × BitVec 21 × Nat)
  | .laneLds h _ w _ a i => some (h, a, i, ldBytes w)
  | .sts h _ w a _ i => some (h, a, i, stBytes w)
  | .atoms h _ _ w64 _ _ a _ _ i => some (h, a, i, 4 * sized w64)
  | _ => none

/-- The register sources of a memory form besides its address, and its predicate source. -/
def dataSources : Instr → List Src
  | .laneSt _ _ _ w _ b _ | .sts _ _ w _ b _ => storeRegs w b
  | .atom _ _ _ _ w64 op _ _ b e _ => groupOf b (sized w64) ++ if op = .cas then groupOf e (sized w64) else []
  | .atoms _ _ _ w64 op _ _ b e _ => groupOf b (sized w64) ++ if op = .cas then groupOf e (sized w64) else []
  | .smaxpk _ _ _ _ _ _ b e _ => [b, e]
  | _ => []
def dataPred : Instr → PReg
  | .pst _ _ _ _ _ b _ => b
  | _ => 0#4

/-- An atomic that an ordered launch does not admit at a scope beyond the team (R111). -/
def scopedAtomic : Instr → Option Scope
  | .atom _ m _ ret _ op _ _ _ _ _ =>
    if ret = false ∧ op ∈ [AtomOp.add, .and, .or, .xor, .min, .max, .minu, .maxu] then none else some m.scope
  | .smaxpk _ m _ ret _ _ _ _ _ => if ret then some m.scope else none
  | _ => none

/-- The lanes that translate an address: where one read serves every lane, one (R356). -/
def translators (g : Group) (f : Fragment) (h : LHdr) (i : Instr) (u : Bool) : List Nat :=
  match i with
  | .laneLd _ _ _ _ _ _ _ => askers g f h u
  | _ => lanesIn (written g f h)

end Sys2Proof.Claims

/-- R111, R171, R223, R354, R355: an atomic beyond the team's scope in an ordered launch raises ORDERED_SCOPE; else the lowest lane of W whose
address is no multiple of the size raises MISALIGNED with that address; else the lowest lane that does not translate raises XLATE, with
its reason and address. Nothing else has happened. What it takes from the choices of the model is named in notes/assumptions/21.md. -/
def Obligations.LaneAccessTraps : Prop :=
  ∀ (s : State) (t : Team) (g : Group) (fid : Nat) (f : Fragment) (i : Instr) (h : LHdr) (a : Src) (o : BitVec 21) (n : Nat)
    (addr : Nat → W64) (u : Bool) (ts : List Tag), LaneReady s t g fid f h → i.wellFormed = true →
    Sources t g fid f (dataSources i) ts → g.predBusy (dataPred i) = false →
    let traps (c : Cause) (lane : Option Nat) (info : W32) (bad : W64) : Prop := exec i s = .next (s.takeLaneTrap s.focus fid
      { cause := c, lane := lane, info := info, bad := bad, set := none })
    let beyond : Prop := t.isOrdered = true ∧ ∃ sc, scopedAtomic i = some sc ∧ sc ≠ .grp ∧ sc ≠ .team
    let misaligned : Prop := ∀ l, l ∈ lanesIn (written g f h) → (addr l).toNat % n ≠ 0 →
      (∀ k ∈ lanesIn (written g f h), k < l → (addr k).toNat % n = 0) → traps .misaligned (some l) 0 (addr l)
    (∀ a64 nd, deviceForm i = some (h, a64, a, o, nd, n) → DeviceAddr t g fid f a64 a o addr u →
      (beyond → traps .orderedScope none 0 0) ∧ (¬ beyond → misaligned) ∧
      (¬ beyond → Aligned g f h addr n → ∀ l reason bad, l ∈ translators g f h i u →
        s.translate t.tenant t.core f.mode (addr l).toNat nd = .fail reason bad →
        (∀ k ∈ translators g f h i u, k < l → ∃ pa, s.translate t.tenant t.core f.mode (addr k).toNat nd = .ok pa) →
        traps .xlate (some l) (BitVec.ofNat 32 reason) (BitVec.ofNat 64 bad))) ∧
    (scratchForm i = some (h, a, o, n) → ScratchAddr t g fid f a o addr u → misaligned)

/-! ## Lane memory: performed -/

namespace Sys2Proof.Claims

/-- The byte that an access finds at an address of one of its parts: in scratch, 0 beyond the team's range (R354); in memory, at a wide
scope, and where an ordered operation is performed at its turn, the byte that the home slice holds once this cluster's own has gone there, at
a narrow one the cluster's (R108, R155, R196, R204). -/
def foundByte (s : State) (t : Team) (a : Access) (i : LaneAcc) (x : Nat) : Byte :=
  if a.scratch then (if i.live then memGet t.scratch x else 0#8)
  else if scopeWide a.scope || a.home || fullBeat a.items i then coherent s (clusterOf t.core) x
  else s.cachedByte (clusterOf t.core) x

/-- The lanes of an access's parts are distinct, and its parts are of one kind: all the home slice's, or all the cluster's. -/
def UniformParts (a : Access) : Prop :=
  (a.items.map (·.lane)).Nodup ∧ (∀ i ∈ a.items, i.lane < 96) ∧
  ((∀ i ∈ a.items, fullBeat a.items i = true) ∨ ∀ i ∈ a.items, fullBeat a.items i = false)

/-- R158, R199: a return or a store is performed when its event comes and what orders it is done; otherwise the event does nothing. -/
def MemoryEvents : Prop :=
  ∀ (s : State) (g : Group) (r : GRef) (id : Nat), s.group? r = some g →
    (g.ready id = none → exec (.memoryAccessReturn r id) s = .next s ∧ exec (.storePerformed r id) s = .next s) ∧
    (∀ a, g.ready id = some a →
      (a.returns = true → exec (.memoryAccessReturn r id) s = .next (s.perform r a)) ∧
      (a.stores = true → exec (.storePerformed r id) s = .next (s.perform r a)))

/-- R356, R358: a plain load performed delivers to each of its lanes the words of the bytes it finds, zero- or sign-extended to its
width; one read serves every lane where the address was uniform; the other lanes, the other registers and all bytes are as they were. -/
def LoadPerformed : Prop :=
  ∀ (s : State) (t : Team) (g : Group) (r : GRef) (a : Access) (w : LdWidth) (d : VReg) (u : Bool), s.team? r.team = some t →
    s.group? r = some g → a.kind = .load w d u → a.order = .plain → a.promote = false → a.shadow = false → UniformParts a →
    s.mem.wf = true → keysRise (s.cluster (clusterOf t.core)).dirty = true →
    ∃ g', (s.perform r a).group? r = some g' ∧
      (∀ k < ldCount w, ∀ i ∈ a.items, a.active.getLsbD i.lane = true → ∀ l < 96,
        (if u then a.items = [i] ∧ a.active = BitVec.allOnes 96 else l = i.lane) →
        (g'.vreg (d + BitVec.ofNat 10 k).toNat).tag.lane l =
          loadWord w ((List.range i.size).map fun j => foundByte s t a i (i.addr + j)) k) ∧
      (∀ k < ldCount w, ∀ l < 96, a.active.getLsbD l = false →
        (g'.vreg (d + BitVec.ofNat 10 k).toNat).tag.lane l = (g.vreg (d + BitVec.ofNat 10 k).toNat).tag.lane l) ∧
      (∀ n : VReg, n ∉ regsFrom d (ldCount w) → g'.vreg n.toNat = g.vreg n.toNat) ∧
      (∀ x, coherent (s.perform r a) (clusterOf t.core) x = coherent s (clusterOf t.core) x)

/-- R358: the words of a load: bytes extended by zeros or by their sign, and word `k` of the bytes for the widths of a word and more. -/
def LoadWords : Prop :=
  ∀ bs : List Byte,
    (∀ w, w = .z8 ∨ w = .z16 ∨ w = .b32 → bs.length = ldBytes w → loadWord w bs 0 = BitVec.ofNat 32 (leNat bs)) ∧
    (bs.length = 1 → loadWord .s8 bs 0 = (BitVec.ofNat 8 (leNat bs)).signExtend 32) ∧
    (bs.length = 2 → loadWord .s16 bs 0 = (BitVec.ofNat 16 (leNat bs)).signExtend 32) ∧
    (∀ w k, w = .b64 ∨ w = .b128 → bs.length = ldBytes w → k < ldCount w →
      loadWord w bs k = BitVec.ofNat 32 (leNat bs / 2 ^ (32 * k)))

/-- R154, R354, R358, R359: a plain store performed, pst among them, leaves its bytes where its parts are, lower lanes first; elsewhere nothing changes for its
cluster, and device memory holds what it held or a byte that the cluster held dirty. -/
def StorePerformed : Prop :=
  ∀ (s : State) (t : Team) (g : Group) (r : GRef) (a : Access), s.team? r.team = some t → s.group? r = some g → a.kind = .store →
    a.order = .plain → a.promote = false → UniformParts a → (∀ i ∈ a.items, i.data.length = i.size) → s.mem.wf = true →
    t.scratch.wf = true → keysRise (s.cluster (clusterOf t.core)).dirty = true →
    let s' := s.perform r a
    let c := clusterOf t.core
    let outside (x : Nat) : Prop := ∀ i ∈ a.items, i.live = true → x < i.addr ∨ i.addr + i.size ≤ x
    let alone (i : LaneAcc) (k : Nat) : Prop := i ∈ a.items ∧ i.live = true ∧ k < i.size ∧
      ∀ j ∈ a.items, j.lane ≠ i.lane → j.live = true → i.addr + k < j.addr ∨ j.addr + j.size ≤ i.addr + k
    ∃ t', s'.team? r.team = some t' ∧
      (a.scratch = true → s'.mem = s.mem ∧ s'.clusters = s.clusters ∧
        (∀ x, outside x → memGet t'.scratch x = memGet t.scratch x) ∧
        ∀ i k, alone i k → memGet t'.scratch (i.addr + k) = i.data.getD k 0#8) ∧
      (a.scratch = false → (∀ i ∈ a.items, i.live = true) → t'.scratch = t.scratch ∧
        (∀ x, outside x → coherent s' c x = coherent s c x ∧
          (memGet s'.mem x = memGet s.mem x ∨ ∃ d, (x, d) ∈ (s.cluster c).dirty ∧ memGet s'.mem x = d.val)) ∧
        (∀ i k, alone i k → coherent s' c (i.addr + k) = i.data.getD k 0#8) ∧
        (scopeWide a.scope = true ∨ a.home = true → ∀ i k, alone i k → memGet s'.mem (i.addr + k) = i.data.getD k 0#8) ∧
        ∀ k, k ≠ c → s'.cluster k = s.cluster k)

/-- The new value of a word of an atomic (R360). -/
def atomTable {n : Nat} (op : AtomOp) (old b c : BitVec n) : BitVec n :=
  match op with
  | .add => BitVec.ofNat n (old.toNat + b.toNat)
  | .and => old &&& b
  | .or => old ||| b
  | .xor => old ^^^ b
  | .min => if b.toInt < old.toInt then b else old
  | .max => if old.toInt < b.toInt then b else old
  | .minu => if b.toNat < old.toNat then b else old
  | .maxu => if old.toNat < b.toNat then b else old
  | .xchg => b
  | .cas => if old = c then b else old
  | .fadd => (fAdd .rne (old.setWidth 32) (b.setWidth 32)).setWidth n
  | .fmin => (selMin (old.setWidth 32) (b.setWidth 32)).setWidth n
  | .fmax => (selMax (old.setWidth 32) (b.setWidth 32)).setWidth n

/-- The bytes that a lane's part of an atomic leaves where it found `old`: the new word (R360), or the slot of an smaxpk with the lane's word
offered (R361). -/
def atomBytesOf (k : AccKind) (i : LaneAcc) (old : List Byte) : List Byte :=
  match k with
  | .atom op false _ _ =>
    leBytes 4 (atomTable op (BitVec.ofNat 32 (leNat old)) (BitVec.ofNat 32 (leNat i.data)) (BitVec.ofNat 32 (leNat i.cmp))).toNat
  | .atom op true _ _ =>
    leBytes 8 (atomTable op (BitVec.ofNat 64 (leNat old)) (BitVec.ofNat 64 (leNat i.data)) (BitVec.ofNat 64 (leNat i.cmp))).toNat
  | .smaxpk _ _ =>
    let w0 := leNat (old.take 8)
    let w1 := leNat (old.drop 8)
    let x := leNat i.data
    if w0 < x then leBytes 8 x ++ leBytes 8 w0 else if w1 < x ∧ x < w0 then leBytes 8 w0 ++ leBytes 8 x else old
  | _ => old

/-- The parts of an atomic one after another, from the bytes `m` (R157, R360): what each lane finds, and the bytes left. A part beyond the team's
scratch finds zeros and leaves nothing (R354). -/
def atomRun (k : AccKind) : List LaneAcc → (Nat → Byte) → List (Nat × List Byte) × (Nat → Byte)
  | [], m => ([], m)
  | i :: l, m =>
    let old := if i.live then (List.range i.size).map fun j => m (i.addr + j) else List.replicate i.size 0#8
    let r := atomRun k l fun x =>
      if i.live = true ∧ i.addr ≤ x ∧ x < i.addr + i.size then (atomBytesOf k i old).getD (x - i.addr) 0#8 else m x
    ((i.lane, old) :: r.1, r.2)

/-- The atomics of the lane stream, with the bytes of a part, the registers that receive what it finds, and whether any do. -/
def atomKind : AccKind → Option (Nat × List VReg × Bool)
  | .atom op w64 ret d => if w64 = true ∧ op ∈ [.fadd, .fmin, .fmax] then none else some (4 * sized w64, regsFrom d (sized w64), ret)
  | .smaxpk ret d => some (16, regsFrom d 2, ret)
  | _ => none

/-- R157, R354, R356, R360, R361: an atomic performed: its lanes act one after another in ascending order, each on what those before it have left, in
memory at the home slices whatever the scope, or in scratch; with RET each lane of W receives the low words of what it found, and no other lane
and no other register changes. -/
def AtomicPerformed : Prop :=
  ∀ (s : State) (t : Team) (g : Group) (r : GRef) (a : Access) (n : Nat) (ds : List VReg) (ret : Bool), s.team? r.team = some t →
    s.group? r = some g → atomKind a.kind = some (n, ds, ret) → a.order = .plain → a.promote = false → a.shadow = false →
    (∀ i ∈ a.items, i.size = n ∧ i.lane < 96) → (a.items.map (·.lane)).Nodup → s.mem.wf = true → t.scratch.wf = true →
    keysRise (s.cluster (clusterOf t.core)).dirty = true → (a.scratch = false → ∀ i ∈ a.items, i.live = true) →
    let s' := s.perform r a
    let c := clusterOf t.core
    let x := atomRun a.kind a.items (if a.scratch then memGet t.scratch else coherent s c)
    ∃ t' g', s'.team? r.team = some t' ∧ s'.group? r = some g' ∧
      (a.scratch = true → s'.mem = s.mem ∧ s'.clusters = s.clusters ∧ ∀ y, memGet t'.scratch y = x.2 y) ∧
      (a.scratch = false → t'.scratch = t.scratch ∧ (∀ y, coherent s' c y = x.2 y) ∧
        (∀ i ∈ a.items, ∀ j, j < n → memGet s'.mem (i.addr + j) = x.2 (i.addr + j)) ∧ ∀ k, k ≠ c → s'.cluster k = s.cluster k) ∧
      (ret = false → g'.vregs = g.vregs) ∧
      (ret = true → (∀ k d, ds[k]? = some d →
          (∀ l old, (l, old) ∈ x.1 → a.active.getLsbD l = true →
            (g'.vreg d.toNat).tag.lane l = BitVec.ofNat 32 (leNat old / 2 ^ (32 * k))) ∧
          ∀ l < 96, a.active.getLsbD l = false → (g'.vreg d.toNat).tag.lane l = (g.vreg d.toNat).tag.lane l) ∧
        ∀ m : VReg, m ∉ ds → g'.vreg m.toNat = g.vreg m.toNat)

/-- R359: a pld performed: each lane of W receives its bit of the three words, or, lane by lane, whether its byte is not zero; the other lanes and
predicates, and all bytes, are as they were. -/
def PredicateLoaded : Prop :=
  ∀ (s : State) (t : Team) (g : Group) (r : GRef) (a : Access) (d : PReg) (each : Bool), s.team? r.team = some t → s.group? r = some g →
    a.kind = .pld d each → d ≠ 0#4 → a.order = .plain → a.promote = false → UniformParts a → s.mem.wf = true →
    keysRise (s.cluster (clusterOf t.core)).dirty = true →
    ∃ g', (s.perform r a).group? r = some g' ∧
      (∀ i ∈ a.items, ∀ l < 96, a.active.getLsbD l = true → i.lane = (if each then l else l / 32) →
        let n := leNat ((List.range i.size).map fun j => foundByte s t a i (i.addr + j))
        (g'.pred d).getLsbD l = if each then n != 0 else n.testBit (l % 32)) ∧
      (∀ l < 96, a.active.getLsbD l = false → (g'.pred d).getLsbD l = (g.pred d).getLsbD l) ∧
      (∀ p, p ≠ d → g'.pred p = g.pred p) ∧ g'.vregs = g.vregs ∧
      ∀ y, coherent (s.perform r a) (clusterOf t.core) y = coherent s (clusterOf t.core) y

/-- R250: SELMAX and SELMIN of two FP32 words: the canonical NaN where either is a NaN, and otherwise the larger and the smaller, −0 below +0. -/
def Selections : Prop :=
  ∀ a b : W32, let place (x : W32) : Int := if x.getLsbD 31 then -((x &&& 0x7FFFFFFF#32).toNat : Int) - 1 else (x.toNat : Int)
    (val32 a = .nan ∨ val32 b = .nan → selMax a b = 0x7FC00000#32 ∧ selMin a b = 0x7FC00000#32) ∧
    (val32 a ≠ .nan → val32 b ≠ .nan →
      selMax a b = (if place a < place b then b else a) ∧ selMin a b = if place b < place a then b else a)

/-- R157, R360: the lanes of an atomic act one after another in ascending order: atomics that add to one word leave there the sum of the
old word and every operand, and each lane finds the word with the operands of the lanes before it. -/
def AtomicAddSums : Prop :=
  ∀ (s : State) (k : AccKind) (ret : Bool) (d : VReg) (items : List LaneAcc) (pa : Nat), s.mem.wf = true →
    k = .atom .add false ret d → (∀ i ∈ items, i.addr = pa ∧ i.size = 4) →
    let word (m : Memory) : W32 := BitVec.ofNat 32 (leNat (memGetN m pa 4))
    let added (l : List LaneAcc) : W32 := (l.map fun i => BitVec.ofNat 32 (leNat i.data)).sum
    let x := s.atomItems k items
    word x.2.mem = word s.mem + added items ∧ x.1.map (·.1) = items.map (·.lane) ∧
    (∀ n, (h : n < x.1.length) → BitVec.ofNat 32 (leNat (x.1[n]).2) = word s.mem + added (items.take n)) ∧
    ∀ y, y < pa ∨ pa + 4 ≤ y → memGet x.2.mem y = memGet s.mem y

/-- R148: the home slice of a line: 32 for each die below its stack's, and a place on the die from two fields of the address; the rule's
example is slice 42. -/
def HomeSlices : Prop :=
  homeSlice 0x123456780 = 42 ∧ ∀ pa : Nat, homeSlice pa < 128 ∧
    homeSlice pa = 32 * ((pa >>> 14) % 4) + (((pa >>> 7) % 32) ^^^ ((pa >>> 16) % 32)) ∧
    ∀ x, x / 128 = pa / 128 → homeSlice x = homeSlice pa

end Sys2Proof.Claims

/-- R155, R157, R158, R196, R199, R204, R250, R354, R356, R358 to R361: what the accesses of the lane stream do when they are performed. What
it takes from the choices of the model is named in notes/assumptions/24.md, 53.md. -/
def Obligations.LaneMemoryPerformed : Prop := 
  MemoryEvents ∧ LoadPerformed ∧ LoadWords ∧ StorePerformed ∧ AtomicPerformed ∧ PredicateLoaded ∧ Selections ∧ AtomicAddSums ∧ HomeSlices

/-! ## The Grove from the lane stream -/

namespace Sys2Proof.Claims

/-- The 64-bit operand of a lane, of one register or a pair (R364). -/
def laneOperand (ts : List Tag) (l : Nat) : W64 :=
  match ts with
  | [lo, hi] => hi.lane l ++ lo.lane l
  | lo :: _ => (lo.lane l).setWidth 64
  | [] => 0#64

/-- Index `n` names partition `q`, of key `k`, to team `t` (R174, R182). -/
def Named (s : State) (t : Team) (n k : Nat) (q : Partition) : Prop :=
  (if n < 24 then t.parts[n]? else aget t.attach n) = some k ∧ aget (s.core t.core).parts k = some q

/-- Index `n` names partition `q`, of key `k`, to team `t`, and nothing waits at its port before the stream in focus (R174, R182, R188). -/
def PortFree (s : State) (t : Team) (n k : Nat) (q : Partition) : Prop :=
  Named s t n k q ∧ ∀ x, q.tokens.head? = some x → x.g = s.focus ∧ x.stream = s.stream

/-- The partition with nothing of the stream in focus at its port any more. -/
def left (s : State) (q : Partition) : Partition := { q with tokens := q.tokens.filter fun x => !(x.g == s.focus && x.stream == s.stream) }

/-- The registers of a value operand that kacc reads: COUNT reads none (R365). -/
def valueRegs (gop : Nat) (val64 : Bool) (b : Src) : List Src := if gop = 7 then [] else groupOf b (sized val64)

/-- A kacc that is not to wait, its turn or its place at the port: what it makes of partition `q`, of key `k`, and the records that overflow
(R183, R184, R365). -/
inductive KaccApplies (s : State) (t : Team) (g : Group) (fid : Nat) (f : Fragment) (h : LHdr) (k : Nat) (q : Partition) :
    Instr → Group → Partition → List (W64 × List Byte) → Prop
  | mk (p : BitVec 5) (fl : BitVec 4) (key64 val64 : Bool) (a b : Src) (ks xs : List Tag) (q' : Partition) (recs : List (W64 × List Byte)) :
      LaneReady s t g fid f h → PortFree s t p.toNat k q → Sources t g fid f (groupOf a (sized key64)) ks →
      Sources t g fid f (valueRegs q.gop val64 b) xs → q.hasField fl.toNat = true → (f.mode = .user → ∀ n, b ≠ .k n) →
      q.attached = [] ∨ q.tokens ≠ [] ∨ (t.isOrdered = false ∧ g.ordered = none) →
      q.applyAll fl.toNat (grovePartials q.gop ((lanesIn (written g f h)).map fun l => (laneOperand ks l, laneOperand xs l))) = (q', recs) →
      KaccApplies s t g fid f h k q (.kacc h p fl key64 val64 a b)
        ((g.decAll (groupOf a (sized key64) ++ valueRegs q.gop val64 b) []).advance fid) q' recs

/-- What a kacc leaves: the partials applied, and the records, where there are any, in the partition's stream, which has room for them
(R183, R187). -/
def KaccDone (s : State) (t : Team) (g : Group) (fid : Nat) (f : Fragment) (h : LHdr) (k : Nat) (q : Partition) (i : Instr) (s' : State) :
    Prop :=
  ∃ g' q' recs, KaccApplies s t g fid f h k q i g' q' recs ∧
    ((recs = [] ∧ s' = laneNext (withPart s t k (left s q')) t g' fid (f.mode == .user) false none) ∨
     ∃ st pl pidx, recs ≠ [] ∧ g.drained = true ∧ q.stream = some st ∧ StreamPlaces s t f.mode q st recs.length pl pidx ∧
      s' = laneNext (withPart (published s t st pl pidx recs) t k (left s
        { q' with ovfcnt := (q.ovfcnt + recs.length) % 2 ^ 16, stream := some { st with p := st.p + BitVec.ofNat 32 recs.length } }))
        t g' fid (f.mode == .user) false none)

/-- R183, R184, R187, R364, R365: kacc combines the lanes of W key by key and applies the partials to the partition; the records that
overflow go to its stream, which has room for them, as one release; its sources decrement. With no stream for them it raises GROVE_NOSTREAM. -/
def GroveAccumulate : Prop :=
  ∀ (s : State) (t : Team) (g : Group) (fid : Nat) (f : Fragment) (h : LHdr) (k : Nat) (q : Partition) (i : Instr),
    (∀ s', KaccDone s t g fid f h k q i s' → exec i s = .next s') ∧
    ∀ g' q' recs, KaccApplies s t g fid f h k q i g' q' recs → recs ≠ [] → q.stream = none →
      exec i s = .next (laneTrapped s fid .groveNostream)

/-- R183: the partials of a kacc: each key once, in the order in which the lanes bring them, with the values of its lanes combined in
lane order. -/
def GrovePartialRules : Prop :=
  ∀ (gop : Nat) (l : List (W64 × W64)), let p := grovePartials gop l
    p.map (·.1) = ((l.map (·.1)).reverse.dedup).reverse ∧
    ∀ k x r, (l.filter fun e => e.1 == k).map (·.2) = x :: r → (k, r.foldl (groveComb gop) (groveStart gop x)) ∈ p

/-- The entries of a partition are one per key, each in a way of its key's set, with a payload of the partition's width (R175, R177). -/
def Partition.Sound (q : Partition) : Prop :=
  keysRise q.entries = true ∧ q.width ≤ 3 ∧ q.gop ≤ 9 ∧ 0 < q.limit ∧
  (∀ i e, aget q.entries i = some e → i / 16 = q.setOf e.key ∧ e.payload.length = payloadBytes q.width) ∧
  ∀ i j e d, aget q.entries i = some e → aget q.entries j = some d → e.key = d.key → i = j

/-- R184, R185: a partial applied to a partition: a key that is there is combined; one that is not takes the lowest free way of its set,
where the partition is below its limit; else its record overflows, or evicts the earliest entry of its full set, or of the partition.
Every other key's field is as it was. -/
def GroveEntryRules : Prop :=
  ∀ (q q' : Partition) (f : Nat) (k : W64) (part : List Byte) (r : Option (W64 × List Byte)), Partition.Sound q →
    q.hasField f = true → part.length = fieldBytes q.gop → q.applyKey f k part = (q', r) →
    let free := q.freeWay (q.setOf k)
    let full : Prop := q.limit ≤ q.entries.length ∨ free = none
    let others (l : List W64) : Prop := ∀ j, j ∉ l → ∀ d, q'.look d j = q.look d j
    (∀ i e, q.find k = some (i, e) → r = none ∧ q'.look f k = (true, groveApply q.gop (q.field f e.payload) part) ∧ others [k]) ∧
    (q.find k = none → ¬ full → r = none ∧ q'.look f k = (true, part) ∧ others [k] ∧
      ∃ i e, free = some i ∧ aget q'.entries i = some e ∧ e.key = k) ∧
    (q.find k = none → full → q.evict = false → q' = q ∧ ∃ pl, r = some (k, pl) ∧ q.field f pl = part) ∧
    (q.find k = none → full → q.evict = true → q'.look f k = (true, part) ∧
      ∃ i v, aget q.entries i = some v ∧ r = some (v.key, v.payload) ∧ others [k, v.key] ∧ (q'.find v.key).isNone = true ∧
        (free = none → i / 16 = q.setOf k ∧ ∀ j e, aget q.entries j = some e → j / 16 = q.setOf k → v.stamp ≤ e.stamp) ∧
        (free ≠ none → ∀ j e, aget q.entries j = some e → v.stamp ≤ e.stamp)) ∧
    Partition.Sound q'

/-- The results of a klook or kread on their way to the registers and the predicate that receive them (R356, R366, R367): per lane, a
flag and bytes. -/
def delivery (g : Group) (f : Fragment) (h : LHdr) (one : Bool) (dests : List VReg) (p : PReg) (res : List (Nat × Bool × List Byte)) :
    Access :=
  { newAccess (.deliver
      ((dests.zip (List.range dests.length)).map fun e =>
        (e.1, one, res.map fun x => (x.1, BitVec.ofNat 32 (leNat ((x.2.2.drop (4 * e.2)).take 4)))))
      p (maskOf fun l => (res.find? fun x => one || x.1 == l).any fun x => x.2.1))
    with path := some .kv, active := written g f h, shadow := g.proposal && f.mode == .user }

/-- The access of a klook or kread among those of its group: the last, or, of one that has waited at its port, in the place that it has kept
since it issued (R159). -/
def seated (q : Partition) (fid : Nat) (g : Group) (a : Access) : Group :=
  if q.tokens = [] then issued g a
  else { g with accesses := pruneAccesses (g.accesses.map fun b =>
           if b.kind = .reserved fid then { a with id := b.id, done := decide (a.active = 0#96) } else b) }

/-- What a Grove form that reads leaves of its group (R366 to R368): the bytes that each asking lane finds are delivered later. -/
inductive GroveRead (t : Team) (g : Group) (fid : Nat) (f : Fragment) (q : Partition) : Instr → BitVec 5 → LHdr → Group → Prop
  | look (h : LHdr) (p : BitVec 5) (fl : BitVec 4) (key64 : Bool) (d : VReg) (a : Src) (hit : PReg) (ks : List Tag) (g' : Group) :
      valueGroup d (klookCount q.gop) = true → Sources t g fid f (groupOf a (sized key64)) ks → q.hasField fl.toNat = true →
      g.predBusy hit = false →
      Writes t g fid f (written g f h) h.cc.toNat (groupOf a (sized key64))
        (landing (oneForAll g f h (ks.all (·.isUniform))) d (klookCount q.gop)) g' →
      GroveRead t g fid f q (.klook h p fl key64 d a hit) p h (seated q fid g' (delivery g f h (oneForAll g f h (ks.all (·.isUniform)))
        (regsFrom d (klookCount q.gop)) hit
        ((askers g f h (ks.all (·.isUniform))).map fun l => (l, q.look fl.toNat (laneOperand ks l)))))
  | lookQueue (h : LHdr) (p : BitVec 5) (fl : BitVec 4) (key64 : Bool) (a : Src) (hit : PReg) (ks : List Tag) (x : Bool × List Byte) :
      Sources t g fid f (groupOf a (sized key64)) ks → (∀ y ∈ ks, y.isUniform = true) → q.hasField fl.toNat = true → q.gop ≠ 8 →
      g.predBusy hit = false → g.lq.length + 1 ≤ 16 →
      x = (if written g f h = 0#96 then (false, groveIdentity q.gop) else q.look fl.toNat (laneOperand ks 0)) →
      GroveRead t g fid f q (.klookLq h p fl key64 a hit) p h
        (seated q fid ({ g with lq := g.lq ++ [BitVec.ofNat 64 (leNat x.2)] }.decAll (groupOf a (sized key64)) [])
          (delivery g f h (oneForAll g f h true) [] hit ((lanesIn (written g f h)).map fun l => (l, x))))
  | read (h : LHdr) (p : BitVec 5) (fl : BitVec 4) (d : VReg) (a : Src) (valid : PReg) (x : Tag) (g' : Group) :
      Sources t g fid f [a] [x] → q.hasField fl.toNat = true → g.predBusy valid = false →
      (∀ l ∈ lanesIn (written g f h), (x.lane l).toNat < q.size) →
      Writes t g fid f (written g f h) h.cc.toNat [a] (landing (oneForAll g f h x.isUniform) d 4) g' →
      GroveRead t g fid f q (.kread h p fl d a valid) p h (seated q fid g' (delivery g f h (oneForAll g f h x.isUniform) (regsFrom d 4) valid
        ((askers g f h x.isUniform).map fun l => (l, match aget q.entries (x.lane l).toNat with
          | none => (false, List.replicate 16 0#8)
          | some e => (true, leBytes 8 e.key.toNat ++ (q.field fl.toNat e.payload).take 8 ++
              List.replicate (8 - ((q.field fl.toNat e.payload).take 8).length) 0#8)))))

/-- R188, R355: a klook, klook.lq or kread whose port others hold issues: path KV counts it from then on (R159), it takes its place behind
them, and its registers are kept as it issued. -/
def GroveQueues : Prop :=
  ∀ (s : State) (t : Team) (g : Group) (fid : Nat) (f : Fragment) (h : LHdr) (i : Instr) (p : BitVec 5) (k : Nat) (q : Partition)
    (x : GToken) (l : List GToken) (g' : Group), LaneReady s t g fid f h → Named s t p.toNat k q → q.tokens = x :: l →
    (∀ y ∈ q.tokens, ¬ (y.g = s.focus ∧ y.stream = s.stream)) → g.inflight .kv < 255 → GroveRead t g fid f { q with tokens := [] } i p h g' →
    let token : GToken := { g := s.focus, stream := s.stream, instr := i, counted := false, record := [] }
    ∃ s' g2, exec i s = .next s' ∧ s'.group? s.focus = some g2 ∧
      aget (s'.core t.core).parts k = some { q with tokens := q.tokens ++ [token] } ∧
      g2.accesses = (issued g { newAccess (.reserved fid) with path := some .kv, active := written g f h }).accesses ∧
      g2.vregs = g.vregs ∧ g2.preds = g.preds ∧ g2.lq = g.lq ∧ (∃ regs, aget g2.waiting fid = some (i, regs))

/-- R185, R356, R366 to R368: klook, klook.lq and kread find their entries as they are performed and deliver them later; kclr invalidates
the entries of its lanes' keys. -/
def GroveReads : Prop :=
  (∀ (s : State) (t : Team) (g g' : Group) (fid : Nat) (f : Fragment) (h : LHdr) (i : Instr) (p : BitVec 5) (k : Nat) (q : Partition),
    LaneReady s t g fid f h → PortFree s t p.toNat k q → (q.tokens = [] → g.inflight .kv < 255) → GroveRead t g fid f q i p h g' →
    exec i s = .next (laneNext (withPart s t k (left s q)) t (g'.advance fid) fid (f.mode == .user) false none)) ∧
  (∀ (s : State) (t : Team) (g : Group) (fid : Nat) (f : Fragment) (h : LHdr) (p : BitVec 5) (key64 : Bool) (a : Src) (k : Nat)
    (q : Partition) (ks : List Tag), LaneReady s t g fid f h → PortFree s t p.toNat k q →
    Sources t g fid f (groupOf a (sized key64)) ks →
    exec (.kclr h p key64 a) s = .next (laneNext
      (withPart s t k (left s ((lanesIn (written g f h)).foldl (fun q l => q.clear (laneOperand ks l)) q))) t
      ((g.decAll (groupOf a (sized key64)) []).advance fid) fid (f.mode == .user) false none)) ∧
  ∀ (q : Partition) (k : W64), Partition.Sound q → (q.clear k).find k = none ∧ ∀ j, j ≠ k → ∀ d, (q.clear k).look d j = q.look d j

/-- The partition index of a Grove form, and its field and sources where it has a field. -/
def groveForm (gop : Nat) : Instr → Option (LHdr × BitVec 5 × Option (BitVec 4) × List Src)
  | .kacc h p f k v a b => some (h, p, some f, groupOf a (sized k) ++ valueRegs gop v b)
  | .klook h p f k _ a _ => some (h, p, some f, groupOf a (sized k))
  | .klookLq h p f k a _ => some (h, p, some f, groupOf a (sized k))
  | .kread h p f _ a _ => some (h, p, some f, [a])
  | .kclr h p k a => some (h, p, none, groupOf a (sized k))
  | _ => none

/-- The sources that a Grove form names. -/
def groveNames : Instr → List Src
  | .kacc _ _ _ _ _ a b => [a, b]
  | .klook _ _ _ _ _ a _ | .klookLq _ _ _ _ a _ | .kread _ _ _ _ a _ | .kclr _ _ _ a => [a]
  | _ => []

/-- R182, R293, R294, R355, R364 to R367: a klook whose registers are no group raises ILLEGAL_OPERAND, and then a k register named in user
mode PRIV_OPERAND before all else; an index that names no partition raises GROVE_PARTITION, a field beyond the payload GROVE_FIELD, and the
lowest lane whose entry index is out of range GROVE_INDEX. -/
def GroveTraps : Prop :=
  ∀ (s : State) (t : Team) (g : Group) (fid : Nat) (f : Fragment) (h : LHdr) (i : Instr) (p : BitVec 5) (k : Nat) (q : Partition)
    (fl : Option (BitVec 4)) (l : List Src), LaneReady s t g fid f h → groveForm q.gop i = some (h, p, fl, l) →
    (∀ h p n k64 d a x, i = .klook h p n k64 d a x → Named s t p.toNat k q → valueGroup d (klookCount q.gop) = false →
      exec i s = .next (laneTrapped s fid .illegalOperand)) ∧
    (f.mode = .user → (∃ n, .k n ∈ groveNames i) →
      (∀ h p n k64 d a x k' q', i = .klook h p n k64 d a x → Named s t p.toNat k' q' → valueGroup d (klookCount q'.gop) = true) →
      exec i s = .next (laneTrapped s fid .privOperand)) ∧
    ((f.mode = .user → ∀ n, .k n ∉ groveNames i) →
    ((if p.toNat < 24 then t.parts[p.toNat]? else aget t.attach p.toNat) = none → exec i s = .next (laneTrapped s fid .grovePartition)) ∧
    (PortFree s t p.toNat k q → ∀ ts n, Sources t g fid f l ts → fl = some n → q.hasField n.toNat = false →
      (∀ h p n k d a x, i = .klook h p n k d a x → valueGroup d (klookCount q.gop) = true) →
      ((∃ h p n k a x, i = .klookLq h p n k a x) → ∀ y ∈ ts, y.isUniform = true) →
      exec i s = .next (laneTrapped s fid .groveField)) ∧
    (PortFree s t p.toNat k q → ∀ n d a v x lane, i = .kread h p n d a v → Sources t g fid f [a] [x] → q.hasField n.toNat = true →
      (∀ r ∈ regsFrom d 4, g.vregBusy fid r = false) → lane ∈ lanesIn (written g f h) → q.size ≤ (x.lane lane).toNat →
      (∀ m ∈ lanesIn (written g f h), m < lane → (x.lane m).toNat < q.size) →
      exec i s = .next (s.takeLaneTrap s.focus fid { cause := .groveIndex, lane := some lane, info := 0, bad := 0, set := none })))

end Sys2Proof.Claims

/-- R174, R177, R182 to R185, R187, R356, R364 to R368: the lane forms of the Grove at a port that no other operation holds, and those that
read in line behind others. What it takes from the choices of the model is named in notes/assumptions/36.md, 48.md, 92.md. -/
def Obligations.LaneGroveForms : Prop := GroveAccumulate ∧ GrovePartialRules ∧ GroveEntryRules ∧ GroveQueues ∧ GroveReads ∧ GroveTraps

/-! ## Proposals and draws -/

namespace Sys2Proof.Claims

/-- No return into a register of the window is outstanding (R370). -/
def WindowQuiet (t : Team) (g : Group) : Prop := ∀ a ∈ g.accesses, ∀ d ∈ a.dests, inWindow t.pbase d.toNat = false

/-- A lane's draw (R266): of the seed, the lane's global index and the counter. -/
def drawOf (t : Team) (g : Group) (r : GRef) (l : Nat) : W32 :=
  drawK g.rseed (BitVec.ofNat 32 (96 * (t.tid * t.ngroups + r.group) + l)) g.rctr

/-- R236, R371, R373: propose opens a proposal with no shadow; pabort closes it and drops the shadows. -/
def ProposalOpens : Prop :=
  ∀ (s : State) (t : Team) (g : Group) (fid : Nat) (f : Fragment), LaneReady s t g fid f noGuard →
    let next (g' : Group) := Host.Outcome.next (laneNext s t (g'.advance fid) fid (f.mode == .user) false none)
    let traps (i : Instr) (c : Cause) : Prop := exec i s = .next (laneTrapped s fid c)
    (f.mode = .user → t.pbase ≠ 0xFFFF → g.proposal = false → WindowQuiet t g →
      exec .propose s = next { g with proposal := true, shadows := [] }) ∧
    (f.mode = .user → g.proposal = true → WindowQuiet t g → exec .pabort s = next { g with proposal := false, shadows := [] }) ∧
    (f.mode ≠ .user → traps .propose .proposalMode ∧ traps .pabort .proposalMode) ∧
    (f.mode = .user → t.pbase = 0xFFFF → traps .propose .proposalNone) ∧
    (f.mode = .user → t.pbase ≠ 0xFFFF → g.proposal = true → traps .propose .proposalNested) ∧
    (f.mode = .user → g.proposal = false → traps .pabort .proposalNone)

/-- R266, R268, R370, R372: accept writes to its predicate which lanes of W accept, those whose value is no NaN and at least the
logarithm of their draw; a register of the window takes its shadow in the lanes that accept and have written it, and keeps its value
elsewhere; the proposal closes, the counter goes up by 1, PPROP by the lanes of W, PACC by those that accept, and PNAN notes a NaN. -/
def ProposalAccepts : Prop :=
  ∀ (s : State) (t : Team) (g : Group) (fid : Nat) (f : Fragment) (h : LHdr) (d : PReg) (a : Src) (x : Tag), LaneReady s t g fid f h →
    f.mode = .user → g.proposal = true → Sources t g fid f [a] [x] → WindowQuiet t g → g.predBusy d = false →
    keysRise g.shadows = true →
    let w := written g f h
    let ok := maskWhere fun l => w.getLsbD l && val32 (x.lane l) != FVal.nan && fCompare .ge (x.lane l) (fLn (drawU (drawOf t g s.focus l)))
    ∃ g' : Group, exec (.accept h d a) s = .next (laneNext s t (g'.advance fid) fid true false none) ∧
      g' = { g with vregs := g'.vregs, proposal := false, shadows := [], rctr := g.rctr + 1,
                    pnan := g.pnan || (lanesIn w).any fun l => val32 (x.lane l) == FVal.nan,
                    pprop := g.pprop + BitVec.ofNat 64 (lanesIn w).length, pacc := g.pacc + BitVec.ofNat 64 (lanesIn ok).length,
                    preds := if w = 0#96 then g.preds else aset g.preds d.toNat ((g.pred d &&& ~~~w) ||| (ok &&& w)) } ∧
      (∀ n sh, aget g.shadows n = some sh → (∀ v : VReg, a = .v v → v.toNat ≠ n) → ∀ l < 96,
        (g'.vreg n).tag.lane l = if ok.getLsbD l = true ∧ sh.written.getLsbD l = true then sh.words.getD l 0#32
          else (g.vreg n).tag.lane l) ∧
      (∀ n, aget g.shadows n = none → (∀ v : VReg, a = .v v → v.toNat ≠ n) → g'.vreg n = g.vreg n)

/-- R266, R374: rand writes a draw to each lane, as an integer or as a float, and the counter goes up by 1; accept and rand are for user
mode, and accept for an open proposal. -/
def DrawForms : Prop :=
  ∀ (s : State) (t : Team) (g : Group) (fid : Nat) (f : Fragment) (h : LHdr), LaneReady s t g fid f h →
    (∀ k d g', f.mode = .user → Writes t g fid f (written g f h) h.cc.toNat []
      [(d, Tag.ofLanes fun l => if k then drawOf t g s.focus l else drawU (drawOf t g s.focus l))] g' →
      exec (.rand h k d) s = .next (laneNext s t ({ g' with rctr := g.rctr + 1 }.advance fid) fid true false none)) ∧
    (f.mode ≠ .user → (∀ k d, exec (.rand h k d) s = .next (laneTrapped s fid .proposalMode)) ∧
      ∀ d a, exec (.accept h d a) s = .next (laneTrapped s fid .proposalMode)) ∧
    (f.mode = .user → g.proposal = false → ∀ d a x, Sources t g fid f [a] [x] →
      exec (.accept h d a) s = .next (laneTrapped s fid .proposalNone))

end Sys2Proof.Claims

/-- R222, R236, R266, R268, R370 to R374: proposals and draws. -/
def Obligations.LaneProposalForms : Prop := ProposalOpens ∧ ProposalAccepts ∧ DrawForms

/-! ## Matrix and accumulators -/

namespace Sys2Proof.Claims

/-- The physical addresses of the parts of an A tile that an mma fetches, row by row (R379). -/
def TileRow (s : State) (t : Team) (f : Fragment) (ea : W64) (r : Nat) (row : List (List Nat)) : Prop :=
  let start := (ea + BitVec.ofNat 64 (96 * r)).toNat
  (start < 2 ^ 48 → ∀ p ∈ rowParts f.fmtr, start + p.1 + p.2 ≤ 2 ^ 48) ∧
  row.length = (rowParts f.fmtr).length ∧
  ∀ j < (rowParts f.fmtr).length, ∃ l, s.translateRange t.tenant t.core f.mode (start + ((rowParts f.fmtr).getD j (0, 0)).1)
    ((rowParts f.fmtr).getD j (0, 0)).2 1#4 = .ok (some l) ∧ row.getD j [] = pieceAddrs l
def TileAt (s : State) (t : Team) (f : Fragment) (ea : W64) (addrs : List Nat) : Prop :=
  ∃ rows : List (List (List Nat)), addrs = (rows.map List.flatten).flatten ∧ rows.length = 64 ∧
    ∀ r < 64, TileRow s t f ea r (rows.getD r [])

/-- The first part of an A tile, row by row, that does not translate, with its reason and address (R169, R171, R379). -/
def TileFails (s : State) (t : Team) (f : Fragment) (ea : W64) (reason bad : Nat) : Prop :=
  ∃ r < 64, (∀ q < r, ∃ row, TileRow s t f ea q row) ∧
    let start := (ea + BitVec.ofNat 64 (96 * r)).toNat
    let beyond : Prop := start < 2 ^ 48 ∧ ∃ p ∈ rowParts f.fmtr, 2 ^ 48 < start + p.1 + p.2
    let part (j : Nat) := s.translateRange t.tenant t.core f.mode (start + ((rowParts f.fmtr).getD j (0, 0)).1)
      ((rowParts f.fmtr).getD j (0, 0)).2 1#4
    (beyond ∧ reason = 7 ∧ bad = start) ∨
    (¬ beyond ∧ ∃ j < (rowParts f.fmtr).length, (∀ i < j, ∃ l, part i = .ok (some l)) ∧ part j = .error (reason, bad))

/-- An mma that has its operands, waiting for its turn at its accumulator (R376, R380). -/
def mmaAccess (g : Group) (f : Fragment) (h : LHdr) (acc : Nat) (cols : List (Nat × List W32)) (bytes : List Byte)
    (after : Option (Nat × Nat)) : Access :=
  { newAccess (.mma acc f.fmtr cols after) with active := written g f h
                                                items := [{ lane := 0, addr := 0, live := false, size := 0, data := bytes, cmp := [] }] }

/-- The columns of B that the lanes of W bring (R378, R379). -/
def columnsOf (w : LaneMask) (ts : List Tag) : List (Nat × List W32) := (lanesIn w).map fun l => (l, ts.map fun t => t.lane l)

/-- R235, R378 to R380: an mma of a group that is not ganged reads its A address, its columns of B and, where W is not empty, its A tile as
plain bytes, decrements the registers it names, and issues. -/
def MmaIssue : Prop :=
  ∀ (s : State) (t : Team) (g : Group) (fid : Nat) (f : Fragment) (h : LHdr) (a : VReg) (b : BitVec 11) (acc : BitVec 4) (lo hi : W32)
    (ts : List Tag) (addrs : List Nat), LaneReady s t g fid f h → acc.toNat < t.accs.length → mmaLegal f.fmtr = true →
    b.toNat < 1024 → b.toNat + mmaRegs f.fmtr ≤ 1024 → gangSize g.gang = 0 →
    Sources t g fid f (groupOf (.v a) 2) [.uniform lo, .uniform hi] →
    Sources t g fid f ((regsFrom (b.setWidth 10) (mmaRegs f.fmtr)).map .v) ts →
    (if written g f h = 0#96 then addrs = [] else ((hi ++ lo : W64)).toNat % 128 = 0 ∧ TileAt s t f (hi ++ lo) addrs ∧
      g.noAcquire = true ∧ g.bytesFree false addrs = true) →
    exec (.mma h a b acc) s = .next (laneNext s t
      ((issued (g.decAll ((regsFrom a 2 ++ regsFrom (b.setWidth 10) (mmaRegs f.fmtr)).map .v) [])
        (mmaAccess g f h acc.toNat (columnsOf (written g f h) ts) (addrs.map (s.cachedByte (clusterOf t.core))) none)).advance fid)
      fid (f.mode == .user) false none)

/-- R146, R147, R382: an mma of a ganged group whose gang is not stranded waits at its gang's rendezvous, behind those of its gang that reached
it before; one that it issues again after a fault, its place being kept, is not entered twice. One that names a register which another waiting
instruction of its group names stalls until that one has paired. -/
def GangMmaWaits : Prop :=
  ∀ (s : State) (t : Team) (g : Group) (fid : Nat) (f : Fragment) (h : LHdr) (a : VReg) (b : BitVec 11) (acc : BitVec 4),
    LaneReady s t g fid f h → acc.toNat < t.accs.length → mmaLegal f.fmtr = true → b.toNat < 1024 →
    b.toNat + mmaRegs f.fmtr ≤ 1024 → gangSize g.gang ≠ 0 → (∀ n < 4, t.gangStranded n = false) → keysRise t.groups = true →
    let names := regsFrom a 2 ++ regsFrom (b.setWidth 10) (mmaRegs f.fmtr)
    ((∃ v ∈ names, ∃ e ∈ g.waiting, e.1 ≠ fid ∧ v ∈ e.2.2) → exec (.mma h a b acc) s = .next s) ∧
    ((∀ v ∈ names, ∀ e ∈ g.waiting, e.1 ≠ fid → v ∉ e.2.2) →
    let old := (aget t.latches (gangNum g.gang)).getD []
    let stands (e : Nat × Nat × W64) : Prop := ∃ o x, aget t.groups e.1 = some o ∧ aget o.frags e.2.1 = some x ∧ x.pc = e.2.2
    ∃ s' t' g', exec (.mma h a b acc) s = .next s' ∧ s'.team? s.focus.team = some t' ∧ s'.group? s.focus = some g' ∧
      ((s.focus.group, fid, f.pc) ∈ old → aget t'.latches (gangNum g.gang) = some old) ∧
      ((∀ e ∈ old, stands e ∧ ¬ (e.1 = s.focus.group ∧ e.2.1 = fid)) →
        aget t'.latches (gangNum g.gang) = some (old ++ [(s.focus.group, fid, f.pc)])) ∧
      aget g'.frags fid = some { f with wait := .rendezvous } ∧
      aget g'.waiting fid = some (.mma h a b acc, names) ∧
      g' = { g with run := none, latched := g'.latched, frags := g'.frags, waiting := g'.waiting } ∧
      s'.mem = s.mem ∧ s'.clusters = s.clusters)

/-- R171, R379, R380: where an mma traps before it reads anything: no such accumulator, a combination of formats that mma does not take, and
a run of B registers that leaves the file; and where one outside a gang that has lanes traps at its A tile: an address out of line, and the first
part that does not translate. -/
def MmaTraps : Prop :=
  ∀ (s : State) (t : Team) (g : Group) (fid : Nat) (f : Fragment) (h : LHdr) (a : VReg) (b : BitVec 11) (acc : BitVec 4),
    LaneReady s t g fid f h →
    let traps (c : Cause) : Prop := exec (.mma h a b acc) s = .next (laneTrapped s fid c)
    (t.accs.length ≤ acc.toNat → traps .accRange) ∧
    (acc.toNat < t.accs.length → mmaLegal f.fmtr = false → traps .mmaFormat) ∧
    (acc.toNat < t.accs.length → mmaLegal f.fmtr = true → 1024 ≤ b.toNat ∨ 1024 < b.toNat + mmaRegs f.fmtr → traps .illegalOperand) ∧
    (acc.toNat < t.accs.length → mmaLegal f.fmtr = true → b.toNat < 1024 → b.toNat + mmaRegs f.fmtr ≤ 1024 → gangSize g.gang = 0 →
      written g f h ≠ 0#96 → ∀ lo hi ts, Sources t g fid f (groupOf (.v a) 2) [.uniform lo, .uniform hi] →
      Sources t g fid f ((regsFrom (b.setWidth 10) (mmaRegs f.fmtr)).map .v) ts → let ea : W64 := hi ++ lo
      (ea.toNat % 128 ≠ 0 → exec (.mma h a b acc) s = .next (s.takeLaneTrap s.focus fid
        { cause := .misaligned, lane := none, info := 0, bad := ea, set := none })) ∧
      (ea.toNat % 128 = 0 → ∀ reason bad, TileFails s t f ea reason bad → exec (.mma h a b acc) s = .next (s.takeLaneTrap s.focus fid
        { cause := .xlate, lane := none, info := BitVec.ofNat 32 reason, bad := BitVec.ofNat 64 bad, set := none })))

/-- R259, R260: an element of the INT32 kind is the old word and the sum of its 96 products, clamped, and the clamp is noted. -/
def MmaInteger : Prop :=
  ∀ (f : W64) (row : List Byte) (col : List W32) (c : W32), fmtrAcck f = true →
    let v := c.toInt + ((List.range 96).map fun j => rowNp (npPlanes (fmtrA f)) row j * colNp (npPlanes (fmtrB f)) col j).sum
    (mmaElement f row col c).1.toInt = max (-(2 ^ 31 - 1)) (min (2 ^ 31 - 1) v) ∧
    ((mmaElement f row col c).2 = true ↔ v < -(2 ^ 31 - 1) ∨ 2 ^ 31 - 1 < v)

/-- R259: an element of the float kind is RNE of the old word and the exact sum of its 48 products, and an exact zero is −0 only where the old word
and every product are −0; a NaN among operands or products, and infinities of both signs, give the canonical NaN, and one infinity itself. -/
def MmaFloating : Prop :=
  ∀ (f : W64) (row : List Byte) (col : List W32) (c : W32), fmtrAcck f = false →
    let a (j : Nat) := rowFloat (fmtrA f) row j
    let b (j : Nat) := colFloat (fmtrB f) col j
    let p (j : Nat) := mulVal (a j) (b j)
    let e := mmaElement f row col c
    let isVal (v : FVal) (x : ℝ) : Prop := ∃ neg n k, v = .fin neg n k ∧ x = realOf neg n k
    let values : List FVal := val32 c :: (List.range 48).map p
    let bad : Prop := val32 c = .nan ∨ (.inf true ∈ values ∧ .inf false ∈ values) ∨
      ∃ j < 48, a j = .nan ∨ b j = .nan ∨ ∃ x y k, (a j = .inf x ∧ b j = .fin y 0 k) ∨ (a j = .fin y 0 k ∧ b j = .inf x)
    e.2 = false ∧
    (∀ (x y : Nat → ℝ) (z : ℝ), (∀ j < 48, isVal (a j) (x j) ∧ isVal (b j) (y j)) → isVal (val32 c) z →
      let v := z + ((List.range 48).map fun j => x j * y j).sum
      (v ≠ 0 → RoundsTo f32 .rne v e.1.toNat) ∧
      (v = 0 → (e.1 = 0x80000000#32 ∧ c = 0x80000000#32 ∧ ∀ j < 48, ∃ k, p j = .fin true 0 k) ∨
        (e.1 = 0#32 ∧ (c ≠ 0x80000000#32 ∨ ∃ j < 48, ∀ k, p j ≠ .fin true 0 k)))) ∧
    (bad → e.1 = 0x7FC00000#32) ∧
    (∀ s, ¬ bad → .inf s ∈ values → e.1 = if s then 0xFF800000#32 else 0x7F800000#32)

/-- R375, R376, R380, R382: the update of an issued mma, after those that come before it: every element of its columns takes its sum
with the products of its row of A, every other element stays, the kind is the format's, the version goes up by 1, and SAT notes a
clamp; with no A fetched no element changes. -/
def MmaUpdates : Prop :=
  ∀ (s : State) (t : Team) (g : Group) (r : GRef) (id n : Nat) (x : Access) (fm : W64) (cols : List (Nat × List W32))
    (after : Option (Nat × Nat)) (a : Acc) (bytes : List Byte), s.team? r.team = some t → s.group? r = some g →
    g.ready id = some x → x.kind = .mma n fm cols after → t.accs[n]? = some a →
    (∀ k j, after = some (k, j) → ∀ o, s.group? { team := r.team, group := k } = some o →
      ∀ y ∈ o.accesses, y.id = j → y.done = true) →
    bytes = (x.items.map (·.data)).flatten → (cols.map (·.1)).Nodup → (∀ e ∈ cols, e.1 < 96) → keysRise a.words = true →
    ∃ a', exec (.mmaUpdate r id) s = .next ((s.updTeam r.team fun t => { t with accs := t.accs.set n a' }).updGroup r fun g =>
        { g with accesses := markDone id g.accesses }) ∧
      a'.version = a.version + 1 ∧ a'.int = fmtrAcck fm ∧
      let size := ((rowParts fm).map (·.2)).sum
      let row (k : Nat) : List Byte := (bytes.drop (size * k)).take size
      (∀ k < 64, ∀ c < 96, a'.word k c = match cols.find? fun e => e.1 == c with
        | some e => if bytes = [] then a.word k c else (mmaElement fm (row k) e.2 (a.word k c)).1
        | none => a.word k c) ∧
      (a'.sat = true ↔ a.sat = true ∨ (bytes ≠ [] ∧ ∃ k < 64, ∃ e ∈ cols, (mmaElement fm (row k) e.2 (a.word k e.1)).2 = true))

/-- R376, R377, R383: accrd writes to each lane its element of the row it names, or SAT for row 64; accwr stores each lane's word to its
element of its row, or clears SAT; accver writes the version. -/
def AccumulatorForms : Prop :=
  ∀ (s : State) (t : Team) (g : Group) (fid : Nat) (f : Fragment) (h : LHdr) (acc : BitVec 4) (y : Acc), LaneReady s t g fid f h →
    t.accs[acc.toNat]? = some y → g.noAcquire = true → g.accFree acc.toNat = true →
    let w := written g f h
    let next (t : Team) (g' : Group) := Host.Outcome.next (laneNext s t (g'.advance fid) fid (f.mode == .user) false none)
    (∀ d a x g', Sources t g fid f [a] [x] → (∀ l ∈ lanesIn w, (x.lane l).toNat ≤ 64) →
      Writes t g fid f w h.cc.toNat [a] [(d, Tag.ofLanes fun l => if (x.lane l).toNat = 64 then (if y.sat then 1#32 else 0#32)
        else y.word (x.lane l).toNat l)] g' → exec (.accrd h d a acc) s = next t g') ∧
    (∀ a b x v, Sources t g fid f [a, b] [x, v] → (∀ l ∈ lanesIn w, (x.lane l).toNat ≤ 64) → keysRise y.words = true →
      ∃ y', exec (.accwr h a b acc) s = next { t with accs := t.accs.set acc.toNat y' } (g.decAll [a, b] []) ∧
        y'.version = y.version + 1 ∧ y'.int = fmtrAcck f.fmtr ∧
        (∀ k < 64, ∀ l < 96, y'.word k l = if w.getLsbD l = true ∧ (x.lane l).toNat = k then v.lane l else y.word k l) ∧
        (y'.sat = true ↔ y.sat = true ∧ ∀ l ∈ lanesIn w, (x.lane l).toNat = 64 → (v.lane l).getLsbD 0 = false)) ∧
    (∀ d g', Writes t g fid f w h.cc.toNat [] [(d, .uniform (y.version.setWidth 32))] g' → exec (.accver h d acc) s = next t g') ∧
    (∀ a b x v l, Sources t g fid f [a, b] [x, v] → l ∈ lanesIn w → 64 < (x.lane l).toNat →
      (∀ k ∈ lanesIn w, k < l → (x.lane k).toNat ≤ 64) → ∀ i, (∃ d, i = .accrd h d a acc) ∨ i = .accwr h a b acc →
      exec i s = .next (s.takeLaneTrap s.focus fid { cause := .accRange, lane := some l, info := 0, bad := 0, set := none }))

/-- The physical addresses of `n` words from an address (R384). -/
def WordsAt (s : State) (t : Team) (f : Fragment) (e : W64) (n : Nat) (addrs : List Nat) : Prop :=
  ∃ ls : List (List Nat), addrs = ls.flatten ∧ ls.length = n ∧ ∀ k < n, ∃ l,
    s.translateRange t.tenant t.core f.mode (e + BitVec.ofNat 64 (4 * k)).toNat 4 1#4 = .ok (some l) ∧ ls.getD k [] = pieceAddrs l

/-- R261, R384: accst stores the elements of the lanes of W, row by row, scaled as FMTR.SCALE says by the words of its row and its
column, and decrements the registers of its three pairs; an address out of line raises MISALIGNED. -/
def AccumulatorStore : Prop :=
  ∀ (s : State) (t : Team) (g : Group) (fid : Nat) (f : Fragment) (h : LHdr) (d r c : VReg) (acc : BitVec 4) (y : Acc)
    (lo hi rlo rhi clo chi : W32), LaneReady s t g fid f h → t.accs[acc.toNat]? = some y →
    Sources t g fid f (groupOf (.v d) 2 ++ groupOf (.v r) 2 ++ groupOf (.v c) 2)
      [.uniform lo, .uniform hi, .uniform rlo, .uniform rhi, .uniform clo, .uniform chi] →
    let w := written g f h
    let et : W64 := hi ++ lo
    let es : W64 := rhi ++ rlo
    let eu : W64 := chi ++ clo
    let rows := (fmtrScale f.fmtr).getLsbD 0
    let cols := (fmtrScale f.fmtr).getLsbD 1
    let misaligned (bad : W64) : Prop := exec (.accst h d r c acc) s = .next (s.takeLaneTrap s.focus fid
      { cause := .misaligned, lane := none, info := 0, bad := bad, set := none })
    (et.toNat % 128 ≠ 0 → misaligned et) ∧
    (et.toNat % 128 = 0 → rows = true → es.toNat % 4 ≠ 0 → misaligned es) ∧
    (et.toNat % 128 = 0 → (rows = true → es.toNat % 4 = 0) → cols = true → eu.toNat % 4 ≠ 0 → misaligned eu) ∧
    (∀ (pa : Nat → Nat → Nat) (ra ca : List Nat), et.toNat % 128 = 0 → (rows = true → es.toNat % 4 = 0) →
      (cols = true → eu.toNat % 4 = 0) → g.noAcquire = true → g.accFree acc.toNat = true →
      (∀ k < 64, (∀ l ∈ lanesIn w, s.translate t.tenant t.core f.mode ((et + BitVec.ofNat 64 (384 * k)).toNat + 4 * l) 2#4 = .ok (pa k l)) ∧
        (w ≠ 0#96 → (et + BitVec.ofNat 64 (384 * k)).toNat < 2 ^ 48 → (et + BitVec.ofNat 64 (384 * k)).toNat + 384 ≤ 2 ^ 48) ∧
        ∀ l ∈ lanesIn w, g.bytesFree false ((List.range 4).map (pa k l + ·)) = true) →
      (if rows then WordsAt s t f es 64 ra else ra = []) → (if cols then WordsAt s t f eu 96 ca else ca = []) →
      g.bytesFree false ra = true → g.bytesFree false ca = true →
      let word (l : List Nat) (k : Nat) : W32 :=
        BitVec.ofNat 32 (leNat (((l.drop (4 * k)).take 4).map (s.cachedByte (clusterOf t.core))))
      let s1 := (List.range 64).foldl (fun s1 k => s1.putItems s.focus (clusterOf t.core) false
        (atDevice ((lanesIn w).map fun l => (l, pa k l)) 4
          (fun l => leBytes 4 (accstValue y.int (fmtrScale f.fmtr) (y.word k l) (word ra k) (word ca l)).toNat) fun _ => [])) s
      exec (.accst h d r c acc) s = .next (laneNext s1 t
        ((g.decAll ((regsFrom d 2 ++ regsFrom r 2 ++ regsFrom c 2).map .v) []).advance fid) fid (f.mode == .user) false none))

/-- A waiting mma of a gang whose operands are ready: its A address and its columns of B (R146, R382). -/
def MemberReady (s : State) (t : Team) (m : Member) (ea : W64) (cols : List (Nat × List W32)) : Prop :=
  ∃ g lo hi ts, s.group? m.ref = some g ∧ ea = hi ++ lo ∧
    Sources t g m.ctx.fid m.ctx.frag (groupOf (.v m.a) 2) [.uniform lo, .uniform hi] ∧
    Sources t g m.ctx.fid m.ctx.frag ((regsFrom (m.b.setWidth 10) (mmaRegs m.ctx.frag.fmtr)).map .v) ts ∧
    cols = columnsOf m.ctx.w ts

/-- Members whose operands are ready, in order, with their addresses and columns, and whose A format is the leader's. -/
def MembersReady (s : State) (t : Team) (lead : Member) (l : List (Member × (W64 × List (Nat × List W32)))) : Prop :=
  ∀ e ∈ l, MemberReady s t e.1 e.2.1 e.2.2 ∧ fmtrA e.1.ctx.frag.fmtr = fmtrA lead.ctx.frag.fmtr

/-- A gang of the team may pair: the team has not ended, and no halt holds a member back (R232). -/
def PairingOpen (t : Team) (ms : List Member) : Prop := t.ended = false ∧ (t.halt = none ∨ ∀ m ∈ ms, m.ctx.frag.mode ≠ .user)

/-- R146, R147, R382: when every member of a gang has an mma waiting whose operands are ready and whose A format is the leader's, all of
them issue with the bytes of the leader's A tile, in the order of their positions: the update of each is to follow that of the last member before
it that names its accumulator; their RCOUNTs go up by 1, their fragments go on, and they have left the rendezvous. -/
def GangPairs : Prop :=
  ∀ (s : State) (k n : Nat) (t : Team) (ms : List Member) (lead : Member) (xs : List (W64 × List (Nat × List W32))) (addrs : List Nat),
    s.team? k = some t → PairingOpen t (lead :: ms) → keysRise t.groups = true → gangReady s k t n = some (lead :: ms) →
    ((lead :: ms).map (·.ref)).Nodup → xs.length = (lead :: ms).length →
    MembersReady s t lead ((lead :: ms).zip xs) →
    (if ∀ m ∈ lead :: ms, m.ctx.w = 0#96 then addrs = [] else
      ∃ ea cols g, xs.head? = some (ea, cols) ∧ ea.toNat % 128 = 0 ∧ TileAt s t lead.ctx.frag ea addrs ∧
        s.group? lead.ref = some g ∧ g.noAcquire = true ∧ g.bytesFree false addrs = true) →
    ∃ s', exec (.gangRendezvous k n) s = .next s' ∧ s'.mem = s.mem ∧ s'.clusters = s.clusters ∧
      ∀ j e, ((lead :: ms).zip xs)[j]? = some e → ∀ g, s.group? e.1.ref = some g → gangIndex g.gang = j ∧
        ∃ g' after, s'.group? e.1.ref = some g' ∧
        after = ((((lead :: ms).take j).reverse.find? fun m => m.acc == e.1.acc).bind fun m =>
          (s.group? m.ref).map fun o => (m.ref.group, o.nextId)) ∧
        g'.accesses.getLast? = some { newAccess (.mma e.1.acc.toNat e.1.ctx.frag.fmtr e.2.2 after) with
          id := g.nextId, active := e.1.ctx.w,
          items := [{ lane := 0, addr := 0, live := false, size := 0, data := addrs.map (s.cachedByte (clusterOf t.core)), cmp := [] }] } ∧
        g'.gang.toNat % 256 = g.gang.toNat % 64 ∧ g'.gang.toNat / 256 = (g.gang.toNat / 256 + 1) % 256 ∧
        aget g'.frags e.1.ctx.fid = some { e.1.ctx.frag with wait := .none, pc := e.1.ctx.frag.pc + 12 } ∧
        ∃ t', s'.team? k = some t' ∧ ∀ pc, (e.1.ref.group, e.1.ctx.fid, pc) ∉ (aget t'.latches n).getD []

/-- R146, R382: where a pairing traps, at no open latch run of its group: the first member, in the order of positions, whose A format differs
from the leader's takes MMA_FORMAT, and the leader MISALIGNED or XLATE for its A tile; the other members go on waiting. -/
def GangTraps : Prop :=
  ∀ (s : State) (k n : Nat) (t : Team) (ms : List Member) (lead : Member) (xs : List (W64 × List (Nat × List W32))),
    s.team? k = some t → PairingOpen t (lead :: ms) → gangReady s k t n = some (lead :: ms) →
    ((lead :: ms).map (·.ref)).Nodup → MembersReady s t lead ((lead :: ms).zip xs) →
    let trapped (m : Member) (c : Cause) (info : W32) (bad : W64) : Prop := (∀ g, s.group? m.ref = some g → inLatchRun s t g = false) →
      exec (.gangRendezvous k n) s = .next ((s.updGroup m.ref fun g =>
        { g with frags := aupd g.frags m.ctx.fid fun f => { f with wait := .none }, waiting := adel g.waiting m.ctx.fid }).takeLaneTrap
          m.ref m.ctx.fid { cause := c, lane := none, info := info, bad := bad, set := none })
    (∀ m, (lead :: ms)[xs.length]? = some m → fmtrA m.ctx.frag.fmtr ≠ fmtrA lead.ctx.frag.fmtr → trapped m .mmaFormat 0 0) ∧
    (xs.length = (lead :: ms).length → (∃ m ∈ lead :: ms, m.ctx.w ≠ 0#96) → ∀ ea cols, xs.head? = some (ea, cols) →
      (ea.toNat % 128 ≠ 0 → trapped lead .misaligned 0 ea) ∧
      (ea.toNat % 128 = 0 → ∀ reason bad, TileFails s t lead.ctx.frag ea reason bad →
        trapped lead .xlate (BitVec.ofNat 32 reason) (BitVec.ofNat 64 bad)))

end Sys2Proof.Claims

/-- R146, R147, R235, R259 to R261, R375 to R384: the matrix and accumulator forms, the gang, and the update of an issued mma. What it takes
from the choices of the model is named in notes/assumptions/37.md, 52.md. -/
def Obligations.LaneMatrixForms : Prop :=
  MmaIssue ∧ GangMmaWaits ∧ MmaTraps ∧ MmaInteger ∧ MmaFloating ∧ MmaUpdates ∧ AccumulatorForms ∧ AccumulatorStore ∧ GangPairs ∧ GangTraps

/-! ## The lane ends of the queues, special registers, calls -/

namespace Sys2Proof.Claims

/-- The registers of a lane swr, under any of the names the table gives it, with its selector (R387). -/
def laneSwrForm : Instr → Option (LHdr × Bool × Src × Nat)
  | .laneSwr h hi a sel => some (h, hi, a, sel.toNat)
  | .fmtrWrite (.lane h hi a) => some (h, hi, a, 0x010)
  | .gangWrite (.lane h hi a) => some (h, hi, a, 0x017)
  | .ptbaseWrite (.lane h hi a) => some (h, hi, a, 0x107)
  | .winbaseWrite (.lane h hi a) => some (h, hi, a, 0x108)
  | .winlimWrite (.lane h hi a) => some (h, hi, a, 0x109)
  | .bankmodeWrite (.lane h hi a) => some (h, hi, a, 0x10B)
  | .bankownWrite (.lane h hi a) => some (h, hi, a, 0x10C)
  | .gnanClear (.lane h hi a) => some (h, hi, a, 0x01A)
  | .pnanClear (.lane h hi a) => some (h, hi, a, 0x016)
  | _ => none

/-- R123, R131, R224, R303, R386 to R389: lqpush pushes the value of W's lowest lane, 0 where W is empty; sqpop removes the head of sq, and writes its
low half where it has a destination; srd writes half of the selected register; kmov writes a supervisor register outside user mode;
nop only goes on. -/
def LaneSystemPlain : Prop :=
  ∀ (s : State) (t : Team) (g : Group) (fid : Nat) (f : Fragment) (h : LHdr), LaneReady s t g fid f h →
    let w := written g f h
    let next (g' : Group) := Host.Outcome.next (laneNext s t (g'.advance fid) fid (f.mode == .user) false none)
    (∀ b64 a ts, Sources t g fid f (groupOf a (sized b64)) ts → g.lq.length + 1 ≤ 16 → exec (.lqpush h b64 a) s =
      next ({ g with lq := g.lq ++ [match (lanesIn w).head? with | some l => laneOperand ts l | none => 0#64] }.decAll
        (groupOf a (sized b64)) [])) ∧
    (∀ hi d sel m g', readMode sel.toNat = some m → m.code ≤ f.mode.code →
      Writes t g fid f w h.cc.toNat [] [(d, .uniform
        ((s.sregValue s.focus t g ⟨f.mode, f.fmtr, f.handler, false⟩ sel.toNat).extractLsb' (if hi then 32 else 0) 32))] g' →
      exec (.laneSrd h hi d sel) s = next g') ∧
    (∀ d a x g', f.mode ≠ .user → Sources t g fid f [a] [x] → g.writeK t.spareFree d.toNat w x h.cc.toNat = some g' →
      exec (.kmov h d a) s = next (g'.decAll [a] (if w = 0#96 then [] else [.k d]))) ∧
    exec (.laneNop h) s = next g ∧
    (h = noGuard → ∀ cc x r, g.sq = x :: r → exec (.sqpop cc false 0#10) s = next { g with sq := r } ∧
      ∀ d g', Writes t g fid f f.mask cc.toNat [] [(d, .uniform (x.setWidth 32))] g' →
        exec (.sqpop cc true d) s = next { g' with sq := r })

/-- The value of a special register after a write of one half by the lane stream: the other half of a register that is cleared by
ones counts as 0 (R387). -/
def withHalf (sel : Nat) (hi : Bool) (x : W32) (old : W64) : W64 :=
  let base : W64 := if sel = 0x016 ∨ sel = 0x01A then 0#64 else old
  if hi then x ++ base.extractLsb' 0 32 else base.extractLsb' 32 32 ++ x

/-- R130, R150, R151, R170, R223, R303, R387: swr writes one half of the selected register where W is not empty and its checks pass,
and its source decrements; a selector not listed raises SREG_RANGE, a mode too low or a register never written PRIV_OPERAND, and GANG
GANG_CONFIG. -/
def LaneSpecialWrites : Prop :=
  ∀ (s : State) (t : Team) (g : Group) (fid : Nat) (f : Fragment) (h : LHdr) (i : Instr) (hi : Bool) (a : Src) (sel : Nat) (x : W32),
    LaneReady s t g fid f h → laneSwrForm i = some (h, hi, a, sel) → Sources t g fid f [a] [.uniform x] →
    let v := withHalf sel hi x (s.sregValue s.focus t g ⟨f.mode, f.fmtr, f.handler, false⟩ sel)
    (∀ m, writeMode sel = some m → m.code ≤ f.mode.code → sel ≠ 0x017 →
      (written g f h = 0#96 → exec i s = .next (laneNext s t ((g.decAll [a] []).advance fid) fid (f.mode == .user) false none)) ∧
      (∀ s' t' g', written g f h ≠ 0#96 → SpecialWrite s t g f.mode f.handler (fun v => moved g fid fun f => { f with fmtr := v })
          sel v s' t' g' →
        exec i s = .next (laneNext s' t' ((g'.decAll [a] []).advance fid) fid (f.mode == .user) false none))) ∧
    (∀ m, writeMode sel = some m → m.code ≤ f.mode.code → sel = 0x017 → exec i s = .next (laneTrapped s fid .gangConfig)) ∧
    (readMode sel = none → exec i s = .next (laneTrapped s fid .sregRange)) ∧
    (readMode sel ≠ none → writeMode sel = none ∨ (∃ m, writeMode sel = some m ∧ f.mode.code < m.code) →
      exec i s = .next (laneTrapped s fid .privOperand))

/-- The calls of the lane stream, with their cause (R389). -/
def laneCallForm : Instr → Option (LHdr × Cause × BitVec 21)
  | .laneSysc h n => some (h, .syscall, n)
  | .laneHcall h n => some (h, .hcall, n)
  | .laneBrk h n => some (h, .brk, n)
  | _ => none

/-- R226, R227, R232, R389: a lane call takes its trap with W as its call set and IMM as its number, where its mode allows it and the team does not
halt; sysc and hcall of no lane retire as nop. -/
def LaneCalls : Prop :=
  ∀ (s : State) (t : Team) (g : Group) (fid : Nat) (f : Fragment) (h : LHdr) (i : Instr) (c : Cause) (n : BitVec 21),
    LaneReady s t g fid f h → laneCallForm i = some (h, c, n) →
    let empty : Prop := written g f h = 0#96 ∧ c ≠ .brk
    (¬ CallAllowed c f.mode → exec i s = .next (laneTrapped s fid .privInstruction)) ∧
    (CallAllowed c f.mode → empty → exec i s = .next (laneNext s t (g.advance fid) fid (f.mode == .user) false none)) ∧
    (CallAllowed c f.mode → ¬ empty → f.mode ≠ .user ∨ t.halt = none → exec i s = .next (s.takeLaneTrap s.focus fid
      { cause := c, lane := none, info := n.setWidth 32, bad := 0, set := some (written g f h) })) ∧
    (CallAllowed c f.mode → ¬ empty → f.mode = .user → t.halt ≠ none → exec i s = .next s)

/-- The group once a return has written its value, where it has one: in the lanes of W, with count 0, to the shadow in an open
proposal's window; a value that is not uniform is general (R132, R229, R236, R390). -/
def ReturnWrites (t : Team) (g : Group) (fid : Nat) (f : Fragment) (h : LHdr) (write : Bool) (d : VReg) (a : Src) (g1 : Group) : Prop :=
  if write then ∃ x g0, Sources t g fid f [a] [x] ∧ g.vregBusy fid d = false ∧
    g.writeV t.pbase true d.toNat (written g f h) (if x.isUniform then x else Tag.ofLanes x.lane) 0 = some g0 ∧ g1 = g0.decAll [a] (if written g f h = 0#96 then [] else [.v d])
  else g1 = g

/-- R110, R229, R231, R233, R390: a lane tret of a handler fragment with no mark frame writes its value and waits at its trap frame; when the
spans of those that wait there make up the call set, the frame pops: they are gone, the parked fragments go on, and the trapping one, which
in an ordered launch runs next (R110), resumes at the saved address, in the saved mode and format; with END, or from an error, the team ends: under a halt, which an error always
brings, the stream is done, and the team ends as the halt does; without one, at once. -/
def LaneReturn : Prop :=
  ∀ (s : State) (t : Team) (g : Group) (fid : Nat) (f : Fragment) (h : LHdr) (write fin : Bool) (d : VReg) (a : Src),
    LaneReady s t g fid f h →
    let i : Instr := .laneTret h write fin d a
    (f.mode = .user → exec i s = .next (laneTrapped s fid .privInstruction)) ∧
    (f.mode ≠ .user → f.frame ≠ none ∨ f.handler = none → exec i s = .next (laneTrapped s fid .tretUnbalanced)) ∧
    (∀ p fr g1, f.mode ≠ .user → f.frame = none → f.handler = some p → aget g.traps p = some fr →
      ReturnWrites t g fid f h write d a g1 →
      let fr' := { fr with fin := fr.fin || fin }
      let waits (x : Fragment) : Bool := x.handler == some p && x.wait == .tret
      let g2 := { moved g1 fid fun f => { f with wait := .tret } with traps := if fin then aset g.traps p fr' else g.traps, running := none }
      let whole : Prop := ((g2.frags.filter fun e => waits e.2).foldl (fun m e => m ||| e.2.span) 0#96) = fr.callmask
      let back (k : Nat) (x : Fragment) : Fragment :=
        let x := if x.parkedBy = some p then { x with parkedBy := none } else x
        if some k = fr.frag then { x with pc := fr.epc, fmtr := fr.fmtr, mode := fr.pmode } else x
      (¬ whole → exec i s = .next (laneNext s t g2 fid false false none true)) ∧
      (whole → fr'.fin = false → fr.cause.isError = false →
        exec i s = .next (laneNext s { t with quantum := t.quantum + one (fr.cause == .syscall) }
          { g2 with traps := adel g2.traps p, running := fr.frag, frags := amap (g2.frags.filter fun e => !waits e.2) back,
                    lclock := g.lclock + BitVec.ofNat 64 (one (fr.cause == .syscall)) } fid false false none true)) ∧
      (whole → fr'.fin = true ∨ fr.cause.isError = true → t.halt = none → ∃ s' t', exec i s = .next s' ∧
        s'.team? s.focus.team = some t' ∧ t'.ended = true ∧ ∀ e ∈ t'.groups, e.2.exited = true) ∧
      (whole → fr'.fin = true ∨ fr.cause.isError = true → ∀ hl, t.halt = some hl →
        exec i s = .next (laneNext s { t with halt := some (willEnd hl fr) } (laneStops g2 p fr) fid false false none true)))

end Sys2Proof.Claims

/-- R110, R123, R130, R132, R224 to R233, R303, R386 to R390: the lane ends of the queues, the special registers, the calls and the return.
What it takes from the choices of the model is named in notes/assumptions/28.md, 34.md. -/
def Obligations.LaneSystemForms : Prop := LaneSystemPlain ∧ LaneSpecialWrites ∧ LaneCalls ∧ LaneReturn

/-! ## Taking a lane trap -/

/-- R223, R225 to R228, R230 to R232: a trap of a lane fragment, one of a handler among them, with a free frame saves its cause, address,
lanes, format and mode in that frame, parks every fragment of the stream, withdraws what the fragment had waiting at a Grove port (R194),
and starts a handler fragment of those lanes at the vector base + 0x100 in the handler's mode; the registers and queues of the group, its
scalar stream and memory are as they were; a fault or an error halts the team, a call does not. With four frames in use, the team ends and
DOUBLE_FAULT is reported. What it takes from the choices of the model is named in notes/assumptions/21.md, 22.md, 23.md. -/
def Obligations.LaneTrapEntry : Prop :=
  ∀ (s : State) (t : Team) (g : Group) (r : GRef) (fid : Nat) (f : Fragment) (i : TrapInfo), s.team? r.team = some t →
    s.group? r = some g → aget g.frags fid = some f → keysRise g.frags = true →
    let s' := s.takeLaneTrap r fid i
    let set := i.set.getD f.span
    (∀ pos, g.freeFrame = some pos → ∃ t' g' fr h, s'.team? r.team = some t' ∧ s'.group? r = some g' ∧
      aget g'.traps pos = some fr ∧ fr.cause = i.cause ∧
      fr.causeWord = causeWord i.cause i.info false f.mode
        ((i.lane.or ((lanesIn set).head?)).getD 0x1FF) ∧
      fr.epc = (if i.cause = .syscall ∨ i.cause = .hcall then f.pc + 12 else f.pc) &&& 0xFFFFFFFFFFFF#64 ∧
      fr.badaddr = i.bad &&& 0xFFFFFFFFFFFF#64 ∧ fr.callmask = set ∧ fr.frag = some fid ∧ fr.pmode = f.mode ∧ fr.fmtr = f.fmtr ∧
      fr.prop = g.proposal ∧ fr.fin = false ∧
      aget g'.frags (8 + pos) = some h ∧ h.mask = set ∧ h.span = set ∧ h.fmtr = f.fmtr ∧ h.frame = none ∧ h.handler = some pos ∧
      h.mode = handlerOf i.cause i.info f.mode ∧
      h.pc = (match handlerOf i.cause i.info f.mode with
        | .hypervisor => s.root.tvecH
        | _ => ((s.tenant? t.tenant).map (·.supv.tvecS)).getD 0#64) + 0x100 ∧
      (∀ k x, k ≠ 8 + pos → aget g.frags k = some x → ∃ y, aget g'.frags k = some y ∧ y.parkedBy.isSome = true ∧
        y = { x with parkedBy := y.parkedBy } ∧ (x.parkedBy = none → y.parkedBy = some pos)) ∧
      g'.run = none ∧ g'.running = none ∧ aget g'.latched fid = none ∧ aget g'.waiting fid = none ∧
      g'.accesses.Sublist g.accesses ∧ (∀ a ∈ g.accesses, a.isReserved = false → a ∈ g'.accesses) ∧
      (∀ a ∈ g'.accesses, a.kind ≠ .reserved fid) ∧ (∀ p, p ≠ pos → aget g'.traps p = aget g.traps p) ∧
      g'.sregs = g.sregs ∧ g'.vregs = g.vregs ∧ g'.preds = g.preds ∧ g'.sq = g.sq ∧ g'.lq = g.lq ∧ g'.pc = g.pc ∧ g'.mode = g.mode ∧
      g'.trap = g.trap ∧ g'.ks = g.ks ∧ g'.kregs = g.kregs ∧ g'.lclock = g.lclock ∧ s'.mem = s.mem ∧
      s'.clusters = s.clusters ∧ s'.tenants = s.tenants ∧ s'.root = s.root ∧
      t'.halt.isSome = (t.halt.isSome || !(i.cause == .syscall || i.cause == .hcall || i.cause == .brk))) ∧
    (g.freeFrame = none → (∃ t', s'.team? r.team = some t' ∧ t'.ended = true) ∧ s'.sent.head? = some (.doubleFault r.team))

/-! ## Ordered operations -/

namespace Sys2Proof.Claims

/-- The instructions that may be ordered operations (R107). -/
def orderable : Instr → Bool
  | .laneLd _ _ _ _ _ _ _ => true
  | .laneSt _ _ _ _ _ _ _ => true
  | .pst _ _ _ _ _ _ _ => true
  | .pld _ _ _ _ _ _ _ => true
  | .atom _ _ _ _ _ _ _ _ _ _ _ => true
  | .atoms _ _ _ _ _ _ _ _ _ _ => true
  | .smaxpk _ _ _ _ _ _ _ _ _ => true
  | .kacc _ _ _ _ _ _ _ => true
  | .cpost _ _ => true
  | .knotArrive _ => true
  | _ => false

/-- R108: the pair of a waiting ordered operation is lower, lexicographically, than the pair of every other unblocked group in its
range: the team for a lane atomic, the grid for every other. -/
def HasTurn (s : State) (r : GRef) (t : Team) (o : OrderedWait) : Prop :=
  ∀ e ∈ s.teams, (if teamRange o.instr then e.1 = r.team else e.2.launch = t.launch ∧ t.launch ≠ none) →
    ∀ x ∈ e.2.groups, x.2.exited = false → (∀ b, x.2.blocked = some b → b.2 = false) → (e.1 ≠ r.team ∨ x.1 ≠ r.group) →
      o.stamp < x.2.lclock.toNat ∨ o.stamp = x.2.lclock.toNat ∧ t.tid * t.ngroups + r.group < e.2.tid * e.2.ngroups + x.1

/-- The state in which a group's waiting operation has its turn and its stream is in focus. -/
def turnGiven (s : State) (r : GRef) (st : StreamRef) : State :=
  { s.updGroup r fun g => { g with ordered := g.ordered.map fun o => { o with granted := true } } with focus := r, stream := st }

/-- R108: a waiting ordered operation whose turn has not come leaves the state; one whose turn has come is its instruction, run in its
stream with the turn given, and takes the trap that it raises then, unless it must wait for something else. -/
def TurnRule : Prop :=
  ∀ (s s' : State) (r : GRef) (st : StreamRef) (t : Team) (g : Group) (o : OrderedWait), s.team? r.team = some t →
    s.group? r = some g → g.ordered = some o →
    (∀ fid f, st = .lane fid → aget g.frags fid = some f → f.parkedBy = none) →
    (∀ fid x, st = .lane fid → g.run = some x → x.frag = fid) →
    (¬ (o.stream = st ∧ HasTurn s r t o) → exec (.orderedOperationPerform r st) s = .next s) ∧
    (o.stream = st → HasTurn s r t o → orderable o.instr = true → exec o.instr (turnGiven s r st) = .next s' →
      exec (.orderedOperationPerform r st) s =
        .next (if ((s'.group? r).bind (·.ordered)).any (·.granted) then s else { s' with focus := s.focus, stream := s.stream }))

/-- R107, R108, R168: knot.arrive on another team's knot, at its turn: after a release at device scope the arrival reaches that knot, with
the group's stamp, and the scalar stream goes on behind the instruction. -/
def OrderedArrival : Prop :=
  ∀ (s s1 : State) (r : GRef) (t : Team) (g : Group) (a : SReg) (n : Nat) (l : Nat) (x : Launch), s.team? r.team = some t →
    s.group? r = some g → g.exited = false → t.ended = false → t.halt = none → t.isOrdered = true → ScalarsHere g [a] → g.drained = true →
    g.ordered = some { stream := .scalar, instr := .knotArrive a, stamp := n, granted := false } →
    HasTurn s r t { stream := .scalar, instr := .knotArrive a, stamp := n, granted := false } →
    (g.sreg a).extractLsb' 4 27 = 0#27 → (g.sreg a).getLsbD 31 = true → ((g.sreg a).extractLsb' 32 32).toNat ≠ t.tid →
    t.launch = some l → s.launch? l = some x → ((g.sreg a).extractLsb' 32 32).toNat < x.gx * x.gy * x.gz →
    ArrivalReaches (s.release r (clusterOf t.core) true) l x ((g.sreg a).extractLsb' 32 32).toNat ((g.sreg a).extractLsb' 0 4).toNat
      g.lclock.toNat s1 →
    exec (.orderedOperationPerform r .scalar) s = .next
      { scalarNext { s1 with focus := r, stream := .scalar } t { g with ordered := none } (g.mode == .user) (g.pc + 4) with
        focus := s.focus, stream := s.stream }

end Sys2Proof.Claims

/-- R107, R108: when an ordered operation is performed, and what it then does. What it takes from the choices of the model is named in
notes/assumptions/1.md, 28.md. -/
def Obligations.OrderedOperations : Prop := TurnRule ∧ OrderedArrival

/-! ## Teams -/

namespace Sys2Proof.Claims

/-- R94: of the cores of a tenant's core set that have room for a team, the one with the most free general slots, the lowest number on
a tie. -/
def BestCore (s : State) (l : Launch) (core : Nat) : Prop :=
  let room (c : Nat) : Prop := c ∈ s.coresOf l.tenant ∧ s.roomOn l.record.need c noneGone = true
  let free (c : Nat) : Nat := (s.coreFree c noneGone).slots
  room core ∧ ∀ c, room c → c ≠ core → free c < free core ∨ free c = free core ∧ core < c

/-- R89, R91, R94: the pending launch ranked above every other, where it is not ordered and its tenant's quotas and a core have room,
places its next team on the core R94 names. -/
def PlacementChoice : Prop :=
  ∀ (s : State) (lid : Nat) (l : Launch) (x : Tenant) (tid core : Nat), s.launch? lid = some l → l.pending = true →
    (∀ e ∈ s.launches, e ≠ (lid, l) → e.2.pending = true →
      e.2.prio < l.prio ∨ e.2.prio = l.prio ∧ l.order < e.2.order) →
    l.isOrdered = false → l.nextTeam = some tid → s.tenant? l.tenant = some x → s.supvBusy l.tenant = false →
    quotaCovers x (s.held l.tenant noneGone) l.record.need = true → BestCore s l core →
    exec .teamPlace s = .next (s.placeTeam lid tid core)

/-- A launch's next team is its lowest pre-empted one, or else the lowest never placed (R94, R114). -/
def NextTeam : Prop :=
  ∀ l : Launch, (l.saved = [] → l.nextTeam = if l.next < l.gx * l.gy * l.gz then some l.next else none) ∧
    ∀ t, l.nextTeam = some t → l.saved ≠ [] → (∃ e ∈ l.saved, e.2.tid = t) ∧ ∀ e ∈ l.saved, t ≤ e.2.tid

/-- R46, R51, R93, R104, R117, R119, R165, R176, R201, R276, R375: a team placed for the first time, with no arrival held for it: what the new
team holds, the partitions granted to it, and what stays; the waits of its launch acquire for it, so that its cluster keeps no clean block. -/
def FreshTeam : Prop :=
  ∀ (s : State) (lid tid core : Nat) (l : Launch) (x : Tenant) (o : CodeObj), s.launch? lid = some l →
    s.tenant? l.tenant = some x → aget x.objects l.object = some o → (∀ e ∈ l.saved, e.2.tid ≠ tid) →
    (∀ a ∈ l.held, a.1 ≠ tid) → l.record.groves.length = l.record.ngrove →
    let s' := s.placeTeam lid tid core
    let r := l.record
    ∃ t : Team, s'.team? s.nextKey = some t ∧ t.launch = some lid ∧ t.tid = tid ∧ t.tenant = l.tenant ∧ t.core = core ∧
      t.gx = l.gx ∧ t.gy = l.gy ∧ t.gz = l.gz ∧ t.ngroups = r.groups ∧ t.isOrdered = l.isOrdered ∧
      t.granules = (s.freeGranules (clusterOf core) noneGone).take r.need.grans ∧ t.scratch = [] ∧
      t.scratchBytes = 4096 * ((r.scratch + 4095) / 4096) ∧ t.pbase = r.pbase ∧ t.spare = r.spare ∧
      t.accs = List.replicate r.nacc { words := [], sat := false, version := 0, int := false } ∧
      t.knots = List.replicate 16 { phase := false, expect := r.groups, pend := r.groups, bytes := 0, wide := false, last := false,
                                        stamp := 0, lastStamp := 0 } ∧
      t.ctxs = List.replicate 9 { issued := 0, timeline := 0, finished := [], cmds := [], wide := none } ∧ t.latches = [] ∧ t.hv = none ∧ t.quantum = 0 ∧ t.halt = none ∧
      t.ended = false ∧ t.attach = [] ∧ t.parts = (List.range r.ngrove).map (s.nextKey + 1 + ·) ∧
      t.roles = launchRoles o l ∧ amap t.groups (fun _ g => { g with slot := 0 }) = startGroups t.roles (BitVec.ofNat 64 r.argptr) ∧
      (∀ k d, r.groves[k]? = some d → ∃ p : Partition, aget (s'.core core).parts (s.nextKey + 1 + k) = some p ∧
        p.owner = s.nextKey ∧ p.width = d.1 ∧ p.gop = d.2.1 ∧ p.evict = (d.2.2.1 == 1) ∧ p.entries = [] ∧ p.stream = none ∧
        p.attached = [] ∧ p.fullcnt = 0 ∧ p.ovfcnt = 0) ∧
      (∀ k, k ≠ s.nextKey → s'.team? k = s.team? k) ∧ (∀ c, c ≠ core → aget s'.cores c = aget s.cores c) ∧ s'.mem = s.mem ∧
      (∀ c, s'.cluster c = if c = clusterOf core then { s.cluster c with clean := [] } else s.cluster c) ∧ s'.root = s.root ∧
      s'.tenant? l.tenant = some { x with winbase := x.cfgBase, winlim := x.cfgLim } ∧
      ∃ l', s'.launch? lid = some l' ∧ l'.next = tid + 1 ∧ l'.passes = 0 ∧ s.nextKey ∈ l'.keys

/-- R119, R276: a group at the start of its team: at its role's entry in user mode, with the argument pointer in s3 and every other
register zero or released, nothing queued and nothing pending. -/
def GroupStart : Prop :=
  ∀ (roles : List Role) (arg : W64) (i : Nat) (g : Group), aget (startGroups roles arg) i = some g →
    ∃ k r, roles[k]? = some r ∧ g.role = k ∧ ((roles.take k).map (·.rgroups)).sum ≤ i ∧
      i < ((roles.take (k + 1)).map (·.rgroups)).sum ∧ g.pc = r.entry ∧ g.prio = r.prio ∧ g.allot = r.slots ∧ g.mode = .user ∧
      (∀ d, g.sreg d = if d = 3#6 then arg else 0#64) ∧ g.vregs = [] ∧ g.preds = [] ∧ g.sq = [] ∧ g.lq = [] ∧ g.frags = [] ∧
      g.dispatch = [] ∧ g.traps = [] ∧ g.accesses = [] ∧ g.lclock = 0 ∧ g.exited = false

/-- R89, R91, R93, R94, R119, R276: which team is placed where, and what it then holds. -/
def TeamPlacement : Prop := PlacementChoice ∧ NextTeam ∧ FreshTeam ∧ GroupStart

/-- The state without a team: its partitions have returned, and its window where it is a hypervisor team. -/
def retiredState (s : State) (key : Nat) (t : Team) : State :=
  let s1 := { s with teams := adel s.teams key }.returnParts key
  { s1 with root := { s1.root with hvWindows := s1.root.hvWindows.filter fun w => t.hv != some w } }

/-- R22, R96, R164, R240: a team whose groups have not all exited, or whose accesses or engine commands have not all completed, stays. One of a
launch that is bound to no collective retires: it is no longer resident, and its launch knows it; where the launch ranks highest and
its next team has room on the same core, that team is placed there. With a hypervisor team its window goes, and once an initialisation team has
retired no earlier supervisor is kept. -/
def TeamRetirement : Prop :=
  ∀ (s : State) (key : Nat) (t : Team), s.team? key = some t →
    (¬ ((∀ e ∈ t.groups, e.2.exited = true ∧ e.2.drained = true) ∧ ∀ c ∈ t.ctxs, c.cmds = []) →
      exec (.teamRetire key) s = .next s) ∧
    ((∀ e ∈ t.groups, e.2.exited = true ∧ e.2.drained = true) → (∀ c ∈ t.ctxs, c.cmds = []) → t.isInit = true → t.launch = none →
      exec (.teamRetire key) s = .next ((retiredState s key t).updTenant t.tenant fun x => { x with supv := { x.supv with previous := none } })) ∧
    ((∀ e ∈ t.groups, e.2.exited = true ∧ e.2.drained = true) → (∀ c ∈ t.ctxs, c.cmds = []) → t.isInit = false →
      let s1 := retiredState s key t
      (t.launch = none → exec (.teamRetire key) s = .next s1) ∧
      ∀ lid l, t.launch = some lid → s.launch? lid = some l → l.coll = none →
        let l' : Launch := { l with exited := t.tid :: l.exited }
        let s2 := { s1 with launches := aset s1.launches lid l' }
        ((l.pending = false ∨ l.isOrdered = true) →
          exec (.teamRetire key) s = .next s2) ∧
        ∀ tid x, l.pending = true → l.isOrdered = false → s2.ranked.head? = some (lid, l') → l.nextTeam = some tid →
          s2.tenant? l.tenant = some x → s2.supvBusy l.tenant = false →
          quotaCovers x (s2.held l.tenant noneGone) l.record.need = true → t.core ∈ x.cores →
          s2.roomOn l.record.need t.core noneGone = true →
          exec (.teamRetire key) s = .next (s2.placeTeam lid tid t.core))

/-- R87: a team of a bound launch that has left, its accesses performed: where its scoreboard bit's teams have all exited and it was the last of
them, its own writes go to the home slices, and then the bit is set, once; otherwise nothing happens. -/
def TileBits : Prop :=
  ∀ (s : State) (key lid : Nat) (t : Team) (l : Launch) (b : CollBind) (x : Tenant), s.team? key = some t → t.launch = some lid →
    s.launch? lid = some l → l.coll = some b → s.tenant? l.tenant = some x →
    let k := t.tid / b.tpb
    let last : Prop := (∀ e ∈ t.groups, e.2.exited = true ∧ e.2.drained = true) ∧ k ∉ l.bits ∧
      (∀ i < b.tpb, k * b.tpb + i < l.gx * l.gy * l.gz → k * b.tpb + i ∈ l.tiled) ∧
      l.tiled.find? (fun i => i / b.tpb == k) = some t.tid
    (¬ last → s.tileExit key = s) ∧
    (last →
      let s1 := ({ s with launches := aset s.launches lid { l with bits := k :: l.bits } } : State).writeBack (clusterOf t.core) fun _ d =>
        d.released || d.owners.any (·.team == key)
      let board := x.board ||| boardRange (b.bitbase + k) 1
      let x' : Tenant := { x with board := board, armed := amap x.armed fun _ e => { e with due := e.due || boardFull board e.first e.count } }
      s.tileExit key = { s1 with tenants := aset s1.tenants l.tenant x' })

/-- R176, R182: the partitions that a team's going returns to its core's pool are those whose owner has gone and that no other team is
attached to; every other stays, without the team among those attached. -/
def PartitionsReturn : Prop :=
  ∀ (s : State) (key c k : Nat), keysRise s.cores = true → (∀ e ∈ s.cores, keysRise e.2.parts = true) → s.team? key = none →
    aget ((s.returnParts key).core c).parts k =
      (aget (s.core c).parts k).bind fun p =>
        if (∃ e ∈ (s.core c).parts, e.2.owner = key ∨ key ∈ e.2.attached) then
          (if p.attached.filter (· != key) ≠ [] ∨ (s.team? p.owner).isSome = true then
            some { p with attached := p.attached.filter (· != key) } else none)
        else some p

/-- R114, R164: a team can be stopped and saved: pre-emptible, not halted, and with every group drained and outside a latch run. -/
def Savable (s : State) (t : Team) : Prop :=
  t.preempt = true ∧ t.halt = none ∧ t.ended = false ∧ (∃ e ∈ t.groups, e.2.exited = false) ∧ (∀ c ∈ t.ctxs, c.cmds = []) ∧
  ∀ e ∈ t.groups, e.2.drained = true ∧ inLatchRun s t e.2 = false

/-- R113, R114: a pre-emptible team whose quantum count has reached Q, while a launch ranked above its own would have room for its next
team without it, and no other such team comes before it, is saved; one whose count is below Q is not. A request saves the team it names, and a team without
PREEMPT stays. -/
def PreemptTriggers : Prop :=
  ∀ (s : State) (key lid : Nat) (t : Team) (l : Launch) (x : Tenant), s.team? key = some t → t.launch = some lid →
    s.launch? lid = some l → s.tenant? t.tenant = some x → t.isOrdered = false → Savable s t →
    (t.quantum < x.quantum → exec (.preemptQuantum key) s = .next s) ∧
    (x.quantum ≤ t.quantum →
      (∃ e ∈ s.ranked, (l.prio < e.2.prio ∨ e.2.prio = l.prio ∧ e.2.order < l.order) ∧
        s.canPlace e.2 (s.keptCores (s.ranked.takeWhile fun f => f.1 != e.1)) (· == key) = true) →
      (∀ e ∈ s.teams, e.1 ≠ key → s.quantumDue e.1 e.2 = true →
        e.2.quantum < t.quantum ∨ e.2.quantum = t.quantum ∧ (e.2.core < t.core ∨ e.2.core = t.core ∧ e.2.tid ≤ t.tid)) →
      exec (.preemptQuantum key) s = .next (s.saveTeams lid [(key, t)])) ∧
    exec (.preemptRequest (.team key)) s = .next (s.saveTeams lid [(key, t)])

/-- R113: a team of a launch without PREEMPT is never pre-empted. -/
def NeverPreempted : Prop :=
  ∀ (s : State) (key : Nat) (t : Team), s.team? key = some t → t.preempt = false → t.isOrdered = false →
    exec (.preemptQuantum key) s = .next s ∧ exec (.preemptRequest (.team key)) s = .next s

/-- R114, R164, R201, R238, R241: a team that is saved is no longer resident, holds no granule, and stays with its launch under its own key;
its save area, which begins with version 1 and its identifier, lies in the DRAM reserve; outside it the home slices hold what they held or what the
team's cluster held dirty, and that cluster holds nothing dirty any more; placed again, it comes back with the contents of its registers, its scratch, its knots and its engine contexts, its quantum count 0, and the waits
of mwait ended RESTORED. -/
def SavedTeam : Prop :=
  ∀ (s : State) (key lid : Nat) (t : Team) (l : Launch), s.team? key = some t → s.launch? lid = some l →
    keysRise s.teams = true → keysRise l.saved = true → l.held = [] → (∀ e ∈ l.saved, e.2.tid ≠ t.tid) →
    (∀ e ∈ (s.core t.core).parts, ∀ x ∈ e.2.tokens, x.g.team ≠ key) → s.mem.wf = true →
    keysRise (s.cluster (clusterOf t.core)).dirty = true →
    let s' := s.saveTeams lid [(key, t)]
    s'.team? key = none ∧ (∀ k, k ≠ key → s'.team? k = s.team? k) ∧
    (∀ a, a < s.root.reserve.1 ∨ s.root.reserve.1 + s.root.reserve.2 ≤ a →
      memGet s'.mem a = coherent s (clusterOf t.core) a) ∧
    (s'.cluster (clusterOf t.core)).dirty = [] ∧ (∀ c, c ≠ clusterOf t.core → s'.cluster c = s.cluster c) ∧
    (8 ≤ s.root.reserve.2 → ∃ base, s.root.reserve.1 ≤ base ∧ base + 8 ≤ s.root.reserve.1 + s.root.reserve.2 ∧
      memGetN s'.mem base 8 = leBytes 4 1 ++ leBytes 4 t.tid) ∧
    ∃ l', s'.launch? lid = some l' ∧ aget l'.saved key = some { t with granules := [] } ∧
      ∀ core x o, s'.tenant? l'.tenant = some x → aget x.objects l'.object = some o →
        ∃ t', (s'.placeTeam lid t.tid core).team? key = some t' ∧ t'.core = core ∧ t'.quantum = 0 ∧ t'.scratch = t.scratch ∧
          t'.knots = t.knots ∧ t'.accs = t.accs ∧ t'.ctxs = t.ctxs ∧ t'.roles = t.roles ∧ t'.parts = t.parts ∧ t'.tid = t.tid ∧
          ∀ i g, aget t.groups i = some g → ∃ g', aget t'.groups i = some g' ∧
            g' = { g with slot := g'.slot, run := none, mwait := g.mwait.map fun w => { w with result := some 2 } }

end Sys2Proof.Claims

/-- R112, R113, R114, R164, R238, R241: which teams are pre-empted, what is kept of them, and how they come back. What it takes from the
choices of the model is named in notes/assumptions/1.md, 70.md, 90.md. -/
def Obligations.Preemption : Prop := PreemptTriggers ∧ NeverPreempted ∧ SavedTeam

namespace Sys2Proof.Claims

/-- R232, R233, R238: the halt of a team ends once every group of it that has not exited has no trap frame, its streams are back in user mode, or
in the mode of an initialisation or hypervisor team, and none of its user-mode fragments is within a latch run but one that waits in a queue: the
team ends where a popped frame carried END, and otherwise its streams resume; until then the state stays. -/
def HaltEnd : Prop :=
  ∀ (s : State) (key : Nat) (t : Team) (h : Halt), s.team? key = some t → t.halt = some h →
    let quiet := ∀ e ∈ t.groups, e.2.exited = true ∨ e.2.traps = [] ∧ (e.2.mode = .user ∨ t.isInit = true ∨ t.hv ≠ none) ∧
      (inLatchRun s t e.2 = true → ∀ r f, e.2.run = some r → aget e.2.frags r.frag = some f → f.mode = .user → r.frag ∈ e.2.heldLanes)
    (¬ quiet → exec (.teamHaltEnd key) s = .next s) ∧
    (quiet → h.fin = true → exec (.teamHaltEnd key) s = .next (s.endTeam key h.teamEnd)) ∧
    (quiet → h.fin = false → exec (.teamHaltEnd key) s = .next (s.setTeam key
      { t with halt := none,
               groups := amap t.groups fun _ g =>
                 { g with stopped := false, scalarSkid := 0, laneSkid := 0,
                          mwait := g.mwait.map fun w => { w with result := some 2 } } }))

end Sys2Proof.Claims

/-- R87, R89, R91, R93, R94, R96, R119, R164, R176, R182, R233, R276: a team from its placement to its retirement, and the end of its halt.
What it takes from the choices of the model is named in notes/assumptions/38.md, 39.md, 41.md, 69.md, 90.md. -/
def Obligations.TeamLife : Prop := TeamPlacement ∧ TeamRetirement ∧ TileBits ∧ PartitionsReturn ∧ HaltEnd

/-! ## Engine commands and armed operations at work -/

namespace Sys2Proof.Claims

/-- Where `n` bytes from `base` upward lie, all of them there: at scratch offsets inside the team's scratch, or at the physical
addresses to which the command's mode and tenant translate them (R314, R315). -/
def Places (s : State) (t : Team) (m : Mode) (nd : BitVec 4) (scratch : Bool) (base n : Nat) (l : List Loc) : Prop :=
  if scratch then base + n ≤ t.scratchBytes ∧ l = (List.range n).map fun i => .scr (base + i)
  else ∃ p, s.translateRange t.tenant t.core m base n nd = .ok (some p) ∧ l = (pieceAddrs p).map .dev

/-- Row `i` of a command (R313): the places of the index word that a gather reads, of the source and of the destination. The source
starts at SRC + i × SSTRIDE, or at SRC + w × SSTRIDE for the index word w of a gather; the destination at DST + i × DSTRIDE. -/
def RowPlaces (s : State) (t : Team) (c : EngineCmd) (i : Nat) (ix src dst : List Loc) : Prop :=
  let d := c.desc
  let row (base stride k : Nat) : Nat := (base + k * stride) % 2 ^ 64
  (if d.kind = 2 then
    Places s t c.mode 1#4 false ((d.idx + 4 * i) % 2 ^ 64) 4 ix ∧
    Places s t c.mode 1#4 d.srcScratch (row d.src d.sstride (leNat (ix.map (s.engineByte t (3 ≤ d.scope) 0 0)))) d.bytes src
  else ix = [] ∧ Places s t c.mode 1#4 d.srcScratch (row d.src d.sstride i) d.bytes src) ∧
  Places s t c.mode 2#4 d.dstScratch (row d.dst d.dstride i) d.bytes dst

/-- R313, R315: an acopy, acopyx or agath command whose every byte is there, and none of whose source bytes it also writes, moves
each byte of its rows, in ascending rows, and completes. -/
def CopyCompletes : Prop :=
  ∀ (s : State) (team ctx seq : Nat) (t : Team) (c : EngineCmd) (rows : List (List Loc × List Loc × List Loc)),
    s.team? team = some t → t.command ctx seq = some c → c.desc.kind ≤ 2 → rows.length = max c.desc.rows 1 →
    let wide : Bool := 3 ≤ c.desc.scope
    let s1 := s.openIndex t c
    (∀ i (r : List Loc × List Loc × List Loc), rows[i]? = some r → RowPlaces s1 t c i r.1 r.2.1 r.2.2) →
    let moves : List (Loc × Loc) := (rows.map fun r => r.2.1.zip r.2.2).flatten
    (∀ m ∈ moves, ∀ n ∈ moves, m.1 ≠ n.2) →
    let s2 := ({ s1 with free := s1.free + 1 } : State).openSources t wide
      (rows.map fun (r : List Loc × List Loc × List Loc) =>
        r.1 ++ ((r.2.1.zip r.2.2).map fun (m : Loc × Loc) => [m.1, m.2]).flatten).flatten
    exec (.engineCommandComplete team ctx seq) s = .next
      ((s2.engineWrite ⟨team, c.group⟩ t wide (moves.map fun m => (m.2, s2.engineByte t wide 0 0 m.1))).updTeam team fun t =>
        t.finishCommand ctx c true)

/-- R155, R315: the bytes that a command at device or system scope writes are at their home slices, and those for scratch in the
team's scratch; the other bytes of both are as before, where the team's cluster holds nothing dirty. -/
def CopyWrites : Prop :=
  ∀ (s : State) (r : GRef) (t : Team) (l : List (Loc × Byte)), s.team? r.team = some t → s.mem.wf = true →
    (s.cluster (clusterOf t.core)).dirty = [] → (l.map (·.1)).Nodup → t.scratch.wf = true →
    let s' := s.engineWrite r t true l
    (∀ a b, (.dev a, b) ∈ l → memGet s'.mem a = b) ∧ (∀ a, (∀ b, (.dev a, b) ∉ l) → memGet s'.mem a = memGet s.mem a) ∧
    ∃ t', s'.team? r.team = some t' ∧ (∀ o b, (.scr o, b) ∈ l → memGet t'.scratch o = b) ∧
      (∀ o, (∀ b, (.scr o, b) ∉ l) → memGet t'.scratch o = memGet t.scratch o) ∧ t' = { t with scratch := t'.scratch }

/-- R162: a timeline at `tl` whose commands of the numbers in `fin`, all above it, have completed, when number `n` completes: it
advances to the highest number such that every command up to it has completed, and keeps the completed numbers above it. -/
def TimelineAdvance : Prop :=
  ∀ (tl n : Nat) (fin : List Nat), tl < n → (∀ k ∈ fin, tl < k) → (n :: fin).Nodup →
    let r := finishNumber tl fin n
    tl ≤ r.1 ∧ (∀ k, tl < k → k ≤ r.1 → k = n ∨ k ∈ fin) ∧ r.1 + 1 ≠ n ∧ r.1 + 1 ∉ fin ∧
    ∀ k, k ∈ r.2 ↔ (k = n ∨ k ∈ fin) ∧ r.1 < k

/-- R162, R166, R167, R315: a command that completes leaves its context, whose timeline advances; a knot that it names loses BYTES ×
max(ROWS, 1) bytes and keeps the command's scope, but for a command that was stopped. -/
def CommandFinish : Prop :=
  ∀ (t : Team) (ctx : Nat) (c : EngineCmd) (x : Ctx) (whole : Bool), t.ctxs[ctx]? = some x →
    let t' := t.finishCommand ctx c whole
    let f := finishNumber x.timeline x.finished c.seq
    t'.ctxs = t.ctxs.set ctx { x with timeline := f.1, finished := f.2, cmds := x.cmds.filter (·.seq != c.seq) } ∧
    (whole = false ∨ c.desc.knot = 0xFF → t' = { t with ctxs := t'.ctxs }) ∧
    (whole = true → c.desc.knot ≠ 0xFF → ∀ k, t.knots[c.desc.knot]? = some k →
      let b := max (k.bytes - (c.desc.bytes * max c.desc.rows 1 : Nat)) (-(2 ^ 46))
      t'.knots = t.knots.set c.desc.knot
        (if k.pend = 0 ∧ b = 0 then { k with bytes := b, phase := !k.phase, pend := k.expect, wide := false, last := k.wide || 3 ≤ c.desc.scope }
         else { k with bytes := b, wide := k.wide || 3 ≤ c.desc.scope }))

/-- An rcopy's communicator is held, and the link to its peer has not failed (R79, R316). -/
def LinkHolds (s : State) (t : Team) (c : EngineCmd) : Prop :=
  ∃ x m, s.tenant? t.tenant = some x ∧ aget x.comms (c.desc.comm % 2 ^ 28) = some m ∧ m.broken ≠ some 0x13 ∧
    s.root.fabup.getLsbD ((m.routes.map (·.1)).getD c.desc.peer 0) = true

/-- R316: a PUT completes once its peer has answered every piece as stored, and has nothing left to do here, nor has one of no bytes; a GET
completes once its bytes have all arrived, and writes them. One whose link has failed completes neither way. -/
def RemoteCopyCompletes : Prop :=
  ∀ (s : State) (team ctx seq : Nat) (t : Team) (c : EngineCmd) (l : List Loc), s.team? team = some t →
    t.command ctx seq = some c → c.desc.kind = 3 → c.refused = none → LinkHolds s t c →
    Places s t c.mode (if c.desc.put then 1#4 else 2#4)
      (if c.desc.put then c.desc.srcScratch else c.desc.dstScratch)
      ((if c.desc.put then c.desc.src else c.desc.dst) % 2 ^ 64) c.desc.bytes l →
    let done (s : State) : Host.Outcome State Fault Refusal := .next (s.updTeam team fun t => t.finishCommand ctx c true)
    (c.desc.bytes = 0 → exec (.engineCommandComplete team ctx seq) s = done s) ∧
    (0 < c.desc.bytes → c.begun = true →
      (c.desc.put = true → c.stored = c.sent → exec (.engineCommandComplete team ctx seq) s = done s) ∧
      (c.desc.put = true → c.stored ≠ c.sent → exec (.engineCommandComplete team ctx seq) s = .next s) ∧
      (c.desc.put = false → ∀ bs : List Byte, bs.length = c.desc.bytes → (∀ i b, bs[i]? = some b → aget c.got i = some b) →
        exec (.engineCommandComplete team ctx seq) s = done (s.engineWrite ⟨team, c.group⟩ t (3 ≤ c.desc.scope) (l.zip bs))))

/-- R79, R316: an rcopy whose link has failed does not begin, and does not complete. -/
def RemoteCopyStops : Prop :=
  ∀ (s : State) (team ctx seq : Nat) (t : Team) (c : EngineCmd) (l : List Loc), s.team? team = some t → t.command ctx seq = some c →
    c.desc.kind = 3 → ¬ LinkHolds s t c →
    Places s t c.mode (if c.desc.put then 1#4 else 2#4) (if c.desc.put then c.desc.srcScratch else c.desc.dstScratch)
      ((if c.desc.put then c.desc.src else c.desc.dst) % 2 ^ 64) c.desc.bytes l →
    exec (.engineCommandComplete team ctx seq) s = .next s ∧ s.engineBegin team ctx seq = s

/-- R234: the failure of an armed operation of a team that a pre-emption has saved waits with the team, for the issuing group, or for the lowest that
has not exited where that one has; no other group of it changes. -/
def FaultOfSaved : Prop :=
  ∀ (s : State) (t k bad lid key i : Nat) (e : Armed) (l : Launch) (y : Team) (g : Group), s.armedTeam e = none →
    s.armedSaved e = some (lid, key) → s.launch? lid = some l → aget l.saved key = some y → keysRise y.groups = true →
    aget y.groups i = some g → g.exited = false →
    (i = e.group ∨ (∀ h, aget y.groups e.group = some h → h.exited = true) ∧ ∀ j h, aget y.groups j = some h → h.exited = false → i ≤ j) →
    ∃ l' y' g', (s.armedFault t k e bad).launch? lid = some l' ∧ aget l'.saved key = some y' ∧ aget y'.groups i = some g' ∧
      g' = { g with fault := some (g.fault.getD (0#32, BitVec.ofNat 64 bad)) } ∧ ∀ j, j ≠ i → aget y'.groups j = aget y.groups j

/-- R234, R315: an acopy, acopyx or agath command that meets a failed translation stops: it completes, with no decrement of its knot;
its issuing group, where that does not wait, has ENGINE_FAULT pending with the address that failed; and no byte outside its rows has changed, in
scratch or for its cluster, while the home slices hold there what they held or what the cluster held dirty. Which bytes inside the rows are new is
a free value. -/
def CopyFails : Prop :=
  ∀ (s : State) (team ctx seq : Nat) (t : Team) (c : EngineCmd) (x : Ctx) (g : Group), s.team? team = some t →
    t.command ctx seq = some c → t.ctxs[ctx]? = some x → c.desc.kind ≤ 2 → t.ended = false → s.mem.wf = true → t.scratch.wf = true →
    keysRise (s.cluster (clusterOf t.core)).dirty = true → aget t.groups c.group = some g → keysRise t.groups = true → g.exited = false →
    g.blocked = none → g.mwait = none → g.held = false →
    let rows := (s.openIndex t c).engineRows t c
    badPlaces (rows.map Row.places).flatten ≠ [] →
    ∃ s' t' bad, exec (.engineFault team ctx seq) s = .next s' ∧ s'.team? team = some t' ∧
      bad ∈ badPlaces (rows.map Row.places).flatten ∧
      t'.ctxs = t.ctxs.set ctx { x with timeline := (finishNumber x.timeline x.finished c.seq).1,
                                        finished := (finishNumber x.timeline x.finished c.seq).2,
                                        cmds := x.cmds.filter (·.seq != c.seq) } ∧
      t'.knots = t.knots ∧ aget t'.groups c.group = some { g with fault := some (g.fault.getD (0#32, BitVec.ofNat 64 bad)) } ∧
      (∀ i, i ≠ c.group → aget t'.groups i = aget t.groups i) ∧
      (∀ a, (∀ r ∈ rows, ∀ m ∈ r.moves, m.2 ≠ .dev a) → coherent s' (clusterOf t.core) a = coherent s (clusterOf t.core) a ∧
        (memGet s'.mem a = memGet s.mem a ∨ ∃ d, (a, d) ∈ (s.cluster (clusterOf t.core)).dirty ∧ memGet s'.mem a = d.val)) ∧
      (∀ o, (∀ r ∈ rows, ∀ m ∈ r.moves, m.2 ≠ .scr o) → memGet t'.scratch o = memGet t.scratch o) ∧
      s'.tenants = s.tenants ∧ s'.root = s.root ∧ s'.sent = s.sent

/-- R233, R234: ENGINE_FAULT goes to the issuing group, or to the lowest group that has not exited where that one has; it ends a wait
in a queue, wait, twait, knot.wait or mwait at once; and with every group exited the team ends. -/
def FaultGoesTo : Prop :=
  ∀ (s : State) (team group bad : Nat) (t : Team), s.team? team = some t → t.ended = false → keysRise t.groups = true →
    (∀ g, aget t.groups group = some g → g.exited = false → g.mwait.isSome = true ∨ g.blocked.isSome = true ∨ g.held = true →
      scalarMayIssue t g = true →
      s.raiseEngineFault team group bad = s.takeScalarTrap ⟨team, group⟩
        { cause := .engineFault, lane := none, info := 0, bad := BitVec.ofNat 64 bad, set := none }) ∧
    (∀ i g, (∀ h, aget t.groups group = some h → h.exited = true) → aget t.groups i = some g → g.exited = false →
      (∀ j h, aget t.groups j = some h → h.exited = false → i ≤ j) →
      s.raiseEngineFault team group bad = s.raiseEngineFault team i bad) ∧
    ((∀ e ∈ t.groups, e.2.exited = true) → s.raiseEngineFault team group bad = s.endTeam team false)

end Sys2Proof.Claims

/-- R79, R162, R166, R233, R234, R313, R315, R316: what a command of an engine does as it completes, and what it leaves when it fails. What it
takes from the choices of the model is named in notes/assumptions/1.md, 6.md, 8.md, 9.md. -/
def Obligations.EngineCommands : Prop :=
  CopyCompletes ∧ CopyWrites ∧ TimelineAdvance ∧ CommandFinish ∧ RemoteCopyCompletes ∧ RemoteCopyStops ∧ CopyFails ∧ FaultGoesTo ∧
  FaultOfSaved

namespace Sys2Proof.Claims

/-- R85: an armed COPY whose bits have all been set frees its entry, copies its bytes between the home slices, where it reads no
byte that it writes, and then signals. -/
def ArmedCopy : Prop :=
  ∀ (s : State) (t entry : Nat) (x : Tenant) (e : Armed) (f g : Nat → Nat), s.tenant? t = some x → aget x.armed entry = some e →
    e.chunk = false → e.due = true →
    (∀ i, i < e.bytes → stageTwo (s.rootWindows x) (e.src + i) 1#4 = .ok (f i)) →
    (∀ i, i < e.bytes → stageTwo (s.rootWindows x) (e.dst + i) 2#4 = .ok (g i)) →
    (∀ i j, i < e.bytes → j < e.bytes → f i ≠ g j) →
    let x' : Tenant := { x with armed := adel x.armed entry }
    let s1 := { s with tenants := aset s.tenants t x', free := s.free + 1 }
    exec (.armedCopyFire t entry) s = .next
      ((s1.homeWrite ((List.range e.bytes).map fun i => (g i, memGet s.mem (f i)))).signal t e.sig e.sigval).1

/-- R48, R53: a signal timeline takes a value at or above its own; a lower one leaves it. -/
def SignalRule : Prop :=
  ∀ (s : State) (t i v : Nat) (x : Tenant), s.tenant? t = some x →
    s.signal t i v = if v < (aget x.signals i).getD 0 then (s, false)
      else ({ s with tenants := aset s.tenants t { x with signals := aset x.signals i v } }, true)

/-- R85: an armed CHUNK whose bits have all been set frees its entry and releases its chunk; the chunk goes out at once where its
instance has started, and at the start otherwise. A chunk that another entry has already released only frees the entry, and, where the instance
has completed since, that is the choice of the model (log entry 79). -/
def ArmedChunk : Prop :=
  ∀ (s : State) (t entry : Nat) (x : Tenant) (e : Armed) (c : Comm) (i : Inst), s.tenant? t = some x →
    aget x.armed entry = some e → e.chunk = true → e.due = true → aget x.comms e.src = some c → aget c.insts e.dst = some i →
    let freed (c : Comm) := { s with tenants := aset s.tenants t { x with armed := adel x.armed entry, comms := aset x.comms e.src c } }
    let released := freed { c with insts := aset c.insts e.dst { i with chunks := i.chunks ++ [e.bytes] } }
    let n := sbufCount i.sig c.members.length / i.nchunk
    (e.bytes ∈ i.chunks → exec (.armedChunkFire t entry) s =
      .next { s with tenants := aset s.tenants t { x with armed := adel x.armed entry } }) ∧
    (e.bytes ∉ i.chunks → i.state ≠ .started → exec (.armedChunkFire t entry) s = .next released) ∧
    (e.bytes ∉ i.chunks → i.state = .started → exec (.armedChunkFire t entry) s =
      .next (released.sendElements t e.src e.dst (e.bytes * n) ((e.bytes + 1) * n)))

/-- An armed CHUNK whose instance is there no more only frees its entry: the choice of the model (log entry 79). -/
def ArmedChunkLate : Prop :=
  ∀ (s : State) (t entry : Nat) (x : Tenant) (e : Armed), s.tenant? t = some x → aget x.armed entry = some e → e.chunk = true → e.due = true →
    (∀ c, aget x.comms e.src = some c → aget c.insts e.dst = none) →
    exec (.armedChunkFire t entry) s = .next { s with tenants := aset s.tenants t { x with armed := adel x.armed entry } }

/-- R85: nothing fires before its bits have all been set. -/
def NotDue : Prop :=
  ∀ (s : State) (t entry : Nat), (∀ x e, s.tenant? t = some x → aget x.armed entry = some e → e.due = false) →
    exec (.armedCopyFire t entry) s = .next s ∧ exec (.armedChunkFire t entry) s = .next s

end Sys2Proof.Claims

/-- R48, R84, R85: armed operations; ArmedChunkLate, and what ArmedChunk says of a chunk whose instance has completed, are the choice of the
model (log entry 79: an armed chunk whose instance has ended fires without effect). What it takes from the choices of the model is named
in notes/assumptions/1.md, 47.md, 79.md. -/
def Obligations.ArmedOperations : Prop := ArmedCopy ∧ SignalRule ∧ ArmedChunk ∧ ArmedChunkLate ∧ NotDue

namespace Sys2Proof.Claims

/-- The meaning of an operation that waits at a Grove port, run in its own stream, whatever is in focus. -/
def runsThere (s : State) (r : GRef) (st : StreamRef) (i : Instr) : Host.Outcome State Fault Refusal :=
  match exec i { s with focus := r, stream := st } with
  | .next s' => .next { s' with focus := s.focus, stream := s.stream }
  | .fault f => .fault f
  | .refused f => .refused f

/-- The instructions that may wait at a Grove port (R188). -/
def groveWaiter : Instr → Bool
  | .kacc _ _ _ _ _ _ _ => true
  | .klook _ _ _ _ _ _ _ => true
  | .klookLq _ _ _ _ _ _ => true
  | .kread _ _ _ _ _ _ => true
  | .kclr _ _ _ _ => true
  | .kcfgDefine _ _ => true
  | .kcfgStream _ _ => true
  | .kcfgClear _ _ => true
  | .kcfgStatus _ _ => true
  | .kcfgAttach _ _ => true
  | .kdrain _ => true
  | _ => false

/-- R188: when the line of a stream's CIDX has been written, a kacc that has waited first at the partition, whose records its stream now has room
for, is performed as it would be in its own stream; with nothing behind it that is all, and otherwise what waits behind it goes on as far as there
is room. Where the stream still lacks room, the kacc keeps its place and the whole state but the count of its stall stays. -/
def WaitingKacc : Prop :=
  ∀ (s s' : State) (core part : Nat) (t : Team) (g : Group) (fid : Nat) (f : Fragment) (h : LHdr) (q : Partition) (x : GToken)
    (l : List GToken), let s0 : State := { s with focus := x.g, stream := x.stream }
    aget (s.core core).parts part = some q → q.tokens = x :: l → (∀ y ∈ l, ¬ (y.g = x.g ∧ y.stream = x.stream)) → t.core = core →
    (KaccDone s0 t g fid f h part q x.instr s' → let s1 : State := { s' with focus := s.focus, stream := s.stream }
      (l = [] → exec (.groveStreamRoom core part) s = .next s1) ∧
      (l ≠ [] → exec (.groveStreamRoom core part) s = exec (.groveStreamRoom core part) s1)) ∧
    ∀ g' q' recs st lc, KaccApplies s0 t g fid f h part q x.instr g' q' recs → recs ≠ [] → q.stream = some st →
      s.translateRange t.tenant t.core f.mode st.cidx.toNat 4 1#4 = .ok (some lc) →
      let used := (st.p - BitVec.ofNat 32 (leNat ((pieceAddrs lc).map (memGet s.mem)))).toNat
      used ≤ 2 ^ st.slog → 2 ^ st.slog < used + recs.length →
      ∃ s2 g2, exec (.groveStreamRoom core part) s = .next s2 ∧
        s2 = { s with cores := s2.cores, teams := s2.teams } ∧ s2.group? x.g = some g2 ∧
        g2 = { g with waiting := g2.waiting, latched := g2.latched, run := g2.run, ordered := g2.ordered } ∧
        (∀ r, r ≠ x.g → s2.group? r = s.group? r) ∧
        aget (s2.core core).parts part = some { q with
          tokens := { x with counted := true, record := [] } :: l
          fullcnt := if x.counted then q.fullcnt else min (q.fullcnt + 1) 0xFFFF }

end Sys2Proof.Claims

/-- R188: when the line of a stream's CIDX has been written, the operation that has waited first at the partition is performed first; where it
still cannot be, it keeps its place and everything behind it waits; where it can, and it was the only one, nothing waits any more. Nothing
happens at a partition where nothing waits. What it takes from the choices of the model is named in notes/assumptions/29.md, 49.md, 92.md. -/
def Obligations.GroveRoomReturns : Prop :=
  WaitingKacc ∧ ∀ (s s' : State) (core part : Nat) (q : Partition) (x : GToken) (l : List GToken),
    aget (s.core core).parts part = some q →
    (q.tokens = [] → exec (.groveStreamRoom core part) s = .next s) ∧
    (q.tokens = x :: l → groveWaiter x.instr = true →
      (∀ g fid f, s.group? x.g = some g → x.stream = .lane fid → aget g.frags fid = some f → f.parkedBy = none) →
      runsThere s x.g x.stream x.instr = .next s' →
      ((∃ q' y l', aget (s'.core core).parts part = some q' ∧ q'.tokens = y :: l' ∧ y.g = x.g ∧ y.stream = x.stream) →
        exec (.groveStreamRoom core part) s = .next s') ∧
      (l = [] → (∀ q', aget (s'.core core).parts part = some q' → q'.tokens = []) →
        exec (.groveStreamRoom core part) s = .next s'))

/-! ## Splice -/

namespace Sys2Proof.Claims

/-- A frame is addressed to a communicator of a tenant of this device (R81): by its coordinator and key, and by the member entry that
names this device and the tenant. -/
def Addressed (s : State) (f : FrameHdr) (t : Nat) (c : Comm) : Prop :=
  f.dst = s.root.devid ∧ c.coord = f.coord ∧ c.ckey = f.ckey ∧ c.members[c.rank]? = some (s.root.devid.toNat, t)

/-- The flow between this member of a communicator and another rank (R68, R82), on the port and to the MAC address that the route table gives
the rank; one on which nothing has gone yet starts at number 0 (log entry 79). -/
def flowOf (s : State) (t : Nat) (c : Comm) (rank : Nat) : Flow :=
  let r : FlowRef := ⟨t, c.coord, c.ckey, c.members.getD rank (0, 0)⟩
  { (s.root.flows.find? fun f => f.ref == r).getD { ref := r, port := 0, dmac := 0, sendPsn := 0, recvPsn := 0, resends := 0, unacked := [] } with
    port := (c.routes.getD rank (0, 0)).1, dmac := (c.routes.getD rank (0, 0)).2 }

/-- The state with a flow in place of the one between the same members. -/
def withFlow (s : State) (w : Flow) : State :=
  { s with root := { s.root with flows := w :: s.root.flows.filter fun x => x.ref != w.ref } }

/-- A frame of a flow on its way (R15, R68, R81): an Ethernet II frame on the flow's port, to its MAC address, from the MAC address of that fabric
port, of EtherType 0x88B5; then the header of R81 and the payload. -/
def frameOut (s : State) (w : Flow) (psn : W32) (ftype inst offset : Nat) (bs : List Byte) : Output :=
  let mac : BitVec 48 := if s.root.fuses.lcstate = 0#2 then s.root.fuses.localMac else s.root.fuses.macBase + BitVec.ofNat 48 (w.port + 2)
  .frame w.port (leBytes 6 w.dmac ++ (leBytes 6 mac.toNat).reverse ++ [0x88#8, 0xB5#8] ++
    (leBytes 1 1 ++ leBytes 1 ftype ++ leBytes 2 s.root.devid.toNat ++ leBytes 2 w.ref.peer.1 ++ leBytes 2 w.ref.coord.toNat ++
     leBytes 4 w.ref.ckey.toNat ++ leBytes 4 psn.toNat ++ leBytes 8 inst ++ leBytes 8 offset ++ leBytes 2 bs.length ++ leBytes 6 0) ++ bs)

/-- The state once the next frame of a flow has been accepted: the flow awaits the number after it, and the acknowledgement of all below that is on
its way (R82). -/
def tookNext (s : State) (w : Flow) : State :=
  (withFlow s { w with recvPsn := w.recvPsn + 1 }).send (frameOut s w (w.recvPsn + 1) 4 0 0 [])

/-- The state with one more Splice frame discarded. -/
def spliceCounted (s : State) : State :=
  { s with root := { s.root with counters := { s.root.counters with splice := s.root.counters.splice + 1 } } }

/-- The flow that a frame names by its coordinator, key and sender, whether or not its communicator is still there (R82). -/
def FlowNamed (s : State) (f : FrameHdr) (w : Flow) : Prop :=
  s.frameFlow f = some w ∧ w ∈ s.root.flows ∧ f.dst = s.root.devid ∧ w.ref.coord = f.coord ∧ w.ref.ckey = f.ckey ∧ w.ref.peer.1 = f.src.toNat

/-- R50, R81: a frame is delivered only to a communicator that it is addressed to; every other frame is discarded and counted. Where the device
still holds its flow, the flow's numbers go on, as a choice of the model (log entry 79), but for an ACK, which is an acknowledgement, and for a
BUILD at the coordinator. -/
def FrameDelivery : Prop :=
  ∀ (s : State) (f : FrameHdr) (ty : Nat),
    (∀ t ci c, s.frameComm f = some (t, ci, c) →
      Addressed s f t c ∧ (∃ x, (t, x) ∈ s.tenants ∧ (ci, c) ∈ x.comms) ∧ exec (.spliceFrameDiscard ⟨f, ty⟩) s = .next s) ∧
    ((∀ e ∈ s.tenants, ∀ k ∈ e.2.comms, ¬ Addressed s f e.1 k.2) → s.frameComm f = none ∧
      (s.frameFlow f = none → exec (.spliceFrameDiscard ⟨f, ty⟩) s = .next (spliceCounted s)) ∧
      ∀ w, FlowNamed s f w →
        (ty = 4 → exec (.spliceFrameDiscard ⟨f, ty⟩) s = .next s) ∧
        (ty = 6 → f.dst = f.coord → exec (.spliceFrameDiscard ⟨f, ty⟩) s = .next (spliceCounted s)) ∧
        (ty ≠ 4 → ty ≠ 6 ∨ f.dst ≠ f.coord →
          (w.recvPsn = f.psn → exec (.spliceFrameDiscard ⟨f, ty⟩) s = .next (spliceCounted (tookNext s w))) ∧
          (w.recvPsn ≠ f.psn → exec (.spliceFrameDiscard ⟨f, ty⟩) s =
            .next (spliceCounted (s.send (frameOut s w w.recvPsn 4 0 0 []))))))

/-- A frame that a communicator's member accepts (R81, R82): delivered to it, from another rank, with the number that comes next on
their flow. -/
structure Accepted (s : State) (f : FrameHdr) (rank t ci : Nat) (c : Comm) : Prop where
  comm   : s.frameComm f = some (t, ci, c)
  held   : s.comm? t ci = some c
  sender : c.senderRank f = some rank
  other  : rank ≠ c.rank
  next   : (flowOf s t c rank).recvPsn = f.psn

/-- What a frame that has been accepted does in the state `s1` (R67, R71, R73, R76, R79, R80, R316). INST of a FAIL, BUILD or REBUILD says which
build or rebuild the coordinator answers, and is 0 in a notice of R79 (log entry 79). -/
inductive FrameForm (s1 : State) (f : FrameHdr) (rank t ci : Nat) (c : Comm) : Instr → State → Prop
  | post (index : Nat) (sig : Sig) (l : Nat) : c.rank = 0 → c.broken = none →
      FrameForm s1 f rank t ci c (.splicePostFrame f rank index sig l) (s1.addPost t ci rank index sig l)
  | postElsewhere (index : Nat) (sig : Sig) (l : Nat) : c.rank ≠ 0 ∨ c.broken ≠ none →
      FrameForm s1 f rank t ci c (.splicePostFrame f rank index sig l) s1
  | ticket (index value n : Nat) (i : Inst) : rank = 0 →
      (c.insts.find? fun e => e.2.index == index && e.2.state == .posted) = some (n, i) →
      FrameForm s1 f rank t ci c (.spliceTicketFrame f index value)
        ({ s1 with root := { s1.root with ticket := max s1.root.ticket value } }.updInst t ci n fun i =>
          { i with state := .ticketed, ticket := value })
  | ticketLost (index value : Nat) : rank = 0 → (c.insts.find? fun e => e.2.index == index && e.2.state == .posted) = none →
      FrameForm s1 f rank t ci c (.spliceTicketFrame f index value) { s1 with root := { s1.root with ticket := max s1.root.ticket value } }
  | data (inst : W64) (offset : Nat) (bs : List Byte) (n : Nat) (i : Inst) : bs.length ≤ 8192 → inst ≠ BitVec.allOnes 64 →
      (c.insts.find? fun e => e.2.index == inst.toNat && e.2.state.live) = some (n, i) →
      FrameForm s1 f rank t ci c (.spliceDataFrame f rank inst offset bs) (s1.updInst t ci n fun i => i.receive rank offset bs)
  | dataLost (inst : W64) (offset : Nat) (bs : List Byte) : bs.length ≤ 8192 → inst ≠ BitVec.allOnes 64 →
      (c.insts.find? fun e => e.2.index == inst.toNat && e.2.state.live) = none →
      FrameForm s1 f rank t ci c (.spliceDataFrame f rank inst offset bs) s1
  | remote (offset : Nat) (bs : List Byte) : bs.length ≤ 8192 →
      FrameForm s1 f rank t ci c (.spliceDataFrame f rank (BitVec.allOnes 64) offset bs)
        (s1.rcopyFrame t ci rank (Config.rcopyRead offset bs))
  | noticeHead (status : Nat) : c.phase ≠ .building → c.rank = 0 →
      FrameForm s1 f rank t ci c (.spliceFailFrame ⟨f, 0⟩ status) (s1.reportBreak t ci status)
  | noticeMember (status : Nat) : c.phase ≠ .building → c.rank ≠ 0 → rank = 0 →
      FrameForm s1 f rank t ci c (.spliceFailFrame ⟨f, 0⟩ status) (s1.breakComm t ci status)
  | noticeBuilding (status : Nat) : c.phase = .building → FrameForm s1 f rank t ci c (.spliceFailFrame ⟨f, 0⟩ status) s1
  | withdrawDigest (inst status : Nat) : inst ≠ 0 → aget c.asks rank = some inst → c.phase = .building → c.rank = 0 →
      FrameForm s1 f rank t ci c (.spliceFailFrame ⟨f, inst⟩ status) (s1.updComm t ci fun c => { c with digests := adel c.digests rank })
  | withdrawRebuild (inst status : Nat) : inst ≠ 0 → aget c.asks rank = some inst → c.phase ≠ .building → c.broken ≠ none → c.rank = 0 →
      FrameForm s1 f rank t ci c (.spliceFailFrame ⟨f, inst⟩ status)
        (s1.updComm t ci fun c => { c with rebuilt := c.rebuilt.filter (· != rank) })
  | withdrawLate (inst status : Nat) : inst ≠ 0 → aget c.asks rank = some inst → c.phase ≠ .building → c.broken = none → c.rank = 0 →
      FrameForm s1 f rank t ci c (.spliceFailFrame ⟨f, inst⟩ status) (s1.reportBreak t ci 0x13)
  | failBuild (status : Nat) : c.asked ≠ 0 → c.phase ≠ .ready → c.rank ≠ 0 → rank = 0 →
      FrameForm s1 f rank t ci c (.spliceFailFrame ⟨f, c.asked⟩ status) (s1.commDone t ci status)
  | failOther (inst status : Nat) : inst ≠ 0 →
      (if c.rank = 0 then aget c.asks rank ≠ some inst else rank ≠ 0 ∨ c.phase = .ready ∨ inst ≠ c.asked) →
      FrameForm s1 f rank t ci c (.spliceFailFrame ⟨f, inst⟩ status) s1
  | digest (inst : Nat) (d : BitVec 512) : c.phase = .building → c.rank = 0 →
      FrameForm s1 f rank t ci c (.spliceBuildFrame ⟨f, inst⟩ rank d)
        ((s1.updComm t ci fun c =>
          { c with digests := aset c.digests rank d, asks := aset c.asks rank (f.psn.toNat + 1) }).checkBuild t ci)
  | built (d : BitVec 512) : c.phase = .building → c.rank ≠ 0 → rank = 0 →
      FrameForm s1 f rank t ci c (.spliceBuildFrame ⟨f, c.asked⟩ rank d) (s1.commDone t ci (if d = c.digest then 0x0 else 0x12))
  | buildOther (inst : Nat) (d : BitVec 512) : c.phase ≠ .building ∨ (c.rank ≠ 0 ∧ (rank ≠ 0 ∨ inst ≠ c.asked)) →
      FrameForm s1 f rank t ci c (.spliceBuildFrame ⟨f, inst⟩ rank d) s1
  | rebuild (inst : Nat) : c.rank = 0 →
      FrameForm s1 f rank t ci c (.spliceRebuildFrame ⟨f, inst⟩ rank)
        ((s1.updComm t ci fun c =>
          { c with rebuilt := rank :: c.rebuilt.filter (· != rank), asks := aset c.asks rank (f.psn.toNat + 1) }).checkRebuild t ci)
  | rebuilt : c.rank ≠ 0 → rank = 0 → c.phase = .rebuilding →
      FrameForm s1 f rank t ci c (.spliceRebuildFrame ⟨f, c.asked⟩ rank) (s1.commDone t ci 0x0)
  | rebuildOther (inst : Nat) : c.rank ≠ 0 → (rank ≠ 0 ∨ c.phase ≠ .rebuilding ∨ inst ≠ c.asked) →
      FrameForm s1 f rank t ci c (.spliceRebuildFrame ⟨f, inst⟩ rank) s1

/-- R67, R71, R73, R76, R79 to R82, R316: what an accepted frame of each type does. -/
def FrameForms : Prop :=
  ∀ (s s' : State) (f : FrameHdr) (rank t ci : Nat) (c : Comm) (i : Instr), Accepted s f rank t ci c →
    FrameForm (tookNext s (flowOf s t c rank)) f rank t ci c i s' → exec i s = .next s'

/-- R67, R80: what the coordinator makes of the digests of a build, once it has one from every member: where they are all its own, every other
member is answered BUILD and the communicator is ready; otherwise every other is answered FAIL with MISMATCH and the build has failed; of the
REBUILDs, once each member has sent one, every other is answered so and the communicator is unbroken. Until then it waits. -/
def BuildChecks : Prop :=
  ∀ (s : State) (t ci : Nat) (c : Comm), s.comm? t ci = some c → c.rank = 0 →
    let answer (ty : Nat) (bs : List Byte) : State :=
      c.others.foldl (fun s r => s.sendFrame t ci r ty ((aget c.asks r).getD 0) 0 bs) s
    (c.phase = .building → c.digests.length = c.members.length →
      ((∀ e ∈ c.digests, e.2 = c.digest) → s.checkBuild t ci = (answer 6 (leBytes 64 c.digest.toNat)).commDone t ci 0x0) ∧
      ((∃ e ∈ c.digests, e.2 ≠ c.digest) → s.checkBuild t ci = (answer 5 (leBytes 2 0x12)).commDone t ci 0x12)) ∧
    (c.phase ≠ .building ∨ c.digests.length ≠ c.members.length → s.checkBuild t ci = s) ∧
    (c.phase = .rebuilding → (∀ r < c.members.length, r ∈ c.rebuilt) → s.checkRebuild t ci = (answer 7 []).commDone t ci 0x0) ∧
    (c.phase ≠ .rebuilding ∨ (∃ r < c.members.length, r ∉ c.rebuilt) → s.checkRebuild t ci = s)

/-- R67, R80: how the command of a build or rebuild ends: a build that fails leaves no communicator, one that succeeds leaves it ready; a rebuild
that succeeds leaves it unbroken, with no post at the coordinator and its matching indexes from 1 again, and one that fails as it was; the command
completes with the status and the handle. -/
def BuildEnds : Prop :=
  ∀ (s : State) (t ci st : Nat) (x : Tenant) (c : Comm), s.tenant? t = some x → aget x.comms ci = some c →
    let ended (comms : AList Comm) : State := ({ s with tenants := aset s.tenants t { x with comms := comms } }).endCommand
      (.tenant t c.queue) c.cmd st (0x30000000 + ci)
    (c.phase = .building → st ≠ 0 → s.commDone t ci st = ended (adel x.comms ci)) ∧
    (c.phase = .building → st = 0 → s.commDone t ci st = ended (aset x.comms ci { c with phase := .ready })) ∧
    (c.phase ≠ .building → st ≠ 0 → s.commDone t ci st = ended (aset x.comms ci { c with phase := .ready })) ∧
    (c.phase ≠ .building → st = 0 → s.commDone t ci st = ended (aset x.comms ci
      { c with phase := .ready, broken := none, failed := none, index := 0, posts := [], rebuilt := [],
               failures := (c.failed.map fun f => (f, c.seq, c.broken.getD 0)).toList ++ c.failures }))

/-- R82: a frame with any other number is not accepted: it only has the number that comes next acknowledged again. An ACK frees the
frames below its number, and with them the count of resends. -/
def FlowRules : Prop :=
  (∀ (s : State) (f : FrameHdr) (rank t ci : Nat) (c : Comm), s.frameComm f = some (t, ci, c) → s.comm? t ci = some c →
    c.senderRank f = some rank → let w := flowOf s t c rank
    (∀ ty, w.recvPsn ≠ f.psn → ty ≠ 4 → exec (.spliceFrameWrongPsn f ty) s = .next (s.send (frameOut s w w.recvPsn 4 0 0 []))) ∧
    (w.recvPsn ≠ f.psn → ∀ i, (∃ index sig l, i = .splicePostFrame f rank index sig l) ∨
        (∃ index v, i = .spliceTicketFrame f index v) ∨ (∃ inst o bs, i = .spliceDataFrame f rank inst o bs) ∨
        (∃ n st, i = .spliceFailFrame ⟨f, n⟩ st) ∨ (∃ n d, i = .spliceBuildFrame ⟨f, n⟩ rank d) ∨ (∃ n, i = .spliceRebuildFrame ⟨f, n⟩ rank) →
      exec i s = .next s)) ∧
  ∀ (s : State) (r : FlowRef) (n : W32) (w : Flow), (s.root.flows.find? fun f => f.ref == r) = some w →
    let rest := w.unacked.filter fun x => !(x.psn != n && (n - x.psn).toNat < 2 ^ 31)
    rest.length < w.unacked.length → exec (.spliceAckFrame r n) s = .next (withFlow s { w with unacked := rest, resends := 0 })

/-- R81, R82: a frame that goes out takes its flow's next number, and is kept until it is acknowledged. -/
def SendRule : Prop :=
  ∀ (s : State) (t ci rank ftype inst offset : Nat) (x : Tenant) (c : Comm) (bs : List Byte), s.tenant? t = some x →
    aget x.comms ci = some c →
    let w := flowOf s t c rank
    s.sendFrame t ci rank ftype inst offset bs =
      (withFlow s { w with sendPsn := w.sendPsn + 1, unacked := w.unacked ++ [⟨w.sendPsn, ftype, inst, offset, bs⟩] }).send
        (frameOut s w w.sendPsn ftype inst offset bs)

/-- R71, R73: the coordinator of a communicator that is not broken, holding the posts `posts` of an index from every member: with
matching signatures and a ticket of at most 2^48 − 2, the ticket is one more than the highest clock reported, the other ranks are sent
it, and the posts are done with; otherwise the communicator breaks with MISMATCH. Without a post from every member it waits. -/
def TicketRule : Prop :=
  ∀ (s : State) (t ci index : Nat) (c : Comm), s.comm? t ci = some c → c.broken = none →
    let posts : List (Nat × Nat × Sig × Nat) := c.posts.filter fun p => p.2.1 == index
    (posts.length ≠ c.members.length → s.issueTicket t ci index = s) ∧
    (posts.length = c.members.length → ∀ v, (∀ p ∈ posts, p.2.2.2 < v) → (v = 1 ∨ ∃ p ∈ posts, p.2.2.2 + 1 = v) →
      ((∀ p ∈ posts, ∀ q ∈ posts, p.2.2.1 = q.2.2.1) → v ≤ 2 ^ 48 - 2 → s.issueTicket t ci index =
        ((s.updComm t ci fun c => { c with posts := c.posts.filter fun p => p.2.1 != index }).takeTicket t ci index v).sendFrames t ci 2 (v * 2 ^ 16 + c.coord.toNat) 0
          (leBytes 8 index) c.others) ∧
      (2 ^ 48 - 2 < v → s.issueTicket t ci index = s.reportBreak t ci 0x12)) ∧
    (posts.length = c.members.length → c.members.length ≠ 2 → (∃ p ∈ posts, ∃ q ∈ posts, p.2.2.1 ≠ q.2.2.1) →
      s.issueTicket t ci index = s.reportBreak t ci 0x12)

/-- R72, R79: a communicator that breaks with a status: every instance posted and not ended fails with it, and is gone with its
reservations, its triggers and its post table entry; a later one too reads FAILED. Instances that had completed stay complete. -/
def BreakRule : Prop :=
  ∀ (s : State) (t ci status : Nat) (x : Tenant) (c : Comm), s.tenant? t = some x → aget x.comms ci = some c → c.broken = none →
    keysRise c.insts = true →
    ∃ x' c', (s.breakComm t ci status).tenant? t = some x' ∧ aget x'.comms ci = some c' ∧ c'.broken = some status ∧
      c'.seq = c.seq ∧ c'.insts = c.insts.filter (fun e => !e.2.state.live) ∧
      (∀ n i, aget c.insts n = some i → i.state.live = true → 1 ≤ n → ∀ k, n ≤ k → k ≤ c.seq →
        c'.stat k = BitVec.ofNat 64 (status * 256 + 5)) ∧
      (∀ k e, aget x'.armed k = some e → e.chunk = true → e.src = ci → ∀ i, aget c.insts e.dst = some i → i.state.live = false) ∧
      c.timeline ≤ c'.timeline ∧
      (∀ cj, cj ≠ ci → aget x'.comms cj = aget x.comms cj) ∧
      (∀ t', t' ≠ t → (s.breakComm t ci status).tenant? t' = s.tenant? t') ∧ (s.breakComm t ci status).teams = s.teams

end Sys2Proof.Claims

/-- R67, R71, R73, R76, R79 to R82, R316: the frames of Splice. What it takes from the choices of the model is named in
notes/assumptions/1.md, 42.md, 79.md. -/
def Obligations.SpliceFrames : Prop :=
  FrameDelivery ∧ FrameForms ∧ BuildChecks ∧ BuildEnds ∧ FlowRules ∧ SendRule ∧ TicketRule ∧ BreakRule

namespace Sys2Proof.Claims

/-- R74: a ticketed instance comes next: no ticketed one of the device has a smaller ticket, and no unticketed post reported a clock
below it. -/
def ComesNext (s : State) (m : Comm) (i : Inst) : Prop :=
  ∀ e ∈ s.tenants, ∀ k ∈ e.2.comms, ∀ j ∈ k.2.insts,
    (j.2.state = .ticketed → i.ticket < j.2.ticket ∨ i.ticket = j.2.ticket ∧ m.coord.toNat ≤ k.2.coord.toNat) ∧
    (j.2.state = .posted → i.ticket ≤ j.2.l)

/-- The instances of the device that have started and not ended. -/
def startedInsts (s : State) : List Inst :=
  (s.tenants.map fun e => (e.2.comms.map fun k => ((k.2.insts.map (·.2)).filter fun i => i.state == .started)).flatten).flatten

/-- The staging segments that no started instance holds (R75). -/
def freeSegments (s : State) : List (Nat × Nat × Nat) :=
  s.stagingPool.filter fun x => !((startedInsts s).map (·.staging)).flatten.contains x

/-- R74, R75, R85: an instance starts when its ticket comes next, fewer than 64 have started, and as many segments are free as its kind
needs; it takes that many, all free and all different, and sends what it may: all of its SBUF, or the chunks already released. -/
def StartRule : Prop :=
  ∀ (s : State) (t ci seq : Nat) (x : Tenant) (m : Comm) (i : Inst), s.tenant? t = some x → aget x.comms ci = some m →
    aget m.insts seq = some i → i.state = .ticketed → m.broken = none →
    let need : Nat := if i.sig.kind = 0 ∨ i.sig.kind = 1 then 4 else 2
    (ComesNext s m i → (startedInsts s).length < 64 → need ≤ (freeSegments s).length →
      ∃ segs, segs.length = need ∧ segs.Nodup ∧ (∀ g ∈ segs, g ∈ freeSegments s) ∧
        let m1 : Comm := { m with insts := aset m.insts seq { i with state := .started, staging := segs } }
        let s1 := { s with tenants := aset s.tenants t { x with comms := aset x.comms ci m1 }, free := s.free + 1 }
        (i.nchunk = 0 → exec (.collectiveStart ⟨t, ci⟩ seq) s =
          .next (s1.sendElements t ci seq 0 (sbufCount i.sig m.members.length))) ∧
        (i.nchunk ≠ 0 → exec (.collectiveStart ⟨t, ci⟩ seq) s =
          .next (i.chunks.foldl (fun s k => s.sendChunk t ci seq k) s1))) ∧
    (¬ (ComesNext s m i ∧ (startedInsts s).length < 64 ∧ need ≤ (freeSegments s).length) →
      exec (.collectiveStart ⟨t, ci⟩ seq) s = .next s)

/-- R70: every element of a rank's SBUF on which another's DBUF depends is among those that it sends to that rank. -/
def DataNeeded : Prop :=
  ∀ (g : Sig) (p j k me e : Nat), g.kind ≤ 4 → k < dbufCount g p → j < p → me < p → (me, e) ∈ elementSources g p j k →
    (neededBy g p me j).1 ≤ e ∧ e < (neededBy g p me j).1 + (neededBy g p me j).2

/-- R70, R76: the SUM of 32-bit or 64-bit integers is the sum of every rank's element modulo 2^32 or 2^64. -/
def IntegerSums : Prop :=
  ∀ xs : List Nat, xs ≠ [] →
    reduceElement 0 0 xs % 2 ^ 32 = xs.sum % 2 ^ 32 ∧ reduceElement 1 0 xs % 2 ^ 64 = xs.sum % 2 ^ 64

/-- R70, R76: MAX and MIN of integers take the largest and the smallest as signed numbers, and OR every bit that an operand has. -/
def IntegerFolds : Prop :=
  ∀ (d n : Nat) (xs : List Nat), (d = 0 ∧ n = 32) ∨ (d = 1 ∧ n = 64) → xs ≠ [] → (∀ x ∈ xs, x < 2 ^ n) →
    let num (x : Nat) : Int := (BitVec.ofNat n x).toInt
    (reduceElement d 1 xs ∈ xs ∧ ∀ x ∈ xs, num x ≤ num (reduceElement d 1 xs)) ∧
    (reduceElement d 2 xs ∈ xs ∧ ∀ x ∈ xs, num (reduceElement d 2 xs) ≤ num x) ∧
    ∀ i, (reduceElement d 3 xs).testBit i = xs.any fun x => x.testBit i

/-- R76, R250: F32 is folded in rank order from the first operand, by addition rounded to nearest even, SELMAX or SELMIN; BF16 and FP16 are
widened exactly, folded as F32, and rounded once. -/
def FloatFolds : Prop :=
  (∀ rop x, x < 2 ^ 32 → reduceElement 2 rop [x] = x) ∧
  (∀ (xs : List Nat) (y : Nat), xs ≠ [] →
    let acc := BitVec.ofNat 32 (reduceElement 2 0 xs)
    reduceElement 2 0 (xs ++ [y]) = (fAdd .rne acc (BitVec.ofNat 32 y)).toNat) ∧
  (∀ (xs : List Nat) (y : Nat), xs ≠ [] →
    reduceElement 2 1 (xs ++ [y]) = (selMax (BitVec.ofNat 32 (reduceElement 2 1 xs)) (BitVec.ofNat 32 y)).toNat ∧
    reduceElement 2 2 (xs ++ [y]) = (selMin (BitVec.ofNat 32 (reduceElement 2 2 xs)) (BitVec.ofNat 32 y)).toNat) ∧
  ∀ (d rop : Nat) (fmt : Fmt), (d = 3 ∧ fmt = bf16) ∨ (d = 4 ∧ fmt = fp16) →
    let widen (x : Nat) : Nat := f32.ofVal .rne (fmt.read x)
    (∀ xs : List Nat, xs ≠ [] →
      reduceElement d rop xs = fmt.ofVal .rne (val32 (BitVec.ofNat 32 (reduceElement 2 rop (xs.map widen))))) ∧
    ∀ x < 2 ^ 16, widen x < 2 ^ 32 ∧ match fmt.read x with
      | .nan => val32 (BitVec.ofNat 32 (widen x)) = .nan
      | .inf b => val32 (BitVec.ofNat 32 (widen x)) = .inf b
      | .fin b m e => ∃ m' e', val32 (BitVec.ofNat 32 (widen x)) = .fin b m' e' ∧ realOf b m' e' = realOf b m e

/-- R69, R76, R77, R162: a started instance whose chunks have all been released and whose operands are all here completes: its DBUF
receives its elements, it is done with, and the collective timeline advances. -/
def CompleteRule : Prop :=
  ∀ (s : State) (t ci seq : Nat) (x : Tenant) (m : Comm) (i : Inst) (vals : List (List Byte)) (l : List (Nat × Nat)),
    s.tenant? t = some x → aget x.comms ci = some m → aget m.insts seq = some i → i.state = .started →
    i.chunks.dedup.length = i.nchunk →
    (vals.length = dbufCount i.sig m.members.length) → (∀ k v, vals[k]? = some v → i.element m k = some v) →
    s.rootRange x 2#4 i.dbuf (vals.length * dtypeBytes i.sig.dtype) = some l →
    let f := finishNumber m.timeline m.finished seq
    let m1 : Comm := { m with insts := adel m.insts seq, timeline := f.1, finished := f.2 }
    let s1 := { s with tenants := aset s.tenants t { x with comms := aset x.comms ci m1 } }
    exec (.collectiveComplete ⟨t, ci⟩ seq) s = .next (s1.homeWrite ((pieceAddrs l).zip vals.flatten))

/-- R14, R79, R82: a flow without an advance of its acknowledgements sends every frame it keeps again, 16 times; then its port is down:
FABUP is clear, FABERR is set, and the flow counts afresh (log entry 79). -/
def ResendRule : Prop :=
  ∀ (s : State) (r : FlowRef) (w : Flow), (s.root.flows.find? fun f => f.ref == r) = some w →
    (∀ n, (∀ f, w.unacked.head? = some f → f.psn ≠ n) → exec (.spliceResendTimeout r n) s = .next s) ∧
    ∀ f0 l, w.unacked = f0 :: l →
    (w.resends < 16 → ∃ s', exec (.spliceResendTimeout r f0.psn) s = .next s' ∧
      s' = { withFlow s { w with resends := w.resends + 1 } with sent := s'.sent } ∧
      s'.sent = (w.unacked.map fun f => frameOut s w f.psn f.ftype f.inst f.offset f.payload).reverse ++ s.sent) ∧
    (16 ≤ w.resends → let s1 := withFlow s { w with resends := 0 }
      exec (.spliceResendTimeout r f0.psn) s = .next (s1.portDown w.port true) ∧
      (s1.portDown w.port true).root.fabup = s.root.fabup &&& ~~~(1#16 <<< w.port) ∧
      (s1.portDown w.port true).root.faberr = s.root.faberr ||| (1#16 <<< w.port))

/-- R67, R80: a member whose build or rebuild has not completed in its time ends it with LINK_DOWN, and withdraws from it at the
coordinator; the coordinator tells those that have joined. A communicator in neither stays. -/
def BuildTimers : Prop :=
  ∀ (s : State) (t ci : Nat) (m : Comm), s.comm? t ci = some m →
    let told (joined : List Nat) : State :=
      if m.rank = 0 then (joined.filter (· != 0)).foldl (fun s r => s.sendFrame t ci r 5 ((aget m.asks r).getD 0) 0 (leBytes 2 0x13)) s
      else s.sendFrame t ci 0 5 m.asked 0 (leBytes 2 0x13)
    (m.phase = .building → exec (.commBuildTimeout ⟨t, ci⟩) s = .next ((told (m.digests.map (·.1))).commDone t ci 0x13)) ∧
    (m.phase ≠ .building → exec (.commBuildTimeout ⟨t, ci⟩) s = .next s) ∧
    (m.phase = .rebuilding → exec (.commRebuildTimeout ⟨t, ci⟩) s = .next
      (((told m.rebuilt).updComm t ci fun m => { m with rebuilt := [] }).commDone t ci 0x13)) ∧
    (m.phase ≠ .rebuilding → exec (.commRebuildTimeout ⟨t, ci⟩) s = .next s)

end Sys2Proof.Claims

/-- R67, R69, R70, R73 to R77, R80, R82, R85: collective instances from their start to their end, and the timers of Splice. What it takes from
the choices of the model is named in notes/assumptions/1.md, 10.md, 44.md, 79.md. -/
def Obligations.Collectives : Prop :=
  StartRule ∧ DataNeeded ∧ IntegerSums ∧ IntegerFolds ∧ FloatFolds ∧ CompleteRule ∧ ResendRule ∧ BuildTimers

/-! ## Queues, events and commands -/

namespace Sys2Proof.Claims

/-- A queue's earliest notification is of a kind (R43); `s1` is the state without it. -/
def NoticeTaken (s : State) (q : QRef) (enable : Bool) (s1 : State) : Prop :=
  ∃ a b, s.root.notices = a ++ { q := q, enable := enable } :: b ∧ (∀ n ∈ a, n.q ≠ q) ∧
    s1 = { s with root := { s.root with notices := a ++ b } }

/-- A queue's ring lies in memory that its owner may write (R43). -/
def RingWritable (s : State) (q : QRef) (base log : Nat) : Prop :=
  match q with
  | .tenant t _ => ∃ x l, s.tenant? t = some x ∧ s.rootRange x 2#4 base (64 * 2 ^ log) = some l
  | .mgmt => base + 64 * 2 ^ log ≤ 2 ^ 28

/-- A queue disabled by an error (R42, R43, R405): QSTATE is 2, and its owner receives QUEUE_ERROR. -/
def errorDisabled (s : State) (q : QRef) (x : Queue) (status : Nat) : State :=
  let s1 := (s.setQueue q { x with enabled := false }).cbWrite (queueOwner q) (queueOff q + 0xB) 1 2
  match q with
  | .tenant t i => s1.emit (some t) (eventBytes 4 0 status i 0 0xFF 0 x.timeline 0) none
  | .mgmt => s1.emit none (eventBytes 4 3 status 0 0 0xFF 0 x.timeline 0) none

/-- R42, R43: what the command processor does on a write to QENABLE: 0 to 1 latches the descriptor and enables the queue at TAIL, or
disables it for a bad configuration (of a QPRIO above 3 nothing is kept); 0 disables it; 1 again only has QSTATE written. -/
def EnableRule : Prop :=
  ∀ (s s1 : State) (q : QRef) (x : Queue), NoticeTaken s q true s1 → s1.queue? q = some x →
    let cb (off n : Nat) : Nat := s1.cbRead (queueOwner q) (queueOff q + off) n
    let put (s : State) (v : Nat) : State := s.cbWrite (queueOwner q) (queueOff q + 0xB) 1 v
    let y : Queue := { x with latch := true, qbase := cb 0 8, qlog := cb 8 1, qprio := if cb 9 1 ≤ 3 then cb 9 1 else x.qprio }
    let good : Prop := 4 ≤ y.qlog ∧ y.qlog ≤ 16 ∧ cb 9 1 ≤ 3 ∧ y.qbase % 64 = 0 ∧ RingWritable s1 q y.qbase y.qlog
    (cb 0xA 1 = 1 → x.latch = false → good → exec (.qenableWrite q) s = .next
      (put ((s1.setQueue q { y with enabled := true, head := BitVec.ofNat 32 (cb 0x10 4) }).cbWrite (queueOwner q) (queueOff q + 0x14) 4
        (cb 0x10 4)) 1)) ∧
    (cb 0xA 1 = 1 → x.latch = false → ¬ good → exec (.qenableWrite q) s = .next (errorDisabled s1 q y 0x2)) ∧
    (cb 0xA 1 = 1 → x.latch = true → exec (.qenableWrite q) s = .next (put s1 (if x.enabled then 1 else 2))) ∧
    (cb 0xA 1 ≠ 1 → exec (.qenableWrite q) s = .next (put (s1.setQueue q { x with latch := false, enabled := false }) 0))

/-- R43, R44: what it does on a write to TAIL: an enabled queue's records from HEAD to TAIL − 1 are fetched, each from QBASE + 64 ×
(index mod 2^QLOG), and numbered on from the last; more than the ring holds is an overrun; a queue that is not enabled ignores it. -/
def FetchRule : Prop :=
  ∀ (s s1 : State) (q : QRef) (x : Queue), NoticeTaken s q false s1 → s1.queue? q = some x →
    let tail : W32 := BitVec.ofNat 32 (s1.cbRead (queueOwner q) (queueOff q + 0x10) 4)
    let n := (tail - x.head).toNat
    (x.enabled = false → exec (.queueNotification q) s = .next s1) ∧
    (x.enabled = true → 2 ^ x.qlog < n → exec (.queueNotification q) s = .next (errorDisabled s1 q x 0xF)) ∧
    (x.enabled = true → n ≤ 2 ^ x.qlog → ∀ cmds : List Cmd, cmds.length = n →
      (∀ i c, cmds[i]? = some c → c.seq = x.fetched + 1 + i ∧
        s1.ownRead (queueOwner q) 2#4 (x.qbase + 64 * ((x.head.toNat + i) % 2 ^ 32 % 2 ^ x.qlog)) 64 = some c.bytes) →
      exec (.queueNotification q) s = .next
        ((s1.setQueue q { x with head := tail, fetched := x.fetched + n, waiting := x.waiting ++ cmds }).cbWrite (queueOwner q)
          (queueOff q + 0x14) 4 tail.toNat))

/-- The region takes the next event now (R56, R58): ELOG is 6 to 16, EENABLE is 1 (a value above 1 holds events as 0 does: log entry 88), EQP is not in the error state, and the slot is free. -/
def EventRoom (s : State) (o : Option Nat) : Prop :=
  let log := s.cbRead o 0x408 1
  6 ≤ log ∧ log ≤ 16 ∧ s.cbRead o 0x40A 1 = 1 ∧ s.eventPath o (s.cbRead o 0x409 1) = true ∧
  (BitVec.ofNat 32 (s.eventsOf o).next - BitVec.ofNat 32 (s.cbRead o 0x40C 4)).toNat < 2 ^ log

/-- The first held item written (R56 to R58, R63): over the connection EQP and under ERKEY, in the slot of its number at EBASE, its bytes
before PHASE and after it first, and then the PHASE of its pass; a mark as an EVENTS_LOST record; and its vector's message where it is
asked for, and where the vector's descriptor (64 of a tenant, one of the management channel) enables it. -/
def firstWritten (s : State) (o : Option Nat) (h : Held) (rest : List Held) : State :=
  let e := s.eventsOf o
  let log := s.cbRead o 0x408 1
  let bytes := match h with | .event b _ => b | .mark n => eventBytes 5 3 0 0 0 0xFF 0 0 n
  let phase : Byte := if e.next / 2 ^ log % 2 = 0 then 1#8 else 0#8
  let c : Conn := match o with | some t => .tenant t (s.cbRead o 0x409 1) | none => .mgmt (s.cbRead o 0x409 1)
  let rkey := s.cbRead o 0x410 4
  let slot := s.cbRead o 0x400 8 + 32 * (e.next % 2 ^ log)
  let s1 := (((s.setEvents o { next := e.next + 1, held := rest }).send (.rdmaWrite c rkey slot (bytes.take 0xF))).send
    (.rdmaWrite c rkey (slot + 0x10) (bytes.drop 0x10))).send (.rdmaWrite c rkey (slot + 0xF) [phase])
  match h with
  | .event _ (some v) =>
    let d := 0x800 + 32 * v
    if v < (if o.isSome then 64 else 1) ∧ s.cbRead o (d + 0xC) 4 % 2 = 1 then
      s1.send (.rdmaWrite c (s.cbRead o (d + 0x10) 4) (s.cbRead o d 8) (leBytes 4 (s.cbRead o (d + 8) 4)))
    else s1
  | _ => s1

/-- Held items written one after another, until none is held or the region does not take the next. -/
inductive Flushed (o : Option Nat) : State → State → Prop
  | stop (s : State) : ¬ EventRoom s o ∨ (s.eventsOf o).held = [] → Flushed o s s
  | write (s s' : State) (h : Held) (rest : List Held) : EventRoom s o → (s.eventsOf o).held = h :: rest →
      Flushed o (firstWritten s o h rest) s' → Flushed o s s'

/-- R56 to R58: held events are written one after another while the region takes them, and stay held otherwise. -/
def EventsWritten : Prop :=
  ∀ (s : State) (o : Option Nat), ∃ s', exec (.eventHeldWrite o) s = .next s' ∧ Flushed o s s' ∧
    ∀ h, EventRoom s o → (s.eventsOf o).held = [h] → s' = firstWritten s o h []

/-- R58: an event joins at most 4096 held; with 4096 held, those the region takes are written first, and one still beyond is dropped,
counted, and leaves at the end the mark of its run, which counts it. -/
def EventsHeld : Prop :=
  ∀ (s : State) (t : Nat) (x : Tenant) (bs : List Byte) (v : Option Nat), s.tenant? t = some x →
    (heldEvents x.events.held < 4096 → s.emit (some t) bs v =
      { s with tenants := aset s.tenants t { x with events := { x.events with held := x.events.held ++ [.event bs v] } } }) ∧
    ∀ (s0 : State) (y : Tenant), 4096 ≤ heldEvents x.events.held → Flushed (some t) s s0 → s0.tenant? t = some y →
      (heldEvents y.events.held < 4096 → s.emit (some t) bs v =
        { s0 with tenants := aset s0.tenants t { y with events := { y.events with held := y.events.held ++ [.event bs v] } } }) ∧
      (4096 ≤ heldEvents y.events.held → ∃ l, s.emit (some t) bs v =
        { s0 with tenants := aset s0.tenants t { y with events := { y.events with held := l }, evlost := y.evlost + 1 } } ∧
        (∀ a n, y.events.held = a ++ [.mark n] → l = a ++ [.mark (n + 1)]) ∧
        (∀ a b w, y.events.held = a ++ [.event b w] → l = y.events.held ++ [.mark 1]))

/-- R44, R47, R57, R59: a running command that completes is no longer running; the queue's timeline advances to the highest number up
to which all have completed; where it was the next, and none above has completed, its event joins those held. -/
def CommandEnds : Prop :=
  ∀ (s : State) (q : QRef) (seq status result : Nat) (x : Queue) (c : Cmd), s.queue? q = some x →
    s.runningCmd q seq = some c → keysRise x.finished = true → (∀ e ∈ x.finished, x.timeline < e.1 ∧ e.1 ≠ seq) → x.timeline < seq →
    let s' := s.endCommand q seq status result
    let res := if status = 0x0 ∨ status = 0x8 then result else 0
    (∃ x', s'.queue? q = some x' ∧ x'.running = x.running.filter (fun r => r.seq != seq) ∧ x'.waiting = x.waiting ∧
      x'.timeline = (finishNumber x.timeline (x.finished.map (·.1)) seq).1) ∧
    s'.mem = s.mem ∧ s'.teams = s.teams ∧ s'.launches = s.launches ∧ s'.clusters = s.clusters ∧
    (seq = x.timeline + 1 → x.finished = [] →
      let s1 := s.setQueue q { x with running := x.running.filter (fun r => r.seq != seq), timeline := seq, finished := [] }
      let tag := fieldAt c.bytes 4 4
      let vec := fieldAt c.bytes 2 1
      let intr := if fieldAt c.bytes 1 1 / 2 % 2 = 1 then some vec else none
      (vec = 0xFF → s' = s1) ∧
      (vec ≠ 0xFF → ∀ t i, q = .tenant t i → s' = s1.emit (some t) (eventBytes 1 0 status i tag vec 0 seq res) intr) ∧
      (vec ≠ 0xFF → q = .mgmt → s' = s1.emit none (eventBytes 1 3 status 0 tag vec 0 seq res) intr))

/-- A queue has a command that may start (R44): its header wait is satisfied, and with SERIAL the command before it has completed. -/
def MayStart (s : State) (q : QRef) (x : Queue) : Prop :=
  ∃ c rest, x.waiting = c :: rest ∧ s.waitMet q (fieldAt c.bytes 8 4) (fieldAt c.bytes 0x10 8) = true ∧
    (fieldAt c.bytes 1 1 % 2 = 1 → ∀ r ∈ x.running, r.seq + 1 ≠ c.seq)

/-- In turns after `last`, candidate `a` comes before candidate `b`: the lowest above `last` is next, or the lowest where none is. -/
def TurnOf (last : Option Nat) (a b : Nat) : Prop :=
  match last with
  | none => a < b
  | some n => (n < a ∧ a < b) ∨ (b ≤ n ∧ (n < a ∨ a < b))

/-- R44: which queue's command starts next: the management channel's first; of the tenants' queues one of the highest priority that
has any, where there is one; and there the tenants take turns, and the queues of a tenant do, each next one the lowest above the last,
wrapping round. -/
def StartOrder : Prop :=
  ∀ s : State, keysRise s.tenants = true → (∀ e ∈ s.tenants, keysRise e.2.queues = true) →
    (MayStart s .mgmt s.root.mgmtQueue → s.nextStart = some (.mgmt, 0)) ∧
    (∀ u z j w, s.tenant? u = some z → aget z.queues j = some w → MayStart s (.tenant u j) w → w.qprio ≤ 3 → s.nextStart ≠ none) ∧
    ∀ q p, s.nextStart = some (q, p) → q ≠ .mgmt → ¬ MayStart s .mgmt s.root.mgmtQueue ∧
      ∃ t i x y, q = .tenant t i ∧ s.tenant? t = some x ∧ aget x.queues i = some y ∧ MayStart s q y ∧ y.qprio = p ∧ p ≤ 3 ∧
        (∀ u z j w, s.tenant? u = some z → aget z.queues j = some w → MayStart s (.tenant u j) w → w.qprio ≤ 3 →
          w.qprio ≤ p ∧ (w.qprio = p → u ≠ t → TurnOf (aget s.root.lastTenant p) t u)) ∧
        ∀ j w, aget x.queues j = some w → MayStart s (.tenant t j) w → w.qprio = p → j ≠ i →
          TurnOf (aget s.root.lastQueue (16 * p + t)) i j

end Sys2Proof.Claims

/-- R42 to R44, R47, R56 to R59: queues, their notifications, the order of their commands, and events. What it takes from the choices of the
model is named in notes/assumptions/1.md, 56.md, 80.md, 88.md. -/
def Obligations.QueueProcessing : Prop :=
  EnableRule ∧ FetchRule ∧ EventsWritten ∧ EventsHeld ∧ CommandEnds ∧ StartOrder

/-! ## What the commands do -/

namespace Sys2Proof.Claims

/-- The command processor starts command `c`, of sequence number `seq`, of queue `q`, which comes next (R44): `s1` is the state in
which it runs. -/
def Begins (s : State) (q : QRef) (seq : Nat) (c : Cmd) (s1 : State) : Prop :=
  ∃ p x rest, s.nextStart = some (q, p) ∧ s.queue? q = some x ∧ x.waiting = c :: rest ∧ c.seq = seq ∧
    let s0 := s.setQueue q { x with started := seq, waiting := rest, running := x.running ++ [c] }
    s1 = match q with
      | .tenant t i => { s0 with root := { s0.root with lastTenant := aset s0.root.lastTenant p t,
                                                        lastQueue := aset s0.root.lastQueue (16 * p + t) i } }
      | .mgmt => s0

/-- The header of a record keeps R45 and R46. -/
def HeaderOk (s : State) (q : QRef) (bs : List Byte) : Prop :=
  fieldAt bs 1 1 < 4 ∧ (fieldAt bs 2 1 ≤ 63 ∨ fieldAt bs 2 1 = 0xFF) ∧ zeroAt bs 3 1 = true ∧ zeroAt bs 0xC 4 = true ∧
  (fieldAt bs 8 4 = 0xFFFFFFFF ∨ ∃ n, s.waitValue? q (fieldAt bs 8 4) = some n)

/-- The body of a record of a tenant's queue keeps the reserved bytes and the ranges of R48 that need no memory, by KIND. -/
def BodyOk (bs : List Byte) : Nat → Prop
  | 2 => zeroAt bs 0x30 16 = true ∧ ¬ (fieldAt bs 0x18 8 < fieldAt bs 0x20 8 + fieldAt bs 0x28 8 ∧
      fieldAt bs 0x20 8 < fieldAt bs 0x18 8 + fieldAt bs 0x28 8)
  | 3 => zeroAt bs 0x31 15 = true ∧ fieldAt bs 0x30 1 ∈ [1, 2, 4, 8] ∧ fieldAt bs 0x20 8 % fieldAt bs 0x30 1 = 0 ∧
      fieldAt bs 0x18 8 % fieldAt bs 0x30 1 = 0
  | 4 => zeroAt bs 0x1C 4 = true ∧ zeroAt bs 0x28 24 = true ∧ fieldAt bs 0x18 4 / 2 ^ 28 = 2 ∧ fieldAt bs 0x18 4 % 2 ^ 28 < 256
  | 6 => zeroAt bs 0x30 16 = true ∧ 1 ≤ fieldAt bs 0x20 4 ∧ fieldAt bs 0x20 4 ≤ 65536 ∧ fieldAt bs 0x24 4 < fieldAt bs 0x20 4
  | 7 => zeroAt bs 0x1C 4 = true ∧ zeroAt bs 0x28 24 = true
  | 8 => zeroAt bs 0x2C 20 = true ∧ fieldAt bs 0x28 4 < 2
  | 9 => zeroAt bs 0x1C 36 = true
  | _ => False

/-- The rows of the table whose step starts a command of a tenant's queue, with the KIND. -/
def commandKind : Instr → Option (QRef × Nat × Nat)
  | .copy q n => some (q, n, 2)
  | .fill q n => some (q, n, 3)
  | .signal q n => some (q, n, 4)
  | .commBuild q n => some (q, n, 6)
  | .commRebuild q n => some (q, n, 7)
  | .loadObject q n => some (q, n, 8)
  | .translate q n => some (q, n, 9)
  | _ => none

/-- R47: a command whose header or body breaks its rules completes with BAD_FIELD and takes no other effect. -/
def FieldsChecked : Prop :=
  ∀ (s s1 : State) (i : Instr) (t j seq kind : Nat) (c : Cmd), commandKind i = some (.tenant t j, seq, kind) →
    Begins s (.tenant t j) seq c s1 → fieldAt c.bytes 0 1 = kind →
    ¬ (HeaderOk s1 (.tenant t j) c.bytes ∧ BodyOk c.bytes kind) →
    exec i s = .next (s1.endCommand (.tenant t j) seq 0x2 0)

/-- R48, R63: a KIND that the queue does not take completes with BAD_KIND. -/
def KindsChecked : Prop :=
  ∀ (s s1 : State) (q : QRef) (seq : Nat) (c : Cmd), Begins s q seq c s1 →
    (∀ t j, q = .tenant t j → fieldAt c.bytes 0 1 = 0 ∨ 0xB ≤ fieldAt c.bytes 0 1) →
    (q = .mgmt → fieldAt c.bytes 0 1 ∉ [5, 0xA, 0xB, 0xC, 0xD]) →
    exec (.badKindCommand q seq) s = .next (s1.endCommand q seq 0x1 0)

/-- The communicator that COMM_BUILD makes (R66 to R68), from the member list, the routes, and the place of the command. -/
def builtComm (ms rs : List Byte) (n r j seq : Nat) : Comm :=
  let members := (List.range n).map fun i => (fieldAt ms (8 + 8 * i) 2, fieldAt ms (10 + 8 * i) 1)
  { coord := BitVec.ofNat 16 (fieldAt ms 8 2), ckey := BitVec.ofNat 32 (fieldAt ms 0 4), members := members, rank := r,
    digest := sha512 ms, routes := (List.range n).map fun i => (fieldAt rs (16 * i) 1, fieldAt rs (16 * i + 2) 6),
    phase := .building, queue := j, cmd := seq, seq := 0, index := 0, broken := none, failed := none, failures := [], timeline := 0,
    finished := [], insts := [], digests := if r = 0 then [(0, sha512 ms)] else [], posts := [], rebuilt := [], asked := 0, asks := [] }

/-- The member that sends BUILD or REBUILD to the coordinator remembers which it is, by its sequence number plus 1 (log entry 79). -/
def asking (s : State) (t : Nat) (c : Comm) : Comm := { c with asked := (flowOf s t c 0).sendPsn.toNat + 1 }

/-- The flows to other ranks of a communicator with a new route table (R68, R80). -/
def rerouted (s : State) (t : Nat) (c : Comm) (ranks : List Nat) : State := ranks.foldl (fun s r => withFlow s (flowOf s t c r)) s

/-- A member list keeps R66: zero where the table says so, and tenant numbers of 0 to 15. -/
def MembersKept (ms : List Byte) (n : Nat) : Prop :=
  zeroAt ms 4 4 = true ∧ ∀ i, i < n → fieldAt ms (10 + 8 * i) 1 < 16 ∧ zeroAt ms (11 + 8 * i) 5 = true

/-- A route table keeps R68: ports 0 to 15, zero where the table says so, and the entry of the own rank all zero. -/
def RoutesKept (rs : List Byte) (n r : Nat) : Prop :=
  ∀ i, i < n → (i = r → zeroAt rs (16 * i) 16 = true) ∧
    (i ≠ r → fieldAt rs (16 * i) 1 < 16 ∧ zeroAt rs (16 * i + 1) 1 = true ∧ zeroAt rs (16 * i + 8) 8 = true)

/-- What a command of a tenant's queue, with a header and a body that keep their rules, does as it starts in the state `s1`, for the
tenant `x` (R48, R53, R66 to R68, R80, R287, R289). -/
inductive CommandForm (s1 : State) (t j seq : Nat) (c : Cmd) (x : Tenant) : Instr → State → Prop
  | copy (a b : List (Nat × Nat)) : s1.rootRange x 1#4 (fieldAt c.bytes 0x18 8) (fieldAt c.bytes 0x28 8) = some a →
      s1.rootRange x 2#4 (fieldAt c.bytes 0x20 8) (fieldAt c.bytes 0x28 8) = some b →
      CommandForm s1 t j seq c x (.copy (.tenant t j) seq) s1
  | copyOutside : s1.rootRange x 1#4 (fieldAt c.bytes 0x18 8) (fieldAt c.bytes 0x28 8) = none ∨
      s1.rootRange x 2#4 (fieldAt c.bytes 0x20 8) (fieldAt c.bytes 0x28 8) = none →
      CommandForm s1 t j seq c x (.copy (.tenant t j) seq) (s1.endCommand (.tenant t j) seq 0x3 0)
  | fill (a : List (Nat × Nat)) : s1.rootRange x 2#4 (fieldAt c.bytes 0x18 8) (fieldAt c.bytes 0x20 8) = some a →
      CommandForm s1 t j seq c x (.fill (.tenant t j) seq) s1
  | fillOutside : s1.rootRange x 2#4 (fieldAt c.bytes 0x18 8) (fieldAt c.bytes 0x20 8) = none →
      CommandForm s1 t j seq c x (.fill (.tenant t j) seq) (s1.endCommand (.tenant t j) seq 0x3 0)
  | signal : (aget x.signals (fieldAt c.bytes 0x18 4 % 2 ^ 28)).getD 0 ≤ fieldAt c.bytes 0x20 8 →
      CommandForm s1 t j seq c x (.signal (.tenant t j) seq)
        (let x1 : Tenant := { x with signals := aset x.signals (fieldAt c.bytes 0x18 4 % 2 ^ 28) (fieldAt c.bytes 0x20 8) }
         let s2 := { s1 with tenants := aset s1.tenants t x1 }
         s2.endCommand (.tenant t j) seq 0x0 0)
  | signalLower : fieldAt c.bytes 0x20 8 < (aget x.signals (fieldAt c.bytes 0x18 4 % 2 ^ 28)).getD 0 →
      CommandForm s1 t j seq c x (.signal (.tenant t j) seq) (s1.endCommand (.tenant t j) seq 0xE 0)
  | build (ms rs : List Byte) (n r ci : Nat) : n = fieldAt c.bytes 0x20 4 → r = fieldAt c.bytes 0x24 4 →
      s1.ownRead (some t) 1#4 (fieldAt c.bytes 0x18 8) (8 + 8 * n) = some ms →
      s1.ownRead (some t) 1#4 (fieldAt c.bytes 0x28 8) (16 * n) = some rs → MembersKept ms n → RoutesKept rs n r →
      (builtComm ms rs n r j seq).members[r]? = some (s1.root.devid.toNat, t) →
      (∀ e ∈ x.comms, ¬ (e.2.coord = (builtComm ms rs n r j seq).coord ∧ e.2.ckey = (builtComm ms rs n r j seq).ckey)) →
      x.comms.length < x.quota.commq → aget x.comms ci = none → (∀ k, k < ci → (aget x.comms k).isSome = true) →
      ci ≤ x.comms.length →
      CommandForm s1 t j seq c x (.commBuild (.tenant t j) seq)
        (let m := builtComm ms rs n r j seq
         let held (m : Comm) : State := { s1 with tenants := aset s1.tenants t { x with comms := aset x.comms ci m } }
         if r = 0 then (held m).checkBuild t ci else (held (asking s1 t m)).sendFrame t ci 0 6 0 0 (leBytes 64 (sha512 ms).toNat))
  | buildQuota (ms rs : List Byte) (n r : Nat) : n = fieldAt c.bytes 0x20 4 → r = fieldAt c.bytes 0x24 4 →
      s1.ownRead (some t) 1#4 (fieldAt c.bytes 0x18 8) (8 + 8 * n) = some ms →
      s1.ownRead (some t) 1#4 (fieldAt c.bytes 0x28 8) (16 * n) = some rs → MembersKept ms n → RoutesKept rs n r →
      (builtComm ms rs n r j seq).members[r]? = some (s1.root.devid.toNat, t) →
      (∀ e ∈ x.comms, ¬ (e.2.coord = (builtComm ms rs n r j seq).coord ∧ e.2.ckey = (builtComm ms rs n r j seq).ckey)) →
      x.quota.commq ≤ x.comms.length →
      CommandForm s1 t j seq c x (.commBuild (.tenant t j) seq) (s1.endCommand (.tenant t j) seq 0x4 0)
  | buildField (ms rs : List Byte) (n r : Nat) : n = fieldAt c.bytes 0x20 4 → r = fieldAt c.bytes 0x24 4 →
      s1.ownRead (some t) 1#4 (fieldAt c.bytes 0x18 8) (8 + 8 * n) = some ms →
      s1.ownRead (some t) 1#4 (fieldAt c.bytes 0x28 8) (16 * n) = some rs →
      ¬ MembersKept ms n ∨ ¬ RoutesKept rs n r ∨ (builtComm ms rs n r j seq).members[r]? ≠ some (s1.root.devid.toNat, t) ∨
        (∃ e ∈ x.comms, e.2.coord = (builtComm ms rs n r j seq).coord ∧ e.2.ckey = (builtComm ms rs n r j seq).ckey) →
      CommandForm s1 t j seq c x (.commBuild (.tenant t j) seq) (s1.endCommand (.tenant t j) seq 0x2 0)
  | buildOutside (n : Nat) : n = fieldAt c.bytes 0x20 4 →
      s1.ownRead (some t) 1#4 (fieldAt c.bytes 0x18 8) (8 + 8 * n) = none ∨
        s1.ownRead (some t) 1#4 (fieldAt c.bytes 0x28 8) (16 * n) = none →
      CommandForm s1 t j seq c x (.commBuild (.tenant t j) seq) (s1.endCommand (.tenant t j) seq 0x3 0)
  | rebuild (m : Comm) (rs : List Byte) : x.heldComm (fieldAt c.bytes 0x18 4) = some m → m.broken.isSome = true → m.phase = .ready →
      s1.ownRead (some t) 1#4 (fieldAt c.bytes 0x20 8) (16 * m.members.length) = some rs →
      RoutesKept rs m.members.length m.rank →
      (∀ i, i < m.members.length → i ≠ m.rank → s1.root.fabup.getLsbD (fieldAt rs (16 * i) 1) = true) →
      CommandForm s1 t j seq c x (.commRebuild (.tenant t j) seq)
        (let ci := fieldAt c.bytes 0x18 4 % 2 ^ 28
         let m1 : Comm :=
           { m with routes := (List.range m.members.length).map fun i => (fieldAt rs (16 * i) 1, fieldAt rs (16 * i + 2) 6),
                    phase := .rebuilding, queue := j, cmd := seq,
                    rebuilt := if m.rank = 0 then 0 :: m.rebuilt.filter (· != 0) else m.rebuilt }
         let x1 := { x with comms := aset x.comms ci m1 }
         let s2 := rerouted { s1 with tenants := aset s1.tenants t x1 } t { m with routes := m1.routes }
           ((List.range m.members.length).filter (· != m.rank))
         if m.rank = 0 then s2.checkRebuild t ci
         else { s2 with tenants := aset s2.tenants t { x1 with comms := aset x1.comms ci (asking s2 t m1) } }.sendFrame t ci 0 7 0 0 [])
  | rebuildDown (m : Comm) (rs : List Byte) (i : Nat) : x.heldComm (fieldAt c.bytes 0x18 4) = some m → m.broken.isSome = true →
      m.phase = .ready → s1.ownRead (some t) 1#4 (fieldAt c.bytes 0x20 8) (16 * m.members.length) = some rs →
      RoutesKept rs m.members.length m.rank → i < m.members.length → i ≠ m.rank →
      s1.root.fabup.getLsbD (fieldAt rs (16 * i) 1) = false →
      CommandForm s1 t j seq c x (.commRebuild (.tenant t j) seq) (s1.endCommand (.tenant t j) seq 0x13 0)
  | rebuildUnbroken (m : Comm) : x.heldComm (fieldAt c.bytes 0x18 4) = some m → m.broken = none →
      CommandForm s1 t j seq c x (.commRebuild (.tenant t j) seq) (s1.endCommand (.tenant t j) seq 0x2 0)
  | rebuildNone : x.heldComm (fieldAt c.bytes 0x18 4) = none →
      CommandForm s1 t j seq c x (.commRebuild (.tenant t j) seq) (s1.endCommand (.tenant t j) seq 0x2 0)
  | rebuildOutside (m : Comm) : x.heldComm (fieldAt c.bytes 0x18 4) = some m → m.broken.isSome = true → m.phase = .ready →
      s1.ownRead (some t) 1#4 (fieldAt c.bytes 0x20 8) (16 * m.members.length) = none →
      CommandForm s1 t j seq c x (.commRebuild (.tenant t j) seq) (s1.endCommand (.tenant t j) seq 0x3 0)
  | rebuildField (m : Comm) (rs : List Byte) : x.heldComm (fieldAt c.bytes 0x18 4) = some m → m.broken.isSome = true → m.phase = .ready →
      s1.ownRead (some t) 1#4 (fieldAt c.bytes 0x20 8) (16 * m.members.length) = some rs → ¬ RoutesKept rs m.members.length m.rank →
      CommandForm s1 t j seq c x (.commRebuild (.tenant t j) seq) (s1.endCommand (.tenant t j) seq 0x2 0)
  | load (bs : List Byte) (y : Queue) : s1.ownRead (some t) 1#4 (fieldAt c.bytes 0x18 8) (fieldAt c.bytes 0x20 8) = some bs →
      aget x.queues j = some y →
      CommandForm s1 t j seq c x (.loadObject (.tenant t j) seq)
        (s1.setQueue (.tenant t j)
          { y with running := y.running.map fun r => if r.seq == seq then { r with bytes := r.bytes ++ bs } else r })
  | loadOutside : s1.ownRead (some t) 1#4 (fieldAt c.bytes 0x18 8) (fieldAt c.bytes 0x20 8) = none →
      CommandForm s1 t j seq c x (.loadObject (.tenant t j) seq) (s1.endCommand (.tenant t j) seq 0x3 0)
  | translateHit (o : CodeObj) (e : TCache) : aget x.objects (fieldAt c.bytes 0x18 4) = some o → o.sarx ≠ [] → e ∈ x.tcache →
      e.digest = sha512 o.sarx →
      CommandForm s1 t j seq c x (.translate (.tenant t j) seq)
        (let x1 : Tenant :=
           { x with tcache := x.tcache.map fun f => if f.digest = sha512 o.sarx then { f with used := x.cacheClock } else f }
         let s2 := { s1 with tenants := aset s1.tenants t x1 }
         s2.endCommand (.tenant t j) seq 0x0 0)
  | translate (o : CodeObj) : aget x.objects (fieldAt c.bytes 0x18 4) = some o → o.sarx ≠ [] →
      (∀ e ∈ x.tcache, e.digest ≠ sha512 o.sarx) → CommandForm s1 t j seq c x (.translate (.tenant t j) seq) s1
  | translateObject : aget x.objects (fieldAt c.bytes 0x18 4) = none →
      CommandForm s1 t j seq c x (.translate (.tenant t j) seq) (s1.endCommand (.tenant t j) seq 0x9 0)
  | translateNone (o : CodeObj) : aget x.objects (fieldAt c.bytes 0x18 4) = some o → o.sarx = [] →
      CommandForm s1 t j seq c x (.translate (.tenant t j) seq) (s1.endCommand (.tenant t j) seq 0xB 0)

/-- R48, R67, R68, R80, R287, R289: what each of these commands does as it starts. A COPY, FILL, LOAD_OBJECT or TRANSLATE whose work is
still to be done goes on running. -/
def CommandStarts : Prop :=
  ∀ (s s1 s2 : State) (i : Instr) (t j seq kind : Nat) (c : Cmd) (x : Tenant), commandKind i = some (.tenant t j, seq, kind) →
    Begins s (.tenant t j) seq c s1 → fieldAt c.bytes 0 1 = kind → HeaderOk s1 (.tenant t j) c.bytes → BodyOk c.bytes kind →
    s1.tenant? t = some x → CommandForm s1 t j seq c x i s2 → exec i s = .next s2

/-- The three waits that a WAIT names (R48). -/
def namedWaits (bs : List Byte) : List (Nat × Nat) :=
  [(fieldAt bs 0x18 4, fieldAt bs 0x28 8), (fieldAt bs 0x1C 4, fieldAt bs 0x30 8), (fieldAt bs 0x20 4, fieldAt bs 0x38 8)]

/-- R47, R48, R63: a WAIT whose waits are all satisfied completes, as it starts or later; until then it runs on. One that names no
timeline, nor none, gives BAD_FIELD. -/
def WaitCommand : Prop :=
  ∀ (s s1 : State) (q : QRef) (seq : Nat) (c : Cmd), fieldAt c.bytes 0 1 = 5 →
    let ok (s : State) : Prop := HeaderOk s q c.bytes ∧ zeroAt c.bytes 0x24 4 = true ∧
      ∀ w ∈ namedWaits c.bytes, w.1 = 0xFFFFFFFF ∨ ∃ n, s.waitValue? q w.1 = some n
    let met (s : State) : Prop := ∀ w ∈ namedWaits c.bytes, ∀ n, s.waitValue? q w.1 = some n → w.1 ≠ 0xFFFFFFFF → w.2 ≤ n
    (Begins s q seq c s1 → s.runningCmd q seq = none →
      (ok s1 → met s1 → exec (.wait q seq) s = .next (s1.endCommand q seq 0x0 0)) ∧
      (ok s1 → ¬ met s1 → exec (.wait q seq) s = .next s1) ∧
      (¬ ok s1 → exec (.wait q seq) s = .next (s1.endCommand q seq 0x2 0))) ∧
    (s.runningCmd q seq = some c →
      (met s → exec (.wait q seq) s = .next (s.endCommand q seq 0x0 0)) ∧ (¬ met s → exec (.wait q seq) s = .next s))

/-- R47, R48: a COPY that is running, whose ranges are all there, copies its bytes between the home slices and completes with OK; a
FILL writes the low WIDTH bytes of PATTERN over its range and does. -/
def CopyAndFillEnd : Prop :=
  ∀ (s : State) (t j seq : Nat) (x : Tenant) (c : Cmd), s.tenant? t = some x → s.runningCmd (.tenant t j) seq = some c →
    (fieldAt c.bytes 0 1 = 2 → ∀ f g : Nat → Nat,
      let n := fieldAt c.bytes 0x28 8
      (∀ i, i < n → stageTwo (s.rootWindows x) (fieldAt c.bytes 0x18 8 + i) 1#4 = .ok (f i)) →
      (∀ i, i < n → stageTwo (s.rootWindows x) (fieldAt c.bytes 0x20 8 + i) 2#4 = .ok (g i)) →
      (∀ i k, i < n → k < n → f i ≠ g k) →
      exec (.commandComplete (.tenant t j) seq) s = .next
        (({ s with free := s.free + 1 }.homeWrite ((List.range n).map fun i => (g i, memGet s.mem (f i)))).endCommand (.tenant t j)
          seq 0x0 0)) ∧
    (fieldAt c.bytes 0 1 = 3 → ∀ l, fieldAt c.bytes 0x30 1 ≠ 0 → fieldAt c.bytes 0x20 8 % fieldAt c.bytes 0x30 1 = 0 →
      s.rootRange x 2#4 (fieldAt c.bytes 0x18 8) (fieldAt c.bytes 0x20 8) = some l →
      exec (.commandComplete (.tenant t j) seq) s = .next
        ((s.homeWrite ((pieceAddrs l).zip ((List.range (fieldAt c.bytes 0x20 8)).map fun i =>
          BitVec.ofNat 8 (fieldAt c.bytes 0x28 8 / 256 ^ (i % fieldAt c.bytes 0x30 1))))).endCommand (.tenant t j) seq 0x0 0))

/-- R287, R289: a LOAD_OBJECT or a TRANSLATE that is running: the loader judges the bytes it read, where no write came between, by its
steps in order; a translation that the cache does not hold is made, or refused. -/
def ObjectsEnd : Prop :=
  ∀ (s : State) (t j seq : Nat) (x : Tenant) (c : Cmd), s.tenant? t = some x → s.runningCmd (.tenant t j) seq = some c →
    (fieldAt c.bytes 0 1 = 8 → 64 ≤ c.bytes.length →
      s.ownRead (some t) 1#4 (fieldAt c.bytes 0x18 8) (c.bytes.drop 64).length = some (c.bytes.drop 64) →
      let r := { s with free := s.free + 1 }.loadBytesOf t (c.bytes.drop 64) (fieldAt c.bytes 0x28 4)
      exec (.commandComplete (.tenant t j) seq) s = .next (r.1.endCommand (.tenant t j) seq r.2.1 r.2.2)) ∧
    (fieldAt c.bytes 0 1 = 9 → ∀ o, aget x.objects (fieldAt c.bytes 0x18 4) = some o →
      (∀ b s1, s.translated t x o.sarx = .ok (b, s1) → exec (.commandComplete (.tenant t j) seq) s =
        .next (s1.endCommand (.tenant t j) seq 0x0 0)) ∧
      (∀ e s1, s.translated t x o.sarx = .error (e, s1) → exec (.commandComplete (.tenant t j) seq) s =
        .next (s1.endCommand (.tenant t j) seq e 0)))

end Sys2Proof.Claims

/-! ### Objects -/

namespace Sys2Proof.Claims

/-- The offset of entry `i` of the variant table (R281, R282). -/
def variantAt (bs : List Byte) (i : Nat) : Nat := fieldAt bs 0x10 8 + 64 * i

/-- The offset of entry `j` of the section table of variant `i` (R282, R283). -/
def sectionAt (bs : List Byte) (i j : Nat) : Nat := fieldAt bs (variantAt bs i + 0x18) 8 + 32 * j

/-- Variant `i` has a section of a TYPE, at OFFSET `o` with SIZE `n` (R283). -/
def HasSection (bs : List Byte) (i typ o n : Nat) : Prop :=
  ∃ j, j < fieldAt bs (variantAt bs i + 2) 2 ∧ typ = fieldAt bs (sectionAt bs i j) 4 ∧ o = fieldAt bs (sectionAt bs i j + 8) 8 ∧
    n = fieldAt bs (sectionAt bs i j + 0x10) 8

/-- Section `j` of variant `i` keeps R283, and lies within the file at a multiple of its alignment (R287). -/
def SectionKept (bs : List Byte) (i j : Nat) : Prop :=
  let e := sectionAt bs i j
  let typ := fieldAt bs e 4
  1 ≤ typ ∧ typ ≤ 10 ∧ zeroAt bs (e + 4) 4 = true ∧ zeroAt bs (e + 0x1C) 4 = true ∧ fieldAt bs (e + 0x18) 4 ≤ 16 ∧
  (typ = 6 → fieldAt bs (e + 8) 8 = 0) ∧
  (typ ≠ 6 → fieldAt bs (e + 8) 8 + fieldAt bs (e + 0x10) 8 ≤ bs.length ∧ fieldAt bs (e + 8) 8 % 2 ^ fieldAt bs (e + 0x18) 4 = 0) ∧
  (typ = 1 → fieldAt bs (e + 0x10) 8 % 4 = 0) ∧ (typ = 2 → fieldAt bs (e + 0x10) 8 % 12 = 0) ∧ (typ = 3 → fieldAt bs (e + 0x10) 8 % 8 = 0)

/-- The symbols of variant `i`, in .symtab at `so` of size `sn`, with .strtab at `st` of size `tn`, keep R284: each NAME ends within .strtab,
none is undefined, each lies in its section, and the global ones come first. -/
def SymbolsKept (bs : List Byte) (i so sn st tn : Nat) : Prop :=
  (∀ k, k < sn / 24 → let e := so + 24 * k
    (∃ m, fieldAt bs e 4 ≤ m ∧ m < tn ∧ bs[st + m]? = some 0#8) ∧ fieldAt bs (e + 4) 1 ≤ 3 ∧ fieldAt bs (e + 5) 1 ≤ 1 ∧
    ∃ o n, HasSection bs i (fieldAt bs (e + 6) 2) o n ∧ fieldAt bs (e + 8) 8 + fieldAt bs (e + 16) 8 ≤ n) ∧
  ∀ k l, k < l → l < sn / 24 → fieldAt bs (so + 24 * l + 5) 1 = 1 → fieldAt bs (so + 24 * k + 5) 1 = 1

/-- The names of the global symbols of a .symtab, in their order (R284). -/
def globalNames (bs : List Byte) (so sn st : Nat) : List (List Byte) :=
  ((List.range (sn / 24)).filter fun k => fieldAt bs (so + 24 * k + 5) 1 == 1).map fun k =>
    (bs.drop (st + fieldAt bs (so + 24 * k) 4)).takeWhile (· != 0#8)

/-- The relocations of variant `i`, in .reloc at `ro` of size `rn`, keep R286; `syms` is how many symbols there are. -/
def RelocationsKept (bs : List Byte) (i ro rn syms : Nat) : Prop :=
  ∀ k, k < rn / 24 → let e := ro + 24 * k
    (fieldAt bs (e + 8) 2 = 4 ∨ fieldAt bs (e + 8) 2 = 5) ∧ fieldAt bs (e + 10) 2 = 1 ∧ fieldAt bs (e + 12) 4 < syms ∧
    fieldAt bs e 8 % 8 = 0 ∧ ∃ o n, HasSection bs i (fieldAt bs (e + 8) 2) o n ∧ fieldAt bs e 8 + 8 ≤ n

/-- Variant `i` keeps R282 to R286. -/
def VariantKept (bs : List Byte) (i : Nat) : Prop :=
  let e := variantAt bs i
  let nsec := fieldAt bs (e + 2) 2
  1 ≤ fieldAt bs e 1 ∧ fieldAt bs e 1 ≤ 4 ∧ zeroAt bs (e + 1) 1 = true ∧ zeroAt bs (e + 4) 4 = true ∧ zeroAt bs (e + 0x20) 32 = true ∧
  1 ≤ nsec ∧ nsec ≤ 10 ∧ fieldAt bs (e + 0x18) 8 + 32 * nsec ≤ bs.length ∧ (∀ j, j < nsec → SectionKept bs i j) ∧
  (∀ j k, j < k → k < nsec → fieldAt bs (sectionAt bs i j) 4 ≠ fieldAt bs (sectionAt bs i k) 4) ∧
  (∀ typ ∈ [1, 2, 3, 7, 9, 10], ∃ o n, HasSection bs i typ o n) ∧
  ∀ so sn st tn, HasSection bs i 9 so sn → HasSection bs i 10 st tn → SymbolsKept bs i so sn st tn ∧
    ∀ ro rn, HasSection bs i 8 ro rn → RelocationsKept bs i ro rn (sn / 24)

/-- The parts of a file that share no byte, as offset and size (R287). -/
def fileParts (bs : List Byte) : List (Nat × Nat) :=
  [(0, 0x40), (fieldAt bs 0x10 8, 64 * fieldAt bs 8 4), (fieldAt bs 0x18 8, fieldAt bs 0x20 8), (fieldAt bs 0x28 8, fieldAt bs 0x30 8)] ++
  ((List.range (fieldAt bs 8 4)).map fun i =>
    let nsec := fieldAt bs (variantAt bs i + 2) 2
    (fieldAt bs (variantAt bs i + 0x18) 8, 32 * nsec) :: ((List.range nsec).filter fun j => fieldAt bs (sectionAt bs i j) 4 != 6).map fun j =>
      (fieldAt bs (sectionAt bs i j + 8) 8, fieldAt bs (sectionAt bs i j + 0x10) 8)).flatten

/-- Step 1 of R287: the structure of an object file. -/
structure ObjectKept (bs : List Byte) : Prop where
  header   : 0x40 ≤ bs.length ∧ fieldAt bs 0 4 = 0x014F5647 ∧ fieldAt bs 4 2 = 1 ∧ zeroAt bs 6 2 = true ∧ fieldAt bs 8 4 ≤ 15 ∧
    zeroAt bs 0xC 4 = true ∧ fieldAt bs 0x38 8 = bs.length ∧ fieldAt bs 0x10 8 + 64 * fieldAt bs 8 4 ≤ bs.length
  sarx     : fieldAt bs 0x18 8 + fieldAt bs 0x20 8 ≤ bs.length ∧ (fieldAt bs 0x18 8 = 0 ↔ fieldAt bs 0x20 8 = 0)
  sign     : fieldAt bs 0x28 8 = 0 ∧ fieldAt bs 0x30 8 = 0 ∨ fieldAt bs 0x30 8 = 512 ∧ fieldAt bs 0x28 8 + 512 = bs.length
  variants : ∀ i, i < fieldAt bs 8 4 → VariantKept bs i
  apart    : (fileParts bs).Pairwise fun a b => a.2 = 0 ∨ b.2 = 0 ∨ a.1 + a.2 ≤ b.1 ∨ b.1 + b.2 ≤ a.1
  globals  : ∀ i k so sn st tn so' sn' st' tn', i < fieldAt bs 8 4 → k < fieldAt bs 8 4 → HasSection bs i 9 so sn → HasSection bs i 10 st tn →
    HasSection bs k 9 so' sn' → HasSection bs k 10 st' tn' → globalNames bs so sn st = globalNames bs so' sn' st'

/-- Step 2 of R287: a signed object verifies under the tenant's key, and an unsigned one is not asked to. -/
def SignatureKept (bs : List Byte) (lflags : Nat) (key : Option Nat) : Prop :=
  (fieldAt bs 0x30 8 = 512 → ∃ k, key = some k ∧ pssVerify k 65537 (bs.take (fieldAt bs 0x28 8)) (bs.drop (fieldAt bs 0x28 8)) = true) ∧
  (fieldAt bs 0x30 8 ≠ 512 → lflags % 2 = 0)

/-- Variant `i` is eligible (R287). -/
def EligibleAt (bs : List Byte) (i : Nat) : Prop :=
  fieldAt bs (variantAt bs i) 1 ≤ (featureWord 0).toNat % 256 ∧
  BitVec.ofNat 64 (fieldAt bs (variantAt bs i + 8) 8) &&& ~~~(featureWord 1) = 0#64 ∧
  BitVec.ofNat 64 (fieldAt bs (variantAt bs i + 0x10) 8) &&& ~~~(featureWord 2) = 0#64

/-- Step 3 of R287: the eligible variant of the highest GEN, and of those the earliest. -/
def Chosen (bs : List Byte) (i : Nat) : Prop :=
  i < fieldAt bs 8 4 ∧ EligibleAt bs i ∧ ∀ k, k < fieldAt bs 8 4 → EligibleAt bs k →
    fieldAt bs (variantAt bs k) 1 ≤ fieldAt bs (variantAt bs i) 1 ∧
    (fieldAt bs (variantAt bs k) 1 = fieldAt bs (variantAt bs i) 1 → i ≤ k)

/-- The sections of variant `i` from its `j`th on, `n` of them, laid out from address `a` as TYPE, address and SIZE, and where the last ends:
each at the lowest multiple of its alignment (R287). -/
inductive Laid (bs : List Byte) (i : Nat) : Nat → Nat → Nat → List (Nat × Nat × Nat) → Nat → Prop
  | nil (j a : Nat) : Laid bs i j 0 a [] a
  | cons (j n a b e : Nat) (l : List (Nat × Nat × Nat)) : a ≤ b → b % 2 ^ fieldAt bs (sectionAt bs i j + 0x18) 4 = 0 →
      b < a + 2 ^ fieldAt bs (sectionAt bs i j + 0x18) 4 → Laid bs i (j + 1) n (b + fieldAt bs (sectionAt bs i j + 0x10) 8) l e →
      Laid bs i j (n + 1) a ((fieldAt bs (sectionAt bs i j) 4, b, fieldAt bs (sectionAt bs i j + 0x10) 8) :: l) e

/-- Byte `k` of the section of a TYPE and OFFSET that is no word of a relocation: zero in .bss, else the file's (R287). -/
def plainByte (bs : List Byte) (typ o k : Nat) : Byte := if typ = 6 then 0#8 else bs.getD (o + k) 0#8

/-- Entry `m` of .reloc is the last that names byte `k` of the section of a TYPE (R286). -/
def LastReloc (bs : List Byte) (ro rn typ k m : Nat) : Prop :=
  let Names (m : Nat) : Prop := fieldAt bs (ro + 24 * m + 8) 2 = typ ∧ fieldAt bs (ro + 24 * m) 8 ≤ k ∧ k < fieldAt bs (ro + 24 * m) 8 + 8
  m < rn / 24 ∧ Names m ∧ ∀ m', m < m' → m' < rn / 24 → ¬ Names m'

/-- The state once variant `i` of the file `bs` has been placed for tenant `x` (R287): its sections at `pl`, up to `e`, with their relocations
applied, and the tenant with the object of a new handle. -/
structure Loaded (s : State) (t : Nat) (x : Tenant) (bs : List Byte) (i : Nat) (pl : List (Nat × Nat × Nat)) (e : Nat) (o : CodeObj)
    (s' : State) : Prop where
  object  : o.sections = pl ∧ ∃ bo bn so sn st tn, HasSection bs i 3 bo bn ∧ HasSection bs i 9 so sn ∧ HasSection bs i 10 st tn ∧
    o.btab = (bs.drop bo).take bn ∧ o.syms = (List.range (sn / 24)).map fun k =>
      { bind := fieldAt bs (so + 24 * k + 5) 1, kind := fieldAt bs (so + 24 * k + 4) 1, section_ := fieldAt bs (so + 24 * k + 6) 2,
        value := fieldAt bs (so + 24 * k + 8) 8, size := fieldAt bs (so + 24 * k + 16) 8,
        name := (bs.drop (st + fieldAt bs (so + 24 * k) 4)).takeWhile (· != 0#8) }
  rest    :
    let y : Tenant := { x with objects := aset x.objects x.objects.length o, objTop := e, tlb := if x.vendorMap then [] else x.tlb }
    s' = { s with mem := s'.mem, watch := s'.watch, tenants := aset s.tenants t y }
  bytes   : ∀ f : Nat → Nat, s.mem.wf = true → x.objBase ≤ x.objTop →
    (∀ k, k < e - x.objBase → stageTwo (s.rootWindows x) (x.objBase + k) 0#4 = .ok (f k)) →
    (∀ k l, k < e - x.objBase → l < e - x.objBase → f k = f l → k = l) →
    (∀ v ∈ s.rootWindows x, ∀ w ∈ s.rootWindows x, ∀ a, v.wstart ≤ a → a < v.wend → w.wstart ≤ a → a < w.wend → v = w) →
    (∀ typ a n off, (typ, a, n) ∈ pl → HasSection bs i typ off n → ∀ k, k < n →
      ((∀ ro rn m, HasSection bs i 8 ro rn → ¬ LastReloc bs ro rn typ k m) →
        memGet s'.mem (f (a - x.objBase + k)) = plainByte bs typ off k) ∧
      ∀ ro rn m so sn sec b, HasSection bs i 8 ro rn → LastReloc bs ro rn typ k m → HasSection bs i 9 so sn →
        let y := so + 24 * fieldAt bs (ro + 24 * m + 12) 4
        sec ∈ pl → sec.1 = fieldAt bs (y + 6) 2 → b = sec.2.1 + fieldAt bs (y + 8) 8 + fieldAt bs (ro + 24 * m + 16) 8 →
        memGet s'.mem (f (a - x.objBase + k)) = (leBytes 8 b).getD (k - fieldAt bs (ro + 24 * m) 8) 0#8) ∧
    ∀ b, (∀ typ a n k, (typ, a, n) ∈ pl → k < n → b ≠ f (a - x.objBase + k)) → memGet s'.mem b = memGet s.mem b

/-- Step 5 of R287: what placing variant `i` of the file `bs` answers, for an object of generation `gen` and the digests given: QUOTA for a
tenant of 1024 handles, an area beyond TCACHEQ or beyond its windows; else the handle, with the object placed. -/
def PlacesAt (s : State) (t : Nat) (x : Tenant) (bs : List Byte) (i gen : Nat) (digest : BitVec 512) (module : Option (BitVec 512))
    (sarx : List Byte) (r : State × Nat × Nat) : Prop :=
  ∀ a pl e, x.objTop ≤ a → a % 65536 = 0 → a < x.objTop + 65536 → Laid bs i 0 (fieldAt bs (variantAt bs i + 2) 2) a pl e →
    let full := 1024 ≤ x.objects.length ∨
      x.quota.tcacheq < (x.objTop - x.objBase) + (x.tcache.map (·.size)).sum + (e - x.objTop) ∨
      s.rootRange x 0#4 x.objBase (e - x.objBase) = none
    (full → r = (s, 0x4, 0)) ∧
    (¬ full → ∃ o s', r = (s', 0x0, x.objects.length + 2 ^ 16 * gen) ∧ o.gen = gen ∧ o.digest = digest ∧ o.module = module ∧ o.sarx = sarx ∧
      Loaded s t x bs i pl e o s')

/-- R287: the loader's steps in their order: BAD_OBJECT, SIGNATURE, the choice of a variant, NO_VARIANT where there is none and no module, the
module's translation where there is one, and the placement. -/
def LoaderSteps : Prop :=
  ∀ (s : State) (t : Nat) (bs : List Byte) (lflags : Nat) (x : Tenant), s.tenant? t = some x →
    let r := s.loadBytesOf t bs lflags
    let digest := sha512 (if fieldAt bs 0x30 8 = 512 then bs.take (fieldAt bs 0x28 8) else bs)
    let m := (bs.drop (fieldAt bs 0x18 8)).take (fieldAt bs 0x20 8)
    let none_ := ∀ i, i < fieldAt bs 8 4 → ¬ EligibleAt bs i
    (¬ ObjectKept bs → r = (s, 0x9, 0)) ∧
    (ObjectKept bs → ¬ SignatureKept bs lflags x.signKey → r = (s, 0xA, 0)) ∧
    (ObjectKept bs → SignatureKept bs lflags x.signKey →
      (∀ i, Chosen bs i → PlacesAt s t x bs i (fieldAt bs (variantAt bs i) 1) digest none m r) ∧
      (none_ → m = [] → r = (s, 0xB, 0)) ∧
      (none_ → m ≠ [] → ∀ e s1, s.translated t x m = .error (e, s1) → r = (s1, e, 0)) ∧
      (none_ → m ≠ [] → ∀ b s1 x1, s.translated t x m = .ok (b, s1) → s1.tenant? t = some x1 → ObjectKept b → 0 < fieldAt b 8 4 →
        let agrees := ∀ i so sn st tn so' sn' st' tn', i < fieldAt bs 8 4 → HasSection bs i 9 so sn → HasSection bs i 10 st tn →
          HasSection b 0 9 so' sn' → HasSection b 0 10 st' tn' → globalNames bs so sn st = globalNames b so' sn' st'
        (agrees → PlacesAt s1 t x1 b 0 0 digest (some (sha512 m)) m r) ∧ (¬ agrees → r = (s1, 0xB, 0))))

/-- The header of a Sarxis module keeps R288. -/
def ModuleKept (m : List Byte) : Prop :=
  32 ≤ m.length ∧ fieldAt m 0 4 = 0x58524153 ∧ 1 ≤ fieldAt m 4 2 ∧ fieldAt m 4 2 ≤ 4 ∧ zeroAt m 6 2 = true ∧ fieldAt m 8 8 = m.length ∧
  zeroAt m 0x14 12 = true

/-- The least recently used entries that no live handle uses leave a tenant's cache while `n` bytes more exceed TCACHEQ (R289). -/
inductive Evicted (n : Nat) : Tenant → Tenant → Prop
  | fits (x : Tenant) : (x.objTop - x.objBase) + (x.tcache.map (·.size)).sum + n ≤ x.quota.tcacheq → Evicted n x x
  | stuck (x : Tenant) : (∀ e ∈ x.tcache, ∃ o ∈ x.objects, o.2.module = some e.digest) → Evicted n x x
  | leaves (x y : Tenant) (e : TCache) : x.quota.tcacheq < (x.objTop - x.objBase) + (x.tcache.map (·.size)).sum + n → e ∈ x.tcache →
      (∀ o ∈ x.objects, o.2.module ≠ some e.digest) →
      (∀ f ∈ x.tcache, f ≠ e → (∀ o ∈ x.objects, o.2.module ≠ some f.digest) → e.used < f.used) →
      Evicted n { x with tcache := x.tcache.filter fun f => f.digest != e.digest } y → Evicted n x y

/-- R288, R289: the translation of a module for a tenant: from its own cache where it holds one, whose entry counts as used now; else as Tildin
makes it (`Config.translate`, of which nothing is known), kept in the tenant's windows and its cache; NO_VARIANT for a bad module, or
one that Tildin does not translate into an object with as many global symbols as its header says; QUOTA where no room can be made, the
entries that were to make room being gone. -/
def TranslationRule : Prop :=
  ∀ (s : State) (t : Nat) (x : Tenant) (m : List Byte), s.tenant? t = some x →
    let d := sha512 m
    let clock (x : Tenant) : Nat := x.tcache.foldl (fun n e => max n (e.used + 1)) 0
    (∀ a b e, x.tcache = a ++ e :: b → e.digest = d → (∀ f ∈ a, f.digest ≠ d) → ∀ l, s.rootRange x 0#4 e.addr e.size = some l →
      let y : Tenant := { x with tcache := x.tcache.map fun f => if f.digest = d then { f with used := clock x } else f }
      s.translated t x m = .ok ((pieceAddrs l).map (memGet s.mem), { s with tenants := aset s.tenants t y })) ∧
    ((∀ e ∈ x.tcache, e.digest ≠ d) →
      (¬ ModuleKept m ∨ Config.translate m = none → s.translated t x m = .error (0xB, s)) ∧
      ∀ v, ModuleKept m → Config.translate m = some v →
        (¬ ObjectKept v ∨ fieldAt v 8 4 = 0 → s.translated t x m = .error (0xB, s)) ∧
        ∀ so sn st tn, ObjectKept v → 0 < fieldAt v 8 4 → HasSection v 0 9 so sn → HasSection v 0 10 st tn →
          ((globalNames v so sn st).length ≠ fieldAt m 0x10 4 → s.translated t x m = .error (0xB, s)) ∧
          ((globalNames v so sn st).length = fieldAt m 0x10 4 → ∀ y, Evicted v.length x y →
            let use := (y.objTop - y.objBase) + (y.tcache.map (·.size)).sum + v.length
            (y.quota.tcacheq < use → s.translated t x m = .error (0x4, { s with tenants := aset s.tenants t y })) ∧
            (use ≤ y.quota.tcacheq → ∃ a, x.cacheBase ≤ a ∧ (∀ e ∈ y.tcache, a + v.length ≤ e.addr ∨ e.addr + e.size ≤ a) ∧
              (s.rootRange y 0#4 a v.length = none → s.translated t x m = .error (0x4, { s with tenants := aset s.tenants t y })) ∧
              ∀ l, s.rootRange y 0#4 a v.length = some l →
                let e : TCache := { digest := d, addr := a, size := v.length, used := clock y }
                let s1 : State := { s with tenants := aset s.tenants t { y with tcache := e :: y.tcache } }
                s.translated t x m = .ok (v, s1.homeWrite ((pieceAddrs l).zip v)))))

end Sys2Proof.Claims

/-- R45 to R48, R63, R66 to R68, R80, R281 to R289: what the commands of a queue do. What it takes from the choices of the model is named in
notes/assumptions/1.md, 5.md, 46.md, 60.md, 79.md. -/
def Obligations.CommandForms : Prop :=
  FieldsChecked ∧ KindsChecked ∧ CommandStarts ∧ WaitCommand ∧ CopyAndFillEnd ∧ ObjectsEnd ∧ LoaderSteps ∧ TranslationRule

/-! ## Launches -/

namespace Sys2Proof.Claims

/-- What the 544 bytes of a launch record have to keep (R51, R178), its reserved bytes zero among them; that a Grove default with GOP WELF needs a
GWIDTH above 0 is the model's choice (log entry 85). -/
def RecordKept (b : List Byte) : Prop :=
  let f := fieldAt b
  let indirect : Prop := f 4 4 / 4 % 2 = 1
  let role (i : Nat) : Prop :=
    let o := 0x80 + 16 * i
    if i < f 0x15 1 then f (o + 8) 2 % 8 = 0 ∧ 8 ≤ f (o + 8) 2 ∧ f (o + 8) 2 ≤ 2048 ∧ f (o + 0xA) 1 ≤ 3 ∧ zeroAt b (o + 0xC) 4 = true
    else zeroAt b o 16 = true
  let default (i : Nat) : Prop :=
    let o := 0x140 + 8 * i
    if i < f 0x1D 1 then f o 1 ≤ 3 ∧ f (o + 1) 1 ≤ 9 ∧ f (o + 2) 1 ≤ 1 ∧ zeroAt b (o + 3) 1 = true ∧
      f (o + 4) 4 ≤ 65536 / (8 * 2 ^ f o 1) ∧ ¬ (f (o + 1) 1 = 8 ∧ f o 1 = 0)
    else zeroAt b o 8 = true
  f 0 4 = 1 ∧ f 4 4 < 16 ∧ (¬ indirect → f 8 4 < 2 ^ 21 ∧ f 0xC 4 < 2 ^ 21 ∧ f 0x10 4 < 2 ^ 21) ∧ (indirect → f 0x28 8 % 8 = 0) ∧
  1 ≤ f 0x14 1 ∧ f 0x14 1 ≤ 16 ∧ 1 ≤ f 0x15 1 ∧ f 0x15 1 ≤ 4 ∧ f 0x16 2 % 8 = 0 ∧ f 0x1C 1 ≤ 16 ∧ f 0x1D 1 ≤ 24 ∧
  (f 0x1E 2 = 0xFFFF ∨ f 0x1E 2 % 32 = 0 ∧ f 0x1E 2 ≤ 992) ∧ zeroAt b 0x30 0x50 = true ∧ (∀ i < 4, role i) ∧
  ((List.range (f 0x15 1)).map fun i => f (0x8B + 16 * i) 1).sum = f 0x14 1 ∧
  (∀ i < 4, zeroAt b (0xC4 + 16 * i) 4 = true ∧ zeroAt b (0x104 + 16 * i) 4 = true ∧
    (f (0x100 + 16 * i) 4 = 0xFFFFFFFF → f (0x108 + 16 * i) 8 = 0)) ∧
  (∀ i < 24, default i) ∧ zeroAt b 0x204 4 = true ∧ zeroAt b 0x218 8 = true

/-- R48, R51, R52: the record of a LAUNCH that has been read: what its bytes have to keep, and nothing else; and what its fields then are. -/
def RecordRule : Prop :=
  (∀ b : List Byte, recordOk b = true ↔ RecordKept b) ∧ ∀ b : List Byte, recordOk b = true →
    let r := launchRec b
    fieldAt b 0 4 = 1 ∧ r.lflags < 16 ∧ 1 ≤ r.groups ∧ r.groups ≤ 16 ∧ 1 ≤ r.nroles ∧ r.nroles ≤ 4 ∧ r.spare % 8 = 0 ∧ r.nacc ≤ 16 ∧
    r.ngrove ≤ 24 ∧ (r.pbase = 0xFFFF ∨ r.pbase % 32 = 0 ∧ r.pbase ≤ 992) ∧
    (r.lflags / 4 % 2 = 0 → r.gridx < 2 ^ 21 ∧ r.gridy < 2 ^ 21 ∧ r.gridz < 2 ^ 21) ∧ (r.roles.map fun e => e.2.2.2.2).sum = r.groups ∧
    r.roles.length = r.nroles ∧ (∀ e ∈ r.roles, e.2.2.1 % 8 = 0 ∧ 8 ≤ e.2.2.1 ∧ e.2.2.1 ≤ 2048 ∧ e.2.2.2.1 ≤ 3) ∧
    r.groves.length = r.ngrove ∧ ∀ d ∈ r.groves, d.1 ≤ 3 ∧ d.2.1 ≤ 9 ∧ d.2.2.1 ≤ 1

/-- R104: an ordered launch of the tenant `x` would be resident as a whole on empty cores: its team t on core E[t mod n] of the tenant's set
E in ascending order, with what the core and its cluster's scratch banks hold for all the teams there. -/
def WholeGridFits (s : State) (l : Launch) (x : Tenant) : Prop :=
  ∀ set : List Nat, set.Perm x.cores → set.Pairwise (· ≤ ·) →
    let at_ (t : Nat) : Nat := set.getD (t % set.length) 0
    let on (p : Nat → Bool) : Nat := ((List.range (l.gx * l.gy * l.gz)).filter fun t => p (at_ t)).length
    ∀ t, t < l.gx * l.gy * l.gz → (l.record.need.times (on fun c => c == at_ t)).fitsIn coreCapacity = true ∧
      l.record.need.grans * on (fun c => c / 8 == at_ t / 8) ≤ (s.clusterGranules (at_ t / 8)).length

/-- R38, R52, R104: the checks on the resolved shape, in their order: the grid, one team on an empty core, the quotas, and, for an ordered
launch, the quotas and the cores for the whole grid. -/
def ShapeRule : Prop :=
  ∀ (s : State) (l : Launch) (x : Tenant), s.tenant? l.tenant = some x →
    let n := l.record.need
    let alone := ∃ c ∈ x.cores, s.fitsEmpty n c = true
    (2 ^ 32 ≤ l.gx * l.gy * l.gz → s.shapeRefusal l = some 0x5) ∧
    (l.gx * l.gy * l.gz < 2 ^ 32 → ¬ alone → s.shapeRefusal l = some 0x7) ∧
    (l.gx * l.gy * l.gz < 2 ^ 32 → alone → quotaCovers x noNeed n = false → s.shapeRefusal l = some 0x4) ∧
    (l.gx * l.gy * l.gz < 2 ^ 32 → alone → quotaCovers x noNeed n = true → l.isOrdered = false → s.shapeRefusal l = none) ∧
    (l.gx * l.gy * l.gz < 2 ^ 32 → alone → quotaCovers x noNeed n = true → l.isOrdered = true → l.saved = [] → l.next = 0 →
      (quotaCovers x noNeed (n.times (l.gx * l.gy * l.gz)) = false → s.shapeRefusal l = some 0x4) ∧
      (quotaCovers x noNeed (n.times (l.gx * l.gy * l.gz)) = true →
        (¬ WholeGridFits s l x → s.shapeRefusal l = some 0x6) ∧ (WholeGridFits s l x → s.shapeRefusal l = none)))

/-- The record waits of a launch are all satisfied (R53). -/
def WaitsMet (s : State) (q : QRef) (r : LaunchRec) : Prop := ∀ w ∈ r.waits, s.waitMet q w.1 w.2 = true

/-- A launch with its waits satisfied and its shape resolved goes on (R53, R86): it posts its collective first where it is bound to
one, and otherwise becomes pending. -/
def wentOn (l : Launch) : Launch := { l with phase := if l.record.lflags / 8 % 2 = 1 then .posting else .placing }

/-- A launch that ends (R47, R52): it is gone, and its command completes. -/
def launchEnded (s : State) (lid : Nat) (l : Launch) (status result : Nat) : State :=
  { s with launches := adel s.launches lid }.endCommand (.tenant l.tenant l.queue) l.seq status result

/-- What a launch `l` of machine key `lid` that waits does in the state `s` once its record waits are satisfied (R53): an indirect grid
is read at INDPTR, and its shape checked. -/
inductive LaunchGoes (s : State) (lid : Nat) (l : Launch) : State → Prop
  | direct : l.record.lflags / 4 % 2 = 0 →
      LaunchGoes s lid l { s with launches := aset s.launches lid (wentOn l) }
  | outside : l.record.lflags / 4 % 2 = 1 → s.ownRead (some l.tenant) 1#4 l.record.indptr 8 = none →
      LaunchGoes s lid l (launchEnded s lid l 0x3 0)
  | badWord (b : List Byte) : l.record.lflags / 4 % 2 = 1 → s.ownRead (some l.tenant) 1#4 l.record.indptr 8 = some b →
      2 ^ 63 ≤ leNat b → LaunchGoes s lid l (launchEnded s lid l 0x5 0)
  | badShape (b : List Byte) (st : Nat) : l.record.lflags / 4 % 2 = 1 →
      s.ownRead (some l.tenant) 1#4 l.record.indptr 8 = some b → leNat b < 2 ^ 63 →
      s.shapeRefusal { l with gx := leNat b % 2 ^ 21, gy := leNat b / 2 ^ 21 % 2 ^ 21, gz := leNat b / 2 ^ 42 % 2 ^ 21 } = some st →
      LaunchGoes s lid l (launchEnded s lid l st 0)
  | indirect (b : List Byte) (l' : Launch) : l.record.lflags / 4 % 2 = 1 →
      s.ownRead (some l.tenant) 1#4 l.record.indptr 8 = some b → leNat b < 2 ^ 63 →
      l' = { l with gx := leNat b % 2 ^ 21, gy := leNat b / 2 ^ 21 % 2 ^ 21, gz := leNat b / 2 ^ 42 % 2 ^ 21 } →
      s.shapeRefusal l' = none → LaunchGoes s lid l { s with launches := aset s.launches lid (wentOn l') }

/-- R48, R51 to R53: a LAUNCH that starts: each check of its record that fails completes it with that check's status; one that passes
them is a launch of a key of its own, ranked by the order of the starts, and goes on where its waits are satisfied. -/
def LaunchStarts : Prop :=
  ∀ (s s1 : State) (t j seq : Nat) (c : Cmd) (x : Tenant) (y : Queue), Begins s (.tenant t j) seq c s1 →
    s.runningCmd (.tenant t j) seq = none → fieldAt c.bytes 0 1 = 1 → s1.tenant? t = some x → aget x.queues j = some y →
    let q : QRef := .tenant t j
    let ends (status : Nat) : Prop := exec (.launch q seq) s = .next (s1.endCommand q seq status 0)
    let header := HeaderOk s1 q c.bytes ∧ zeroAt c.bytes 0x24 28 = true ∧ fieldAt c.bytes 0x18 8 % 64 = 0
    (¬ header → ends 0x2) ∧
    (header → s1.ownRead (some t) 1#4 (fieldAt c.bytes 0x18 8) 544 = none → ends 0x3) ∧
    ∀ b, header → s1.ownRead (some t) 1#4 (fieldAt c.bytes 0x18 8) 544 = some b →
      let r := launchRec b
      (recordOk b = false → ends 0x2) ∧
      (recordOk b = true → aget x.objects (fieldAt c.bytes 0x20 4) = none → ends 0x9) ∧
      ∀ o, recordOk b = true → aget x.objects (fieldAt c.bytes 0x20 4) = some o →
        let l := newLaunch t j seq y.qprio s1.root.order (fieldAt c.bytes 0x20 4) r
        let lid := s1.nextKey
        let s2 := { s1 with nextKey := lid + 1, root := { s1.root with order := s1.root.order + 1 },
                            launches := aset s1.launches lid l }
        (s1.namesOk q o r = false → ends 0x2) ∧
        (s1.namesOk q o r = true → r.lflags / 4 % 2 = 0 → ∀ st, s1.shapeRefusal l = some st → ends st) ∧
        (s1.namesOk q o r = true → r.lflags / 4 % 2 = 1 ∨ s1.shapeRefusal l = none →
          (¬ WaitsMet s2 q r → exec (.launch q seq) s = .next s2) ∧
          (WaitsMet s2 q r → ∀ s3, LaunchGoes s2 lid l s3 → exec (.launch q seq) s = .next s3))

/-- R53: a launch that waits goes on once its record waits are satisfied, and stays until then. -/
def LaunchResumes : Prop :=
  ∀ (s : State) (t j seq lid : Nat) (c : Cmd) (l : Launch), s.runningCmd (.tenant t j) seq = some c → fieldAt c.bytes 0 1 = 1 →
    (s.launches.find? fun e => e.2.tenant == t && e.2.queue == j && e.2.seq == seq) = some (lid, l) → s.launch? lid = some l →
    l.phase = .waiting →
    (¬ WaitsMet s (.tenant t j) l.record → exec (.launch (.tenant t j) seq) s = .next s) ∧
    (WaitsMet s (.tenant t j) l.record → ∀ s3, LaunchGoes s lid l s3 → exec (.launch (.tenant t j) seq) s = .next s3)

/-- R86: a bound launch that posts its collective: with a chunk map that keeps R86 it clears its scoreboard bits, posts with TILEBASE as
SBUF, arms the chunks while entries are free, and places its teams once all are armed; otherwise it ends. -/
def BoundLaunch : Prop :=
  ∀ (s : State) (id : Nat) (l : Launch) (x : Tenant), s.launch? id = some l → l.phase = .posting → s.tenant? l.tenant = some x →
    l.coll = none →
    (s.chunkMap l = none → exec (.launchCollPost id) s = .next (launchEnded s id l 0x3 0)) ∧
    ∀ d b n, s.chunkMap l = some (d, b, n) →
      (chunkMapOk l d b n = false → exec (.launchCollPost id) s = .next (launchEnded s id l 0x2 0)) ∧
      (chunkMapOk l d b n = true →
        let bits := (l.gx * l.gy * l.gz + b.tpb - 1) / b.tpb
        let x1 : Tenant := if bits = 0 then x else { x with board := x.board &&& ~~~(boardRange b.bitbase bits) }
        let s1 := { s with tenants := aset s.tenants l.tenant x1 }
        d.sbuf = l.record.tilebase ∧
        (∀ e, s.postRefusal x d = some e → e ≠ -1 →
          exec (.launchCollPost id) s = .next (launchEnded s1 id l (postStatus x d.comm e) 0)) ∧
        (s.postRefusal x d = none →
          let p := s1.post l.tenant d
          let r := p.1.armChunks l.tenant (d.comm % 2 ^ 28) p.2 0 b.chunks
          exec (.launchCollPost id) s = .next (r.1.updLaunch id fun l =>
            { l with coll := some { b with seq := p.2 }, armed := r.2,
                     phase := if r.2 = b.chunks.length then .placing else .posting })))

/-- R83, R84, R86: the chunks of a bound launch are armed in their order while the scoreboard has free entries. -/
def ChunksArmed : Prop :=
  ∀ (s : State) (t ci seq k : Nat) (e : Nat × Nat) (r : List (Nat × Nat)) (x : Tenant), s.tenant? t = some x →
    (afree x.armed 256 0 = none → s.armChunks t ci seq k (e :: r) = (s, k)) ∧
    ∀ i, afree x.armed 256 0 = some i → i < 256 ∧ aget x.armed i = none ∧
      ∃ (s1 : State) (x1 : Tenant), s1.armChunks t ci seq (k + 1) r = s.armChunks t ci seq k (e :: r) ∧ s1.tenant? t = some x1 ∧
        ∃ a : Armed, aget x1.armed i = some a ∧ a.chunk = true ∧ a.first = e.1 ∧ a.count = e.2 ∧ a.src = ci ∧ a.dst = seq ∧ a.bytes = k ∧
          a.due = boardFull x.board e.1 e.2

/-- The signals of a launch, made one after another on the timelines of tenant `t`: the state after, and whether one was below its timeline's
value, which then keeps it (R48, R53). -/
inductive Signalled (t : Nat) : State → List (Nat × Nat) → State → Bool → Prop
  | nil (s : State) : Signalled t s [] s false
  | none (s s' : State) (v : Nat) (r : List (Nat × Nat)) (b : Bool) : Signalled t s r s' b → Signalled t s ((0xFFFFFFFF, v) :: r) s' b
  | made (s s' : State) (x : Tenant) (h v : Nat) (r : List (Nat × Nat)) (b : Bool) : h ≠ 0xFFFFFFFF → s.tenant? t = some x →
      (aget x.signals (h % 2 ^ 28)).getD 0 ≤ v →
      Signalled t { s with tenants := aset s.tenants t { x with signals := aset x.signals (h % 2 ^ 28) v } } r s' b →
      Signalled t s ((h, v) :: r) s' b
  | lower (s s' : State) (x : Tenant) (h v : Nat) (r : List (Nat × Nat)) (b : Bool) : h ≠ 0xFFFFFFFF → s.tenant? t = some x →
      v < (aget x.signals (h % 2 ^ 28)).getD 0 → Signalled t s r s' b → Signalled t s ((h, v) :: r) s' true

/-- R53 to R55, R168: a launch with no team resident and none left to place completes: its bytes are released, arrivals for teams that
are gone or were never placed are counted, and it makes each of its signals and completes with OK, or NOT_MONOTONIC where one was low; one of which a team was ended signals
nothing and completes with TEAM_FAULT and that team. -/
def LaunchCompletes : Prop :=
  ∀ (s : State) (id : Nat) (l : Launch), s.launch? id = some l → l.phase = .placing → l.pending = false →
    (∀ e ∈ s.teams, e.2.launch ≠ some id) →
    let s1 := (s.releaseLaunch l).updTenant l.tenant fun x =>
      { x with knotdisc := x.knotdisc + BitVec.ofNat 64 (l.held.length + l.arrivals.length) }
    (∀ t, l.fault = some t → exec (.launchComplete id) s = .next (launchEnded s1 id l 0x8 t)) ∧
    ∀ x, l.fault = none → s.tenant? l.tenant = some x → ∃ s2 low, Signalled l.tenant s1 l.record.signals s2 low ∧
      exec (.launchComplete id) s = .next (launchEnded s2 id l (if low = true then 0xE else 0x0) 0)

/-- R47, R53, R155: after a launch's release no cluster holds dirty what its teams have written, or what was released before. -/
def LaunchReleases : Prop :=
  ∀ (s : State) (l : Launch) (c : Nat), c < 48 → ∀ e ∈ ((s.releaseLaunch l).cluster c).dirty,
    e.2.released = false ∧ ∀ g ∈ e.2.owners, g.team ∉ l.keys

/-- R53, R55: a launch of which a team is resident, or is still to be placed, does not complete. -/
def LaunchStays : Prop :=
  ∀ (s : State) (id : Nat) (l : Launch), s.launch? id = some l →
    l.phase ≠ .placing ∨ l.pending = true ∨ (∃ e ∈ s.teams, e.2.launch = some id) → exec (.launchComplete id) s = .next s

end Sys2Proof.Claims

/-- R38, R48, R51 to R55, R83, R84, R86, R104, R168: a launch from its start to its completion. What it takes from the choices of the model is
named in notes/assumptions/1.md, 66.md, 67.md, 68.md, 85.md. -/
def Obligations.LaunchForms : Prop :=
  RecordRule ∧ ShapeRule ∧ LaunchStarts ∧ LaunchResumes ∧ BoundLaunch ∧ ChunksArmed ∧ LaunchCompletes ∧ LaunchReleases ∧ LaunchStays

/-! ## Queries -/

namespace Sys2Proof.Claims

/-- The row of the table that serves a QUERY of an item (R49); the first also serves every item that there is not. -/
def QueryRow (q : QRef) (seq item : Nat) (i : Instr) : Prop :=
  (item = 1 ∨ item = 0 ∨ 9 < item) ∧ i = .queryDeviceStatus q seq ∨ item = 2 ∧ i = .queryFabricLink q seq ∨
  item = 3 ∧ i = .queryAttestation q seq ∨ item = 4 ∧ i = .queryCertificate q seq ∨ item = 5 ∧ i = .queryQuota q seq ∨
  item = 6 ∧ i = .queryFeatures q seq ∨ item = 7 ∧ i = .queryMgmtNonce q seq ∨ item = 8 ∧ i = .queryDiscardCounters q seq ∨
  item = 9 ∧ i = .queryTenantCounters q seq

/-- The tenant that a QUERY concerns (R48): the issuing one on a tenant's queue; on the management channel the one that TNUM names, for
items 3, 5 and 9. -/
def Concerns (s : State) (q : QRef) (item tnum : Nat) (who : Option Nat) : Prop :=
  match q with
  | .tenant t _ => (tnum = 0xFF ∨ tnum = t) ∧ who = some t
  | .mgmt =>
    if item = 3 ∨ item = 5 ∨ item = 9 then (∃ x, s.tenant? tnum = some x) ∧ who = some tnum else tnum = 0xFF ∧ who = none

/-- The 512 bytes that RSASSA-PSS makes of a message and a salt of 64 bytes (R31), with SHA-512 and MGF1, for a modulus of 4,096 bits: the
masked block, its top bit clear, the hash, and BC. -/
def pssBlock (salt m em : List Byte) : Prop :=
  let h := shaBytes (List.replicate 8 0#8 ++ shaBytes m ++ salt)
  ∃ db mask : List Byte, db = List.replicate 382 0#8 ++ 1#8 :: salt ∧
    mask = (((List.range 7).map fun i => shaBytes (h ++ beBytes 4 i)).flatten).take 447 ∧ em.length = 512 ∧ em.drop 447 = h ++ [0xBC#8] ∧
    ∀ i, i < 447 → em.getD i 0#8 = (db.getD i 0#8 ^^^ mask.getD i 0#8) &&& (if i = 0 then 0x7F#8 else 0xFF#8)

/-- R31: the signature of a message with the private key `k` and a salt: the block's power modulo the modulus. -/
def SignedWith (k : RsaKey) (salt m sig : List Byte) : Prop :=
  ∃ em, pssBlock salt m em ∧ sig = beBytes 512 (beNat em ^ k.sign % k.modulus)

/-- What a QUERY of an item writes (R13, R14, R27, R29, R31, R38, R49, R50, R64). The salt of the report's signature, of number `n`, is the
model's free value, and so is the identity key pair (notes/assumptions/4.md). -/
inductive ItemBytes (s : State) (q : QRef) (who : Option Nat) (c : Cmd) (n : Nat) : Nat → List Byte → Prop
  | status : ItemBytes s q who c n 1 (leBytes 8
      (0#8 ++ s.root.fwmajor ++ s.root.fwminor ++ s.root.aclk ++ s.root.fclk ++ s.root.tjmax ++ 0#4 ++ s.root.rstcause ++
        s.root.hvstate ++ s.root.frontlink ++ s.root.fuses.lcstate : W64).toNat)
  | link : ItemBytes s q who c n 2 (leBytes 2 s.root.fabup.toNat ++ leBytes 2 s.root.faberr.toNat ++ leBytes 4 0)
  | report (nonce body sig : List Byte) (k : RsaKey) (t : Nat) (x : Tenant) : who = some t → s.tenant? t = some x → s.root.flash.key = some k → nonce.length = 64 →
      s.ownRead (queueOwner q) 1#4 (fieldAt c.bytes 0x30 8) 64 = some nonce →
      body = leBytes 4 1 ++ leBytes 1 s.root.fuses.lcstate.toNat ++ leBytes 3 0 ++ leBytes 8 s.root.fuses.serial.toNat ++ nonce ++
        leBytes 64 s.root.fwMeas.toNat ++ leBytes 64 s.root.hvMeas.toNat ++ leBytes 64 s.root.tildinMeas.toNat ++ leBytes 2 t ++
        leBytes 6 0 ++ leBytes 64 x.supv.meas.toNat →
      SignedWith k (leBytes 64 (Config.salt n).toNat) body sig → ItemBytes s q who c n 3 (body ++ sig)
  | certificate : ItemBytes s q who c n 4 (leBytes 8 s.root.flash.cert.length ++ s.root.flash.cert)
  | quota (t : Nat) (x : Tenant) : who = some t → s.tenant? t = some x →
      ItemBytes s q who c n 5 (leBytes 4 x.quota.groveq ++ leBytes 4 x.quota.accq ++ leBytes 4 x.quota.scratchq ++
        leBytes 4 x.quota.slotq ++ leBytes 2 x.quota.commq ++ leBytes 2 x.quota.qpq ++ leBytes 4 0 ++ leBytes 8 x.quota.tcacheq)
  | features : ItemBytes s q who c n 6 ((List.range 16).map fun i => leBytes 8 (featureWord i).toNat).flatten
  | nonce : q = .mgmt → ItemBytes s q who c n 7 (leBytes 64 s.root.nonce.toNat)
  | counters : q = .mgmt → ItemBytes s q who c n 8
      (leBytes 8 s.root.counters.pause0.toNat ++ leBytes 8 s.root.counters.pause1.toNat ++ leBytes 8 s.root.counters.tsync0.toNat ++
        leBytes 8 s.root.counters.tsync1.toNat ++ leBytes 8 s.root.counters.fabtype.toNat ++ leBytes 8 s.root.counters.splice.toNat ++
        leBytes 8 s.root.counters.transp.toNat ++ leBytes 8 s.root.counters.icrc.toNat ++ leBytes 8 s.root.counters.notenant.toNat ++
        leBytes 8 0)
  | tenantCounters (t : Nat) (x : Tenant) : who = some t → s.tenant? t = some x →
      ItemBytes s q who c n 9 (leBytes 8 x.knotdisc.toNat ++ leBytes 8 x.rdmanak.toNat ++ leBytes 8 x.evlost.toNat ++ leBytes 8 0)

/-- R48 to R50: a QUERY that passes its checks writes its item at BUF and completes with OK, or with WINDOW where BUF lies outside; each
failing check gives its status and writes nothing. -/
def QueryRule : Prop :=
  ∀ (s s1 : State) (q : QRef) (seq : Nat) (c : Cmd) (i : Instr), Begins s q seq c s1 → fieldAt c.bytes 0 1 = 0xA →
    QueryRow q seq (fieldAt c.bytes 0x18 2) i →
    let item := fieldAt c.bytes 0x18 2
    let run := exec i s
    let ok := HeaderOk s1 q c.bytes ∧ zeroAt c.bytes 0x1B 5 = true ∧ zeroAt c.bytes 0x2C 4 = true ∧ zeroAt c.bytes 0x38 8 = true ∧
      (item = 3 ∨ zeroAt c.bytes 0x30 8 = true)
    let served := 1 ≤ item ∧ item ≤ 9 ∧ (q ≠ .mgmt → item ≠ 7 ∧ item ≠ 8) ∧
      (s1.root.fuses.lcstate = 3#2 → item = 1 ∨ item = 2 ∨ item = 7)
    let attests := item = 3 → s1.root.hvstate = 0#4 ∧ s1.root.flash.key.isSome = true
    (¬ ok → run = .next (s1.endCommand q seq 0x2 0)) ∧
    (ok → ¬ served → run = .next (s1.endCommand q seq 0xC 0)) ∧
    (ok → served → ¬ attests → run = .next (s1.endCommand q seq 0xD 0)) ∧
    (ok → served → attests → (∀ who, ¬ Concerns s1 q item (fieldAt c.bytes 0x1A 1) who) → run = .next (s1.endCommand q seq 0x2 0)) ∧
    ∀ who bs, ok → served → attests → Concerns s1 q item (fieldAt c.bytes 0x1A 1) who → ItemBytes s1 q who c s1.free item bs →
      let s2 := { s1 with free := s1.free + 1 }
      (fieldAt c.bytes 0x28 4 < bs.length → run = .next (s1.endCommand q seq 0x2 0)) ∧
      (bs.length ≤ fieldAt c.bytes 0x28 4 →
        (s2.ownWrite (queueOwner q) (fieldAt c.bytes 0x20 8) bs = none → run = .next (s2.endCommand q seq 0x3 0)) ∧
        ∀ s3, s2.ownWrite (queueOwner q) (fieldAt c.bytes 0x20 8) bs = some s3 → run = .next (s3.endCommand q seq 0x0 0))

/-- R31: a signature that the private key of a pair makes verifies under its public key. -/
def SignaturesVerify : Prop :=
  ∀ (k : RsaKey) (salt m : List Byte), salt.length = 64 → 2 ^ 4095 ≤ k.modulus → k.modulus < 2 ^ 4096 →
    (∀ a, a < k.modulus → (a ^ k.sign % k.modulus) ^ k.verify % k.modulus = a) →
    SignedWith k salt m (pssSign k salt m) ∧ pssVerify k.modulus k.verify m (pssSign k salt m) = true

/-- R27, R31: every identity key of the device has 4,096 bits, and what it signs verifies under its public key. -/
def DeviceSignatures : Prop :=
  ∀ (n : Nat) (salt m : List Byte), salt.length = 64 → let k := Config.identityKey n
    2 ^ 4095 ≤ k.modulus ∧ k.modulus < 2 ^ 4096 ∧ pssVerify k.modulus k.verify m (pssSign k salt m) = true

end Sys2Proof.Claims

/-- R13, R14, R27 to R31, R34, R38, R48 to R50, R64, R290: queries, and the signature of the attestation report. What it takes from the
choices of the model is named in notes/assumptions/4.md, 61.md. -/
def Obligations.QueryForms : Prop := QueryRule ∧ SignaturesVerify ∧ DeviceSignatures

/-! ## Root -/

namespace Sys2Proof.Claims

/-- Root with its clocks. -/
def clocked (s : State) (a f : Byte) : State := { s with root := { s.root with aclk := a, fclk := f } }

/-- R10, R11: the clocks may be lowered, and raised again, each within its range; a value outside a range, a lowering that would raise a clock,
and a raising that would lower one change nothing. -/
def ClockRules : Prop :=
  ∀ (s : State) (a f : Byte), s.root.phase ≠ .off →
    let ok := 0x0B ≤ a.toNat ∧ a.toNat ≤ 0x21 ∧ 0x0B ≤ f.toNat ∧ f.toNat ≤ 0x16
    (ok → a.toNat ≤ s.root.aclk.toNat → f.toNat ≤ s.root.fclk.toNat → exec (.clockThrottle a f) s = .next (clocked s a f)) ∧
    (ok → s.root.aclk.toNat ≤ a.toNat → s.root.fclk.toNat ≤ f.toNat → exec (.clockRaise a f) s = .next (clocked s a f)) ∧
    (¬ ok → exec (.clockThrottle a f) s = .next s ∧ exec (.clockRaise a f) s = .next s) ∧
    (s.root.aclk.toNat < a.toNat ∨ s.root.fclk.toNat < f.toNat → exec (.clockThrottle a f) s = .next s) ∧
    (a.toNat < s.root.aclk.toNat ∨ f.toNat < s.root.fclk.toNat → exec (.clockRaise a f) s = .next s)

/-- Communicator `ci` of tenant `t` has been built and is routed over fabric port `p` (R68). -/
def RoutedOver (s : State) (p t ci : Nat) : Prop :=
  ∃ x c r, (t, x) ∈ s.tenants ∧ (ci, c) ∈ x.comms ∧ c.phase ≠ .building ∧ r < c.routes.length ∧ r ≠ c.rank ∧ (c.routes.getD r (0, 0)).1 = p

/-- R79: a cause found at this member breaks a communicator that is not broken, and the coordinator is told, or every other member where it is
the coordinator. -/
def ReportRule : Prop :=
  ∀ (s : State) (t ci status : Nat) (x : Tenant) (c : Comm), s.tenant? t = some x → aget x.comms ci = some c →
    (c.broken = none → s.reportBreak t ci status = (s.breakComm t ci status).sendFrames t ci 5 0 0 (leBytes 2 status)
      (if c.rank = 0 then (List.range c.members.length).filter (· != c.rank) else [0])) ∧
    (c.broken ≠ none → s.reportBreak t ci status = s)

/-- R13, R14, R20, R25, R62, R79: the links: a port that comes up or goes down sets or clears its bit; a front port's connections begin to
retry, or go on; a fabric port that goes down breaks the communicators routed over it with LINK_DOWN. Front port 1 stays down until the
MAC base is fused, and in recovery. -/
def LinkRules : Prop :=
  ∀ (s : State) (p : Nat), s.root.phase ≠ .off →
    (p < 2 → ∃ s', exec (.frontLinkDown p) s = .next s' ∧ s'.root.frontlink = s.root.frontlink &&& ~~~(1#2 <<< p) ∧
      ∀ t x i q, s.tenant? t = some x → aget x.qps i = some q → q.front = p → q.error = false →
        ∃ x', s'.tenant? t = some x' ∧ aget x'.qps i = some { q with retrying := true }) ∧
    (p < 2 → p = 0 ∨ s.root.fuses.lcstate ≠ 0#2 ∧ s.root.phase = .running → ∃ s', exec (.frontLinkUp p) s = .next s' ∧
      s'.root.frontlink = s.root.frontlink ||| (1#2 <<< p) ∧
      ∀ t x i q, s.tenant? t = some x → aget x.qps i = some q → q.front = p → q.error = false →
        ∃ x', s'.tenant? t = some x' ∧ aget x'.qps i = some { q with retrying := false, retries := 0 }) ∧
    (s.root.fuses.lcstate = 0#2 ∨ s.root.phase = .recovery → exec (.frontLinkUp 1) s = .next s) ∧
    (p < 16 → exec (.fabricLinkUp p) s = .next { s with root := { s.root with fabup := s.root.fabup ||| (1#16 <<< p) } }) ∧
    (p < 16 → exec (.fabricLinkDown p) s = .next (s.portDown p true) ∧
      (s.portDown p true).root.fabup = s.root.fabup &&& ~~~(1#16 <<< p) ∧
      (s.portDown p true).root.faberr = s.root.faberr ||| (1#16 <<< p) ∧
      (∃ l : List (Nat × Nat), (∀ e, e ∈ l ↔ RoutedOver s p e.1 e.2) ∧ s.portDown p true = l.foldl (fun s e => s.reportBreak e.1 e.2 0x13)
        { s with root := { s.root with fabup := s.root.fabup &&& ~~~(1#16 <<< p), faberr := s.root.faberr ||| (1#16 <<< p) } }) ∧
      ∀ t x ci c, keysRise s.tenants = true → keysRise x.comms = true → s.tenant? t = some x → aget x.comms ci = some c → c.broken = none →
        RoutedOver s p t ci →
        ∃ x' c', (s.portDown p true).tenant? t = some x' ∧ aget x'.comms ci = some c' ∧ c'.broken = some 0x13)

/-- R24, R25, R35: a reset with a cause: everything is as after the wipe but for what the fuses, flash and the sealed key store hold, and
what Root then boots: of the two firmware slots the one it accepts first, the last written one before the other (log entry 82), with the
measurements of the firmware image and of the Tildin and Bowline images in it; where neither is accepted, Root is in recovery. The model's
own counters go on. -/
def ResetRule : Prop :=
  ∀ (s : State) (cause : BitVec 4) (env : BootEnv), env.bankModes = [] →
    let s' := s.boot cause env
    let r := s'.root
    s'.mem = [] ∧ s'.tenants = [] ∧ s'.teams = [] ∧ s'.launches = [] ∧ s'.cores = [] ∧ s'.clusters = [] ∧ r.windows = [] ∧
    r.mgmtMem = [] ∧ r.mgmtConns = [] ∧ r.flows = [] ∧ r.staging = [] ∧ r.notices = [] ∧ r.mgmtQueue = emptyQueue ∧ r.ticket = 0 ∧
    r.counters = zeroCounters ∧ r.aclk = 0x21#8 ∧ r.fclk = 0x16#8 ∧ r.faberr = 0#16 ∧ r.rstcause = cause ∧ r.tjmax = env.tjmax ∧
    r.flash = s.root.flash ∧ r.fuses.lcstate = s.root.fuses.lcstate ∧ r.fuses.vendorKey = s.root.fuses.vendorKey ∧
    r.fuses.ownerKey = s.root.fuses.ownerKey ∧ s.root.fuses.fwFloor ≤ r.fuses.fwFloor ∧ s'.sent = s.sent ∧
    r.fuses.macBase = s.root.fuses.macBase ∧ r.fuses.serial = s.root.fuses.serial ∧ r.fuses.localMac = s.root.fuses.localMac ∧
    (∀ b img, img = (if b = true then s.root.flash.slotB else s.root.flash.slotA) → imageOk s.root.fuses img = true →
      s.root.flash.newest = b ∨ imageOk s.root.fuses (if b = true then s.root.flash.slotA else s.root.flash.slotB) = false →
      r.phase = .running ∧ r.slot = b ∧ r.fwMeas = sha512 img ∧ r.tildinMeas = sha512 (Config.imageHeader img).tildin ∧
      r.bowlineMeas = sha512 (Config.imageHeader img).bowline ∧ r.fwmajor = (Config.imageHeader img).major ∧
      r.fwminor = (Config.imageHeader img).minor ∧ r.fuses.fwFloor = max s.root.fuses.fwFloor (Config.imageHeader img).version ∧
      (r.hvstate = 0#4 → r.tvecH = env.tvecH &&& 0xFFFFFFFFFE00#64)) ∧
    (imageOk s.root.fuses s.root.flash.slotA = false → imageOk s.root.fuses s.root.flash.slotB = false →
      r.phase = .recovery ∧ r.fabup = 0#16 ∧ r.frontlink = env.frontLink &&& 1#2) ∧
    (r.phase = .running → (s.root.flash.hv = [] → r.hvstate = 1#4) ∧ (r.hvstate = 0#4 → r.hvMeas = sha512 s.root.flash.hv))

/-- Recovery has its one connection (R25). -/
def Recovers (s : State) : Prop := s.root.phase = .recovery ∧ ∃ q, aget s.root.mgmtConns 0 = some q ∧ q.error = false

/-- A firmware image written to slot B, or to slot A (R25, R26). -/
def slotWritten (l : Flash) (b : Bool) (img : List Byte) : Flash :=
  { l with slotA := if b then l.slotA else img, slotB := if b then img else l.slotB, newest := b }

/-- R12, R23 to R25, R33: the resets that no command asks for: power, the thermal trip, the watchdog; and recovery, whose SEND writes an
image that verifies to its slot and resets the device. An operation that recovery does not take is answered as a failed verification is (log
entry 83). -/
def ResetCauses : Prop :=
  ∀ (s : State) (env : BootEnv),
    (s.root.phase = .off → exec (.powerOn env) s = .next (s.boot 0#4 env)) ∧
    (∃ s', exec .powerFail s = .next s' ∧ s'.root.phase = .off ∧ s'.mem = [] ∧ s'.tenants = [] ∧ s'.root.fuses = s.root.fuses ∧
      s'.root.flash = s.root.flash) ∧
    (s.root.phase ≠ .off → s.tenants = [] → exec (.thermalTrip env) s = .next (s.boot 2#4 env)) ∧
    (s.root.phase ≠ .off → (∀ e ∈ s.tenants, s.cbRead (some e.1) 0x40A 1 ≠ 1) → exec (.thermalTrip env) s = .next (s.boot 2#4 env)) ∧
    (s.root.phase ≠ .off → ∀ t x, s.tenants = [(t, x)] → s.cbRead (some t) 0x40A 1 = 1 → exec (.thermalTrip env) s =
      .next (((s.emit (some t) (eventBytes 3 3 0x14 0 0 0xFF 1 0 0) none).flushEvents (some t)).boot 2#4 env)) ∧
    (s.root.phase = .running → exec (.rootWatchdogExpiry env) s = .next (s.boot 3#4 env)) ∧
    (Recovers s → ∀ a bs,
      (a = 0 → bs.length ≤ 2 ^ 27 → exec (.recoveryImageWrite a bs) s =
        .next { s with root := { s.root with staging := memSetN s.root.staging 0 bs } }) ∧
      (a ≠ 0 ∨ 2 ^ 27 < bs.length → exec (.recoveryImageWrite a bs) s = .next (s.send .opError))) ∧
    (¬ Recovers s → ∀ a bs, exec (.recoveryImageWrite a bs) s = .next s ∧ exec (.recoverySend bs env) s = .next s) ∧
    (Recovers s → ∀ bs img, img = memGetN s.root.staging 0 (fieldAt bs 4 8) →
      let ok := bs.length = 16 ∧ fieldAt bs 0 4 < 2 ∧ zeroAt bs 12 4 = true ∧ fieldAt bs 4 8 ≤ 2 ^ 27 ∧ imageOk s.root.fuses img = true
      let flash := slotWritten s.root.flash (fieldAt bs 0 4 != 0) img
      (ok → exec (.recoverySend bs env) s = .next ({ s with root := { s.root with flash := flash } }.boot 5#4 env)) ∧
      (¬ ok → exec (.recoverySend bs env) s = .next (s.send .opError)))

/-- The state of a signed command once it has started (R64): the nonce has been consumed. -/
def nonceUsed (s1 : State) : State :=
  { s1 with free := s1.free + 1, root := { s1.root with nonce := Config.nonce s1.free } }

/-- A signed command that passes its fields and its signature (R31, R64): its block, which key signed it, and the data signed. The
message is the record without SIGADDR, the nonce as it was, and the digest of the data. -/
def Signed (s1 : State) (c : Cmd) (kind key : Nat) (data : List Byte) : Prop :=
  HeaderOk s1 .mgmt c.bytes ∧ fieldAt c.bytes 0x18 8 % 8 = 0 ∧
  ∃ b, s1.ownRead none 1#4 (fieldAt c.bytes 0x18 8) 0x408 = some b ∧ s1.signedData kind c.bytes = some data ∧
    fieldAt b 0x200 1 = key ∧ key < 2 ∧ zeroAt b 0x201 7 = true ∧ (key = 1 ∨ zeroAt b 0x208 512 = true) ∧
    s1.root.signedBy b (unsignedRecord c.bytes ++ leBytes 64 s1.root.nonce.toNat ++ if kind = 0xB then [] else shaBytes data) = true

/-- A signed command that completes with OK and then resets the device (R65), with what it does to Root between. -/
def completedReset (s : State) (seq : Nat) (f : Root → Root) (cause : BitVec 4) (env : BootEnv) : State :=
  let s1 := (s.endCommand .mgmt seq 0x0 0).flushEvents none
  { s1 with root := f s1.root }.boot cause env

/-- R26, R27, R32 to R34, R64, R65: what each signed command does, whose fields and signature are good, by its own rules. -/
def SignedForms : Prop :=
  ∀ (s s1 : State) (seq key : Nat) (c : Cmd) (env : BootEnv) (data : List Byte), Begins s .mgmt seq c s1 →
    let kind := fieldAt c.bytes 0 1
    let s2 := nonceUsed s1
    let lc := s1.root.fuses.lcstate
    let ends (status : Nat) : Host.Outcome State Fault Refusal := .next (s2.endCommand .mgmt seq status 0)
    Signed s1 c kind key data →
    (kind = 0xB → zeroAt c.bytes 0x20 32 = true →
      (key = 0 ∨ lc = 2#2 → exec (.reset seq env) s = .next (completedReset s2 seq (fun r => r) 1#4 env)) ∧
      (key = 1 → lc ≠ 2#2 → exec (.reset seq env) s = ends 0xA)) ∧
    (kind = 0xC → zeroAt c.bytes 0x21 3 = true → zeroAt c.bytes 0x30 16 = true →
      (fieldAt c.bytes 0x20 1 = 1 → fieldAt c.bytes 0x24 4 = 16 → zeroAt data 6 2 = true → fieldAt data 0 1 % 0x20 = 0 →
        (lc = 0#2 → key = 0 → exec (.lcTransitionProvisioned seq env) s = .next (completedReset { s2 with free := s2.free + 1 } seq
          (fun r => { r with fuses := { r.fuses with lcstate := 1#2, macBase := BitVec.ofNat 48 (fieldAt data 0 6),
                                                     serial := BitVec.ofNat 64 (fieldAt data 8 8) },
                             flash := { r.flash with key := some (Config.identityKey s2.free),
                                                     cert := Config.certificate (Config.identityKey s2.free).modulus
                                                       (Config.identityKey s2.free).verify } }) 4#4 env)) ∧
        (lc ≠ 0#2 ∨ key = 1 → exec (.lcTransitionProvisioned seq env) s = ends 0x10)) ∧
      (fieldAt c.bytes 0x20 1 = 2 → fieldAt c.bytes 0x24 4 = 64 →
        (lc = 1#2 → key = 0 → exec (.lcTransitionDeployed seq env) s = .next (completedReset s2 seq
          (fun r => { r with fuses := { r.fuses with lcstate := 2#2, ownerKey := BitVec.ofNat 512 (fieldAt data 0 64) } }) 4#4 env)) ∧
        (lc ≠ 1#2 ∨ key = 1 → exec (.lcTransitionDeployed seq env) s = ends 0x10)) ∧
      (fieldAt c.bytes 0x20 1 = 3 → fieldAt c.bytes 0x24 4 = 0 → zeroAt c.bytes 0x28 8 = true →
        (lc = 2#2 → exec (.lcTransitionReturned seq env) s = .next (completedReset s2 seq
          (fun r => { r with fuses := { r.fuses with lcstate := 3#2, revoked := true }, flash := { r.flash with key := none } }) 4#4
          env)) ∧
        (lc ≠ 2#2 → exec (.lcTransitionReturned seq env) s = ends 0x10))) ∧
    (kind = 0xD → zeroAt c.bytes 0x30 16 = true → 1 ≤ fieldAt c.bytes 0x28 8 → fieldAt c.bytes 0x28 8 ≤ 2 ^ 27 →
      (lc = 3#2 → exec (.fwUpdate seq) s = ends 0x10) ∧
      (lc ≠ 3#2 → (key = 1 ∧ lc ≠ 2#2) ∨ imageOk s1.root.fuses data = false → exec (.fwUpdate seq) s = ends 0xA) ∧
      (lc ≠ 3#2 → key = 0 ∨ lc = 2#2 → imageOk s1.root.fuses data = true → exec (.fwUpdate seq) s =
        .next ({ s2 with root := { s2.root with flash := slotWritten s1.root.flash (!s1.root.slot) data } }.endCommand .mgmt seq 0x0 0)))

/-- The rows of the table that serve the signed command `bs` of sequence number `seq` (R64, R65): RESET, LC_TRANSITION by its TARGET, the
first also where that names no state, and FW_UPDATE. -/
def SignedRow (seq : Nat) (bs : List Byte) : Instr → Prop
  | .reset n _ => n = seq ∧ fieldAt bs 0 1 = 0xB
  | .lcTransitionProvisioned n _ => n = seq ∧ fieldAt bs 0 1 = 0xC ∧ fieldAt bs 0x20 1 ≠ 2 ∧ fieldAt bs 0x20 1 ≠ 3
  | .lcTransitionDeployed n _ => n = seq ∧ fieldAt bs 0 1 = 0xC ∧ fieldAt bs 0x20 1 = 2
  | .lcTransitionReturned n _ => n = seq ∧ fieldAt bs 0 1 = 0xC ∧ fieldAt bs 0x20 1 = 3
  | .fwUpdate n => n = seq ∧ fieldAt bs 0 1 = 0xD
  | _ => False

/-- The body of a signed command keeps its rules (R65). -/
def SignedBody (bs : List Byte) : Prop :=
  fieldAt bs 0x18 8 % 8 = 0 ∧
  (fieldAt bs 0 1 = 0xB → zeroAt bs 0x20 32 = true) ∧
  (fieldAt bs 0 1 = 0xC → 1 ≤ fieldAt bs 0x20 1 ∧ fieldAt bs 0x20 1 ≤ 3 ∧ zeroAt bs 0x21 3 = true ∧ zeroAt bs 0x30 16 = true ∧
    (fieldAt bs 0x20 1 = 1 → fieldAt bs 0x24 4 = 16) ∧ (fieldAt bs 0x20 1 = 2 → fieldAt bs 0x24 4 = 64) ∧
    (fieldAt bs 0x20 1 = 3 → fieldAt bs 0x24 4 = 0 ∧ zeroAt bs 0x28 8 = true)) ∧
  (fieldAt bs 0 1 = 0xD → zeroAt bs 0x30 16 = true ∧ 1 ≤ fieldAt bs 0x28 8 ∧ fieldAt bs 0x28 8 ≤ 2 ^ 27)

/-- The signature block of a command, and the data that it has signed, keep theirs (R27, R64, R65). -/
def SignedParts (bs b data : List Byte) : Prop :=
  fieldAt b 0x200 1 < 2 ∧ zeroAt b 0x201 7 = true ∧ (fieldAt b 0x200 1 = 1 ∨ zeroAt b 0x208 512 = true) ∧
  (fieldAt bs 0 1 = 0xC → fieldAt bs 0x20 1 = 1 → zeroAt data 6 2 = true ∧ fieldAt data 0 1 % 0x20 = 0)

/-- R64, R65: a signed command of which a field breaks its rule, whose block or data lie outside the management window, or whose signature does
not verify completes with the status of the first of these, and takes no other effect beyond consuming the nonce. -/
def BadSignature : Prop :=
  ∀ (s s1 : State) (seq : Nat) (c : Cmd) (i : Instr), Begins s .mgmt seq c s1 → SignedRow seq c.bytes i →
    let ends (status : Nat) : Prop := exec i s = .next ((nonceUsed s1).endCommand .mgmt seq status 0)
    let block := s1.ownRead none 1#4 (fieldAt c.bytes 0x18 8) 0x408
    let signed := s1.signedData (fieldAt c.bytes 0 1) c.bytes
    let fields := HeaderOk s1 .mgmt c.bytes ∧ SignedBody c.bytes
    (¬ fields → ends 0x2) ∧ (fields → block = none ∨ signed = none → ends 0x3) ∧
    ∀ b data, fields → block = some b → signed = some data →
      (¬ SignedParts c.bytes b data → ends 0x2) ∧
      (SignedParts c.bytes b data →
        s1.root.signedBy b (unsignedRecord c.bytes ++ leBytes 64 s1.root.nonce.toNat ++ if fieldAt c.bytes 0 1 = 0xB then [] else shaBytes data) =
          false → ends 0xA)

end Sys2Proof.Claims

/-- R10 to R14, R20, R23 to R28, R31 to R35, R62, R64, R65, R79: clocks, links, resets, recovery and the signed commands. What it takes from
the choices of the model is named in notes/assumptions/1.md, 3.md, 13.md, 55.md, 62.md, 63.md, 65.md, 80.md, 82.md, 83.md. -/
def Obligations.RootForms : Prop := ClockRules ∧ LinkRules ∧ ReportRule ∧ ResetRule ∧ ResetCauses ∧ SignedForms ∧ BadSignature

/-! ## The network -/

namespace Sys2Proof.Claims

/-- The state with the device's counters changed. -/
def counted (s : State) (f : Counters → Counters) : State := { s with root := { s.root with counters := f s.root.counters } }

/-- R16 to R19, R50: what the network engine discards and counts; a packet that is not RoCEv2, but for an address and VLAN of a tenant, goes to
its sockets. -/
inductive Discarded (s : State) : Instr → State → Prop
  | transport : Discarded s .unsupportedTransportPacket (counted s fun c => { c with transp := c.transp + 1 })
  | icrc : Discarded s .icrcFailPacket (counted s fun c => { c with icrc := c.icrc + 1 })
  | noTenant (f ip vlan : Nat) : f < 2 → ¬ (ip = s.root.fuses.recIp ∧ vlan = s.root.fuses.recVlan) → (∀ e ∈ s.tenants, ¬ (ip ∈ e.2.ips ∧ e.2.vlans[f]? = some vlan)) →
      Discarded s (.noTenantPacket f ip vlan) (counted s fun c => { c with notenant := c.notenant + 1 })
  | socket (f ip vlan t : Nat) (bs : List Byte) (x : Tenant) : f < 2 → s.tenant? t = some x → ip ∈ x.ips → x.vlans[f]? = some vlan →
      (∀ e ∈ s.tenants, e.1 ≠ t → ¬ (ip ∈ e.2.ips ∧ e.2.vlans[f]? = some vlan)) → keysRise s.tenants = true →
      Discarded s (.socketPacket f ip vlan bs) { s with tenants := aset s.tenants t { x with sockets := x.sockets ++ [bs] } }
  | pause0 : Discarded s (.pauseFrame 0) (counted s fun c => { c with pause0 := c.pause0 + 1 })
  | pause1 : Discarded s (.pauseFrame 1) (counted s fun c => { c with pause1 := c.pause1 + 1 })
  | timeSync0 : Discarded s (.timeSyncFrame 0) (counted s fun c => { c with tsync0 := c.tsync0 + 1 })
  | timeSync1 : Discarded s (.timeSyncFrame 1) (counted s fun c => { c with tsync1 := c.tsync1 + 1 })
  | fabric (p e : Nat) : p < 16 → e ≠ 0x88B5 →
      Discarded s (.fabricTypeDiscard p e) (counted s fun c => { c with fabtype := c.fabtype + 1 })

/-- A connection that exists and is not in the error state. -/
def ConnUp (s : State) (c : Conn) (q : Qp) : Prop :=
  q.error = false ∧ match c with
    | .tenant t i => ∃ x, s.tenant? t = some x ∧ aget x.qps i = some q
    | .mgmt i => aget s.root.mgmtConns i = some q

/-- A request refused with Remote Access Error, and counted at its tenant (R19, R50). -/
def accessRefused (s : State) (c : Conn) : State :=
  match c with
  | .tenant t _ => (s.send (.nak c false)).updTenant t fun x => { x with rdmanak := x.rdmanak + 1 }
  | .mgmt _ => s.send (.nak c false)

/-- The bytes of a request, written (R43, R62, R203): at the home slices of a tenant's window that grants write and bit 3, or in the
management window; what an RDMA WRITE among them notifies is noted, and a SEND notifies nothing. None where they do not lie there. -/
def Arrives (s : State) (c : Conn) (a : Nat) (bs : List Byte) (write : Bool) (s1 : Option State) : Prop :=
  match c with
  | .tenant t _ => ∃ x, s.tenant? t = some x ∧
      (s.rootRange x 0xA#4 a bs.length = none → s1 = none) ∧
      ∀ l, s.rootRange x 0xA#4 a bs.length = some l →
        let put := s.homeWrite ((pieceAddrs l).zip bs)
        s1 = some (if (pieceAddrs l).zip bs = [] then s else if write = true then put.notice t ((pieceAddrs l).zip bs) else put)
  | .mgmt _ => s1 = if a + bs.length ≤ 2 ^ 28 then
      some { s with root := { s.root with mgmtMem := memSetN s.root.mgmtMem a bs,
                                          notices := if write = true then s.root.notices ++ noticesOf none 0 (bytesAt a bs)
                                                     else s.root.notices } } else none

/-- R43: a write of a whole TAIL word, or of a QENABLE byte, of a queue's descriptor is noticed, and QENABLE comes first; one that covers neither
of any queue is not. -/
def NoticeRule : Prop :=
  (∀ (o : Option Nat) (base q i : Nat) (bs : List Byte), q < (if o.isSome then 32 else 1) → bs.length = 4 → i = base + 32 * q + 0x10 →
    noticesOf o base (bytesAt i bs) = [{ q := (match o with | some t => .tenant t q | none => .mgmt), enable := false }]) ∧
  (∀ (o : Option Nat) (base q i : Nat) (b : Byte), q < (if o.isSome then 32 else 1) → i = base + 32 * q + 0xA →
    noticesOf o base (bytesAt i [b]) = [{ q := (match o with | some t => .tenant t q | none => .mgmt), enable := true }]) ∧
  (∀ (base q i : Nat) (bs : List Byte) (t : Nat), q < 32 → bs.length = 32 → i = base + 32 * q →
    noticesOf (some t) base (bytesAt i bs) = [{ q := .tenant t q, enable := true }, { q := .tenant t q, enable := false }]) ∧
  ∀ (o : Option Nat) (base i : Nat) (bs : List Byte), (∀ q, q < 32 → ¬ (i ≤ base + 32 * q + 0xA ∧ base + 32 * q + 0xA < i + bs.length)) →
    (∀ q, q < 32 → ¬ (i ≤ base + 32 * q + 0x10 ∧ base + 32 * q + 0x14 ≤ i + bs.length)) → noticesOf o base (bytesAt i bs) = []

/-- R18, R19, R40, R50, R62, R203: RDMA requests: a WRITE, or a SEND that places data, is performed or refused whole; a READ answers with
the bytes, or is refused; an atomic is answered with Invalid Request; and where there is no connection any more, or one in the error state (the choice of the model, log entry 89), each is refused. -/
def RequestForms : Prop :=
  ∀ (s : State) (c : Conn), s.root.phase = .running →
    (∀ q, ConnUp s c q →
      (∀ a bs imm s1, Arrives s c a bs true (some s1) → exec (.rdmaWrite c true a bs imm) s = .next (s1.send (.ack c))) ∧
      (∀ a bs imm s1, Arrives s c a bs false (some s1) → exec (.rdmaSend c (some a) bs imm) s = .next (s1.send (.ack c))) ∧
      (∀ a bs imm, Arrives s c a bs true none → exec (.rdmaWrite c true a bs imm) s = .next (accessRefused s c)) ∧
      (∀ a bs imm, Arrives s c a bs false none → exec (.rdmaSend c (some a) bs imm) s = .next (accessRefused s c)) ∧
      (∀ a bs imm, exec (.rdmaWrite c false a bs imm) s = .next (accessRefused s c)) ∧
      (∀ bs imm, exec (.rdmaSend c none bs imm) s = .next (s.send (.ack c))) ∧
      (∀ a n bs, s.ownRead (connOwner c) 9#4 a n = some bs → exec (.rdmaRead c true a n) s = .next (s.send (.readData c bs))) ∧
      (∀ a n, s.ownRead (connOwner c) 9#4 a n = none → exec (.rdmaRead c true a n) s = .next (accessRefused s c)) ∧
      (∀ a n, exec (.rdmaRead c false a n) s = .next (accessRefused s c)) ∧
      exec (.rdmaAtomicRequest c) s = .next (s.send (.nak c true))) ∧
    ((∀ q, ¬ ConnUp s c q) → ∀ i, (∃ k a bs imm, i = .rdmaWrite c k a bs imm) ∨ (∃ p bs imm, i = .rdmaSend c p bs imm) ∨
      (∃ k a n, i = .rdmaRead c k a n) ∨ i = .rdmaAtomicRequest c → exec i s = .next (accessRefused s c))

/-- Queue pairs in use on the device, with those of the management channel (R18). -/
def DeviceQps (s : State) : Nat := (s.tenants.map fun e => e.2.qps.length).sum + s.root.mgmtConns.length

/-- R18, R20, R38, R405: a tenant's connections: set up within the quota and the device's limits; a timeout counts a retry and sends again; one
that has used up its retries is in error, and its tenant is told; congestion is answered, and obeyed. -/
def ConnectionForms : Prop :=
  ∀ (s : State) (t : Nat) (x : Tenant), s.tenant? t = some x →
    let withQp (i : Nat) (q : Qp) : State := { s with tenants := aset s.tenants t { x with qps := aset x.qps i q } }
    (∀ f n i, s.root.phase = .running → f < 2 → s.root.frontlink.getLsbD f = true → x.qps.length < min x.quota.qpq 256 →
      DeviceQps s < 4096 → i < 256 → aget x.qps i = none → (∀ k, k < i → (aget x.qps k).isSome = true) →
      exec (.rcConnectionSetup t f n) s =
        .next (withQp i { front := f, retries := 0, limit := n, error := false, cuts := 0, retrying := false })) ∧
    (∀ f n, min x.quota.qpq 256 ≤ x.qps.length ∨ 4096 ≤ DeviceQps s → exec (.rcConnectionSetup t f n) s = .next s) ∧
    (∀ i q, aget x.qps i = some q → q.error = false →
      (q.retries < q.limit → exec (.rcTransportTimeout (some t) i) s =
        .next ((withQp i { q with retries := q.retries + 1, retrying := true }).send (.retransmit (.tenant t i)))) ∧
      (q.limit ≤ q.retries → q.retrying = true → exec (.rcRetryExhausted (some t) i) s =
        .next ((withQp i { q with error := true }).emit (some t) (eventBytes 2 3 0x13 i 0 0xFF 0 0 0) none)) ∧
      (q.retries < q.limit → exec (.rcRetryExhausted (some t) i) s = .next s) ∧
      exec (.ecnMarkedPacket (.tenant t i)) s = .next (s.send (.cnp (.tenant t i))) ∧
      exec (.cnp (.tenant t i)) s = .next (withQp i { q with cuts := q.cuts + 1 }))

/-- R18, R20, R25, R62: the connections of the management channel, at the address fused for recovery: up to 4 at once while firmware runs, one on
front port 0 in recovery, all within the device's limit; they time out and end as a tenant's do, and have nobody to tell. -/
def MgmtConnections : Prop :=
  ∀ (s : State), let withQp (i : Nat) (q : Qp) : State := { s with root := { s.root with mgmtConns := aset s.root.mgmtConns i q } }
    let here (f ip vlan : Nat) : Prop := ip = s.root.fuses.recIp ∧ vlan = s.root.fuses.recVlan ∧ f < 2 ∧ s.root.frontlink.getLsbD f = true ∧
      (s.root.phase = .running ∨ s.root.phase = .recovery ∧ f = 0)
    let most := if s.root.phase = .running then 4 else 1
    (∀ f ip vlan n i, here f ip vlan → DeviceQps s < 4096 → i < most → aget s.root.mgmtConns i = none →
      (∀ k, k < i → (aget s.root.mgmtConns k).isSome = true) → exec (.mgmtConnectionSetup ⟨f, ip, vlan, n⟩) s =
        .next (withQp i { front := f, retries := 0, limit := n, error := false, cuts := 0, retrying := false })) ∧
    (∀ f ip vlan n, ¬ here f ip vlan ∨ 4096 ≤ DeviceQps s ∨ (∀ k, k < most → (aget s.root.mgmtConns k).isSome = true) →
      exec (.mgmtConnectionSetup ⟨f, ip, vlan, n⟩) s = .next s) ∧
    ∀ i q, aget s.root.mgmtConns i = some q → q.error = false →
      (q.retries < q.limit → exec (.rcTransportTimeout none i) s =
        .next ((withQp i { q with retries := q.retries + 1, retrying := true }).send (.retransmit (.mgmt i)))) ∧
      (q.limit ≤ q.retries → q.retrying = true → exec (.rcRetryExhausted none i) s = .next (withQp i { q with error := true })) ∧
      exec (.ecnMarkedPacket (.mgmt i)) s = .next (s.send (.cnp (.mgmt i))) ∧
      exec (.cnp (.mgmt i)) s = .next (withQp i { q with cuts := q.cuts + 1 })

end Sys2Proof.Claims

/-- R16 to R20, R25, R38, R40, R43, R50, R62, R203, R405: what the network engine does with frames, packets, requests and connections. What it
takes from the choices of the model is named in notes/assumptions/1.md, 53.md, 64.md, 65.md, 84.md, 89.md. -/
def Obligations.NetworkForms : Prop :=
  (∀ (s s' : State) (i : Instr), s.root.phase = .running → Discarded s i s' → exec i s = .next s') ∧ NoticeRule ∧ RequestForms ∧
    ConnectionForms ∧ MgmtConnections

/-! ## Tenants -/

namespace Sys2Proof.Claims

/-- Two physical ranges, each as base and size, are apart. -/
def Apart (a b : Nat × Nat) : Prop := a.1 + a.2 ≤ b.1 ∨ b.1 + b.2 ≤ a.1

/-- The windows that the hypervisor accepts for a new tenant (R39 to R41). -/
def WindowsAccepted (s : State) (l : List Window) : Prop :=
  1 ≤ l.length ∧ l.length ≤ 16 ∧
  (∀ w ∈ l, w.wstart % 65536 = 0 ∧ w.wend % 65536 = 0 ∧ w.reloc % 65536 = 0 ∧ w.wstart < w.wend ∧ w.wend ≤ 2 ^ 48 ∧
    w.reloc + (w.wend - w.wstart) ≤ 0x3000000000 ∧ Apart s.root.reserve (w.reloc, w.wend - w.wstart) ∧
    (∀ e ∈ s.tenants, ∀ v ∈ s.rootWindows e.2, Apart (v.reloc, v.wend - v.wstart) (w.reloc, w.wend - w.wstart)) ∧
    ∀ e ∈ s.root.scrubbing, Apart (e.2.reloc, e.2.wend - e.2.wstart) (w.reloc, w.wend - w.wstart)) ∧
  l.Pairwise (fun v w => Apart (v.wstart, v.wend - v.wstart) (w.wstart, w.wend - w.wstart)) ∧
  ∃ w, l.head? = some w ∧ 65536 ≤ w.wend - w.wstart ∧ w.perm &&& 11#4 = 11#4

/-- R37 to R41, R91, R112, R151, R240: a tenant is created with a configuration that the hypervisor accepts: its windows stand in Root's
table, its control block is zero, and it has Bowline, measured as the firmware's image of it, and nothing else. A configuration that it refuses changes nothing. -/
def TenantCreation : Prop :=
  ∀ (s : State) (c : TenantCfg), s.root.phase = .running → s.root.hvstate = 0#4 → s.root.fuses.lcstate ≠ 3#2 →
    let q := c.quota
    let ok := c.num < 16 ∧ s.tenant? c.num = none ∧ WindowsAccepted s c.windows ∧ q.groveq ≤ 9216 ∧ q.accq ≤ 6144 ∧ q.scratchq ≤ 49152 ∧
      q.slotq ≤ 786432 ∧ q.commq ≤ 4096 ∧ q.qpq ≤ 256 ∧ q.tcacheq % 65536 = 0 ∧ 1 ≤ c.cores.length ∧ (∀ k ∈ c.cores, k < 384) ∧
      c.cores.Nodup ∧ 2 ^ 16 ≤ c.quantum ∧ c.quantum ≤ 2 ^ 40 ∧ 1 ≤ c.ips.length ∧ c.vlans.length = 2 ∧
      (∃ w ∈ c.windows, w.wstart ≤ c.objArea ∧ c.objArea < w.wend) ∧ c.objArea + q.tcacheq ≤ c.cacheArea
    (ok → c.bankModes = [] → c.bankOwn = [] → ∃ s' x, exec (.tenantCreate c) s = .next s' ∧ s'.tenant? c.num = some x ∧
      s'.rootWindows x = c.windows ∧ x.quota = q ∧ x.cores = c.cores ∧ x.quantum = c.quantum ∧ x.winbase = 0#64 ∧ x.winlim = 0#64 ∧
      x.ptbase = 0#64 ∧ x.board = 0#4096 ∧ x.comms = [] ∧ x.objects = [] ∧ x.armed = [] ∧ x.qps = [] ∧ x.tlb = [] ∧
      (∀ k, k < 32 → aget x.queues k = some emptyQueue) ∧ x.supv.tvecS = c.supvBase &&& 0xFFFFFFFFFE00#64 ∧
      x.supv.meas = s.root.bowlineMeas ∧ x.supv.init = none ∧ x.supv.rerun = true ∧ x.supv.banks = c.bankModes ∧ x.objBase = c.objArea ∧
      x.objTop = c.objArea ∧ x.cacheBase = c.cacheArea ∧ x.tcache = [] ∧ (∀ w, w ∈ s'.root.flows ↔ w ∈ s.root.flows ∧ w.ref.tenant ≠ c.num) ∧ x.knotdisc = 0#64 ∧ x.rdmanak = 0#64 ∧ x.evlost = 0#64 ∧
      (∀ n, (aget x.fds n).isSome = decide (n < 3)) ∧
      (∀ w, c.windows.head? = some w → ∀ i, i < 4096 → s.mem.wf = true → memGet s'.mem (w.reloc + i) = 0#8) ∧
      (∀ w, c.windows.head? = some w → ∀ a, a < w.reloc ∨ w.reloc + 4096 ≤ a → memGet s'.mem a = memGet s.mem a) ∧
      (∀ k, k ≠ c.num → s'.tenant? k = s.tenant? k) ∧ s'.teams = s.teams ∧ s'.launches = s.launches) ∧
    (¬ ok → exec (.tenantCreate c) s = .next s)

/-- R61: a tenant in no communicator, whose teams have drained, is torn down: it is gone with its teams, its launches, its partitions
and its notices; its windows await their scrub, and no cluster holds a byte of them dirty; every other tenant is as it was. While a
team of the tenant still drains, it stays. -/
def TenantTeardown : Prop :=
  ∀ (s : State) (t : Nat) (x : Tenant), s.tenant? t = some x →
    ((∃ e ∈ s.teams, e.2.tenant = t ∧ ((∃ c ∈ e.2.ctxs, c.cmds ≠ []) ∨ ∃ g ∈ e.2.groups, g.2.drained = false)) →
      exec (.tenantTeardown t) s = .next s) ∧
    ((∀ e ∈ s.teams, e.2.tenant = t → (∀ c ∈ e.2.ctxs, c.cmds = []) ∧ ∀ g ∈ e.2.groups, g.2.drained = true) →
      keysRise s.tenants = true → x.comms = [] →
      ∃ s', exec (.tenantTeardown t) s = .next s' ∧ s'.tenant? t = none ∧ (∀ k, k ≠ t → s'.tenant? k = s.tenant? k) ∧
        s'.teams = s.teams.filter (fun e => e.2.tenant != t) ∧ s'.launches = s.launches.filter (fun e => e.2.tenant != t) ∧
        s'.root.scrubbing = s.root.scrubbing ++ (s.rootWindows x).map (fun w => (t, w)) ∧
        (∀ e ∈ s'.root.windows, e.1 / 16 ≠ t) ∧ (∀ c, ∀ e ∈ (s'.core c).parts, ∀ k y, s.team? k = some y → y.tenant = t → e.2.owner ≠ k) ∧
        (∀ n ∈ s'.root.notices, queueOwner n.q ≠ some t) ∧
        (∀ c, c < 48 → ∀ e ∈ (s'.cluster c).dirty, ∀ w ∈ s.rootWindows x, e.1 < w.reloc ∨ w.reloc + (w.wend - w.wstart) ≤ e.1))

/-- R35, R36, R40, R61: the scrub of a tenant's windows leaves each byte of them zero, and none outside them changed, and the windows
are free. -/
def TenantScrub : Prop :=
  ∀ (s : State) (t : Nat), s.mem.wf = true → ∃ s', exec (.tenantScrub t) s = .next s' ∧
    (∀ a, (∃ e ∈ s.root.scrubbing, e.1 = t ∧ e.2.reloc ≤ a ∧ a < e.2.reloc + (e.2.wend - e.2.wstart)) → memGet s'.mem a = 0#8) ∧
    (∀ a, (∀ e ∈ s.root.scrubbing, e.1 = t → a < e.2.reloc ∨ e.2.reloc + (e.2.wend - e.2.wstart) ≤ a) →
      memGet s'.mem a = memGet s.mem a) ∧
    (∀ e, e ∈ s'.root.scrubbing ↔ e ∈ s.root.scrubbing ∧ e.1 ≠ t) ∧ s'.tenants = s.tenants ∧ s'.clusters = s.clusters

/-- R28, R240, R276: a pending installation becomes active once no team of the tenant is resident: TVEC_S and the measurement are the
image's, and its initialisation team stands on the lowest core of the tenant's set, both streams in supervisor mode, at supv.init;
while a team is resident it stays pending. An image that came into force without one runs its initialisation: Bowline, which has no entry, puts its
page tables in force (the choice of log entry 81), and another image its team. -/
def InstallActivates : Prop :=
  ∀ (s : State) (t : Nat) (x : Tenant), s.tenant? t = some x →
    ((∃ e ∈ s.teams, e.2.tenant = t ∧ e.2.hv = none) → exec (.supvInstallActivate t) s = .next s) ∧
    ((∀ e ∈ s.teams, e.2.tenant = t → e.2.hv ≠ none) → x.supv.rerun = true → x.supv.init = none → x.supv.banks = [] →
      let y : Tenant := { x with supv := { x.supv with rerun := false }, vendorMap := true, tlb := [],
                                 ptbase := (Config.bowlineTable t &&& 0xFFFFFFFFF001#64) ||| 1#64 }
      exec (.supvInstallActivate t) s = .next { s with tenants := aset s.tenants t y }) ∧
    (∀ i core, (∀ e ∈ s.teams, e.2.tenant = t → e.2.hv ≠ none) → x.supv.rerun = true → x.supv.init = some i → core ∈ x.cores →
      (∀ c ∈ x.cores, core ≤ c) → s.roomOn initNeed core noneGone = true →
      ∃ s' x' y g, exec (.supvInstallActivate t) s = .next s' ∧ s'.tenant? t = some x' ∧ x'.supv = { x.supv with rerun := false } ∧
        s'.team? s.nextKey = some y ∧ y.isInit = true ∧ y.core = core ∧ y.tenant = t ∧ y.groups = [(0, g)] ∧ g.pc = i ∧ g.mode = .supervisor) ∧
    ∀ h o v i core, (∀ e ∈ s.teams, e.2.tenant = t → e.2.hv ≠ none) → x.supv.rerun = false → x.supv.pending = some h →
      aget x.objects h = some o → o.supervisor = some (v, i) → core ∈ x.cores → (∀ c ∈ x.cores, core ≤ c) →
      s.roomOn initNeed core noneGone = true →
      ∃ s' x' y g, exec (.supvInstallActivate t) s = .next s' ∧ s'.tenant? t = some x' ∧
        x'.supv.tvecS = BitVec.ofNat 64 v &&& 0xFFFFFFFFFE00#64 ∧ x'.supv.meas = o.digest ∧ x'.supv.pending = none ∧
        x'.winbase = x.cfgBase ∧ x'.winlim = x.cfgLim ∧ x'.vendorMap = false ∧ (x.vendorMap = true → x'.ptbase = 0#64) ∧
        (x.vendorMap = false → x'.ptbase = x.ptbase) ∧ x'.supv.previous = some (x.supv.tvecS, x.supv.meas, x.supv.init) ∧ x'.supv.init = some (BitVec.ofNat 64 i) ∧
        s'.team? s.nextKey = some y ∧ y.isInit = true ∧ y.core = core ∧ y.tenant = t ∧ y.launch = none ∧ y.scratchBytes = 0 ∧
        y.accs = [] ∧ y.parts = [] ∧ y.groups = [(0, g)] ∧ g.allot = 8 ∧ g.pc = BitVec.ofNat 64 i ∧ g.mode = .supervisor ∧
        (∀ d, g.sreg d = 0#64) ∧ g.vregs = [] ∧ s'.mem = s.mem ∧ s'.supvBusy t = true

/-- R170, R171, R287: Bowline's page tables map the object area at equal virtual addresses: user mode reads and fetches its sections and writes
.data and .bss, and a page with neither of those is not writable. -/
def BowlineMapping : Prop :=
  ∀ (s : State) (t core va : Nat) (x : Tenant) (o : CodeObj) (h typ a n : Nat), s.tenant? t = some x → x.vendorMap = true → x.tlb = [] →
    (h, o) ∈ x.objects → (typ, a, n) ∈ o.sections → a ≤ va → va < a + n → va < 2 ^ 48 →
    (∀ need, need = 1#4 ∨ need = 4#4 ∨ (need = 2#4 ∧ (typ = 4 ∨ typ = 6)) →
      s.translate t core .user va need = stageTwo (s.coreWindows x) va need) ∧
    ((∀ e ∈ x.objects, ∀ y ∈ e.2.sections, y.1 = 4 ∨ y.1 = 6 → y.2.1 / 65536 ≤ va / 65536 → (y.2.1 + y.2.2 - 1) / 65536 < va / 65536 ∨ y.2.2 = 0) →
      s.translate t core .user va 2#4 = .fail 3 va)

end Sys2Proof.Claims

/-- R28, R35 to R41, R61, R91, R112, R151, R170, R171, R240, R276, R287: tenants from their creation to their scrub, and their supervisors.
What it takes from the choices of the model is named in notes/assumptions/41.md, 58.md, 59.md, 71.md, 81.md. -/
def Obligations.TenantForms : Prop := TenantCreation ∧ TenantTeardown ∧ TenantScrub ∧ InstallActivates ∧ BowlineMapping

/-! ## The vendor's handlers -/

namespace Sys2Proof.Claims

/-- Stream `st` of group `r` stands at the entry of a handler of mode `m`, with its current frame `p`, and no latch run of another fragment is under
way (R99, R223, R225, R226). -/
structure AtHandler (s : State) (r : GRef) (st : StreamRef) (m : Mode) (t : Team) (g : Group) (p : Nat) (fr : TrapFrame) : Prop where
  team   : s.team? r.team = some t
  group  : s.group? r = some g
  frame  : aget g.traps p = some fr
  stream : match st with
    | .scalar => scalarMayIssue t g = true ∧ g.trap = some p ∧ g.mode = m ∧
        g.pc = (if m = .hypervisor then s.root.tvecH else ((s.tenant? t.tenant).map (·.supv.tvecS)).getD 0#64)
    | .lane fid => ∃ f, aget g.frags fid = some f ∧ laneMayIssue t g fid f = true ∧ f.handler = some p ∧ f.mode = m ∧ f.frame = none ∧
        f.pc = (if m = .hypervisor then s.root.tvecH else ((s.tenant? t.tenant).map (·.supv.tvecS)).getD 0#64) + 0x100 ∧
        (inLatchRun s t g = false ∨ ∀ x, g.run = some x → x.frag = fid)

/-- The waiting fragments of frame `p`, with `fid` among them, make up the call set (R229); a scalar frame waits for no lane. -/
def wholeCall (st : StreamRef) (g : Group) (p : Nat) (fr : TrapFrame) : Bool :=
  match st with
  | .scalar => true
  | .lane fid => ((moved g fid fun f => { f with wait := .tret }).frags.filter fun e => e.2.handler == some p && e.2.wait == .tret).foldl
      (fun m e => m ||| e.2.span) 0#96 == fr.callmask

/-- The state once the handler has returned without END (R110, R229): `s1` and `g1` are the state and the group as its work leaves them. -/
def handedBack (s1 : State) (r : GRef) (st : StreamRef) (t : Team) (g1 : Group) (p : Nat) (fr : TrapFrame) : State :=
  let sys := fr.cause == .syscall
  let there : State := { s1 with focus := r }
  let out : State := match st with
    | .scalar => withGroup there t { g1 with
        traps := adel g1.traps p, trap := fr.prev, pc := fr.epc, mode := fr.pmode, syncing := false, held := false,
        ordered := g1.ordered.filter (·.stream != .scalar), stopped := g1.stopped || (t.halt.isSome && fr.pmode == .user), lclock := g1.lclock + BitVec.ofNat 64 (one sys) } sys
    | .lane fid =>
      let g2 := { moved g1 fid fun f => { f with wait := .tret } with running := none }
      let waits (x : Fragment) : Bool := x.handler == some p && x.wait == .tret
      let back (k : Nat) (x : Fragment) : Fragment :=
        let x := if x.parkedBy = some p then { x with parkedBy := none } else x
        if some k = fr.frag then { x with pc := fr.epc, fmtr := fr.fmtr, mode := fr.pmode } else x
      if wholeCall st g1 p fr then laneNext there { t with quantum := t.quantum + one sys }
        { g2 with traps := adel g2.traps p, running := fr.frag, frags := amap (g2.frags.filter fun e => !waits e.2) back,
                  lclock := g2.lclock + BitVec.ofNat 64 (one sys) } fid false false none true
      else laneNext there t g2 fid false false none true
  { out with focus := s1.focus, stream := s1.stream }

/-- The state once the handler has returned with END under a halt (R229, R233): the stream is done, and the team ends as the halt does. -/
def endedUnder (s1 : State) (r : GRef) (st : StreamRef) (t : Team) (g1 : Group) (p : Nat) (fr : TrapFrame) (hl : Halt) : State :=
  let there : State := { s1 with focus := r }
  let ends : Team := { t with halt := some (willEnd hl fr) }
  let out : State := match st with
    | .scalar => withGroup there ends (scalarStops g1 p fr) false
    | .lane fid => laneNext there ends (laneStops g1 p fr) fid false false none true
  { out with focus := s1.focus, stream := s1.stream }

/-- What a request to install object `h` as the tenant's supervisor answers: −6 for an object that is no supervisor image, −4 where
teams are in its way or an installation is pending, else 0, and it is pending (R239, R240). -/
inductive InstallAnswer (s : State) (t h : Nat) (busy : Bool) : State → Int → Prop
  | inval (x : Tenant) : s.tenant? t = some x → (aget x.objects h).bind (·.supervisor) = none → InstallAnswer s t h busy s (-6)
  | busy (x : Tenant) (v : Nat × Nat) : s.tenant? t = some x → (aget x.objects h).bind (·.supervisor) = some v →
      busy = true ∨ x.supv.pending ≠ none → InstallAnswer s t h busy s (-4)
  | pending (x : Tenant) (v : Nat × Nat) : s.tenant? t = some x → (aget x.objects h).bind (·.supervisor) = some v →
      busy = false → x.supv.pending = none →
      InstallAnswer s t h busy { s with tenants := aset s.tenants t { x with supv := { x.supv with pending := some h } } } 0

/-- R226, R229, R233, R240: the vendor hypervisor's two calls: SUPV_INSTALL answers in ks3 and returns; TEAM_END answers 0, and its tret ends the
team, under a halt as that does. -/
def HypervisorCalls : Prop :=
  ∀ (s : State) (r : GRef) (st : StreamRef) (t : Team) (g : Group) (p : Nat) (fr : TrapFrame), AtHandler s r st .hypervisor t g p fr →
    fr.cause = .hcall →
    (∀ s1 v, fr.fin = false → fr.causeWord.toNat / 2 ^ 32 = 1 →
      InstallAnswer s t.tenant ((aget g.ks 3).getD 0#64).toNat false s1 v →
      exec (.supvInstall r st) s = .next (handedBack s1 r st t { g with ks := aset g.ks 3 (BitVec.ofInt 64 v) } p fr)) ∧
    (fr.causeWord.toNat / 2 ^ 32 = 2 → wholeCall st g p fr = true → t.halt = none →
      ∃ s' t', exec (.teamEndCall r st) s = .next s' ∧ s'.team? r.team = some t' ∧ t'.ended = true ∧
        ∀ e ∈ t'.groups, e.2.exited = true) ∧
    (fr.causeWord.toNat / 2 ^ 32 = 2 → wholeCall st g p fr = true → ∀ hl, t.halt = some hl →
      exec (.teamEndCall r st) s = .next (endedUnder s r st t { g with ks := aset g.ks 3 0#64 } p fr hl))

/-- The kind of the tenant's open descriptor: 0 and 1 the console's input and output, 2 a file, 3 and 4 a TCP and a UDP socket. -/
def fdKind (s : State) (t : Nat) (a : W32) : Option Nat := (s.tenant? t).bind fun x => (aget x.fds a.toNat).map (·.kind)

/-- The state with a new descriptor of a kind, the lowest-numbered that is free. -/
def WithFd (s : State) (t kind n : Nat) (s' : State) : Prop :=
  ∃ x, s.tenant? t = some x ∧ n < 1024 ∧ aget x.fds n = none ∧ (∀ k, k < n → (aget x.fds k).isSome = true) ∧
    s' = { s with tenants := aset s.tenants t { x with fds := aset x.fds n { kind := kind } } }

/-- All 1024 descriptors are open. -/
def FdsFull (s : State) (t : Nat) : Prop := ∃ x, s.tenant? t = some x ∧ ∀ k, k < 1024 → (aget x.fds k).isSome = true

/-- The virtual address in two arguments. -/
def argAt (a : Nat → W32) (i : Nat) : Nat := (a i).toNat + 2 ^ 32 * (a (i + 1)).toNat

/-- The physical addresses of a range of supervisor addresses of a call on core `k`; none where a byte is not mapped. -/
def CallMaps (s : State) (t k va n : Nat) (need : Need) (o : Option (List Nat)) : Prop :=
  match s.translateRange t k .supervisor va n need with
  | .ok (some l) => o = some (pieceAddrs l)
  | .ok none => False
  | .error _ => o = none

/-- The group that a call serves may access the bytes now: no acquire of it is outstanding, and no access of it to one of them (R198, R357). -/
def BytesHere (s : State) (r : GRef) (l : List Nat) : Prop := ∀ g, s.group? r = some g → g.noAcquire = true ∧ g.bytesFree false l = true

/-- The bytes that a call on core `k` reads at an address, as the core's cluster finds them. -/
def CallReads (s : State) (r : GRef) (t k va n : Nat) (bs : List Byte) : Prop :=
  ∃ l, CallMaps s t k va n 1#4 (some l) ∧ BytesHere s r l ∧ bs = l.map (s.cachedByte (k / 8))

/-- One Bowline call of group `r` of tenant `t` on core `c`, with arguments `a` and the replies `rs` of the services behind it: the state after,
its result, and the replies left (R239). To the console go the bytes themselves, all of them (log entry 94); what the other services are told is free (notes/assumptions/7.md). -/
inductive Served (r : GRef) (c t : Nat) (a : Nat → W32) (s : State) (rs : List Reply) : Nat → State → Int → List Reply → Prop
  | readBadf : fdKind s t (a 0) = none ∨ fdKind s t (a 0) = some 1 → Served r c t a s rs 1 s (-1) rs
  | readLong (k : Nat) : fdKind s t (a 0) = some k → k ≠ 1 → 2 ^ 24 < (a 3).toNat → Served r c t a s rs 1 s (-6) rs
  | readFault (k : Nat) : fdKind s t (a 0) = some k → k ≠ 1 → (a 3).toNat ≤ 2 ^ 24 →
      CallMaps s t c (argAt a 1) (a 3).toNat 2#4 none → Served r c t a s rs 1 s (-2) rs
  | read (k : Nat) (l : List Nat) (bs : List Byte) (rs' : List Reply) : fdKind s t (a 0) = some k → k ≠ 1 →
      (a 3).toNat ≤ 2 ^ 24 → CallMaps s t c (argAt a 1) (a 3).toNat 2#4 (some l) → rs = .bytes bs :: rs' →
      bs.length ≤ (a 3).toNat → BytesHere s r (l.take bs.length) →
      Served r c t a s rs 1
        (let s1 := s.send (.service t 1 (a 0).toNat (Config.serviceRequest 1 (leBytes 4 (a 3).toNat)))
         if bs = [] then s1 else s1.storeBytes r (c / 8) false (l.zip bs)) bs.length rs'
  | readError (k : Nat) (l : List Nat) (e : Int) (rs' : List Reply) : fdKind s t (a 0) = some k → k ≠ 1 →
      (a 3).toNat ≤ 2 ^ 24 → CallMaps s t c (argAt a 1) (a 3).toNat 2#4 (some l) → rs = .error e :: rs' →
      -9 ≤ e → e ≤ -1 →
      Served r c t a s rs 1 (s.send (.service t 1 (a 0).toNat (Config.serviceRequest 1 (leBytes 4 (a 3).toNat)))) e rs'
  | writeBadf : fdKind s t (a 0) = none ∨ fdKind s t (a 0) = some 0 → Served r c t a s rs 2 s (-1) rs
  | writeLong (k : Nat) : fdKind s t (a 0) = some k → k ≠ 0 → 2 ^ 24 < (a 3).toNat → Served r c t a s rs 2 s (-6) rs
  | writeFault (k : Nat) : fdKind s t (a 0) = some k → k ≠ 0 → (a 3).toNat ≤ 2 ^ 24 → CallMaps s t c (argAt a 1) (a 3).toNat 1#4 none →
      Served r c t a s rs 2 s (-2) rs
  | writeConsole (bs : List Byte) : fdKind s t (a 0) = some 1 → (a 3).toNat ≤ 2 ^ 24 →
      CallReads s r t c (argAt a 1) (a 3).toNat bs → Served r c t a s rs 2 (s.send (.console t (a 0).toNat bs)) (a 3).toNat rs
  | write (k n : Nat) (bs : List Byte) (rs' : List Reply) : fdKind s t (a 0) = some k → 1 < k → (a 3).toNat ≤ 2 ^ 24 →
      CallReads s r t c (argAt a 1) (a 3).toNat bs → rs = .done n :: rs' → n ≤ (a 3).toNat →
      Served r c t a s rs 2 (s.send (.service t 2 (a 0).toNat (Config.serviceRequest 2 bs))) n rs'
  | writeError (k : Nat) (bs : List Byte) (e : Int) (rs' : List Reply) : fdKind s t (a 0) = some k → 1 < k → (a 3).toNat ≤ 2 ^ 24 →
      CallReads s r t c (argAt a 1) (a 3).toNat bs → rs = .error e :: rs' → -9 ≤ e → e ≤ -1 →
      Served r c t a s rs 2 (s.send (.service t 2 (a 0).toNat (Config.serviceRequest 2 bs))) e rs'
  | openInval : (a 2).toNat = 0 ∨ 1024 < (a 2).toNat ∨ 16 ≤ (a 3).toNat → Served r c t a s rs 3 s (-6) rs
  | openFault : 1 ≤ (a 2).toNat → (a 2).toNat ≤ 1024 → (a 3).toNat < 16 → CallMaps s t c (argAt a 0) (a 2).toNat 1#4 none →
      Served r c t a s rs 3 s (-2) rs
  | openFull (l : List Nat) : 1 ≤ (a 2).toNat → (a 2).toNat ≤ 1024 → (a 3).toNat < 16 →
      CallMaps s t c (argAt a 0) (a 2).toNat 1#4 (some l) → FdsFull s t → Served r c t a s rs 3 s (-9) rs
  | opened (bs : List Byte) (k n : Nat) (rs' : List Reply) (s' : State) : 1 ≤ (a 2).toNat → (a 2).toNat ≤ 1024 → (a 3).toNat < 16 →
      CallReads s r t c (argAt a 0) (a 2).toNat bs → rs = .done k :: rs' →
      WithFd (s.send (.service t 3 (a 3).toNat (Config.serviceRequest 3 bs))) t 2 n s' → Served r c t a s rs 3 s' n rs'
  | openError (bs : List Byte) (e : Int) (rs' : List Reply) : 1 ≤ (a 2).toNat → (a 2).toNat ≤ 1024 → (a 3).toNat < 16 →
      CallReads s r t c (argAt a 0) (a 2).toNat bs → ¬ FdsFull s t → (s.tenant? t).isSome = true → rs = .error e :: rs' →
      -9 ≤ e → e ≤ -1 →
      Served r c t a s rs 3 (s.send (.service t 3 (a 3).toNat (Config.serviceRequest 3 bs))) e rs'
  | closeBadf : fdKind s t (a 0) = none → Served r c t a s rs 4 s (-1) rs
  | closed (x : Tenant) : s.tenant? t = some x → fdKind s t (a 0) ≠ none →
      Served r c t a s rs 4 { s.send (.service t 4 (a 0).toNat (Config.serviceRequest 4 [])) with
        tenants := aset s.tenants t { x with fds := adel x.fds (a 0).toNat } } 0 rs
  | socketInval : 1 < (a 0).toNat → Served r c t a s rs 5 s (-6) rs
  | socketFull : (a 0).toNat ≤ 1 → FdsFull s t → Served r c t a s rs 5 s (-9) rs
  | socket (n : Nat) (s' : State) : (a 0).toNat ≤ 1 → WithFd s t (3 + (a 0).toNat) n s' → Served r c t a s rs 5 s' n rs
  | recordBadf (call : Nat) : call = 6 ∨ call = 7 → (∀ k, fdKind s t (a 0) = some k → k < 3) → Served r c t a s rs call s (-1) rs
  | recordFault (call k : Nat) : call = 6 ∨ call = 7 → fdKind s t (a 0) = some k → 3 ≤ k → CallMaps s t c (argAt a 1) 20 1#4 none →
      Served r c t a s rs call s (-2) rs
  | recordInval (call k : Nat) (bs : List Byte) : call = 6 ∨ call = 7 → fdKind s t (a 0) = some k → 3 ≤ k →
      CallReads s r t c (argAt a 1) 20 bs → fieldAt bs 0 2 ≠ 4 → fieldAt bs 0 2 ≠ 6 → Served r c t a s rs call s (-6) rs
  | record (call k n : Nat) (bs : List Byte) (rs' : List Reply) : call = 6 ∨ call = 7 → fdKind s t (a 0) = some k → 3 ≤ k →
      CallReads s r t c (argAt a 1) 20 bs → fieldAt bs 0 2 = 4 ∨ fieldAt bs 0 2 = 6 → rs = .done n :: rs' →
      Served r c t a s rs call (s.send (.service t call (a 0).toNat (Config.serviceRequest call bs))) 0 rs'
  | recordError (call k : Nat) (bs : List Byte) (e : Int) (rs' : List Reply) : call = 6 ∨ call = 7 → fdKind s t (a 0) = some k →
      3 ≤ k → CallReads s r t c (argAt a 1) 20 bs → fieldAt bs 0 2 = 4 ∨ fieldAt bs 0 2 = 6 → rs = .error e :: rs' →
      -9 ≤ e → e ≤ -1 →
      Served r c t a s rs call (s.send (.service t call (a 0).toNat (Config.serviceRequest call bs))) e rs'
  | acceptBadf : fdKind s t (a 0) ≠ some 3 → Served r c t a s rs 8 s (-1) rs
  | acceptFull : fdKind s t (a 0) = some 3 → FdsFull s t → Served r c t a s rs 8 s (-9) rs
  | accepted (k n : Nat) (rs' : List Reply) (s' : State) : fdKind s t (a 0) = some 3 → rs = .done k :: rs' →
      WithFd (s.send (.service t 8 (a 0).toNat (Config.serviceRequest 8 []))) t 3 n s' → Served r c t a s rs 8 s' n rs'
  | acceptError (e : Int) (rs' : List Reply) : fdKind s t (a 0) = some 3 → ¬ FdsFull s t → rs = .error e :: rs' → -9 ≤ e → e ≤ -1 →
      Served r c t a s rs 8 (s.send (.service t 8 (a 0).toNat (Config.serviceRequest 8 []))) e rs'
  | load (busy : Bool) (s' : State) (v : Int) : (busy = true ↔ ∃ e ∈ s.teams, e.2.tenant = t ∧ e.1 ≠ r.team ∧ e.2.hv = none) →
      InstallAnswer s t (a 0).toNat busy s' v → Served r c t a s rs 9 s' v rs

/-- The Bowline calls: group, stream, replies, number, and how many arguments they take. -/
def bowlineCall : Instr → Option (GRef × StreamRef × List Reply × Nat × Nat)
  | .bowlineRead r st rs => some (r, st, rs, 1, 4)
  | .bowlineWrite r st rs => some (r, st, rs, 2, 4)
  | .bowlineOpen r st rs => some (r, st, rs, 3, 4)
  | .bowlineClose r st rs => some (r, st, rs, 4, 1)
  | .bowlineSocket r st rs => some (r, st, rs, 5, 1)
  | .bowlineConnect r st rs => some (r, st, rs, 6, 3)
  | .bowlineBind r st rs => some (r, st, rs, 7, 3)
  | .bowlineAccept r st rs => some (r, st, rs, 8, 1)
  | .supvLoad r st rs => some (r, st, rs, 9, 1)
  | _ => none

/-- The calls of some lanes of one sysc, in the order given; each completes before the next begins. -/
def ServedLanes (r : GRef) (c t call : Nat) (args : List Tag) : List Nat → State → List Reply → State → AList Int → Prop
  | [], s, _, s', res => s' = s ∧ res = []
  | l :: ls, s, rs, s', res => ∃ s1 v rs1 res1, Served r c t (fun i => (args.getD i .released).lane l) s rs call s1 v rs1 ∧
      ServedLanes r c t call args ls s1 rs1 s' res1 ∧ res = (l, v) :: res1

/-- The value of a lane call: uniform when every lane calls and all results are the same, general otherwise (R239). -/
def answerTag (w : LaneMask) (res : AList Int) : Tag :=
  let f (l : Nat) : W32 := BitVec.ofInt 32 ((aget res l).getD 0)
  if w = BitVec.allOnes 96 ∧ ((List.range 96).all fun l => f l == f 0) = true then .uniform (f 0) else Tag.ofLanes f

/-- How a lane call ends with value `v`: Bowline builds it in a k register (k5: log entry 7), where a general value takes its slot, and its tret
writes v1 and hands back; where there is no slot, the handler takes SLOT_EXHAUSTED after the call (R133, R224, R229, R239). -/
def LaneAnswer (s1 : State) (r : GRef) (t : Team) (g : Group) (p : Nat) (fr : TrapFrame) (fid : Nat) (f : Fragment) (v : Tag)
    (o : Host.Outcome State Fault Refusal) : Prop :=
  let trapped (g1 : Group) : State :=
    let s2 : State := { s1 with focus := r, teams := aset s1.teams r.team { t with groups := aset t.groups r.group g1 } }
    { laneTrapped s2 fid .slotExhausted with focus := s1.focus, stream := s1.stream }
  (g.writeK t.spareFree 5 f.mask v 0 = none → o = .next (trapped g)) ∧
  ∀ g1, g.writeK t.spareFree 5 f.mask v 0 = some g1 →
    (g1.writeV t.pbase true 1 f.mask v 0 = none → o = .next (trapped g1)) ∧
    ∀ g2, g1.writeV t.pbase true 1 f.mask v 0 = some g2 → o = .next (handedBack s1 r (.lane fid) t g2 p fr)

/-- R239, R240: each call of Bowline, from its entry to its return: a scalar call takes its arguments from the low halves of s3 on and
returns in s3; a lane call serves the calling lanes in ascending order, with v1 on as arguments, and returns in v1 through a k register. -/
def BowlineServes : Prop :=
  ∀ (s : State) (r : GRef) (st : StreamRef) (rs : List Reply) (i : Instr) (call k : Nat) (t : Team) (g : Group) (p : Nat)
    (fr : TrapFrame) (x : Tenant), bowlineCall i = some (r, st, rs, call, k) → AtHandler s r st .supervisor t g p fr →
    s.tenant? t.tenant = some x → x.supv.init = none → fr.cause = .syscall → fr.causeWord.toNat / 2 ^ 32 = call → fr.fin = false →
    (∀ s1 v rs1, st = .scalar → ScalarsHere g ([3#6, 4#6, 5#6, 6#6].take k) →
      Served r t.core t.tenant (fun i => if i < k then (g.sreg (BitVec.ofNat 6 (3 + i))).setWidth 32 else 0#32) s rs call s1 v rs1 →
      exec i s = .next (handedBack s1 r st t (wrote g 3#6 (BitVec.ofInt 64 v)) p fr)) ∧
    (∀ fid f ts s1 res, st = .lane fid → aget g.frags fid = some f → Sources t g fid f (groupOf (.v 1#10) k) ts →
      g.vregBusy fid 1#10 = false → ServedLanes r t.core t.tenant call ts (lanesIn f.mask) s rs s1 res →
      LaneAnswer s1 r t g p fr fid f (answerTag f.mask res) (exec i s))

/-- R226, R239: what the vendor's handlers answer where no row of the table does: −5 to a number they do not list, and END to any trap that
is no call. -/
def VendorAnswers : Prop :=
  ∀ (s : State) (r : GRef) (st : StreamRef) (m : Mode) (t : Team) (g : Group) (p : Nat) (fr : TrapFrame), AtHandler s r st m t g p fr →
    let n := fr.causeWord.toNat / 2 ^ 32
    (m = .hypervisor → fr.cause = .hcall → n ≠ 1 → n ≠ 2 → fr.fin = false →
      vendorAnswer r st s = .next (handedBack s r st t { g with ks := aset g.ks 3 (BitVec.ofInt 64 (-5)) } p fr)) ∧
    (∀ x, m = .supervisor → s.tenant? t.tenant = some x → x.supv.init = none → fr.cause = .syscall → n = 0 ∨ 9 < n → fr.fin = false →
      st = .scalar → vendorAnswer r st s = .next (handedBack s r st t (wrote g 3#6 (BitVec.ofInt 64 (-5))) p fr)) ∧
    (∀ x fid f, m = .supervisor → s.tenant? t.tenant = some x → x.supv.init = none → fr.cause = .syscall → n = 0 ∨ 9 < n → fr.fin = false →
      st = .lane fid → aget g.frags fid = some f → g.vregBusy fid 1#10 = false →
      LaneAnswer s r t g p fr fid f (answerTag f.mask ((lanesIn f.mask).map fun l => (l, -5))) (vendorAnswer r st s)) ∧
    (∀ x, (m = .hypervisor ∧ fr.cause ≠ .hcall) ∨
        (m = .supervisor ∧ s.tenant? t.tenant = some x ∧ x.supv.init = none ∧ fr.cause ≠ .syscall) →
      wholeCall st g p fr = true → t.halt = none → ∃ s' t', vendorAnswer r st s = .next s' ∧ s'.team? r.team = some t' ∧
        t'.ended = true ∧ ∀ e ∈ t'.groups, e.2.exited = true) ∧
    (∀ x hl, (m = .hypervisor ∧ fr.cause ≠ .hcall) ∨
        (m = .supervisor ∧ s.tenant? t.tenant = some x ∧ x.supv.init = none ∧ fr.cause ≠ .syscall) →
      wholeCall st g p fr = true → t.halt = some hl → vendorAnswer r st s = .next (endedUnder s r st t g p fr hl))

end Sys2Proof.Claims

/-- R110, R133, R224, R226, R229, R239, R240: the calls of the vendor hypervisor and of Bowline. What it takes from the choices of the model
is named in notes/assumptions/7.md, 94.md. -/
def Obligations.BowlineForms : Prop := HypervisorCalls ∧ BowlineServes ∧ VendorAnswers

/-! ## A step of the device -/

namespace Sys2Proof.Claims

/-- The team and group in focus, for either stream (R97, R99, R110). -/
structure InFocus (s : State) (t : Team) (g : Group) : Prop where
  team   : s.team? s.focus.team = some t
  group  : s.group? s.focus = some g
  agenda : s.agenda = []

/-- The scalar stream may issue its next instruction: it is in focus, its turn has come, and no ENGINE_FAULT is pending. -/
structure ScalarFetches (s : State) (t : Team) (g : Group) : Prop extends InFocus s t g where
  stream : s.stream = .scalar
  issue  : scalarMayIssue t g = true
  turn   : t.isOrdered = false ∨ g.laneTurn = false ∨ (g.frags = [] ∧ g.dispatch = [])
  calm   : g.fault = none

/-- R110: among the fragments of an ordered launch's lane stream that neither are parked nor wait at a join or a trap frame, this one comes first:
by the lowest active lane, one with an empty mask last, by the lowest lane of its span, and by its entry (log entry 28). -/
def ComesFirst (g : Group) (fid : Nat) (f : Fragment) : Prop :=
  ∀ e ∈ g.frags, e.1 ≠ fid → e.2.parkedBy = none → e.2.wait ≠ .join → e.2.wait ≠ .tret →
    match (lanesIn f.mask).head?, (lanesIn e.2.mask).head? with
    | some a, some b => a < b ∨ a = b ∧ fid < e.1
    | some _, none => True
    | none, some _ => False
    | none, none =>
      let a := ((lanesIn f.span).head?).getD 96
      let b := ((lanesIn e.2.span).head?).getD 96
      a < b ∨ a = b ∧ fid < e.1

/-- A lane fragment may issue its next instruction: in an ordered launch it is the lane stream's turn and the fragment is the one that runs, or
the first where none does (R110); no latch run but its own is under way on the slot (R99); and no halt stops it (R142, R232). -/
structure LaneFetches (s : State) (t : Team) (g : Group) (fid : Nat) (f : Fragment) : Prop extends InFocus s t g where
  stream : s.stream = .lane fid
  frag   : aget g.frags fid = some f
  issue  : laneMayIssue t g fid f = true
  turn   : t.isOrdered = false ∨ g.laneTurn = true ∧ f.parkedBy = none ∧ f.wait ≠ .join ∧ f.wait ≠ .tret ∧
    (g.running = some fid ∨ g.running = none ∧ ComesFirst g fid f)
  run    : ∀ e ∈ s.teams, e.2.core = t.core → e.2.ended = false → ∀ x ∈ e.2.groups, x.2.slot = g.slot → x.2.exited = false →
    inLatchRun s e.2 x.2 = true → e.1 = s.focus.team ∧ x.1 = s.focus.group ∧ ∃ r, x.2.run = some r ∧ r.frag = fid
  goes   : t.halt = none ∨ f.mode ≠ .user ∨ runHolds s t f = true

/-- The row of the table that a scalar swr or kcfg stands for, which a register or the record tells (R179, R303, R320): every other
instruction is its own row. -/
def rowOf (s : State) (t : Team) (g : Group) (i : Instr) : Instr := s.refine t g i

/-- R292, R294, R304: where the bytes at the program counter decode to an instruction, the step is that instruction's. -/
def DecodedRuns : Prop :=
  (∀ (s : State) (t : Team) (g : Group) (w : W32) (i : Instr) (pcs : List (Nat × Nat)), ScalarFetches s t g → g.pc.toNat % 4 = 0 →
    s.translateRange t.tenant t.core g.mode g.pc.toNat 4 needX = .ok (some pcs) →
    w = BitVec.ofNat 32 (fieldAt ((pieceAddrs pcs).map (memGet s.mem)) 0 4) → decodeScalar w = some i →
    ((∀ d a, i ≠ .scalarSwr d a ∧ i ≠ .kcfgDefine d a) → step s = exec i s) ∧
    (∀ d a, i = .scalarSwr d a ∨ i = .kcfgDefine d a → g.sregPending a = false → step s = exec (rowOf s t g i) s)) ∧
  ∀ (s : State) (t : Team) (g : Group) (fid : Nat) (f : Fragment) (w0 w1 w2 : W32) (i : Instr) (pcs : List (Nat × Nat)),
    LaneFetches s t g fid f → s.translateRange t.tenant t.core f.mode f.pc.toNat 12 needX = .ok (some pcs) →
    (∀ k (w : W32), (k, w) ∈ [(0, w0), (1, w1), (2, w2)] →
      w = BitVec.ofNat 32 (fieldAt ((pieceAddrs pcs).map (memGet s.mem)) (4 * k) 4)) →
    decodeLane w0 w1 w2 = .ok i → step s = exec i s

/-- R222, R292, R294, R304: an instruction that cannot be fetched or decoded traps in its place: MISALIGNED for a scalar address that is no
multiple of 4, XLATE where the fetch is not allowed, ILLEGAL_INSTRUCTION for words that are none, and ILLEGAL_OPERAND for an operand the
lane stream does not have; a pending ENGINE_FAULT comes first (R234). -/
def FetchTraps : Prop :=
  (∀ (s : State) (t : Team) (g : Group), ScalarFetches s t g →
    let traps (c : Cause) (info : W32) (bad : W64) : Prop :=
      step s = .next ((s.updGroup s.focus fun g => { g with fault := none }).takeScalarTrap s.focus
        { cause := c, lane := none, info := info, bad := bad, set := none })
    (g.pc.toNat % 4 ≠ 0 → traps .misaligned 0#32 g.pc) ∧
    (∀ e, g.pc.toNat % 4 = 0 → s.translateRange t.tenant t.core g.mode g.pc.toNat 4 needX = .error e →
      traps .xlate (BitVec.ofNat 32 e.1) (BitVec.ofNat 64 e.2)) ∧
    (∀ pcs, g.pc.toNat % 4 = 0 → s.translateRange t.tenant t.core g.mode g.pc.toNat 4 needX = .ok (some pcs) →
      decodeScalar (BitVec.ofNat 32 (fieldAt ((pieceAddrs pcs).map (memGet s.mem)) 0 4)) = none → traps .illegalInstruction 0#32 0#64)) ∧
  (∀ (s : State) (t : Team) (g : Group) (info : W32) (bad : W64), InFocus s t g → s.stream = .scalar → scalarMayIssue t g = true →
    t.isOrdered = false → g.fault = some (info, bad) →
    step s = .next ((s.updGroup s.focus fun g => { g with fault := none }).takeScalarTrap s.focus
      { cause := .engineFault, lane := none, info := info, bad := bad, set := none })) ∧
  ∀ (s : State) (t : Team) (g : Group) (fid : Nat) (f : Fragment), LaneFetches s t g fid f →
    let traps (c : Cause) (info : W32) (bad : W64) : Prop :=
      step s = .next (s.takeLaneTrap s.focus fid { cause := c, lane := none, info := info, bad := bad, set := none })
    (∀ e, s.translateRange t.tenant t.core f.mode f.pc.toNat 12 needX = .error e →
      traps .xlate (BitVec.ofNat 32 e.1) (BitVec.ofNat 64 e.2)) ∧
    (∀ pcs (word : Nat → W32), s.translateRange t.tenant t.core f.mode f.pc.toNat 12 needX = .ok (some pcs) →
      (∀ k, k < 3 → word k = BitVec.ofNat 32 (fieldAt ((pieceAddrs pcs).map (memGet s.mem)) (4 * k) 4)) →
      (decodeLane (word 0) (word 1) (word 2) = .illegal → traps .illegalInstruction 0#32 0#64) ∧
      (decodeLane (word 0) (word 1) (word 2) = .badOperand → traps .illegalOperand 0#32 0#64))

/-- What the agenda says comes next: an event, which is a step of the device outside its streams, the next instruction of a stream, the measuring of
the hottest junction, which TJMAX shows (R13), or core cycles, which CYC counts (R303). -/
def AgendaRuns : Prop :=
  ∀ (s : State) (rest : List Choice),
    (∀ i, s.agenda = .event i :: rest → encode i = none → step s = exec i { s with agenda := rest }) ∧
    (∀ i ws, s.agenda = .event i :: rest → encode i = some ws → step s = .next { s with agenda := rest }) ∧
    (∀ r st, s.agenda = .run r st :: rest → step s = issue { s with agenda := rest, focus := r, stream := st }) ∧
    (s.agenda = [] → step s = issue s) ∧
    (∀ n, s.agenda = .temperature n :: rest → s.root.phase ≠ .off →
      step s = .next { s with agenda := rest, root := { s.root with tjmax := BitVec.ofNat 8 (min n 255) } }) ∧
    (∀ c n, s.agenda = .cycles c n :: rest → ∃ s', step s = .next s' ∧ (s'.core c).cyc = (s.core c).cyc + BitVec.ofNat 64 n ∧
      (∀ d, d ≠ c → s'.core d = s.core d) ∧ s'.teams = s.teams ∧ s'.mem = s.mem)

end Sys2Proof.Claims

/-- R13, R99, R110, R142, R222, R232, R234, R292, R294, R303, R304: one step of the device runs the instruction that the stream in focus finds
at its program counter, or takes the trap that stands in its place, or performs the event that comes next. What it takes from the choices
of the model is named in notes/assumptions/1.md, 20.md, 27.md, 28.md. -/
def Obligations.StepRunsDecoded : Prop := DecodedRuns ∧ FetchTraps ∧ AgendaRuns

/-! ## Encoding -/

/-- R292 to R294: words written out from the encoding tables decode to the instruction they stand for. -/
def Obligations.DecodeSanity : Prop :=
  decodeScalar 0x08500003#32 = some (.addi 5 0 3) ∧
  decodeScalar 0x04618500#32 = some (.add 6 6 5) ∧
  decodeScalar 0x08517FFF#32 = some (.addi 5 5 (-1)) ∧
  decodeScalar 0x70503FFE#32 = some (.bne 5 0 (-2)) ∧
  decodeScalar 0xC4A2C000#32 = some (.cpost 10 11) ∧
  decodeLane 0x2C002000#32 0x01200000#32 0#32 = .ok (.lqpush { pr := 2, pn := false, wbs := false, cc := 0 } false (.v 9)) ∧
  decodeLane 0x30004000#32 0#32 2#32 = .ok (.laneSysc { pr := 4, pn := false, wbs := false, cc := 0 } 2)

/-- R292 to R294, R297 to R302: the words of a well-formed instruction decode to it again, with every operand at every value; the rows of the
scalar swr and of kcfg, which a register's value tells apart, decode to the form that their words have in common. -/
def Obligations.EncodingRoundTrip : Prop :=
  ∀ (i : Instr) (ws : List W32), i.wellFormed = true → encode i = some ws → decodeWords ws = some i.wordForm

/-! ## Memory -/

namespace Sys2Proof.Claims

/-- Device memory and the management window are in their canonical form: addresses rise, and no entry is what an unlisted address reads as. -/
def Canonical (s : State) : Prop := s.mem.wf = true ∧ s.root.mgmtMem.wf = true

end Sys2Proof.Claims

/-- Every step keeps both memories canonical, so that equal memories are equal data; that the reset state has the form is another statement.
What it takes from the choices of the model is named in notes/assumptions/12.md. -/
def Obligations.MemoryCanonical : Prop :=
  ∀ s s' : State, Canonical s → step s = .next s' → Canonical s'

/-- R13, R14, R35, R50, R73: after reset the clocks read as their fields say, no port has link, no error is kept, every counter and the ticket
clock are 0, memory reads zero, and there is no tenant, team or queue entry; the memories are in canonical form. What it takes from the
choices of the model is named in notes/assumptions/12.md, 13.md. -/
def Obligations.ResetState : Prop :=
  let s := State.reset
  s.root.aclk = 0x21#8 ∧ s.root.fclk = 0x16#8 ∧ s.root.frontlink = 0#2 ∧ s.root.fabup = 0#16 ∧ s.root.faberr = 0#16 ∧
  s.root.counters = zeroCounters ∧ s.root.ticket = 0 ∧ s.root.flows = [] ∧ (∀ a, memGet s.mem a = 0#8) ∧ (∀ a, memGet s.root.mgmtMem a = 0#8) ∧
  s.tenants = [] ∧ s.teams = [] ∧ s.launches = [] ∧ (∀ c, (s.core c).cyc = 0#64 ∧ (s.core c).parts = []) ∧
  (∀ c, (s.cluster c).bankmode = 0#64 ∧ (s.cluster c).bankown = [] ∧ (s.cluster c).dirty = []) ∧ Canonical s

end
end

