-- ==== Sys2Proof/Laws/Encoding.lean ====
section
/-! SUPPORT. Fields and codes read back as they were written: what the round trip of an instruction is put together from. -/

namespace Sys2Proof

/-! ## Fields of words -/

/-- Each bit of a scalar word belongs to one field (R291). -/
theorem packS_bit (f : SFields) (i : Nat) : (packS f).getLsbD i =
    if i < 14 then f.low.getLsbD i else if i < 20 then f.sa.getLsbD (i - 14)
    else if i < 26 then f.sd.getLsbD (i - 20) else f.op.getLsbD (i - 26) := by
  show BitVec.getLsbD (w := 6 + 6 + 6 + 14) (f.op ++ f.sd ++ f.sa ++ f.low) i = _
  simp only [BitVec.getLsbD_append]
  grind

theorem unpackS_packS (f : SFields) : unpackS (packS f) = f := by
  obtain ⟨op, sd, sa, low⟩ := f
  simp only [unpackS, SFields.mk.injEq]
  refine ⟨?_, ?_, ?_, ?_⟩ <;>
    (apply BitVec.eq_of_getLsbD_eq; intro i hi; rw [BitVec.getLsbD_extractLsb', packS_bit]; grind)

/-- Each bit of a lane instruction's first word belongs to one field (R292). -/
theorem LFields.w0_bit (f : LFields) (i : Nat) : f.w0.getLsbD i =
    if i < 7 then f.mod.getLsbD i else if i < 10 then f.cc.getLsbD (i - 7) else if i < 11 then f.wbs.getLsbD (i - 10)
    else if i < 12 then f.pn.getLsbD (i - 11) else if i < 16 then f.pr.getLsbD (i - 12)
    else if i < 24 then f.fn.getLsbD (i - 16) else f.op.getLsbD (i - 24) := by
  show BitVec.getLsbD (w := 8 + 8 + 4 + 1 + 1 + 3 + 7) (f.op ++ f.fn ++ f.pr ++ f.pn ++ f.wbs ++ f.cc ++ f.mod) i = _
  simp only [BitVec.getLsbD_append]
  grind

/-- The same for the second word. -/
theorem LFields.w1_bit (f : LFields) (i : Nat) : f.w1.getLsbD i =
    if i < 10 then f.dst.getLsbD i else if i < 21 then f.sb.getLsbD (i - 10) else f.sa.getLsbD (i - 21) := by
  show BitVec.getLsbD (w := 11 + 11 + 10) (f.sa ++ f.sb ++ f.dst) i = _
  simp only [BitVec.getLsbD_append]
  grind

/-- The same for the third word. -/
theorem LFields.w2_bit (f : LFields) (i : Nat) : f.w2.getLsbD i =
    if i < 21 then f.imm.getLsbD i else f.sc.getLsbD (i - 21) := by
  show BitVec.getLsbD (w := 11 + 21) (f.sc ++ f.imm) i = _
  simp only [BitVec.getLsbD_append]

theorem unpackL_words (f : LFields) : unpackL f.w0 f.w1 f.w2 = f := by
  obtain ⟨op, fn, pr, pn, wbs, cc, mod, sa, sb, dst, sc, imm⟩ := f
  simp only [unpackL, LFields.mk.injEq]
  refine ⟨?_, ?_, ?_, ?_, ?_, ?_, ?_, ?_, ?_, ?_, ?_, ?_⟩ <;>
    (apply BitVec.eq_of_getLsbD_eq; intro i hi
     simp only [BitVec.getLsbD_extractLsb', LFields.w0_bit, LFields.w1_bit, LFields.w2_bit]; grind)

/-! ## Joined fields -/

/-- The low part of two joined fields. -/
theorem extract_low {n m : Nat} (x : BitVec n) (y : BitVec m) : BitVec.extractLsb' 0 m (x ++ y) = y := by
  apply BitVec.eq_of_getLsbD_eq; intro i hi
  simp [BitVec.getLsbD_append, hi]

/-- The high part of two joined fields. -/
theorem extract_high {n m : Nat} (x : BitVec n) (y : BitVec m) : BitVec.extractLsb' m n (x ++ y) = x := by
  apply BitVec.eq_of_getLsbD_eq; intro i hi
  simp [BitVec.getLsbD_append, hi]

/-- Two parts of a field, joined again. -/
theorem join_parts {n m : Nat} (x : BitVec (n + m)) : BitVec.extractLsb' m n x ++ BitVec.extractLsb' 0 m x = x := by
  apply BitVec.eq_of_getLsbD_eq; intro i hi
  simp only [BitVec.getLsbD_append, BitVec.getLsbD_extractLsb']
  grind

/-- Three parts of a field, joined again. -/
theorem join_three {n m k : Nat} (x : BitVec (n + m + k)) :
    BitVec.extractLsb' (m + k) n x ++ BitVec.extractLsb' k m x ++ BitVec.extractLsb' 0 k x = x := by
  apply BitVec.eq_of_getLsbD_eq; intro i hi
  simp only [BitVec.getLsbD_append, BitVec.getLsbD_extractLsb']
  grind

/-! ## Codes -/

theorem encV_high (n : VReg) : BitVec.extractLsb' 10 1 (encV n) = 0#1 := extract_high 0#1 n
theorem encV_low (n : VReg) : BitVec.extractLsb' 0 10 (encV n) = n := extract_low 0#1 n
theorem encP11_high (p : PReg) : BitVec.extractLsb' 4 7 (encP11 p) = 0#7 := extract_high 0#7 p
theorem encP11_low (p : PReg) : BitVec.extractLsb' 0 4 (encP11 p) = p := extract_low 0#7 p
theorem encP10_high (p : PReg) : BitVec.extractLsb' 4 6 (encP10 p) = 0#6 := extract_high 0#6 p
theorem encP10_low (p : PReg) : BitVec.extractLsb' 0 4 (encP10 p) = p := extract_low 0#6 p

theorem decSrc_encSrc (s : Src) : decSrc (encSrc s) = some s := by
  cases s with
  | v n =>
    have h1 : BitVec.extractLsb' 10 1 (encSrc (.v n)) = 0#1 := encV_high n
    have h2 : BitVec.extractLsb' 0 10 (encSrc (.v n)) = n := encV_low n
    simp only [decSrc, h1, h2, if_true]
  | latch n => revert n; decide
  | k n => revert n; decide
  | sq => decide

theorem decScope_encScope (x : Scope) : decScope (encScope x) = some x := by cases x <;> decide
theorem decOrder_encOrder (x : Order) : decOrder (encOrder x) = some x := by cases x <;> decide
theorem decLd_encLd (x : LdWidth) : decLd (encLd x) = some x := by cases x <;> decide
theorem decSt_encSt (x : StWidth) : decSt (encSt x) = some x := by cases x <;> decide
theorem decAtom_encAtom (x : AtomOp) : decAtom (encAtom x) = some x := by cases x <;> decide
theorem decAmo_encAmo (x : AmoOp) : decAmo (encAmo x) = some x := by cases x <;> decide
theorem decFold_encFold (x : FoldOp) : decFold (encFold x) = some x := by cases x <;> decide
theorem decICond_encICond (x : ICond) : decICond (encICond x) = some x := by cases x <;> decide
theorem decFCond_encFCond (x : FCond) : decFCond (encFCond x) = some x := by cases x <;> decide
theorem decRnd_encRnd (x : RndSel) : decRnd (encRnd x) = some x := by cases x <;> decide
theorem decCvt_encCvt (x : CvtKind) : decCvt (encCvt x) = some x := by cases x <;> decide
theorem decVote_encVote (x : VoteKind) : decVote (encVote x) = some x := by cases x <;> decide
theorem decSize_encSize (x : SSize) : decSize (encSize x) = some x := by cases x <;> decide
theorem decPath_encPath (x : Path) : decPath (encPath x) = some x := by cases x <;> decide

/-! ## The checks of the decoder on fields an encoding has set -/

@[simp] theorem Dec.chk_true (k : Dec) : Dec.chk true k = k := rfl
@[simp] theorem Dec.opnd_true (k : Dec) : Dec.opnd true k = k := rfl
@[simp] theorem Dec.code_some {α : Type} (x : α) (k : α → Dec) : Dec.code (some x) k = k x := rfl

@[simp] theorem Dec.src_encSrc (s : Src) (k : Src → Dec) : Dec.src (encSrc s) k = k s := by
  simp [Dec.src, decSrc_encSrc]

@[simp] theorem Dec.srcPair_encSrc (p : Bool) (s : Src) (k : Src → Dec) :
    Dec.srcPair p (encSrc s) k = Dec.opnd (s.pairIf p) (k s) := by
  simp [Dec.srcPair]

@[simp] theorem Dec.group_encV (n : VReg) (ok : VReg → Bool) (k : VReg → Dec) :
    Dec.group (encV n) ok k = Dec.opnd (ok n) (k n) := by
  simp [Dec.group, Dec.opnd, encV_high, encV_low]

@[simp] theorem Dec.psrc_encP11 (p : PReg) (k : PReg → Dec) : Dec.psrc (encP11 p) k = k p := by
  simp [Dec.psrc, encP11_high, encP11_low]

theorem Dec.pdst_encP10 {p : PReg} (h : p ≠ 0#4) (k : PReg → Dec) : Dec.pdst (encP10 p) k = k p := by
  simp [Dec.pdst, encP10_high, encP10_low, h]

theorem encSrc_v0 : encSrc (.v 0#10) = 0#11 := by decide

theorem Dec.src_zero (k : Src → Dec) : Dec.src 0#11 k = k (.v 0#10) := Dec.src_encSrc (.v 0#10) k

@[simp] theorem bit1_eq_one (b : Bool) : (bit1 b == 1#1) = b := by cases b <;> rfl
@[simp] theorem bit1_eq_zero (b : Bool) : (bit1 b == 0#1) = !b := by cases b <;> rfl

/-- The MOD field of a memory instruction. -/
@[simp] theorem memMod_encMod (op fn : Byte) (pr : BitVec 4) (pn wbs : BitVec 1) (cc : BitVec 3) (m : MemMod) (sa sb : BitVec 11)
    (dst : BitVec 10) (sc : BitVec 11) (imm : BitVec 21) :
    ({ op := op, fn := fn, pr := pr, pn := pn, wbs := wbs, cc := cc, mod := encMod m, sa := sa, sb := sb, dst := dst, sc := sc,
       imm := imm } : LFields).memMod = some m := by
  obtain ⟨s, o, p, d⟩ := m
  simp only [LFields.memMod]
  cases s <;> cases o <;> cases p <;> cases d <;> rfl

/-- A selector without a row of its own. -/
theorem swrRow_none (w : SwrForm) {sel : BitVec 14} (h : ownRowSel sel = false) : swrRow w sel = none := by
  simp only [ownRowSel, Bool.or_eq_false_iff, beq_eq_false_iff_ne, ne_eq] at h
  have hn : ∀ n : Nat, ¬sel = BitVec.ofNat 14 n → sel.toNat ≠ n := by
    intro n hs e
    exact hs (by rw [← e]; simp)
  simp only [swrRow]
  split <;> first | rfl | (rename_i he; exfalso; revert he; apply hn; simp_all)

/-! ## Fields that several values share -/

@[simp] theorem shiftImm_low (x : BitVec 6) : BitVec.extractLsb' 0 6 (0#8 ++ x : BitVec 14) = x := extract_low 0#8 x
@[simp] theorem shiftImm_high (x : BitVec 6) : BitVec.extractLsb' 6 8 (0#8 ++ x : BitVec 14) = 0#8 := extract_high 0#8 x
@[simp] theorem selImm_low (x : BitVec 14) : BitVec.extractLsb' 0 14 (0#7 ++ x : BitVec 21) = x := extract_low 0#7 x
@[simp] theorem selImm_high (x : BitVec 14) : BitVec.extractLsb' 14 7 (0#7 ++ x : BitVec 21) = 0#7 := extract_high 0#7 x
@[simp] theorem fmtImm_low (x : BitVec 16) : BitVec.extractLsb' 0 16 (0#5 ++ x : BitVec 21) = x := extract_low 0#5 x
@[simp] theorem fmtImm_high (x : BitVec 16) : BitVec.extractLsb' 16 5 (0#5 ++ x : BitVec 21) = 0#5 := extract_high 0#5 x
@[simp] theorem accImm_low (x : BitVec 4) : BitVec.extractLsb' 0 4 (0#17 ++ x : BitVec 21) = x := extract_low 0#17 x
@[simp] theorem accImm_high (x : BitVec 4) : BitVec.extractLsb' 4 17 (0#17 ++ x : BitVec 21) = 0#17 := extract_high 0#17 x
@[simp] theorem wordImm_low (x : BitVec 2) : BitVec.extractLsb' 0 2 (0#19 ++ x : BitVec 21) = x := extract_low 0#19 x
@[simp] theorem wordImm_high (x : BitVec 2) : BitVec.extractLsb' 2 19 (0#19 ++ x : BitVec 21) = 0#19 := extract_high 0#19 x
@[simp] theorem kDst_low (x : BitVec 5) : BitVec.extractLsb' 0 5 (0#5 ++ x : BitVec 10) = x := extract_low 0#5 x
@[simp] theorem kDst_high (x : BitVec 5) : BitVec.extractLsb' 5 5 (0#5 ++ x : BitVec 10) = 0#5 := extract_high 0#5 x
@[simp] theorem rndMod_low (x : BitVec 3) : BitVec.extractLsb' 0 3 (0#4 ++ x : BitVec 7) = x := extract_low 0#4 x
@[simp] theorem rndMod_high (x : BitVec 3) : BitVec.extractLsb' 3 4 (0#4 ++ x : BitVec 7) = 0#4 := extract_high 0#4 x
@[simp] theorem voteMod_low (x : BitVec 2) : BitVec.extractLsb' 0 2 (0#5 ++ x : BitVec 7) = x := extract_low 0#5 x
@[simp] theorem voteMod_high (x : BitVec 2) : BitVec.extractLsb' 2 5 (0#5 ++ x : BitVec 7) = 0#5 := extract_high 0#5 x
@[simp] theorem srB_low (b : SReg) (c : BitVec 8) : BitVec.extractLsb' 0 8 (b ++ c : BitVec 14) = c := extract_low b c
@[simp] theorem srB_high (b : SReg) (c : BitVec 8) : BitVec.extractLsb' 8 6 (b ++ c : BitVec 14) = b := extract_high b c
@[simp] theorem szImm_low (z : BitVec 2) (i : BitVec 12) : BitVec.extractLsb' 0 12 (z ++ i : BitVec 14) = i := extract_low z i
@[simp] theorem szImm_high (z : BitVec 2) (i : BitVec 12) : BitVec.extractLsb' 12 2 (z ++ i : BitVec 14) = z := extract_high z i
@[simp] theorem amoImm_size (o : BitVec 4) (i : BitVec 8) : BitVec.extractLsb' 12 2 (3#2 ++ o ++ i : BitVec 14) = 3#2 := by
  apply BitVec.eq_of_getLsbD_eq; intro k hk
  show (BitVec.extractLsb' 12 2 (3#2 ++ o ++ i : BitVec (2 + 4 + 8))).getLsbD k = _
  simp only [BitVec.getLsbD_extractLsb', BitVec.getLsbD_append]
  grind
@[simp] theorem amoImm_op (o : BitVec 4) (i : BitVec 8) : BitVec.extractLsb' 8 4 (3#2 ++ o ++ i : BitVec 14) = o := by
  apply BitVec.eq_of_getLsbD_eq; intro k hk
  show (BitVec.extractLsb' 8 4 (3#2 ++ o ++ i : BitVec (2 + 4 + 8))).getLsbD k = _
  simp only [BitVec.getLsbD_extractLsb', BitVec.getLsbD_append]
  grind
@[simp] theorem amoImm_low (o : BitVec 4) (i : BitVec 8) : BitVec.extractLsb' 0 8 (3#2 ++ o ++ i : BitVec 14) = i :=
  extract_low (3#2 ++ o) i
@[simp] theorem luiImm (i : BitVec 20) : BitVec.extractLsb' 14 6 i ++ BitVec.extractLsb' 0 14 i = i := join_parts (n := 6) (m := 14) i
@[simp] theorem jumpImm (i : BitVec 26) :
    BitVec.extractLsb' 20 6 i ++ BitVec.extractLsb' 14 6 i ++ BitVec.extractLsb' 0 14 i = i :=
  join_three (n := 6) (m := 6) (k := 14) i
@[simp] theorem bitMod (b : Bool) : bitOf (0#6 ++ bit1 b : BitVec 7) 0 = b ∧ BitVec.extractLsb' 1 6 (0#6 ++ bit1 b : BitVec 7) = 0#6 := by
  cases b <;> exact ⟨rfl, rfl⟩
@[simp] theorem foldMod (x : BitVec 4) : BitVec.extractLsb' 0 4 (0#3 ++ x : BitVec 7) = x ∧
    BitVec.extractLsb' 5 2 (0#3 ++ x : BitVec 7) = 0#2 ∧ bitOf (0#3 ++ x : BitVec 7) 4 = false := by revert x; decide
@[simp] theorem foldLqMod (x : BitVec 4) : BitVec.extractLsb' 0 4 (1#3 ++ x : BitVec 7) = x ∧
    BitVec.extractLsb' 5 2 (1#3 ++ x : BitVec 7) = 0#2 ∧ bitOf (1#3 ++ x : BitVec 7) 4 = true := by revert x; decide
@[simp] theorem flagMod (e : Bool) (x : BitVec 4) : BitVec.extractLsb' 0 4 (0#2 ++ bit1 e ++ x : BitVec 7) = x ∧
    BitVec.extractLsb' 5 2 (0#2 ++ bit1 e ++ x : BitVec 7) = 0#2 ∧ bitOf (0#2 ++ bit1 e ++ x : BitVec 7) 4 = e := by
  revert x; cases e <;> decide
@[simp] theorem tretMod (e w : Bool) : BitVec.extractLsb' 2 5 (0#5 ++ bit1 e ++ bit1 w : BitVec 7) = 0#5 ∧
    bitOf (0#5 ++ bit1 e ++ bit1 w : BitVec 7) 0 = w ∧ bitOf (0#5 ++ bit1 e ++ bit1 w : BitVec 7) 1 = e := by
  cases e <;> cases w <;> decide
@[simp] theorem kaccMod (v k : Bool) (p : BitVec 5) : BitVec.extractLsb' 0 5 (bit1 v ++ bit1 k ++ p : BitVec 7) = p ∧
    bitOf (bit1 v ++ bit1 k ++ p : BitVec 7) 5 = k ∧ bitOf (bit1 v ++ bit1 k ++ p : BitVec 7) 6 = v := by
  revert p; cases v <;> cases k <;> decide
@[simp] theorem keyMod (k : Bool) (p : BitVec 5) : BitVec.extractLsb' 0 5 (0#1 ++ bit1 k ++ p : BitVec 7) = p ∧
    bitOf (0#1 ++ bit1 k ++ p : BitVec 7) 5 = k ∧ bitOf (0#1 ++ bit1 k ++ p : BitVec 7) 6 = false := by
  revert p; cases k <;> decide
@[simp] theorem partMod (p : BitVec 5) : BitVec.extractLsb' 0 5 (0#2 ++ p : BitVec 7) = p ∧
    BitVec.extractLsb' 5 2 (0#2 ++ p : BitVec 7) = 0#2 ∧ bitOf (0#2 ++ p : BitVec 7) 5 = false ∧
    bitOf (0#2 ++ p : BitVec 7) 6 = false := by revert p; decide
@[simp] theorem fieldImm (f : BitVec 4) : BitVec.extractLsb' 9 12 (0#17 ++ f : BitVec 21) = 0#12 ∧
    BitVec.extractLsb' 4 5 (0#17 ++ f : BitVec 21) = 0#5 := by revert f; decide
@[simp] theorem hitImm (h f : BitVec 4) : BitVec.extractLsb' 9 12 (0#13 ++ h ++ f : BitVec 21) = 0#12 ∧
    BitVec.extractLsb' 4 4 (0#13 ++ h ++ f : BitVec 21) = h ∧ BitVec.extractLsb' 0 4 (0#13 ++ h ++ f : BitVec 21) = f ∧
    bitOf (0#13 ++ h ++ f : BitVec 21) 8 = false := by revert h f; decide
@[simp] theorem hitLqImm (h f : BitVec 4) : BitVec.extractLsb' 9 12 (1#13 ++ h ++ f : BitVec 21) = 0#12 ∧
    BitVec.extractLsb' 4 4 (1#13 ++ h ++ f : BitVec 21) = h ∧ BitVec.extractLsb' 0 4 (1#13 ++ h ++ f : BitVec 21) = f ∧
    bitOf (1#13 ++ h ++ f : BitVec 21) 8 = true := by revert h f; decide
@[simp] theorem widthFn (b : Bool) (x : BitVec 4) : BitVec.extractLsb' 0 4 (bit1 b ++ 0#3 ++ x : BitVec 8) = x ∧
    BitVec.extractLsb' 4 3 (bit1 b ++ 0#3 ++ x : BitVec 8) = 0#3 ∧ bitOf (bit1 b ++ 0#3 ++ x : BitVec 8) 7 = b := by
  revert x; cases b <;> decide
@[simp] theorem scratchFn (x : BitVec 4) : BitVec.extractLsb' 0 4 (0#4 ++ x : BitVec 8) = x ∧
    BitVec.extractLsb' 4 3 (0#4 ++ x : BitVec 8) = 0#3 ∧ bitOf (0#4 ++ x : BitVec 8) 7 = false := by revert x; decide
@[simp] theorem atomFn (a r w : Bool) (x : BitVec 4) :
    BitVec.extractLsb' 0 4 (bit1 a ++ bit1 r ++ 0#1 ++ bit1 w ++ x : BitVec 8) = x ∧
    bitOf (bit1 a ++ bit1 r ++ 0#1 ++ bit1 w ++ x : BitVec 8) 4 = w ∧
    bitOf (bit1 a ++ bit1 r ++ 0#1 ++ bit1 w ++ x : BitVec 8) 5 = false ∧
    bitOf (bit1 a ++ bit1 r ++ 0#1 ++ bit1 w ++ x : BitVec 8) 6 = r ∧
    bitOf (bit1 a ++ bit1 r ++ 0#1 ++ bit1 w ++ x : BitVec 8) 7 = a := by
  revert x; cases a <;> cases r <;> cases w <;> decide
@[simp] theorem atomsFn (r w : Bool) (x : BitVec 4) :
    BitVec.extractLsb' 0 4 (0#1 ++ bit1 r ++ 0#1 ++ bit1 w ++ x : BitVec 8) = x ∧
    bitOf (0#1 ++ bit1 r ++ 0#1 ++ bit1 w ++ x : BitVec 8) 4 = w ∧
    bitOf (0#1 ++ bit1 r ++ 0#1 ++ bit1 w ++ x : BitVec 8) 5 = false ∧
    bitOf (0#1 ++ bit1 r ++ 0#1 ++ bit1 w ++ x : BitVec 8) 6 = r ∧
    bitOf (0#1 ++ bit1 r ++ 0#1 ++ bit1 w ++ x : BitVec 8) 7 = false := by
  revert x; cases r <;> cases w <;> decide
@[simp] theorem twoBitFn (a r : Bool) : BitVec.extractLsb' 0 6 (bit1 a ++ bit1 r ++ 0#6 : BitVec 8) = 0#6 ∧
    bitOf (bit1 a ++ bit1 r ++ 0#6 : BitVec 8) 6 = r ∧ bitOf (bit1 a ++ bit1 r ++ 0#6 : BitVec 8) 7 = a := by
  cases a <;> cases r <;> decide
@[simp] theorem fenceMod (s : Scope) (o : Order) : BitVec.extractLsb' 0 2 (encScope s ++ encOrder o ++ 0#2 : BitVec 7) = 0#2 ∧
    decScope (BitVec.extractLsb' 4 3 (encScope s ++ encOrder o ++ 0#2 : BitVec 7)) = some s ∧
    decOrder (BitVec.extractLsb' 2 2 (encScope s ++ encOrder o ++ 0#2 : BitVec 7)) = some o := by
  cases s <;> cases o <;> decide

/-! ## From the fields to the words -/

/-- What a lane instruction's words decode to is what its fields decode to. -/
theorem decode_lane {i j : Instr} {f : LFields} (hs : scalarFields i = none) (hl : laneFields i = some f)
    (h : decodeLF f = .ok j) {ws : List W32} (he : encode i = some ws) : decodeWords ws = some j := by
  simp only [encode, hs, hl, Option.some.injEq] at he
  subst he
  simp only [decodeWords, decodeLane, unpackL_words, h, Dec.instr?]

/-- The same for a scalar instruction. -/
theorem decode_scalar {i j : Instr} {f : SFields} (hs : scalarFields i = some f) (h : decodeSF f = some j) {ws : List W32}
    (he : encode i = some ws) : decodeWords ws = some j := by
  simp only [encode, hs, Option.some.injEq] at he
  subst he
  simp only [decodeWords, decodeScalar, unpackS_packS, h]

end Sys2Proof
end

