-- ==== Sys2Proof/Laws/Map.lean ====
section
/-! SUPPORT. Laws of the sparse tables and of byte memory: read after write, and that every operation keeps the canonical
form. -/

namespace Sys2Proof.Machine

variable {β γ : Type}

/-! ## Tables -/

@[simp] theorem aget_nil (k : Nat) : aget ([] : AList β) k = none := rfl

@[simp] theorem aget_aset_self (m : AList β) (k : Nat) (v : β) : aget (aset m k v) k = some v := by
  induction m with
  | nil => simp [aset, aget]
  | cons e t ih =>
    obtain ⟨j, w⟩ := e
    by_cases h1 : k < j
    · simp [aset, aget, h1]
    · by_cases h2 : k = j
      · simp [aset, aget, h2]
      · have h3 : j ≠ k := fun h => h2 h.symm
        simp [aset, aget, h1, h2, h3, ih]

theorem aget_aset_ne (m : AList β) {k n : Nat} (v : β) (h : k ≠ n) : aget (aset m k v) n = aget m n := by
  induction m with
  | nil => simp [aset, aget, h]
  | cons e t ih =>
    obtain ⟨j, w⟩ := e
    by_cases h1 : k < j
    · simp [aset, aget, h1, h]
    · by_cases h2 : k = j
      · subst h2; simp [aset, aget, h]
      · simp [aset, aget, h1, h2, ih]

theorem aget_aset (m : AList β) (k n : Nat) (v : β) : aget (aset m k v) n = if k = n then some v else aget m n := by
  by_cases h : k = n
  · simp [h]
  · simp [h, aget_aset_ne m v h]

@[simp] theorem aset_aset (m : AList β) (k : Nat) (v w : β) : aset (aset m k v) k w = aset m k w := by
  induction m with
  | nil => simp [aset]
  | cons e t ih =>
    obtain ⟨j, x⟩ := e
    by_cases h1 : k < j
    · simp [aset, h1]
    · by_cases h2 : k = j
      · simp [aset, h2]
      · simp [aset, h1, h2, ih]

theorem aget_adel_ne (m : AList β) {k n : Nat} (h : k ≠ n) : aget (adel m k) n = aget m n := by
  induction m with
  | nil => rfl
  | cons e t ih =>
    obtain ⟨j, w⟩ := e
    by_cases h1 : j = k
    · have h2 : j ≠ n := fun e => h (h1 ▸ e)
      simp [adel, aget, h1, ih]; subst h1; simp [h2]
    · simp [adel, aget, h1, ih]

/-- In a table in canonical form, the keys behind an entry are greater. -/
theorem aget_of_keysRise_lt {j : Nat} {w : β} {t : AList β} (h : keysRise ((j, w) :: t) = true) {k : Nat} (hk : k ≤ j) :
    aget t k = none := by
  induction t generalizing j w with
  | nil => rfl
  | cons e r ih =>
    obtain ⟨i, x⟩ := e
    simp only [keysRise, Bool.and_eq_true, decide_eq_true_eq] at h
    have : i ≠ k := by omega
    simp [aget, this, ih h.2 (by omega)]

theorem keysRise_tail {e : Nat × β} {t : AList β} (h : keysRise (e :: t) = true) : keysRise t = true := by
  cases t with
  | nil => rfl
  | cons f r =>
    obtain ⟨j, v⟩ := e; obtain ⟨k, w⟩ := f
    simp only [keysRise, Bool.and_eq_true] at h
    exact h.2

theorem keysRise_cons_iff {j : Nat} {v : β} {t : AList β} :
    keysRise ((j, v) :: t) = true ↔ (∀ e ∈ t, j < e.1) ∧ keysRise t = true := by
  induction t generalizing j v with
  | nil => simp [keysRise]
  | cons e r ih =>
    obtain ⟨k, w⟩ := e
    constructor
    · intro h
      simp only [keysRise, Bool.and_eq_true, decide_eq_true_eq] at h
      refine ⟨fun x hx => ?_, h.2⟩
      rcases List.mem_cons.1 hx with rfl | hx
      · exact h.1
      · have := (ih.1 h.2).1 x hx
        omega
    · rintro ⟨h1, h2⟩
      simp only [keysRise, Bool.and_eq_true, decide_eq_true_eq]
      exact ⟨h1 (k, w) (List.mem_cons_self ..), h2⟩

@[simp] theorem aget_adel_self (m : AList β) (k : Nat) : aget (adel m k) k = none := by
  induction m with
  | nil => rfl
  | cons e t ih =>
    obtain ⟨j, w⟩ := e
    by_cases h1 : j = k <;> simp [adel, aget, h1, ih]

theorem mem_aset {m : AList β} {k : Nat} {v : β} {e : Nat × β} (h : e ∈ aset m k v) : e = (k, v) ∨ e ∈ m := by
  induction m with
  | nil => simpa [aset] using h
  | cons x t ih =>
    obtain ⟨j, w⟩ := x
    by_cases h1 : k < j
    · simp only [aset, h1, if_true, List.mem_cons] at h ⊢; exact h
    · by_cases h2 : k = j
      · simp only [aset, h2, if_true, lt_irrefl, if_false, List.mem_cons] at h ⊢
        rcases h with h | h
        · exact .inl h
        · exact .inr (.inr h)
      · simp only [aset, h1, h2, if_false, List.mem_cons] at h ⊢
        rcases h with h | h
        · exact .inr (.inl h)
        · rcases ih h with h | h
          · exact .inl h
          · exact .inr (.inr h)

theorem mem_adel {m : AList β} {k : Nat} {e : Nat × β} (h : e ∈ adel m k) : e ∈ m := by
  induction m with
  | nil => simp [adel] at h
  | cons x t ih =>
    obtain ⟨j, w⟩ := x
    by_cases h1 : j = k
    · simp only [adel, h1, if_true] at h
      exact List.mem_cons_of_mem _ (ih h)
    · simp only [adel, h1, if_false, List.mem_cons] at h
      rcases h with h | h
      · exact h ▸ List.mem_cons_self ..
      · exact List.mem_cons_of_mem _ (ih h)

theorem keysRise_aset {m : AList β} (h : keysRise m = true) (k : Nat) (v : β) : keysRise (aset m k v) = true := by
  induction m with
  | nil => rfl
  | cons x t ih =>
    obtain ⟨j, w⟩ := x
    have hj := keysRise_cons_iff.1 h
    by_cases h1 : k < j
    · simp only [aset, h1, if_true]
      refine keysRise_cons_iff.2 ⟨fun e he => ?_, h⟩
      rcases List.mem_cons.1 he with rfl | he
      · exact h1
      · exact lt_trans h1 (hj.1 e he)
    · by_cases h2 : k = j
      · subst h2
        simp only [aset, lt_irrefl, if_false, if_true]
        exact keysRise_cons_iff.2 hj
      · simp only [aset, h1, h2, if_false]
        refine keysRise_cons_iff.2 ⟨fun e he => ?_, ih hj.2⟩
        rcases mem_aset he with rfl | he
        · simp only; omega
        · exact hj.1 e he

theorem keysRise_adel {m : AList β} (h : keysRise m = true) (k : Nat) : keysRise (adel m k) = true := by
  induction m with
  | nil => rfl
  | cons x t ih =>
    obtain ⟨j, w⟩ := x
    have hj := keysRise_cons_iff.1 h
    by_cases h1 : j = k
    · simp only [adel, h1, if_true]; exact ih hj.2
    · simp only [adel, h1, if_false]
      exact keysRise_cons_iff.2 ⟨fun e he => hj.1 e (mem_adel he), ih hj.2⟩

theorem keysRise_filter {m : AList β} (h : keysRise m = true) (p : Nat × β → Bool) : keysRise (m.filter p) = true := by
  induction m with
  | nil => rfl
  | cons x t ih =>
    obtain ⟨j, w⟩ := x
    have hj := keysRise_cons_iff.1 h
    by_cases hp : p (j, w) = true
    · rw [List.filter_cons_of_pos hp]
      exact keysRise_cons_iff.2 ⟨fun e he => hj.1 e (List.mem_of_mem_filter he), ih hj.2⟩
    · rw [List.filter_cons_of_neg hp]; exact ih hj.2

/-! ## Memory -/

/-- A read after a write to the same address gives the byte written. -/
theorem memGet_memSet_self (m : Memory) (a : Nat) (b : Byte) : memGet (memSet m a b) a = b := by
  by_cases hb : b = unlisted
  · simp [memGet, memSet, hb]
  · simp [memGet, memSet, hb]

/-- A write leaves every other address as it was. -/
theorem memGet_memSet_ne (m : Memory) {a n : Nat} (b : Byte) (h : a ≠ n) : memGet (memSet m a b) n = memGet m n := by
  by_cases hb : b = unlisted
  · simp [memGet, memSet, hb, aget_adel_ne m h]
  · simp [memGet, memSet, hb, aget_aset_ne m b h]

/-- The canonical form survives a write. -/
theorem memSet_wf {m : Memory} (h : m.wf = true) (a : Nat) (b : Byte) : (memSet m a b).wf = true := by
  simp only [Memory.wf, Bool.and_eq_true, List.all_eq_true] at h ⊢
  by_cases hb : b = unlisted
  · simp only [memSet, hb, if_true]
    exact ⟨keysRise_adel h.1 a, fun e he => h.2 e (mem_adel he)⟩
  · simp only [memSet, hb, if_false]
    refine ⟨keysRise_aset h.1 a b, fun e he => ?_⟩
    rcases mem_aset he with rfl | he
    · simpa using hb
    · exact h.2 e he

/-- The canonical form survives the storing of a run of bytes. -/
theorem memSetN_wf {m : Memory} (h : m.wf = true) (a : Nat) (bs : List Byte) : (memSetN m a bs).wf = true := by
  induction bs generalizing m a with
  | nil => exact h
  | cons b bs ih => exact ih (memSet_wf h a b) (a + 1)

/-- The canonical form survives the clearing of a range. -/
theorem memClear_wf {m : Memory} (h : m.wf = true) (a n : Nat) : (memClear m a n).wf = true := by
  simp only [Memory.wf, Bool.and_eq_true, List.all_eq_true] at h ⊢
  exact ⟨keysRise_filter h.1 _, fun e he => h.2 e (List.mem_of_mem_filter he)⟩

/-- A run of bytes stored leaves the addresses outside it as they were. -/
theorem memGet_memSetN_out (m : Memory) (a : Nat) (bs : List Byte) {n : Nat} (h : n < a ∨ a + bs.length ≤ n) :
    memGet (memSetN m a bs) n = memGet m n := by
  induction bs generalizing m a with
  | nil => rfl
  | cons b bs ih =>
    simp only [List.length_cons] at h
    rw [memSetN, ih (memSet m a b) (a + 1) (by omega), memGet_memSet_ne m b (by omega)]

/-! ## Numbers and their bytes -/

@[simp] theorem leBytes_length (n x : Nat) : (leBytes n x).length = n := by
  induction n generalizing x with
  | zero => rfl
  | succ n ih => simp [leBytes, ih]

/-- Stored bytes read back. -/
theorem memGetN_memSetN_self (m : Memory) (a : Nat) (bs : List Byte) : memGetN (memSetN m a bs) a bs.length = bs := by
  induction bs generalizing m a with
  | nil => rfl
  | cons b bs ih =>
    simp only [memSetN, List.length_cons, memGetN]
    rw [memGet_memSetN_out _ _ _ (.inl (Nat.lt_succ_self a)), memGet_memSet_self, ih]

theorem leNat_leBytes (n x : Nat) : leNat (leBytes n x) = x % 256 ^ n := by
  induction n generalizing x with
  | zero => simp [leBytes, leNat, Nat.mod_one]
  | succ n ih =>
    have h := Nat.mod_mul (x := x) (a := 256) (b := 256 ^ n)
    rw [pow_succ', h]
    simp only [leBytes, leNat, ih, BitVec.toNat_ofNat, Nat.reducePow]

end Sys2Proof.Machine
end

