-- ==== Sys2Proof/Laws/State.lean ====
section
/-! SUPPORT. What each named update of the state does to each field: it changes its own and keeps the rest. -/

namespace Sys2Proof.Machine

/-! ## Fields after updates -/

@[simp] theorem State.setTeam_root (s : State) (k : Nat) (t : Team) : (s.setTeam k t).root = s.root := rfl
@[simp] theorem State.setTeam_tenants (s : State) (k : Nat) (t : Team) : (s.setTeam k t).tenants = s.tenants := rfl
@[simp] theorem State.setTeam_clusters (s : State) (k : Nat) (t : Team) : (s.setTeam k t).clusters = s.clusters := rfl
@[simp] theorem State.setTeam_cores (s : State) (k : Nat) (t : Team) : (s.setTeam k t).cores = s.cores := rfl
@[simp] theorem State.setTeam_launches (s : State) (k : Nat) (t : Team) : (s.setTeam k t).launches = s.launches := rfl
@[simp] theorem State.setTeam_teams (s : State) (k : Nat) (t : Team) : (s.setTeam k t).teams = aset s.teams k t := rfl
@[simp] theorem State.setTeam_nextKey (s : State) (k : Nat) (t : Team) : (s.setTeam k t).nextKey = s.nextKey := rfl
@[simp] theorem State.setTeam_mem (s : State) (k : Nat) (t : Team) : (s.setTeam k t).mem = s.mem := rfl
@[simp] theorem State.setTeam_watch (s : State) (k : Nat) (t : Team) : (s.setTeam k t).watch = s.watch := rfl
@[simp] theorem State.setTeam_sent (s : State) (k : Nat) (t : Team) : (s.setTeam k t).sent = s.sent := rfl
@[simp] theorem State.setTeam_agenda (s : State) (k : Nat) (t : Team) : (s.setTeam k t).agenda = s.agenda := rfl
@[simp] theorem State.setTeam_focus (s : State) (k : Nat) (t : Team) : (s.setTeam k t).focus = s.focus := rfl
@[simp] theorem State.setTeam_stream (s : State) (k : Nat) (t : Team) : (s.setTeam k t).stream = s.stream := rfl
@[simp] theorem State.setTeam_free (s : State) (k : Nat) (t : Team) : (s.setTeam k t).free = s.free := rfl

@[simp] theorem State.updTeam_root (s : State) (k : Nat) (f : Team → Team) : (s.updTeam k f).root = s.root := rfl
@[simp] theorem State.updTeam_tenants (s : State) (k : Nat) (f : Team → Team) : (s.updTeam k f).tenants = s.tenants := rfl
@[simp] theorem State.updTeam_clusters (s : State) (k : Nat) (f : Team → Team) : (s.updTeam k f).clusters = s.clusters := rfl
@[simp] theorem State.updTeam_cores (s : State) (k : Nat) (f : Team → Team) : (s.updTeam k f).cores = s.cores := rfl
@[simp] theorem State.updTeam_launches (s : State) (k : Nat) (f : Team → Team) : (s.updTeam k f).launches = s.launches := rfl
@[simp] theorem State.updTeam_teams (s : State) (k : Nat) (f : Team → Team) : (s.updTeam k f).teams = aupd s.teams k f := rfl
@[simp] theorem State.updTeam_nextKey (s : State) (k : Nat) (f : Team → Team) : (s.updTeam k f).nextKey = s.nextKey := rfl
@[simp] theorem State.updTeam_mem (s : State) (k : Nat) (f : Team → Team) : (s.updTeam k f).mem = s.mem := rfl
@[simp] theorem State.updTeam_watch (s : State) (k : Nat) (f : Team → Team) : (s.updTeam k f).watch = s.watch := rfl
@[simp] theorem State.updTeam_sent (s : State) (k : Nat) (f : Team → Team) : (s.updTeam k f).sent = s.sent := rfl
@[simp] theorem State.updTeam_agenda (s : State) (k : Nat) (f : Team → Team) : (s.updTeam k f).agenda = s.agenda := rfl
@[simp] theorem State.updTeam_focus (s : State) (k : Nat) (f : Team → Team) : (s.updTeam k f).focus = s.focus := rfl
@[simp] theorem State.updTeam_stream (s : State) (k : Nat) (f : Team → Team) : (s.updTeam k f).stream = s.stream := rfl
@[simp] theorem State.updTeam_free (s : State) (k : Nat) (f : Team → Team) : (s.updTeam k f).free = s.free := rfl

@[simp] theorem State.updGroup_root (s : State) (r : GRef) (f : Group → Group) : (s.updGroup r f).root = s.root := rfl
@[simp] theorem State.updGroup_tenants (s : State) (r : GRef) (f : Group → Group) : (s.updGroup r f).tenants = s.tenants := rfl
@[simp] theorem State.updGroup_clusters (s : State) (r : GRef) (f : Group → Group) : (s.updGroup r f).clusters = s.clusters := rfl
@[simp] theorem State.updGroup_cores (s : State) (r : GRef) (f : Group → Group) : (s.updGroup r f).cores = s.cores := rfl
@[simp] theorem State.updGroup_launches (s : State) (r : GRef) (f : Group → Group) : (s.updGroup r f).launches = s.launches := rfl
@[simp] theorem State.updGroup_teams (s : State) (r : GRef) (f : Group → Group) : (s.updGroup r f).teams = aupd s.teams r.team fun t => { t with groups := aupd t.groups r.group f } := rfl
@[simp] theorem State.updGroup_nextKey (s : State) (r : GRef) (f : Group → Group) : (s.updGroup r f).nextKey = s.nextKey := rfl
@[simp] theorem State.updGroup_mem (s : State) (r : GRef) (f : Group → Group) : (s.updGroup r f).mem = s.mem := rfl
@[simp] theorem State.updGroup_watch (s : State) (r : GRef) (f : Group → Group) : (s.updGroup r f).watch = s.watch := rfl
@[simp] theorem State.updGroup_sent (s : State) (r : GRef) (f : Group → Group) : (s.updGroup r f).sent = s.sent := rfl
@[simp] theorem State.updGroup_agenda (s : State) (r : GRef) (f : Group → Group) : (s.updGroup r f).agenda = s.agenda := rfl
@[simp] theorem State.updGroup_focus (s : State) (r : GRef) (f : Group → Group) : (s.updGroup r f).focus = s.focus := rfl
@[simp] theorem State.updGroup_stream (s : State) (r : GRef) (f : Group → Group) : (s.updGroup r f).stream = s.stream := rfl
@[simp] theorem State.updGroup_free (s : State) (r : GRef) (f : Group → Group) : (s.updGroup r f).free = s.free := rfl

@[simp] theorem State.updTenant_root (s : State) (k : Nat) (f : Tenant → Tenant) : (s.updTenant k f).root = s.root := rfl
@[simp] theorem State.updTenant_tenants (s : State) (k : Nat) (f : Tenant → Tenant) : (s.updTenant k f).tenants = aupd s.tenants k f := rfl
@[simp] theorem State.updTenant_clusters (s : State) (k : Nat) (f : Tenant → Tenant) : (s.updTenant k f).clusters = s.clusters := rfl
@[simp] theorem State.updTenant_cores (s : State) (k : Nat) (f : Tenant → Tenant) : (s.updTenant k f).cores = s.cores := rfl
@[simp] theorem State.updTenant_launches (s : State) (k : Nat) (f : Tenant → Tenant) : (s.updTenant k f).launches = s.launches := rfl
@[simp] theorem State.updTenant_teams (s : State) (k : Nat) (f : Tenant → Tenant) : (s.updTenant k f).teams = s.teams := rfl
@[simp] theorem State.updTenant_nextKey (s : State) (k : Nat) (f : Tenant → Tenant) : (s.updTenant k f).nextKey = s.nextKey := rfl
@[simp] theorem State.updTenant_mem (s : State) (k : Nat) (f : Tenant → Tenant) : (s.updTenant k f).mem = s.mem := rfl
@[simp] theorem State.updTenant_watch (s : State) (k : Nat) (f : Tenant → Tenant) : (s.updTenant k f).watch = s.watch := rfl
@[simp] theorem State.updTenant_sent (s : State) (k : Nat) (f : Tenant → Tenant) : (s.updTenant k f).sent = s.sent := rfl
@[simp] theorem State.updTenant_agenda (s : State) (k : Nat) (f : Tenant → Tenant) : (s.updTenant k f).agenda = s.agenda := rfl
@[simp] theorem State.updTenant_focus (s : State) (k : Nat) (f : Tenant → Tenant) : (s.updTenant k f).focus = s.focus := rfl
@[simp] theorem State.updTenant_stream (s : State) (k : Nat) (f : Tenant → Tenant) : (s.updTenant k f).stream = s.stream := rfl
@[simp] theorem State.updTenant_free (s : State) (k : Nat) (f : Tenant → Tenant) : (s.updTenant k f).free = s.free := rfl

@[simp] theorem State.updLaunch_root (s : State) (k : Nat) (f : Launch → Launch) : (s.updLaunch k f).root = s.root := rfl
@[simp] theorem State.updLaunch_tenants (s : State) (k : Nat) (f : Launch → Launch) : (s.updLaunch k f).tenants = s.tenants := rfl
@[simp] theorem State.updLaunch_clusters (s : State) (k : Nat) (f : Launch → Launch) : (s.updLaunch k f).clusters = s.clusters := rfl
@[simp] theorem State.updLaunch_cores (s : State) (k : Nat) (f : Launch → Launch) : (s.updLaunch k f).cores = s.cores := rfl
@[simp] theorem State.updLaunch_launches (s : State) (k : Nat) (f : Launch → Launch) : (s.updLaunch k f).launches = aupd s.launches k f := rfl
@[simp] theorem State.updLaunch_teams (s : State) (k : Nat) (f : Launch → Launch) : (s.updLaunch k f).teams = s.teams := rfl
@[simp] theorem State.updLaunch_nextKey (s : State) (k : Nat) (f : Launch → Launch) : (s.updLaunch k f).nextKey = s.nextKey := rfl
@[simp] theorem State.updLaunch_mem (s : State) (k : Nat) (f : Launch → Launch) : (s.updLaunch k f).mem = s.mem := rfl
@[simp] theorem State.updLaunch_watch (s : State) (k : Nat) (f : Launch → Launch) : (s.updLaunch k f).watch = s.watch := rfl
@[simp] theorem State.updLaunch_sent (s : State) (k : Nat) (f : Launch → Launch) : (s.updLaunch k f).sent = s.sent := rfl
@[simp] theorem State.updLaunch_agenda (s : State) (k : Nat) (f : Launch → Launch) : (s.updLaunch k f).agenda = s.agenda := rfl
@[simp] theorem State.updLaunch_focus (s : State) (k : Nat) (f : Launch → Launch) : (s.updLaunch k f).focus = s.focus := rfl
@[simp] theorem State.updLaunch_stream (s : State) (k : Nat) (f : Launch → Launch) : (s.updLaunch k f).stream = s.stream := rfl
@[simp] theorem State.updLaunch_free (s : State) (k : Nat) (f : Launch → Launch) : (s.updLaunch k f).free = s.free := rfl

@[simp] theorem State.send_root (s : State) (o : Output) : (s.send o).root = s.root := rfl
@[simp] theorem State.send_tenants (s : State) (o : Output) : (s.send o).tenants = s.tenants := rfl
@[simp] theorem State.send_clusters (s : State) (o : Output) : (s.send o).clusters = s.clusters := rfl
@[simp] theorem State.send_cores (s : State) (o : Output) : (s.send o).cores = s.cores := rfl
@[simp] theorem State.send_launches (s : State) (o : Output) : (s.send o).launches = s.launches := rfl
@[simp] theorem State.send_teams (s : State) (o : Output) : (s.send o).teams = s.teams := rfl
@[simp] theorem State.send_nextKey (s : State) (o : Output) : (s.send o).nextKey = s.nextKey := rfl
@[simp] theorem State.send_mem (s : State) (o : Output) : (s.send o).mem = s.mem := rfl
@[simp] theorem State.send_watch (s : State) (o : Output) : (s.send o).watch = s.watch := rfl
@[simp] theorem State.send_sent (s : State) (o : Output) : (s.send o).sent = o :: s.sent := rfl
@[simp] theorem State.send_agenda (s : State) (o : Output) : (s.send o).agenda = s.agenda := rfl
@[simp] theorem State.send_focus (s : State) (o : Output) : (s.send o).focus = s.focus := rfl
@[simp] theorem State.send_stream (s : State) (o : Output) : (s.send o).stream = s.stream := rfl
@[simp] theorem State.send_free (s : State) (o : Output) : (s.send o).free = s.free := rfl

@[simp] theorem State.setCluster_root (s : State) (c : Nat) (x : Cluster) : (s.setCluster c x).root = s.root := rfl
@[simp] theorem State.setCluster_tenants (s : State) (c : Nat) (x : Cluster) : (s.setCluster c x).tenants = s.tenants := rfl
@[simp] theorem State.setCluster_clusters (s : State) (c : Nat) (x : Cluster) : (s.setCluster c x).clusters = aset s.clusters c x := rfl
@[simp] theorem State.setCluster_cores (s : State) (c : Nat) (x : Cluster) : (s.setCluster c x).cores = s.cores := rfl
@[simp] theorem State.setCluster_launches (s : State) (c : Nat) (x : Cluster) : (s.setCluster c x).launches = s.launches := rfl
@[simp] theorem State.setCluster_teams (s : State) (c : Nat) (x : Cluster) : (s.setCluster c x).teams = s.teams := rfl
@[simp] theorem State.setCluster_nextKey (s : State) (c : Nat) (x : Cluster) : (s.setCluster c x).nextKey = s.nextKey := rfl
@[simp] theorem State.setCluster_mem (s : State) (c : Nat) (x : Cluster) : (s.setCluster c x).mem = s.mem := rfl
@[simp] theorem State.setCluster_watch (s : State) (c : Nat) (x : Cluster) : (s.setCluster c x).watch = s.watch := rfl
@[simp] theorem State.setCluster_sent (s : State) (c : Nat) (x : Cluster) : (s.setCluster c x).sent = s.sent := rfl
@[simp] theorem State.setCluster_agenda (s : State) (c : Nat) (x : Cluster) : (s.setCluster c x).agenda = s.agenda := rfl
@[simp] theorem State.setCluster_focus (s : State) (c : Nat) (x : Cluster) : (s.setCluster c x).focus = s.focus := rfl
@[simp] theorem State.setCluster_stream (s : State) (c : Nat) (x : Cluster) : (s.setCluster c x).stream = s.stream := rfl
@[simp] theorem State.setCluster_free (s : State) (c : Nat) (x : Cluster) : (s.setCluster c x).free = s.free := rfl

@[simp] theorem State.setCore_root (s : State) (c : Nat) (x : Core) : (s.setCore c x).root = s.root := rfl
@[simp] theorem State.setCore_tenants (s : State) (c : Nat) (x : Core) : (s.setCore c x).tenants = s.tenants := rfl
@[simp] theorem State.setCore_clusters (s : State) (c : Nat) (x : Core) : (s.setCore c x).clusters = s.clusters := rfl
@[simp] theorem State.setCore_cores (s : State) (c : Nat) (x : Core) : (s.setCore c x).cores = aset s.cores c x := rfl
@[simp] theorem State.setCore_launches (s : State) (c : Nat) (x : Core) : (s.setCore c x).launches = s.launches := rfl
@[simp] theorem State.setCore_teams (s : State) (c : Nat) (x : Core) : (s.setCore c x).teams = s.teams := rfl
@[simp] theorem State.setCore_nextKey (s : State) (c : Nat) (x : Core) : (s.setCore c x).nextKey = s.nextKey := rfl
@[simp] theorem State.setCore_mem (s : State) (c : Nat) (x : Core) : (s.setCore c x).mem = s.mem := rfl
@[simp] theorem State.setCore_watch (s : State) (c : Nat) (x : Core) : (s.setCore c x).watch = s.watch := rfl
@[simp] theorem State.setCore_sent (s : State) (c : Nat) (x : Core) : (s.setCore c x).sent = s.sent := rfl
@[simp] theorem State.setCore_agenda (s : State) (c : Nat) (x : Core) : (s.setCore c x).agenda = s.agenda := rfl
@[simp] theorem State.setCore_focus (s : State) (c : Nat) (x : Core) : (s.setCore c x).focus = s.focus := rfl
@[simp] theorem State.setCore_stream (s : State) (c : Nat) (x : Core) : (s.setCore c x).stream = s.stream := rfl
@[simp] theorem State.setCore_free (s : State) (c : Nat) (x : Core) : (s.setCore c x).free = s.free := rfl

@[simp] theorem State.homeWrite_root (s : State) (l : List (Nat × Byte)) : (s.homeWrite l).root = s.root := rfl
@[simp] theorem State.homeWrite_tenants (s : State) (l : List (Nat × Byte)) : (s.homeWrite l).tenants = s.tenants := rfl
@[simp] theorem State.homeWrite_clusters (s : State) (l : List (Nat × Byte)) : (s.homeWrite l).clusters = s.clusters := rfl
@[simp] theorem State.homeWrite_cores (s : State) (l : List (Nat × Byte)) : (s.homeWrite l).cores = s.cores := rfl
@[simp] theorem State.homeWrite_launches (s : State) (l : List (Nat × Byte)) : (s.homeWrite l).launches = s.launches := rfl
@[simp] theorem State.homeWrite_teams (s : State) (l : List (Nat × Byte)) : (s.homeWrite l).teams = s.teams := rfl
@[simp] theorem State.homeWrite_nextKey (s : State) (l : List (Nat × Byte)) : (s.homeWrite l).nextKey = s.nextKey := rfl
@[simp] theorem State.homeWrite_mem (s : State) (l : List (Nat × Byte)) : (s.homeWrite l).mem = storeAll s.mem l := rfl
@[simp] theorem State.homeWrite_watch (s : State) (l : List (Nat × Byte)) : (s.homeWrite l).watch = bumpWatch s.watch l := rfl
@[simp] theorem State.homeWrite_sent (s : State) (l : List (Nat × Byte)) : (s.homeWrite l).sent = s.sent := rfl
@[simp] theorem State.homeWrite_agenda (s : State) (l : List (Nat × Byte)) : (s.homeWrite l).agenda = s.agenda := rfl
@[simp] theorem State.homeWrite_focus (s : State) (l : List (Nat × Byte)) : (s.homeWrite l).focus = s.focus := rfl
@[simp] theorem State.homeWrite_stream (s : State) (l : List (Nat × Byte)) : (s.homeWrite l).stream = s.stream := rfl
@[simp] theorem State.homeWrite_free (s : State) (l : List (Nat × Byte)) : (s.homeWrite l).free = s.free := rfl

/-! ## Tables changed at a key -/

@[simp] theorem aget_aupd_self {β : Type} (m : AList β) (k : Nat) (f : β → β) : aget (aupd m k f) k = (aget m k).map f := by
  unfold aupd
  cases h : aget m k with
  | none => simpa using h
  | some v => simp

theorem aget_aupd_ne {β : Type} (m : AList β) {k n : Nat} (f : β → β) (h : k ≠ n) : aget (aupd m k f) n = aget m n := by
  unfold aupd
  cases aget m k with
  | none => rfl
  | some v => exact aget_aset_ne m (f v) h

/-- A change at a key that holds `v` puts the changed value there. -/
theorem aupd_eq {β : Type} {m : AList β} {k : Nat} {v : β} (h : aget m k = some v) (f : β → β) :
    aupd m k f = aset m k (f v) := by
  simp [aupd, h]

/-- Two changes at one key are one. -/
theorem aupd_aupd {β : Type} (m : AList β) (k : Nat) (f g : β → β) : aupd (aupd m k f) k g = aupd m k (fun v => g (f v)) := by
  cases h : aget m k with
  | none => simp [aupd, h]
  | some v => simp [aupd, h]

theorem aget_amap {β γ : Type} (m : AList β) (f : Nat → β → γ) (k : Nat) : aget (amap m f) k = (aget m k).map (f k) := by
  induction m with
  | nil => rfl
  | cons e t ih =>
    obtain ⟨j, v⟩ := e
    by_cases h : j = k
    · subst h; simp [amap, aget]
    · have := ih; simp only [amap] at this
      simp [amap, aget, h, this]

/-! ## Parts of the state after updates -/

@[simp] theorem State.team?_updTeam_self (s : State) (k : Nat) (f : Team → Team) :
    (s.updTeam k f).team? k = (s.team? k).map f := aget_aupd_self s.teams k f

theorem State.team?_updTeam_ne (s : State) {k n : Nat} (f : Team → Team) (h : k ≠ n) : (s.updTeam k f).team? n = s.team? n :=
  aget_aupd_ne s.teams f h

@[simp] theorem State.team?_setTeam_self (s : State) (k : Nat) (t : Team) : (s.setTeam k t).team? k = some t :=
  aget_aset_self s.teams k t

@[simp] theorem State.team?_updGroup_self (s : State) (r : GRef) (f : Group → Group) :
    (s.updGroup r f).team? r.team = (s.team? r.team).map fun t => { t with groups := aupd t.groups r.group f } :=
  aget_aupd_self s.teams r.team _

@[simp] theorem State.group?_updGroup_self (s : State) (r : GRef) (f : Group → Group) :
    (s.updGroup r f).group? r = (s.group? r).map f := by
  simp only [State.group?, State.team?_updGroup_self]
  cases s.team? r.team <;> simp

theorem State.group?_updTeam (s : State) (r : GRef) (f : Team → Team) (h : ∀ t, (f t).groups = t.groups) :
    (s.updTeam r.team f).group? r = s.group? r := by
  simp only [State.group?, State.team?_updTeam_self]
  cases s.team? r.team <;> simp [h]

/-- Another group is as it was. -/
theorem State.group?_updGroup_ne (s : State) {r q : GRef} (f : Group → Group) (h : r ≠ q) :
    (s.updGroup r f).group? q = s.group? q := by
  simp only [State.group?]
  by_cases ht : r.team = q.team
  · have hg : r.group ≠ q.group := fun e => h (by cases r; cases q; simp_all)
    rw [← ht, State.team?_updGroup_self]
    cases s.team? r.team <;> simp [aget_aupd_ne _ f hg]
  · have : (s.updGroup r f).team? q.team = s.team? q.team := State.team?_updTeam_ne s _ ht
    rw [this]

@[simp] theorem State.tenant?_updTenant_self (s : State) (k : Nat) (f : Tenant → Tenant) :
    (s.updTenant k f).tenant? k = (s.tenant? k).map f := aget_aupd_self s.tenants k f

@[simp] theorem State.launch?_updLaunch_self (s : State) (k : Nat) (f : Launch → Launch) :
    (s.updLaunch k f).launch? k = (s.launch? k).map f := aget_aupd_self s.launches k f

@[simp] theorem State.cluster_setCluster_self (s : State) (c : Nat) (x : Cluster) : (s.setCluster c x).cluster c = x := by
  simp [State.cluster]

@[simp] theorem State.core_setCore_self (s : State) (c : Nat) (x : Core) : (s.setCore c x).core c = x := by
  simp [State.core]

/-! ## Scalar registers (R304) -/

/-- s0 reads as 0 whatever has been written. -/
@[simp] theorem Group.sreg_zero (g : Group) : g.sreg 0#6 = 0#64 := by simp [Group.sreg]

/-- A write to s0 is discarded. -/
@[simp] theorem Group.setSreg_zero (g : Group) (v : W64) : g.setSreg 0#6 v = g := by simp [Group.setSreg]

/-- A scalar register reads as it was last written. -/
theorem Group.sreg_setSreg_self (g : Group) {d : SReg} (v : W64) (h : d ≠ 0#6) : (g.setSreg d v).sreg d = v := by
  simp [Group.sreg, Group.setSreg, h]

/-- A write to one scalar register leaves every other. -/
theorem Group.sreg_setSreg_ne (g : Group) {d e : SReg} (v : W64) (h : d ≠ e) : (g.setSreg d v).sreg e = g.sreg e := by
  by_cases hd : d = 0#6
  · simp [hd]
  · have : d.toNat ≠ e.toNat := fun x => h (BitVec.eq_of_toNat_eq x)
    simp [Group.sreg, Group.setSreg, hd, aget_aset_ne _ v this]

/-! ## Memory in canonical form -/

/-- The canonical form survives the writes performed at the home slices. -/
theorem storeAll_wf {m : Memory} (h : m.wf = true) (l : List (Nat × Byte)) : (storeAll m l).wf = true := by
  induction l generalizing m with
  | nil => exact h
  | cons e l ih => exact ih (memSet_wf h e.1 e.2)

end Sys2Proof.Machine
end

