-- ==== Sys2Proof/Laws/Run.lean ====
section
/-! SUPPORT. How an instruction runs on a stream: what a scalar or a lane instruction whose stream may issue does when its body
answers, traps or waits, and that every step of a stream ends in one of these. -/

namespace Sys2Proof.Machine

/-! ## Pieces of a meaning -/

@[simp] theorem M.bind_run {α β : Type} (m : M α) (f : α → M β) (s : State) :
    (m >>= f) s = match m s with | .ok (a, s') => f a s' | .error e => .error e := by
  show (StateT.bind m f) s = _
  simp only [StateT.bind, bind, Except.bind]
  cases m s <;> rfl

@[simp] theorem M.pure_run {α : Type} (a : α) (s : State) : (pure a : M α) s = .ok (a, s) := rfl

@[simp] theorem M.map_run {α β : Type} (f : α → β) (m : M α) (s : State) :
    (f <$> m) s = match m s with | .ok (a, s') => .ok (f a, s') | .error e => .error e := by
  show (StateT.map f m) s = _
  simp only [StateT.map, bind, Except.bind]
  cases m s <;> rfl

@[simp] theorem look_run {α : Type} (f : State → α) (s : State) : look f s = .ok (f s, s) := rfl
@[simp] theorem change_run (f : State → State) (s : State) : change f s = .ok ((), f s) := rfl
@[simp] theorem stop_run {α : Type} (x : Stop) (s : State) : (stop x : M α) s = .error x := rfl
@[simp] theorem stall_run {α : Type} (s : State) : (stall : M α) s = .error .stall := rfl
@[simp] theorem hold_run {α : Type} (s : State) : (hold : M α) s = .error (.hold s) := rfl
@[simp] theorem trap_run {α : Type} (c : Cause) (s : State) :
    (trap c : M α) s = .error (.trap { cause := c, lane := none, info := 0, bad := 0, set := none }) := rfl
@[simp] theorem trapAt_run {α : Type} (c : Cause) (l : Option Nat) (i : W32) (b : W64) (s : State) :
    (trapAt c l i b : M α) s = .error (.trap { cause := c, lane := l, info := i, bad := b, set := none }) := rfl

@[simp] theorem need_true (s : State) : need true s = .ok ((), s) := rfl
@[simp] theorem need_false (s : State) : need false s = .error .stall := rfl
@[simp] theorem unlessTrap_true (c : Cause) (s : State) : unlessTrap true c s = .ok ((), s) := rfl
@[simp] theorem unlessTrap_false (c : Cause) (s : State) :
    unlessTrap false c s = .error (.trap { cause := c, lane := none, info := 0, bad := 0, set := none }) := rfl
@[simp] theorem must_some {α : Type} (x : α) (s : State) : must (some x) s = .ok (x, s) := rfl
@[simp] theorem orTrap_some {α : Type} (x : α) (c : Cause) (s : State) : orTrap (some x) c s = .ok (x, s) := rfl

@[simp] theorem here_run (s : State) : here s = .ok (s.focus, s) := rfl
@[simp] theorem modHere_run (f : Group → Group) (s : State) : modHere f s = .ok ((), s.updGroup s.focus f) := rfl
@[simp] theorem modGroup_run (r : GRef) (f : Group → Group) (s : State) : modGroup r f s = .ok ((), s.updGroup r f) := rfl
@[simp] theorem modTeam_run (k : Nat) (f : Team → Team) (s : State) : modTeam k f s = .ok ((), s.updTeam k f) := rfl
@[simp] theorem modTenant_run (k : Nat) (f : Tenant → Tenant) (s : State) : modTenant k f s = .ok ((), s.updTenant k f) := rfl
@[simp] theorem modFrag_run (fid : Nat) (f : Fragment → Fragment) (s : State) :
    modFrag fid f s = .ok ((), s.updGroup s.focus fun g => { g with frags := aupd g.frags fid f }) := rfl

theorem getGroup_some {r : GRef} {s : State} {g : Group} (h : s.group? r = some g) : getGroup r s = .ok (g, s) := by
  simp [getGroup, h]
theorem getTeam_some {k : Nat} {s : State} {t : Team} (h : s.team? k = some t) : getTeam k s = .ok (t, s) := by
  simp [getTeam, h]
theorem hereG_some {s : State} {g : Group} (h : s.group? s.focus = some g) : hereG s = .ok (g, s) := getGroup_some h
theorem hereT_some {s : State} {t : Team} (h : s.team? s.focus.team = some t) : hereT s = .ok (t, s) := getTeam_some h

/-- A scalar register that awaits no load reads as it stands. -/
theorem readS_ready {s : State} {g : Group} {d : SReg} (h : s.group? s.focus = some g) (hp : g.sregPending d = false) :
    readS d s = .ok (g.sreg d, s) := by
  simp [readS, hereG_some h, hp]

/-! ## Retirement -/

/-- A scalar instruction that changes only its group retires. -/
theorem retireScalar_updGroup {s : State} {t : Team} {g : Group} (ht : s.team? s.focus.team = some t)
    (hg : s.group? s.focus = some g) (f : Group → Group) (user : Bool) (pc : W64) :
    (s.updGroup s.focus f).retireScalar s.focus user pc = scalarNext s t (f g) user pc := by
  have hg' : aget t.groups s.focus.group = some g := by simpa [State.group?, ht] using hg
  have ht' : aget s.teams s.focus.team = some t := ht
  cases user <;> cases hh : t.halt <;>
    simp [State.retireScalar, State.tick, scalarNext, withGroup, State.updGroup, State.updTeam, State.team?, aupd_eq ht', aupd_eq hg', one,
      aupd_eq (aget_aset_self _ _ _), hh]

/-- The same for one that changes nothing before it retires. -/
theorem retireScalar_self {s : State} {t : Team} {g : Group} (ht : s.team? s.focus.team = some t)
    (hg : s.group? s.focus = some g) (user : Bool) (pc : W64) :
    s.retireScalar s.focus user pc = scalarNext s t g user pc := by
  have hg' : aget t.groups s.focus.group = some g := by simpa [State.group?, ht] using hg
  have ht' : aget s.teams s.focus.team = some t := ht
  cases user <;> cases hh : t.halt <;>
    simp [State.retireScalar, State.tick, scalarNext, withGroup, State.updGroup, State.updTeam, State.team?, aupd_eq ht', aupd_eq hg', one,
      aupd_eq (aget_aset_self _ _ _), hh]

/-- A lane instruction that changes only its group retires. -/
theorem retireLane_updGroup {s : State} {t : Team} {g : Group} (ht : s.team? s.focus.team = some t)
    (hg : s.group? s.focus = some g) (f : Group → Group) (fid : Nat) (user alu : Bool) (p : Option Tag) (turn : Bool) :
    (s.updGroup s.focus f).retireLane s.focus fid user alu p turn = laneNext s t (f g) fid user alu p turn := by
  have hg' : aget t.groups s.focus.group = some g := by simpa [State.group?, ht] using hg
  have ht' : aget s.teams s.focus.team = some t := ht
  cases user <;> cases hh : t.halt <;>
    simp [State.retireLane, State.tick, laneNext, withGroup, Group.retired, State.updGroup, State.updTeam, State.team?, aupd_eq ht', aupd_eq hg', one,
      aupd_eq (aget_aset_self _ _ _), hh]

/-- Two changes of one group are one. -/
@[simp] theorem State.updGroup_updGroup (s : State) (r : GRef) (f g : Group → Group) :
    (s.updGroup r f).updGroup r g = s.updGroup r fun x => g (f x) := by
  simp [State.updGroup, State.updTeam, aupd_aupd]

/-! ## A scalar instruction -/

/-- The body answers: the instruction retires. -/
theorem runScalarTo_ok {body : Group → M W64} {s s' : State} {t : Team} {g : Group} {pc : W64}
    (ht : s.team? s.focus.team = some t) (hg : s.group? s.focus = some g) (hm : scalarMayIssue t g = true)
    (hb : body g s = .ok (pc, s')) :
    runScalarTo body s = .next (s'.retireScalar s.focus (g.mode == .user) pc) := by
  simp [runScalarTo, ht, hg, hm, hb, endScalar]

/-- The body traps: the trap is taken, and nothing else has happened. -/
theorem runScalarTo_trap {body : Group → M W64} {s : State} {t : Team} {g : Group} {i : TrapInfo}
    (ht : s.team? s.focus.team = some t) (hg : s.group? s.focus = some g) (hm : scalarMayIssue t g = true)
    (hb : body g s = .error (.trap i)) :
    runScalarTo body s = .next (s.takeScalarTrap s.focus i) := by
  simp [runScalarTo, ht, hg, hm, hb, endScalar]

/-- The body waits: the state stays. -/
theorem runScalarTo_stall {body : Group → M W64} {s : State} {t : Team} {g : Group}
    (ht : s.team? s.focus.team = some t) (hg : s.group? s.focus = some g) (hm : scalarMayIssue t g = true)
    (hb : body g s = .error .stall) : runScalarTo body s = .next s := by
  simp [runScalarTo, ht, hg, hm, hb, endScalar]

/-- The body answers: the instruction retires and the next one follows it in memory. -/
theorem runScalar_ok {body : Group → M Unit} {s s' : State} {t : Team} {g : Group}
    (ht : s.team? s.focus.team = some t) (hg : s.group? s.focus = some g) (hm : scalarMayIssue t g = true)
    (hb : body g s = .ok ((), s')) :
    runScalar body s = .next (s'.retireScalar s.focus (g.mode == .user) (g.pc + 4)) :=
  runScalarTo_ok ht hg hm (by simp [hb])

theorem runScalar_trap {body : Group → M Unit} {s : State} {t : Team} {g : Group} {i : TrapInfo}
    (ht : s.team? s.focus.team = some t) (hg : s.group? s.focus = some g) (hm : scalarMayIssue t g = true)
    (hb : body g s = .error (.trap i)) : runScalar body s = .next (s.takeScalarTrap s.focus i) :=
  runScalarTo_trap ht hg hm (by simp [hb])

/-- Everything a scalar instruction can do: leave the state, keep what its body had done when it stopped to wait, take a trap,
retire, or meet an address that does not exist. -/
theorem runScalarTo_cases (body : Group → M W64) (s : State) :
    runScalarTo body s = .next s ∨
    (∃ g, s.group? s.focus = some g ∧
      ((∃ pc s', body g s = .ok (pc, s') ∧ runScalarTo body s = .next (s'.retireScalar s.focus (g.mode == .user) pc)) ∨
       (∃ i, body g s = .error (.trap i) ∧ runScalarTo body s = .next (s.takeScalarTrap s.focus i)) ∨
       (∃ s' i, body g s = .error (.keep s' i) ∧ runScalarTo body s = .next (s'.takeScalarTrap s.focus i)) ∨
       (∃ s', body g s = .error (.hold s') ∧ runScalarTo body s = .next s') ∨
       (∃ f, body g s = .error (.fault f) ∧ runScalarTo body s = .fault f))) := by
  cases ht : s.team? s.focus.team with
  | none => left; simp [runScalarTo, ht]
  | some t =>
    cases hg : s.group? s.focus with
    | none => left; simp [runScalarTo, ht, hg]
    | some g =>
      cases hm : scalarMayIssue t g with
      | false => left; simp [runScalarTo, ht, hg, hm]
      | true =>
        cases hb : body g s with
        | ok x => right; exact ⟨g, rfl, .inl ⟨x.1, x.2, hb, by simp [runScalarTo, ht, hg, hm, hb, endScalar]⟩⟩
        | error e =>
          cases e with
          | trap i => right; exact ⟨g, rfl, .inr (.inl ⟨i, hb, by simp [runScalarTo, ht, hg, hm, hb, endScalar]⟩)⟩
          | keep s' i => right; exact ⟨g, rfl, .inr (.inr (.inl ⟨s', i, hb, by simp [runScalarTo, ht, hg, hm, hb, endScalar]⟩))⟩
          | stall => left; simp [runScalarTo, ht, hg, hm, hb, endScalar]
          | hold s' => right; exact ⟨g, rfl, .inr (.inr (.inr (.inl ⟨s', hb, by simp [runScalarTo, ht, hg, hm, hb, endScalar]⟩)))⟩
          | fault f => right; exact ⟨g, rfl, .inr (.inr (.inr (.inr ⟨f, hb, by simp [runScalarTo, ht, hg, hm, hb, endScalar]⟩)))⟩

/-! ## A lane instruction -/

/-- The body answers: the instruction retires. -/
theorem runLaneWith_ok {h : LHdr} {alu turn : Bool} {body : LaneCtx → M (Option Tag)} {s s' : State} {t : Team} {g : Group} {fid : Nat}
    {f : Fragment} {p : Option Tag} (hr : LaneReady s t g fid f h) (hb : body (laneCtx g fid f h) s = .ok (p, s')) :
    runLaneWith h alu body s turn = .next (s'.retireLane s.focus fid (f.mode == .user) alu p turn) := by
  obtain ⟨ht, hg, hs, hf, hm, hp⟩ := hr
  simp only [laneCtx] at hb
  simp [runLaneWith, ht, hg, hs, hf, hm, hp, endLane, hb]

/-- The body traps: the trap is taken, and nothing else has happened. -/
theorem runLaneWith_trap {h : LHdr} {alu turn : Bool} {body : LaneCtx → M (Option Tag)} {s : State} {t : Team} {g : Group} {fid : Nat}
    {f : Fragment} {i : TrapInfo} (hr : LaneReady s t g fid f h) (hb : body (laneCtx g fid f h) s = .error (.trap i)) :
    runLaneWith h alu body s turn = .next (s.takeLaneTrap s.focus fid i) := by
  obtain ⟨ht, hg, hs, hf, hm, hp⟩ := hr
  simp only [laneCtx] at hb
  simp [runLaneWith, ht, hg, hs, hf, hm, hp, endLane, hb]

/-- A lane instruction that goes on to the next one. -/
theorem runLane_ok {h : LHdr} {body : LaneCtx → M Unit} {s s' : State} {t : Team} {g : Group} {fid : Nat} {f : Fragment}
    (hr : LaneReady s t g fid f h) (hb : body (laneCtx g fid f h) s = .ok ((), s')) :
    runLane h body s = .next
      ((s'.updGroup s'.focus fun g => { g with frags := aupd g.frags fid fun f => { f with pc := f.pc + 12 } }).retireLane
        s.focus fid (f.mode == .user) false none) := by
  refine runLaneWith_ok hr ?_
  rw [M.bind_run, hb]
  simp [nextLane, laneCtx]

end Sys2Proof.Machine
end

