-- ==== Sys2Proof/Laws/Scalar.lean ====
section
/-! SUPPORT. The shared forms of scalar arithmetic, and the exact values of its less plain operations. -/

namespace Sys2Proof.Machine

/-- A write of a scalar register. -/
theorem writeS_run (d : SReg) (v : W64) (s : State) : writeS d v s = .ok ((), s.updGroup s.focus fun g => wrote g d v) := by
  simp [writeS, wrote]

/-- A form of two registers retires with its result written. -/
theorem sop2_ok {s : State} {t g} (h : ScalarReady s t g) (d a b : SReg) (f : W64 → W64 → W64)
    (ha : g.sregPending a = false) (hb : g.sregPending b = false) :
    sop2 d a b f s = .next (scalarNext s t (wrote g d (f (g.sreg a) (g.sreg b))) (g.mode == .user) (g.pc + 4)) := by
  unfold sop2
  rw [runScalar_ok h.team h.group h.issue (s' := s.updGroup s.focus fun x => wrote x d (f (g.sreg a) (g.sreg b)))]
  · rw [retireScalar_updGroup h.team h.group]
  · simp [readS_ready h.group ha, readS_ready h.group hb, writeS_run]

/-- A form of one register retires with its result written. -/
theorem sop1_ok {s : State} {t g} (h : ScalarReady s t g) (d a : SReg) (f : W64 → W64)
    (ha : g.sregPending a = false)  :
    sop1 d a f s = .next (scalarNext s t (wrote g d (f (g.sreg a))) (g.mode == .user) (g.pc + 4)) := by
  unfold sop1
  rw [runScalar_ok h.team h.group h.issue (s' := s.updGroup s.focus fun x => wrote x d (f (g.sreg a) ))]
  · rw [retireScalar_updGroup h.team h.group]
  · simp [readS_ready h.group ha, writeS_run]

/-- The high word of the signed product. -/
theorem mulhi_eq (x y : W64) : BitVec.ofInt 64 (x.toInt * y.toInt / 2 ^ 64) = (x.signExtend 128 * y.signExtend 128).extractLsb' 64 64 := by
  have hx := BitVec.toInt_lt (x := x); have hx' := BitVec.le_toInt (x := x)
  have hy := BitVec.toInt_lt (x := y); have hy' := BitVec.le_toInt (x := y)
  have h1 : (x.signExtend 128 * y.signExtend 128).toInt = x.toInt * y.toInt := by
    rw [BitVec.toInt_mul, BitVec.toInt_signExtend_of_le (by omega), BitVec.toInt_signExtend_of_le (by omega)]
    apply Int.bmod_eq_of_le
    · norm_num at *; nlinarith
    · norm_num at *; nlinarith
  apply BitVec.eq_of_toNat_eq
  rw [BitVec.toNat_ofInt, BitVec.extractLsb'_toNat, Nat.shiftRight_eq_div_pow]
  generalize (x.signExtend 128 * y.signExtend 128) = P at *
  have h3 := BitVec.toInt_eq_toNat_cond P
  have h4 := P.isLt
  rw [← h1]
  split at h3 <;> omega

/-- The high word of the unsigned product. -/
theorem mulhu_eq (x y : W64) : BitVec.ofNat 64 (x.toNat * y.toNat / 2 ^ 64) = (x.setWidth 128 * y.setWidth 128).extractLsb' 64 64 := by
  apply BitVec.eq_of_toNat_eq
  rw [BitVec.extractLsb'_toNat, Nat.shiftRight_eq_div_pow]
  have hx := x.isLt; have hy := y.isLt
  have : x.toNat * y.toNat < 2^128 := by nlinarith
  simp only [BitVec.toNat_ofNat, BitVec.toNat_mul, BitVec.toNat_setWidth]
  rw [Nat.mod_eq_of_lt (a := x.toNat) (by omega), Nat.mod_eq_of_lt (a := y.toNat) (by omega), Nat.mod_eq_of_lt this]

/-- A number modulo 64 is its low six bits. -/
theorem low6 (y : W64) : (y.extractLsb' 0 6).toNat = y.toNat % 64 := by simp [BitVec.extractLsb'_toNat]

/-- The leading zeros are those met before the first bit set, from the top. -/
theorem clz_eq (x : W64) : leadingZeros x = ((List.range 64).takeWhile fun i => !x.getLsbD (63 - i)).length := by
  have key : ∀ (p : Nat → Bool) (m k : Nat), (∀ i < m, p i = true) → (k = 0 ∨ p m = false) →
     ((List.range (m + k)).takeWhile p).length = m := by
    intro p m k h1 h2
    rw [List.range_add, List.takeWhile_append_of_pos (by intro a ha; exact h1 a (List.mem_range.1 ha))]
    cases k with
    | zero => simp
    | succ k =>
      have : p m = false := by rcases h2 with h | h; omega; exact h
      simp [List.range_succ_eq_map, this]
  unfold leadingZeros
  split
  · rename_i h; subst h
    rw [show 64 = 64 + 0 from rfl, key _ 64 0 (by intro i hi; simp) (.inl rfl)]
  · rename_i h
    have hne : x.toNat ≠ 0 := fun e => h (BitVec.eq_of_toNat_eq (by simpa using e))
    have hlt : x.toNat.log2 < 64 := (Nat.log2_lt hne).2 x.isLt
    have e : (64:Nat) = (63 - x.toNat.log2) + (x.toNat.log2 + 1) := by omega
    have e2 : List.range 64 = List.range ((63 - x.toNat.log2) + (x.toNat.log2 + 1)) := by rw [← e]
    rw [e2, key]
    · intro i hi
      simp only [BitVec.getLsbD, Bool.not_eq_true']
      apply Nat.testBit_lt_two_pow
      have := Nat.lt_log2_self (n := x.toNat)
      exact lt_of_lt_of_le this (Nat.pow_le_pow_right (by norm_num) (by omega))
    · right
      simp only [BitVec.getLsbD]
      rw [show 63 - (63 - x.toNat.log2) = x.toNat.log2 by omega, Nat.testBit_log2 hne]; rfl
/-- The set bits, counted. -/
theorem popc_eq (x : W64) : popCount x = (List.range 64).countP fun i => x.getLsbD i := by
  simp [popCount, List.countP_eq_length_filter]

end Sys2Proof.Machine
end

