-- ==== Sys2Proof/Laws/Memory.lean ====
section
/-! SUPPORT. What the shared operations of memory accesses do: translation, issue, performance, and the stores of a cluster. -/

namespace Sys2Proof.Machine

/-! ## Pieces of a memory instruction -/

/-- A meaning of a group that only changes its group and goes on. -/
theorem scalar_updGroup {body : Group → M W64} {s : State} {t : Team} {g : Group} {pc : W64} (h : ScalarReady s t g) (f : Group → Group)
    (hb : body g s = .ok (pc, s.updGroup s.focus f)) :
    runScalarTo body s = .next (scalarNext s t (f g) (g.mode == .user) pc) := by
  rw [runScalarTo_ok h.team h.group h.issue hb, retireScalar_updGroup h.team h.group]

/-- A meaning that ends in a state with the same focus. -/
theorem scalar_state {body : Group → M W64} {s s' : State} {t t' : Team} {g g' : Group} {pc : W64} (h : ScalarReady s t g)
    (hf : s'.focus = s.focus) (ht : s'.team? s.focus.team = some t') (hg : s'.group? s.focus = some g')
    (hb : body g s = .ok (pc, s')) :
    runScalarTo body s = .next (scalarNext s' t' g' (g.mode == .user) pc) := by
  rw [runScalarTo_ok h.team h.group h.issue hb, ← hf, retireScalar_self (hf ▸ ht) (hf ▸ hg)]

/-- A body that changes the state, then the team in focus and its group: the instruction retires on these. -/
theorem scalar_both {body : Group → M W64} {s s1 : State} {t t1 : Team} {g g1 : Group} {pc : W64} (h : ScalarReady s t g)
    (F : Team → Team) (G : Group → Group) (hf : s1.focus = s.focus) (ht : s1.team? s.focus.team = some t1)
    (hg : aget (F t1).groups s.focus.group = some g1)
    (hb : body g s = .ok (pc, (s1.updTeam s.focus.team F).updGroup s.focus G)) :
    runScalarTo body s = .next (scalarNext s1 (F t1) (G g1) (g.mode == .user) pc) := by
  rw [scalar_state (s' := (s1.updTeam s.focus.team F).updGroup s.focus G)
    (t' := { F t1 with groups := aset (F t1).groups s.focus.group (G g1) }) (g' := G g1) h ?_ ?_ ?_ hb]
  · simp [scalarNext, withGroup, State.updGroup, State.updTeam, hf]
    unfold State.team? at ht
    rw [aupd_eq ht]
    simp [aupd_eq (aget_aset_self _ _ _)]
  · simpa using hf
  · unfold State.team? at ht
    simp only [State.updGroup, State.updTeam, State.team?, aupd_eq ht, aupd_eq (aget_aset_self _ _ _), aget_aset_self, aupd_eq hg]
  · unfold State.team? at ht
    simp only [State.group?, State.updGroup, State.updTeam, State.team?, aupd_eq ht, aupd_eq (aget_aset_self _ _ _), aget_aset_self,
      aupd_eq hg, Option.bind_some]

/-- A body that changes the state without its teams, and then its group. -/
theorem scalar_rest {body : Group → M W64} {s s1 : State} {t : Team} {g : Group} {pc : W64} (h : ScalarReady s t g)
    (G : Group → Group) (hf : s1.focus = s.focus) (ht : s1.teams = s.teams) (hb : body g s = .ok (pc, s1.updGroup s.focus G)) :
    runScalarTo body s = .next (scalarNext s1 t (G g) (g.mode == .user) pc) := by
  have ht' : s1.team? s.focus.team = some t := by simpa [State.team?, ht] using h.team
  have hg' : s1.group? s.focus = some g := by simpa [State.group?, State.team?, ht] using h.group
  rw [runScalarTo_ok h.team h.group h.issue hb, ← hf, retireScalar_updGroup (by rw [hf]; exact ht') (by rw [hf]; exact hg')]

/-- The same for one that leaves its group too. -/
theorem scalar_same {body : Group → M W64} {s s1 : State} {t : Team} {g : Group} {pc : W64} (h : ScalarReady s t g)
    (hf : s1.focus = s.focus) (ht : s1.teams = s.teams) (hb : body g s = .ok (pc, s1)) :
    runScalarTo body s = .next (scalarNext s1 t g (g.mode == .user) pc) :=
  scalar_state h hf (by simpa [State.team?, ht] using h.team) (by simpa [State.group?, State.team?, ht] using h.group) hb

theorem group_aget {s : State} {t : Team} {g : Group} {r : GRef} (ht : s.team? r.team = some t) (hg : s.group? r = some g) :
    aget t.groups r.group = some g := by
  simpa [State.group?, ht] using hg

theorem lupd_eq {β : Type} (l : List β) (i : Nat) (f : β → β) (x : β) (h : l[i]? = some x) : lupd l i f = l.set i (f x) := by
  induction l generalizing i with
  | nil => simp at h
  | cons a l ih => cases i <;> simp_all [lupd]

theorem xlateBytes_ok {s : State} {t : Team} (ht : s.team? s.focus.team = some t) {mode : Mode} {lane : Option Nat} {va n : Nat}
    {l : List (Nat × Nat)} {nd : Need} (h : s.translateRange t.tenant t.core mode va n nd = .ok (some l)) :
    xlateBytes mode lane va n nd s = .ok (pieceAddrs l, s) := by
  simp [xlateBytes, hereT_some ht, h]

theorem releaseHere_run {s : State} {t : Team} {g : Group} (ht : s.team? s.focus.team = some t)
    (hg : s.group? s.focus = some g) (hd : g.drained = true) (w : Bool) :
    releaseHere w s = .ok ((), s.release s.focus (clusterOf t.core) w) := by
  simp [releaseHere, needDrained, hereG_some hg, hereT_some ht, hd]

theorem xlateVA_ok {s : State} {t : Team} (ht : s.team? s.focus.team = some t) {mode : Mode} {lane : Option Nat} {va pa : Nat}
    {nd : Need} (h : s.translate t.tenant t.core mode va nd = .ok pa) : xlateVA mode lane va nd s = .ok (pa, s) := by
  simp [xlateVA, hereT_some ht, h]

theorem xlateVA_fail {s : State} {t : Team} (ht : s.team? s.focus.team = some t) {mode : Mode} {lane : Option Nat} {va r b : Nat}
    {nd : Need} (h : s.translate t.tenant t.core mode va nd = .fail r b) :
    xlateVA mode lane va nd s = .error (.trap (xlateTrap lane r b)) := by
  simp [xlateVA, hereT_some ht, h]

theorem scalarEA_ok {s : State} {g : Group} {k : Nat} {a : SReg} {i : BitVec k} {n : Nat} (hg : s.group? s.focus = some g)
    (hp : g.sregPending a = false) (hm : (g.sreg a + sext64 i).toNat % n = 0) :
    scalarEA a i n s = .ok ((g.sreg a + sext64 i).toNat, s) := by
  simp only [scalarEA, M.bind_run, readS_ready hg hp, hm]; rfl

theorem scalarEA_trap {s : State} {g : Group} {k : Nat} {a : SReg} {i : BitVec k} {n : Nat} (hg : s.group? s.focus = some g)
    (hp : g.sregPending a = false) (hm : (g.sreg a + sext64 i).toNat % n ≠ 0) :
    scalarEA a i n s = .error (.trap { cause := .misaligned, lane := none, info := 0, bad := g.sreg a + sext64 i, set := none }) := by
  simp only [scalarEA, M.bind_run, readS_ready hg hp, if_pos hm]; rfl

/-- The issue of an access that counts in no path. -/
theorem issueAccess_run {s : State} {g : Group} {a : Access} (hg : s.group? s.focus = some g) (hp : a.path = none) :
    issueAccess false a s = .ok ((), s.updGroup s.focus fun g =>
      { g with accesses := pruneAccesses (g.accesses ++ [{ a with id := g.nextId, home := false, done := false }]),
               nextId := g.nextId + 1 }) := by
  simp only [issueAccess, pushAccess, M.bind_run, hereG_some hg, hp, need_true]
  simp [Access.void]

theorem writeNow_run {s : State} {t : Team} {g : Group} {l : List (Nat × Byte)} (ht : s.team? s.focus.team = some t)
    (hg : s.group? s.focus = some g) (ha : g.noAcquire = true) (hb : g.bytesFree false (l.map (·.1)) = true) :
    writeNow l s = .ok ((), s.storeBytes s.focus (clusterOf t.core) false l) := by
  simp only [writeNow, needBytes, M.bind_run, hereG_some hg, ha, hb, Bool.and_self, need_true, hereT_some ht]; rfl

theorem readNow_run {s : State} {t : Team} {g : Group} {l : List Nat} (ht : s.team? s.focus.team = some t)
    (hg : s.group? s.focus = some g) (ha : g.noAcquire = true) (hb : g.bytesFree false l = true) :
    readNow l s = .ok (l.map (s.cachedByte (clusterOf t.core)), s) := by
  simp only [readNow, needBytes, M.bind_run, hereG_some hg, ha, hb, Bool.and_self, need_true, hereT_some ht]; rfl

theorem performEvent_ready {s : State} {g : Group} {r : GRef} {id : Nat} {a : Access} {which : Access → Bool}
    (hg : s.group? r = some g) (ha : g.ready id = some a) (hw : which a = true) :
    performEvent r id which s = .next (s.perform r a) := by
  simp [performEvent, runEvent, getGroup_some hg, ha, hw]

/-! ## Bytes of memory -/

theorem aget_filter_key {β : Type} (m : AList β) (p : Nat → Bool) (k : Nat) :
    aget (m.filter fun e => p e.1) k = if p k then aget m k else none := by
  induction m with
  | nil => simp
  | cons e m ih =>
    obtain ⟨j, v⟩ := e
    by_cases hp : p j <;> by_cases hj : j = k <;> simp_all [aget]

theorem memGet_storeAll_out (m : Memory) (l : List (Nat × Byte)) {x : Nat} (h : ∀ e ∈ l, e.1 ≠ x) :
    memGet (storeAll m l) x = memGet m x := by
  induction l generalizing m with
  | nil => rfl
  | cons e l ih =>
    obtain ⟨a, b⟩ := e
    simp only [storeAll]
    rw [ih _ fun e he => h e (by simp [he]), memGet_memSet_ne _ _ (h (a, b) (by simp))]

@[simp] theorem bytesAt_length (a : Nat) (bs : List Byte) : (bytesAt a bs).length = bs.length := by simp [bytesAt]

theorem bytesAt_fst (a : Nat) (bs : List Byte) : (bytesAt a bs).map (·.1) = (List.range bs.length).map (a + ·) := by
  simp [bytesAt, List.map_fst_zip]

theorem bytesAt_cons (a : Nat) (b : Byte) (bs : List Byte) : bytesAt a (b :: bs) = (a, b) :: bytesAt (a + 1) bs := by
  simp [bytesAt, List.range_succ_eq_map, List.map_map, Function.comp_def, Nat.add_assoc, Nat.add_comm 1]

theorem mem_bytesAt {a : Nat} {bs : List Byte} {e : Nat × Byte} (h : e ∈ bytesAt a bs) : a ≤ e.1 ∧ e.1 < a + bs.length := by
  have : e.1 ∈ (bytesAt a bs).map (·.1) := List.mem_map_of_mem h
  rw [bytesAt_fst] at this
  simp only [List.mem_map, List.mem_range] at this
  obtain ⟨k, hk, he⟩ := this
  omega

theorem memGet_storeAll_bytesAt {m : Memory} (hm : m.wf = true) (a : Nat) (bs : List Byte) (k : Nat) (h : k < bs.length) :
    memGet (storeAll m (bytesAt a bs)) (a + k) = bs[k] := by
  induction bs generalizing m a k with
  | nil => simp at h
  | cons b bs ih =>
    rw [bytesAt_cons]
    simp only [storeAll]
    cases k with
    | zero =>
      rw [memGet_storeAll_out _ _ (by intro e he; have := mem_bytesAt he; omega)]
      simpa using memGet_memSet_self m a b
    | succ k =>
      have := ih (memSet_wf hm a b) (a + 1) k (by simpa using h)
      simpa [Nat.add_assoc, Nat.add_comm 1] using this

end Sys2Proof.Machine
end

