-- ==== Sys2Proof/Laws/Events.lean ====
section
/-! SUPPORT. What events, frames and breaking communicators leave alone, and what the shared memory operations of a release or an acquire
change. -/

namespace Sys2Proof.Machine

/-! ## Cluster operations change memory, the watches and clusters alone -/

theorem writeBack_eq (s : State) (c : Nat) (p : Nat → DirtyByte → Bool) : s.writeBack c p =
    { s with mem := (s.writeBack c p).mem, watch := (s.writeBack c p).watch, clusters := (s.writeBack c p).clusters } := by
  unfold State.writeBack
  dsimp only
  split <;> rfl

theorem release_eq (s : State) (r : GRef) (c : Nat) (w : Bool) : s.release r c w =
    { s with mem := (s.release r c w).mem, watch := (s.release r c w).watch, clusters := (s.release r c w).clusters } := by
  unfold State.release State.markReleased
  dsimp only
  split
  · exact writeBack_eq ..
  · split <;> rfl

theorem acquire_eq (s : State) (c : Nat) (w : Bool) : s.acquire c w = { s with clusters := (s.acquire c w).clusters } := by
  unfold State.acquire
  dsimp only
  split <;> rfl

theorem openLines_eq (s : State) (c : Nat) (l : List Nat) : s.openLines c l =
    { s with mem := (s.openLines c l).mem, watch := (s.openLines c l).watch, clusters := (s.openLines c l).clusters } := by
  unfold State.openLines
  dsimp only
  split
  · rw [writeBack_eq]; rfl
  · exact writeBack_eq ..

theorem storeBytes_eq (s : State) (r : GRef) (c : Nat) (w : Bool) (l : List (Nat × Byte)) : s.storeBytes r c w l =
    { s with mem := (s.storeBytes r c w l).mem, watch := (s.storeBytes r c w l).watch,
             clusters := (s.storeBytes r c w l).clusters } := by
  unfold State.storeBytes
  dsimp only
  split
  · rw [openLines_eq]; rfl
  · rfl

@[simp] theorem State.writeBack_root (s : State) (c : Nat) (p : Nat → DirtyByte → Bool) : (s.writeBack c p).root = s.root := by rw [writeBack_eq]
@[simp] theorem State.writeBack_tenants (s : State) (c : Nat) (p : Nat → DirtyByte → Bool) : (s.writeBack c p).tenants = s.tenants := by rw [writeBack_eq]
@[simp] theorem State.writeBack_cores (s : State) (c : Nat) (p : Nat → DirtyByte → Bool) : (s.writeBack c p).cores = s.cores := by rw [writeBack_eq]
@[simp] theorem State.writeBack_launches (s : State) (c : Nat) (p : Nat → DirtyByte → Bool) : (s.writeBack c p).launches = s.launches := by rw [writeBack_eq]
@[simp] theorem State.writeBack_teams (s : State) (c : Nat) (p : Nat → DirtyByte → Bool) : (s.writeBack c p).teams = s.teams := by rw [writeBack_eq]
@[simp] theorem State.writeBack_nextKey (s : State) (c : Nat) (p : Nat → DirtyByte → Bool) : (s.writeBack c p).nextKey = s.nextKey := by rw [writeBack_eq]
@[simp] theorem State.writeBack_sent (s : State) (c : Nat) (p : Nat → DirtyByte → Bool) : (s.writeBack c p).sent = s.sent := by rw [writeBack_eq]
@[simp] theorem State.writeBack_agenda (s : State) (c : Nat) (p : Nat → DirtyByte → Bool) : (s.writeBack c p).agenda = s.agenda := by rw [writeBack_eq]
@[simp] theorem State.writeBack_focus (s : State) (c : Nat) (p : Nat → DirtyByte → Bool) : (s.writeBack c p).focus = s.focus := by rw [writeBack_eq]
@[simp] theorem State.writeBack_stream (s : State) (c : Nat) (p : Nat → DirtyByte → Bool) : (s.writeBack c p).stream = s.stream := by rw [writeBack_eq]
@[simp] theorem State.writeBack_free (s : State) (c : Nat) (p : Nat → DirtyByte → Bool) : (s.writeBack c p).free = s.free := by rw [writeBack_eq]
@[simp] theorem State.writeBack_team? (s : State) (c : Nat) (p : Nat → DirtyByte → Bool) (k : Nat) : (s.writeBack c p).team? k = s.team? k := by rw [writeBack_eq]; rfl
@[simp] theorem State.writeBack_group? (s : State) (c : Nat) (p : Nat → DirtyByte → Bool) (k : GRef) : (s.writeBack c p).group? k = s.group? k := by rw [writeBack_eq]; rfl
@[simp] theorem State.writeBack_tenant? (s : State) (c : Nat) (p : Nat → DirtyByte → Bool) (k : Nat) : (s.writeBack c p).tenant? k = s.tenant? k := by rw [writeBack_eq]; rfl
@[simp] theorem State.writeBack_launch? (s : State) (c : Nat) (p : Nat → DirtyByte → Bool) (k : Nat) : (s.writeBack c p).launch? k = s.launch? k := by rw [writeBack_eq]; rfl
@[simp] theorem State.writeBack_core (s : State) (c : Nat) (p : Nat → DirtyByte → Bool) (k : Nat) : (s.writeBack c p).core k = s.core k := by rw [writeBack_eq]; rfl

@[simp] theorem State.release_root (s : State) (r : GRef) (c : Nat) (w : Bool) : (s.release r c w).root = s.root := by rw [release_eq]
@[simp] theorem State.release_tenants (s : State) (r : GRef) (c : Nat) (w : Bool) : (s.release r c w).tenants = s.tenants := by rw [release_eq]
@[simp] theorem State.release_cores (s : State) (r : GRef) (c : Nat) (w : Bool) : (s.release r c w).cores = s.cores := by rw [release_eq]
@[simp] theorem State.release_launches (s : State) (r : GRef) (c : Nat) (w : Bool) : (s.release r c w).launches = s.launches := by rw [release_eq]
@[simp] theorem State.release_teams (s : State) (r : GRef) (c : Nat) (w : Bool) : (s.release r c w).teams = s.teams := by rw [release_eq]
@[simp] theorem State.release_nextKey (s : State) (r : GRef) (c : Nat) (w : Bool) : (s.release r c w).nextKey = s.nextKey := by rw [release_eq]
@[simp] theorem State.release_sent (s : State) (r : GRef) (c : Nat) (w : Bool) : (s.release r c w).sent = s.sent := by rw [release_eq]
@[simp] theorem State.release_agenda (s : State) (r : GRef) (c : Nat) (w : Bool) : (s.release r c w).agenda = s.agenda := by rw [release_eq]
@[simp] theorem State.release_focus (s : State) (r : GRef) (c : Nat) (w : Bool) : (s.release r c w).focus = s.focus := by rw [release_eq]
@[simp] theorem State.release_stream (s : State) (r : GRef) (c : Nat) (w : Bool) : (s.release r c w).stream = s.stream := by rw [release_eq]
@[simp] theorem State.release_free (s : State) (r : GRef) (c : Nat) (w : Bool) : (s.release r c w).free = s.free := by rw [release_eq]
@[simp] theorem State.release_team? (s : State) (r : GRef) (c : Nat) (w : Bool) (k : Nat) : (s.release r c w).team? k = s.team? k := by rw [release_eq]; rfl
@[simp] theorem State.release_group? (s : State) (r : GRef) (c : Nat) (w : Bool) (k : GRef) : (s.release r c w).group? k = s.group? k := by rw [release_eq]; rfl
@[simp] theorem State.release_tenant? (s : State) (r : GRef) (c : Nat) (w : Bool) (k : Nat) : (s.release r c w).tenant? k = s.tenant? k := by rw [release_eq]; rfl
@[simp] theorem State.release_launch? (s : State) (r : GRef) (c : Nat) (w : Bool) (k : Nat) : (s.release r c w).launch? k = s.launch? k := by rw [release_eq]; rfl
@[simp] theorem State.release_core (s : State) (r : GRef) (c : Nat) (w : Bool) (k : Nat) : (s.release r c w).core k = s.core k := by rw [release_eq]; rfl

@[simp] theorem State.acquire_root (s : State) (c : Nat) (w : Bool) : (s.acquire c w).root = s.root := by rw [acquire_eq]
@[simp] theorem State.acquire_tenants (s : State) (c : Nat) (w : Bool) : (s.acquire c w).tenants = s.tenants := by rw [acquire_eq]
@[simp] theorem State.acquire_cores (s : State) (c : Nat) (w : Bool) : (s.acquire c w).cores = s.cores := by rw [acquire_eq]
@[simp] theorem State.acquire_launches (s : State) (c : Nat) (w : Bool) : (s.acquire c w).launches = s.launches := by rw [acquire_eq]
@[simp] theorem State.acquire_teams (s : State) (c : Nat) (w : Bool) : (s.acquire c w).teams = s.teams := by rw [acquire_eq]
@[simp] theorem State.acquire_nextKey (s : State) (c : Nat) (w : Bool) : (s.acquire c w).nextKey = s.nextKey := by rw [acquire_eq]
@[simp] theorem State.acquire_sent (s : State) (c : Nat) (w : Bool) : (s.acquire c w).sent = s.sent := by rw [acquire_eq]
@[simp] theorem State.acquire_agenda (s : State) (c : Nat) (w : Bool) : (s.acquire c w).agenda = s.agenda := by rw [acquire_eq]
@[simp] theorem State.acquire_focus (s : State) (c : Nat) (w : Bool) : (s.acquire c w).focus = s.focus := by rw [acquire_eq]
@[simp] theorem State.acquire_stream (s : State) (c : Nat) (w : Bool) : (s.acquire c w).stream = s.stream := by rw [acquire_eq]
@[simp] theorem State.acquire_free (s : State) (c : Nat) (w : Bool) : (s.acquire c w).free = s.free := by rw [acquire_eq]
@[simp] theorem State.acquire_team? (s : State) (c : Nat) (w : Bool) (k : Nat) : (s.acquire c w).team? k = s.team? k := by rw [acquire_eq]; rfl
@[simp] theorem State.acquire_group? (s : State) (c : Nat) (w : Bool) (k : GRef) : (s.acquire c w).group? k = s.group? k := by rw [acquire_eq]; rfl
@[simp] theorem State.acquire_tenant? (s : State) (c : Nat) (w : Bool) (k : Nat) : (s.acquire c w).tenant? k = s.tenant? k := by rw [acquire_eq]; rfl
@[simp] theorem State.acquire_launch? (s : State) (c : Nat) (w : Bool) (k : Nat) : (s.acquire c w).launch? k = s.launch? k := by rw [acquire_eq]; rfl
@[simp] theorem State.acquire_core (s : State) (c : Nat) (w : Bool) (k : Nat) : (s.acquire c w).core k = s.core k := by rw [acquire_eq]; rfl

@[simp] theorem State.openLines_root (s : State) (c : Nat) (l : List Nat) : (s.openLines c l).root = s.root := by rw [openLines_eq]
@[simp] theorem State.openLines_tenants (s : State) (c : Nat) (l : List Nat) : (s.openLines c l).tenants = s.tenants := by rw [openLines_eq]
@[simp] theorem State.openLines_cores (s : State) (c : Nat) (l : List Nat) : (s.openLines c l).cores = s.cores := by rw [openLines_eq]
@[simp] theorem State.openLines_launches (s : State) (c : Nat) (l : List Nat) : (s.openLines c l).launches = s.launches := by rw [openLines_eq]
@[simp] theorem State.openLines_teams (s : State) (c : Nat) (l : List Nat) : (s.openLines c l).teams = s.teams := by rw [openLines_eq]
@[simp] theorem State.openLines_nextKey (s : State) (c : Nat) (l : List Nat) : (s.openLines c l).nextKey = s.nextKey := by rw [openLines_eq]
@[simp] theorem State.openLines_sent (s : State) (c : Nat) (l : List Nat) : (s.openLines c l).sent = s.sent := by rw [openLines_eq]
@[simp] theorem State.openLines_agenda (s : State) (c : Nat) (l : List Nat) : (s.openLines c l).agenda = s.agenda := by rw [openLines_eq]
@[simp] theorem State.openLines_focus (s : State) (c : Nat) (l : List Nat) : (s.openLines c l).focus = s.focus := by rw [openLines_eq]
@[simp] theorem State.openLines_stream (s : State) (c : Nat) (l : List Nat) : (s.openLines c l).stream = s.stream := by rw [openLines_eq]
@[simp] theorem State.openLines_free (s : State) (c : Nat) (l : List Nat) : (s.openLines c l).free = s.free := by rw [openLines_eq]
@[simp] theorem State.openLines_team? (s : State) (c : Nat) (l : List Nat) (k : Nat) : (s.openLines c l).team? k = s.team? k := by rw [openLines_eq]; rfl
@[simp] theorem State.openLines_group? (s : State) (c : Nat) (l : List Nat) (k : GRef) : (s.openLines c l).group? k = s.group? k := by rw [openLines_eq]; rfl
@[simp] theorem State.openLines_tenant? (s : State) (c : Nat) (l : List Nat) (k : Nat) : (s.openLines c l).tenant? k = s.tenant? k := by rw [openLines_eq]; rfl
@[simp] theorem State.openLines_launch? (s : State) (c : Nat) (l : List Nat) (k : Nat) : (s.openLines c l).launch? k = s.launch? k := by rw [openLines_eq]; rfl
@[simp] theorem State.openLines_core (s : State) (c : Nat) (l : List Nat) (k : Nat) : (s.openLines c l).core k = s.core k := by rw [openLines_eq]; rfl

@[simp] theorem State.storeBytes_root (s : State) (r : GRef) (c : Nat) (w : Bool) (l : List (Nat × Byte)) : (s.storeBytes r c w l).root = s.root := by rw [storeBytes_eq]
@[simp] theorem State.storeBytes_tenants (s : State) (r : GRef) (c : Nat) (w : Bool) (l : List (Nat × Byte)) : (s.storeBytes r c w l).tenants = s.tenants := by rw [storeBytes_eq]
@[simp] theorem State.storeBytes_cores (s : State) (r : GRef) (c : Nat) (w : Bool) (l : List (Nat × Byte)) : (s.storeBytes r c w l).cores = s.cores := by rw [storeBytes_eq]
@[simp] theorem State.storeBytes_launches (s : State) (r : GRef) (c : Nat) (w : Bool) (l : List (Nat × Byte)) : (s.storeBytes r c w l).launches = s.launches := by rw [storeBytes_eq]
@[simp] theorem State.storeBytes_teams (s : State) (r : GRef) (c : Nat) (w : Bool) (l : List (Nat × Byte)) : (s.storeBytes r c w l).teams = s.teams := by rw [storeBytes_eq]
@[simp] theorem State.storeBytes_nextKey (s : State) (r : GRef) (c : Nat) (w : Bool) (l : List (Nat × Byte)) : (s.storeBytes r c w l).nextKey = s.nextKey := by rw [storeBytes_eq]
@[simp] theorem State.storeBytes_sent (s : State) (r : GRef) (c : Nat) (w : Bool) (l : List (Nat × Byte)) : (s.storeBytes r c w l).sent = s.sent := by rw [storeBytes_eq]
@[simp] theorem State.storeBytes_agenda (s : State) (r : GRef) (c : Nat) (w : Bool) (l : List (Nat × Byte)) : (s.storeBytes r c w l).agenda = s.agenda := by rw [storeBytes_eq]
@[simp] theorem State.storeBytes_focus (s : State) (r : GRef) (c : Nat) (w : Bool) (l : List (Nat × Byte)) : (s.storeBytes r c w l).focus = s.focus := by rw [storeBytes_eq]
@[simp] theorem State.storeBytes_stream (s : State) (r : GRef) (c : Nat) (w : Bool) (l : List (Nat × Byte)) : (s.storeBytes r c w l).stream = s.stream := by rw [storeBytes_eq]
@[simp] theorem State.storeBytes_free (s : State) (r : GRef) (c : Nat) (w : Bool) (l : List (Nat × Byte)) : (s.storeBytes r c w l).free = s.free := by rw [storeBytes_eq]
@[simp] theorem State.storeBytes_team? (s : State) (r : GRef) (c : Nat) (w : Bool) (l : List (Nat × Byte)) (k : Nat) : (s.storeBytes r c w l).team? k = s.team? k := by rw [storeBytes_eq]; rfl
@[simp] theorem State.storeBytes_group? (s : State) (r : GRef) (c : Nat) (w : Bool) (l : List (Nat × Byte)) (k : GRef) : (s.storeBytes r c w l).group? k = s.group? k := by rw [storeBytes_eq]; rfl
@[simp] theorem State.storeBytes_tenant? (s : State) (r : GRef) (c : Nat) (w : Bool) (l : List (Nat × Byte)) (k : Nat) : (s.storeBytes r c w l).tenant? k = s.tenant? k := by rw [storeBytes_eq]; rfl
@[simp] theorem State.storeBytes_launch? (s : State) (r : GRef) (c : Nat) (w : Bool) (l : List (Nat × Byte)) (k : Nat) : (s.storeBytes r c w l).launch? k = s.launch? k := by rw [storeBytes_eq]; rfl
@[simp] theorem State.storeBytes_core (s : State) (r : GRef) (c : Nat) (w : Bool) (l : List (Nat × Byte)) (k : Nat) : (s.storeBytes r c w l).core k = s.core k := by rw [storeBytes_eq]; rfl

/-! ## Fields after a flow has changed -/

@[simp] theorem State.setFlow_root (s : State) (f : Flow) :
    (s.setFlow f).root = { s.root with flows := f :: s.root.flows.filter fun x => x.ref != f.ref } := rfl
@[simp] theorem State.setFlow_tenants (s : State) (f : Flow) : (s.setFlow f).tenants = s.tenants := rfl
@[simp] theorem State.setFlow_clusters (s : State) (f : Flow) : (s.setFlow f).clusters = s.clusters := rfl
@[simp] theorem State.setFlow_cores (s : State) (f : Flow) : (s.setFlow f).cores = s.cores := rfl
@[simp] theorem State.setFlow_launches (s : State) (f : Flow) : (s.setFlow f).launches = s.launches := rfl
@[simp] theorem State.setFlow_teams (s : State) (f : Flow) : (s.setFlow f).teams = s.teams := rfl
@[simp] theorem State.setFlow_nextKey (s : State) (f : Flow) : (s.setFlow f).nextKey = s.nextKey := rfl
@[simp] theorem State.setFlow_mem (s : State) (f : Flow) : (s.setFlow f).mem = s.mem := rfl
@[simp] theorem State.setFlow_watch (s : State) (f : Flow) : (s.setFlow f).watch = s.watch := rfl
@[simp] theorem State.setFlow_sent (s : State) (f : Flow) : (s.setFlow f).sent = s.sent := rfl
@[simp] theorem State.setFlow_agenda (s : State) (f : Flow) : (s.setFlow f).agenda = s.agenda := rfl
@[simp] theorem State.setFlow_focus (s : State) (f : Flow) : (s.setFlow f).focus = s.focus := rfl
@[simp] theorem State.setFlow_stream (s : State) (f : Flow) : (s.setFlow f).stream = s.stream := rfl
@[simp] theorem State.setFlow_free (s : State) (f : Flow) : (s.setFlow f).free = s.free := rfl
@[simp] theorem State.setFlow_team? (s : State) (f : Flow) (k : Nat) : (s.setFlow f).team? k = s.team? k := rfl
@[simp] theorem State.setFlow_group? (s : State) (f : Flow) (k : GRef) : (s.setFlow f).group? k = s.group? k := rfl
@[simp] theorem State.setFlow_tenant? (s : State) (f : Flow) (k : Nat) : (s.setFlow f).tenant? k = s.tenant? k := rfl
@[simp] theorem State.setFlow_launch? (s : State) (f : Flow) (k : Nat) : (s.setFlow f).launch? k = s.launch? k := rfl

/-! ## What keeps every team -/

/-- Teams, cores, launches, clusters, the machine's numbers and the choice of what issues are the same. -/
structure SameTeams (s s' : State) : Prop where
  teams    : s'.teams = s.teams
  cores    : s'.cores = s.cores
  launches : s'.launches = s.launches
  clusters : s'.clusters = s.clusters
  focus    : s'.focus = s.focus
  stream   : s'.stream = s.stream
  nextKey  : s'.nextKey = s.nextKey
  agenda   : s'.agenda = s.agenda

theorem SameTeams.refl (s : State) : SameTeams s s := ⟨rfl, rfl, rfl, rfl, rfl, rfl, rfl, rfl⟩

theorem SameTeams.trans {a b c : State} (h : SameTeams a b) (k : SameTeams b c) : SameTeams a c :=
  ⟨k.teams.trans h.teams, k.cores.trans h.cores, k.launches.trans h.launches, k.clusters.trans h.clusters, k.focus.trans h.focus,
   k.stream.trans h.stream, k.nextKey.trans h.nextKey, k.agenda.trans h.agenda⟩

theorem SameTeams.foldl {α : Type} (f : State → α → State) (h : ∀ s a, SameTeams s (f s a)) (l : List α) :
    ∀ s, SameTeams s (l.foldl f s) := by
  induction l with
  | nil => exact fun s => .refl s
  | cons a l ih => exact fun s => (h s a).trans (ih _)

theorem updTenant_same (s : State) (k : Nat) (f : Tenant → Tenant) : SameTeams s (s.updTenant k f) :=
  ⟨rfl, rfl, rfl, rfl, rfl, rfl, rfl, rfl⟩
theorem homeWrite_same (s : State) (l : List (Nat × Byte)) : SameTeams s (s.homeWrite l) := ⟨rfl, rfl, rfl, rfl, rfl, rfl, rfl, rfl⟩
theorem send_same (s : State) (o : Output) : SameTeams s (s.send o) := ⟨rfl, rfl, rfl, rfl, rfl, rfl, rfl, rfl⟩

theorem setFlow_same (s : State) (f : Flow) : SameTeams s (s.setFlow f) := ⟨rfl, rfl, rfl, rfl, rfl, rfl, rfl, rfl⟩

theorem setEvents_same (s : State) (o : Option Nat) (e : Events) : SameTeams s (s.setEvents o e) := by
  cases o <;> exact ⟨rfl, rfl, rfl, rfl, rfl, rfl, rfl, rfl⟩

theorem sendRecord_same (s : State) (c : Conn) (k a : Nat) (b : List Byte) (p : Byte) : SameTeams s (s.sendRecord c k a b p) :=
  ((send_same ..).trans (send_same ..)).trans (send_same ..)

theorem interrupt_same (s : State) (o : Option Nat) (c : Conn) (v : Nat) : SameTeams s (s.interrupt o c v) := by
  unfold State.interrupt
  extract_lets d
  split_ifs
  exacts [send_same .., .refl s, send_same .., .refl s]

theorem writeEvent_same (s : State) (o : Option Nat) : SameTeams s (s.writeEvent o) := by
  unfold State.writeEvent
  dsimp only
  split
  · exact .refl s
  · split
    · exact ((setEvents_same ..).trans (sendRecord_same ..)).trans (interrupt_same ..)
    · exact (setEvents_same ..).trans (sendRecord_same ..)

theorem writeEvents_same (o : Option Nat) (n : Nat) : ∀ s, SameTeams s (s.writeEvents o n) := by
  induction n with
  | zero => exact fun s => .refl s
  | succ n ih =>
    intro s
    unfold State.writeEvents
    split
    · exact (writeEvent_same ..).trans (ih _)
    · exact .refl s

theorem emit_same (s : State) (t : Option Nat) (b : List Byte) (i : Option Nat) : SameTeams s (s.emit t b i) := by
  have h : SameTeams s (if heldEvents (s.eventsOf t).held < 4096 then s else s.flushEvents t) := by
    split
    · exact .refl s
    · exact writeEvents_same ..
  refine h.trans ?_
  unfold State.emit
  cases t <;> exact ⟨rfl, rfl, rfl, rfl, rfl, rfl, rfl, rfl⟩

theorem setQueue_same (s : State) (q : QRef) (x : Queue) : SameTeams s (s.setQueue q x) := by
  cases q <;> exact ⟨rfl, rfl, rfl, rfl, rfl, rfl, rfl, rfl⟩

theorem emitCompleted_same (q : QRef) (fin : AList CmdDone) (m : Nat) : ∀ s n, SameTeams s (s.emitCompleted q fin n m) := by
  induction m with
  | zero => exact fun s n => .refl s
  | succ m ih =>
    intro s n
    unfold State.emitCompleted
    dsimp only
    split
    · split
      · exact ih _ _
      · exact (emit_same ..).trans (ih _ _)
    · exact .refl s

theorem completeCommand_same (s : State) (q : QRef) (n : Nat) (c : CmdDone) : SameTeams s (s.completeCommand q n c) := by
  unfold State.completeCommand
  dsimp only
  split
  · exact .refl s
  · exact (setQueue_same ..).trans (emitCompleted_same ..)

theorem endCommand_same (s : State) (q : QRef) (n st r : Nat) : SameTeams s (s.endCommand q n st r) := by
  unfold State.endCommand
  split
  · exact .refl s
  · exact completeCommand_same ..

theorem sendFrame_same (s : State) (t ci rank ft inst off : Nat) (p : List Byte) : SameTeams s (s.sendFrame t ci rank ft inst off p) := by
  unfold State.sendFrame
  dsimp only
  split
  · exact .refl s
  · exact (setFlow_same ..).trans (send_same ..)

theorem sendFrames_same (t ci ft inst off : Nat) (p : List Byte) (l : List Nat) : ∀ s, SameTeams s (s.sendFrames t ci ft inst off p l) := by
  induction l with
  | nil => exact fun s => .refl s
  | cons a l ih => exact fun s => (sendFrame_same ..).trans (ih _)

theorem emitFailed_same (t ci st : Nat) (l : List (Nat × Inst)) : ∀ s, SameTeams s (s.emitFailed t ci st l) := by
  induction l with
  | nil => exact fun s => .refl s
  | cons a l ih =>
    intro s
    unfold State.emitFailed
    dsimp only
    split
    · exact ih _
    · exact (emit_same ..).trans (ih _)

theorem mixFailed_same (s : State) (t : Nat) (c : Comm) (i : Inst) : SameTeams s (s.mixFailed t c i) := by
  unfold State.mixFailed
  split
  · dsimp only
    refine SameTeams.trans (b := { s with free := s.free + 1 }) ⟨rfl, rfl, rfl, rfl, rfl, rfl, rfl, rfl⟩ ?_
    refine SameTeams.foldl _ (fun s v => ?_) _ _
    split
    · exact homeWrite_same ..
    · exact .refl s
  · exact .refl s

theorem breakComm_same (s : State) (t ci st : Nat) : SameTeams s (s.breakComm t ci st) := by
  unfold State.breakComm
  dsimp only
  split
  · exact .refl s
  · split
    · exact .refl s
    · exact ((SameTeams.foldl _ (fun s e => mixFailed_same ..) _ _).trans (updTenant_same ..)).trans (emitFailed_same ..)

theorem reportBreak_same (s : State) (t ci st : Nat) : SameTeams s (s.reportBreak t ci st) := by
  unfold State.reportBreak
  dsimp only
  split
  · exact .refl s
  · split
    · exact .refl s
    · exact (breakComm_same ..).trans (sendFrames_same ..)

theorem reportBreaks_same (st : Nat) (l : List (Nat × Nat)) : ∀ s, SameTeams s (s.reportBreaks st l) := by
  induction l with
  | nil => exact fun s => .refl s
  | cons a l ih => exact fun s => (reportBreak_same ..).trans (ih _)

theorem updComm_same (s : State) (t ci : Nat) (f : Comm → Comm) : SameTeams s (s.updComm t ci f) := updTenant_same ..

theorem takeTicket_same (s : State) (t ci i v : Nat) : SameTeams s (s.takeTicket t ci i v) := by
  unfold State.takeTicket
  dsimp only
  split
  · exact .refl s
  · split
    · exact SameTeams.trans (b := { s with root := { s.root with ticket := max s.root.ticket v } })
        ⟨rfl, rfl, rfl, rfl, rfl, rfl, rfl, rfl⟩ (updComm_same ..)
    · exact ⟨rfl, rfl, rfl, rfl, rfl, rfl, rfl, rfl⟩

theorem issueTicket_same (s : State) (t ci i : Nat) : SameTeams s (s.issueTicket t ci i) := by
  unfold State.issueTicket
  dsimp only
  split
  · exact .refl s
  · split
    · exact .refl s
    · split
      · exact ((updComm_same ..).trans (takeTicket_same ..)).trans (sendFrames_same ..)
      · exact reportBreak_same ..

theorem addPost_same (s : State) (t ci r i : Nat) (g : Sig) (l : Nat) : SameTeams s (s.addPost t ci r i g l) :=
  (updComm_same ..).trans (issueTicket_same ..)

theorem post_same (s : State) (t : Nat) (d : PostDesc) : SameTeams s (s.post t d).1 := by
  unfold State.post
  dsimp only
  split
  · exact .refl s
  · split
    · exact (updComm_same ..).trans (addPost_same ..)
    · exact (updComm_same ..).trans (sendFrame_same ..)

theorem commDone_same (s : State) (t ci st : Nat) : SameTeams s (s.commDone t ci st) := by
  unfold State.commDone
  dsimp only
  split
  · exact .refl s
  · refine SameTeams.trans ?_ (endCommand_same ..)
    split
    · split
      · exact updComm_same ..
      · exact updTenant_same ..
    · exact updComm_same ..

theorem answerAsks_same (t ci ft : Nat) (p : List Byte) (c : Comm) (l : List Nat) : ∀ s, SameTeams s (s.answerAsks t ci ft p c l) := by
  induction l with
  | nil => exact fun s => .refl s
  | cons a l ih => exact fun s => (sendFrame_same ..).trans (ih _)

theorem checkBuild_same (s : State) (t ci : Nat) : SameTeams s (s.checkBuild t ci) := by
  unfold State.checkBuild
  split
  · exact .refl s
  · split
    · split
      · exact (answerAsks_same ..).trans (commDone_same ..)
      · exact (answerAsks_same ..).trans (commDone_same ..)
    · exact .refl s

theorem checkRebuild_same (s : State) (t ci : Nat) : SameTeams s (s.checkRebuild t ci) := by
  unfold State.checkRebuild
  split
  · exact .refl s
  · split
    · exact (answerAsks_same ..).trans (commDone_same ..)
    · exact .refl s

theorem SameTeams.team? {s s' : State} (h : SameTeams s s') (k : Nat) : s'.team? k = s.team? k := by
  simp [State.team?, h.teams]
theorem SameTeams.group? {s s' : State} (h : SameTeams s s') (r : GRef) : s'.group? r = s.group? r := by
  simp [State.group?, h.team?]
theorem SameTeams.launch? {s s' : State} (h : SameTeams s s') (k : Nat) : s'.launch? k = s.launch? k := by
  simp [State.launch?, h.launches]

end Sys2Proof.Machine
end

