-- ==== Sys2Proof/Laws/Keys.lean ====
section
/-! SUPPORT. The key pairs of Root (R27, R31): every one that a generation makes is a 4,096-bit RSA pair, and raising to its private exponent
and then to its public one gives back what it began with. -/

namespace Sys2Proof

theorem isPrime_iff (p : Nat) : isPrime p = true ↔ p.Prime := by
  rw [isPrime, Bool.and_eq_true, decide_eq_true_eq, decide_eq_true_eq, Nat.prime_def_lt]

theorem prime_7 : (2 ^ 7 - 1 : Nat).Prime := by norm_num
theorem prime_607 : (2 ^ 607 - 1 : Nat).Prime := lucas_lehmer_sufficiency 607 (by norm_num) (by norm_num)
theorem prime_1279 : (2 ^ 1279 - 1 : Nat).Prime := lucas_lehmer_sufficiency 1279 (by norm_num) (by norm_num)
theorem prime_2203 : (2 ^ 2203 - 1 : Nat).Prime := lucas_lehmer_sufficiency 2203 (by norm_num) (by norm_num)

theorem RsaPrimes.modulus_eq (k : RsaPrimes) : k.modulus = k.primes.prod := List.prod_eq_foldl.symm

/-- The pair that stands in for a draw that is none is itself a pair. -/
theorem mersennePair_isPair : mersennePair.isPair = true := by
  have h1 := (isPrime_iff _).2 prime_7
  have h2 := (isPrime_iff _).2 prime_607
  have h3 := (isPrime_iff _).2 prime_1279
  have h4 := (isPrime_iff _).2 prime_2203
  simp only [RsaPrimes.isPair, mersennePair, RsaPrimes.modulus, RsaPrimes.lambda, List.foldl, List.all, List.length, h1, h2, h3, h4,
    Bool.and_eq_true]
  decide +kernel

/-- Every identity key is a 4,096-bit RSA pair (R27). -/
theorem identityKey_pair (n : Nat) : ∃ k : RsaPrimes, k.isPair = true ∧
    Config.identityKey n = { modulus := k.modulus, verify := k.verify, sign := k.sign } := by
  by_cases h : (Config.keyDraw n).isPair = true
  · exact ⟨_, h, by simp [Config.identityKey, h]⟩
  · exact ⟨_, mersennePair_isPair, by simp [Config.identityKey, h]⟩

/-- Each prime less 1 divides the least common multiple. -/
theorem dvd_lambda_fold (l : List Nat) (n : Nat) :
    n ∣ l.foldl (fun n p => Nat.lcm n (p - 1)) n ∧ ∀ p ∈ l, p - 1 ∣ l.foldl (fun n p => Nat.lcm n (p - 1)) n := by
  induction l generalizing n with
  | nil => simp
  | cons q r ih =>
    obtain ⟨h1, h2⟩ := ih (Nat.lcm n (q - 1))
    refine ⟨(Nat.dvd_lcm_left _ _).trans h1, fun p hp => ?_⟩
    rcases List.mem_cons.1 hp with rfl | hp
    · exact (Nat.dvd_lcm_right _ _).trans h1
    · exact h2 p hp

/-- Fermat, for every base. -/
theorem pow_modEq_of_prime {p : Nat} (hp : p.Prime) (a m : Nat) (h : p - 1 ∣ m) : a ^ (m + 1) ≡ a [MOD p] := by
  obtain ⟨c, rfl⟩ := h
  by_cases ha : p ∣ a
  · exact (Nat.modEq_zero_iff_dvd.2 (dvd_pow ha (by omega))).trans (Nat.modEq_zero_iff_dvd.2 ha).symm
  · have hf : a ^ (p - 1) ≡ 1 [MOD p] := by
      have := Nat.ModEq.pow_totient ((Nat.Prime.coprime_iff_not_dvd hp).2 ha).symm
      rwa [Nat.totient_prime hp] at this
    have := (hf.pow c).mul_right a
    rwa [← pow_mul, one_pow, one_mul, ← pow_succ] at this

/-- The two exponents of a pair undo each other. -/
theorem RsaPrimes.isPair_inverse {k : RsaPrimes} (h : k.isPair = true) (a : Nat) (ha : a < k.modulus) :
    (a ^ k.sign % k.modulus) ^ k.verify % k.modulus = a := by
  simp only [RsaPrimes.isPair, Bool.and_eq_true, decide_eq_true_eq, beq_iff_eq, List.all_eq_true, bne_iff_ne] at h
  obtain ⟨⟨⟨⟨⟨⟨⟨⟨-, hn⟩, hp⟩, -⟩, -⟩, -⟩, -⟩, -⟩, he⟩ := h
  have hl := (dvd_lambda_fold k.primes 1).2
  have hm : k.sign * k.verify = k.lambda * (k.sign * k.verify / k.lambda) + 1 := by
    have := Nat.div_add_mod (k.sign * k.verify) k.lambda
    rw [mul_comm k.verify] at he
    omega
  have hall : a ^ (k.sign * k.verify) ≡ a [MOD k.modulus] := by
    rw [RsaPrimes.modulus_eq, Nat.modEq_list_prod_iff]
    · intro i
      rw [hm]
      exact pow_modEq_of_prime ((isPrime_iff _).1 (hp _ (List.get_mem _ _)).1) a _ ((hl _ (List.get_mem _ _)).mul_right _)
    · exact hn.imp_of_mem fun hx hy hxy => (Nat.coprime_primes ((isPrime_iff _).1 (hp _ hx).1) ((isPrime_iff _).1 (hp _ hy).1)).2 hxy
  rw [← Nat.pow_mod, ← pow_mul]
  exact Nat.mod_eq_of_modEq hall ha

end Sys2Proof
end

