-- ==== Sys2Proof/Laws/Lane.lean ====
section
/-! SUPPORT. The operands and results of a lane instruction whose fragment can issue: what reading its sources answers, and what writing
its destinations and decrementing its sources do to its group. -/

namespace Sys2Proof.Machine

/-- A body that only changes its group: the instruction retires on the changed group. -/
theorem lane_updGroup {h : LHdr} {alu : Bool} {body : LaneCtx → M (Option Tag)} {s : State} {t : Team} {g : Group} {fid : Nat}
    {f : Fragment} {p : Option Tag} (hr : LaneReady s t g fid f h) (F : Group → Group)
    (hb : body (laneCtx g fid f h) s = .ok (p, s.updGroup s.focus F)) :
    runLaneWith h alu body s = .next (laneNext s t (F g) fid (f.mode == .user) alu p) := by
  rw [runLaneWith_ok hr hb, retireLane_updGroup hr.team hr.group]

/-- A source that has a value is read. -/
theorem readSrc_ok {s : State} {t : Team} {g : Group} {c : LaneCtx} (ht : s.team? s.focus.team = some t)
    (hg : s.group? s.focus = some g) {x : Src} {y : Tag} (h : sourceTag t g c.fid c.frag x = some y) :
    readSrc c x s = .ok (y, s) := by
  have T := hereT_some ht
  have G := hereG_some hg
  unfold sourceTag at h
  cases x with
  | v n =>
    simp only [Bool.or_eq_true] at h
    split at h
    · cases h
    · rename_i hn
      simp only [not_or, Bool.not_eq_true] at hn
      simp only [Option.some.injEq] at h
      simp only [readSrc, M.bind_run, G, windowBase, T, hn.1, Bool.not_false, need_true]
      subst h
      have h2 := hn.2
      cases hv : g.view t.pbase n.toNat <;> simp [hv] at h2 ⊢
  | k n =>
    simp only at h
    split at h
    · cases h
    · rename_i hn
      simp only [not_or] at hn
      simp only [Option.some.injEq] at h
      simp only [readSrc, M.bind_run, G, windowBase, T]
      subst h
      have h2 := hn.2
      cases hv : (g.kreg n.toNat).tag <;> simp [hv] at h2 ⊢
  | latch n =>
    simp only at h
    simp only [readSrc, M.bind_run, G, windowBase, T, h, M.pure_run]
  | sq =>
    simp only at h
    cases hq : g.sq with
    | nil => simp [hq] at h
    | cons a l =>
      simp [hq] at h
      simp [readSrc, M.bind_run, G, windowBase, T, sqHead, hq, h]

/-- A list of sources that have values is read. -/
theorem readSrcs_ok {s : State} {t : Team} {g : Group} {c : LaneCtx} (ht : s.team? s.focus.team = some t)
    (hg : s.group? s.focus = some g) {l : List Src} {ts : List Tag} (h : Sources t g c.fid c.frag l ts) :
    readSrcs c l s = .ok (ts, s) := by
  induction l generalizing ts with
  | nil => cases ts <;> simp_all [Sources, readSrcs]
  | cons x r ih =>
    cases ts with
    | nil => simp [Sources] at h
    | cons y ys =>
      simp only [Sources, List.map_cons, List.cons.injEq] at h
      simp only [readSrcs, M.bind_run, readSrc_ok ht hg h.1, ih h.2, M.pure_run]

/-- A source that has a value is no k register in user mode. -/
theorem source_priv {t : Team} {g : Group} {fid : Nat} {f : Fragment} {x : Src} {y : Tag} (h : sourceTag t g fid f x = some y) :
    f.mode ≠ .user ∨ ∀ n, x ≠ .k n := by
  cases x <;> simp_all [sourceTag]

/-- The privilege check of a list of sources passes outside user mode, and where none is a k register. -/
theorem privSources_ok {c : LaneCtx} {l : List Src} {s : State} (h : ∀ x ∈ l, c.frag.mode ≠ .user ∨ ∀ n, x ≠ .k n) :
    privSources c l s = .ok ((), s) := by
  unfold privSources
  rw [if_neg]
  · rfl
  · rintro ⟨h1, h2⟩
    simp only [List.any_eq_true] at h2
    obtain ⟨x, hx, h3⟩ := h2
    rcases h x hx with h | h
    · exact h h1
    · cases x <;> simp at h3
      exact h _ rfl

/-- A write of a lane register changes registers and shadows alone. -/
theorem writeV_frame {g g' : Group} {b : Nat} {sh : Bool} {n : Nat} {w : LaneMask} {x : Tag} {cc : Nat}
    (h : g.writeV b sh n w x cc = some g') : g' = { g with vregs := g'.vregs, shadows := g'.shadows } := by
  unfold Group.writeV at h
  split at h
  · cases h; rfl
  · split at h
    · split at h
      · cases h
      · cases h; rfl
    · dsimp only at h
      split at h
      · cases h
      · cases h; rfl

/-- So does a list of writes. -/
theorem writeAll_frame {b : Nat} {sh : Bool} {w : LaneMask} {cc : Nat} {l : List (VReg × Tag)} {g g' : Group}
    (h : writeAll b sh w cc g l = some g') : g' = { g with vregs := g'.vregs, shadows := g'.shadows } := by
  induction l generalizing g with
  | nil => cases h; rfl
  | cons e r ih =>
    simp only [writeAll, Option.bind_eq_some_iff] at h
    obtain ⟨g1, h1, h2⟩ := h
    rw [ih h2, writeV_frame h1]

/-- A decrement changes lane registers, supervisor registers and shadows alone. -/
theorem decAll_frame (g : Group) (names ws : List Src) :
    ∃ v k sh, g.decAll names ws = { g with vregs := v, kregs := k, shadows := sh } := by
  unfold Group.decAll
  generalize (names.dedup.filter fun x => !ws.contains x) = l
  induction l generalizing g with
  | nil => exact ⟨_, _, _, rfl⟩
  | cons x r ih =>
    rw [List.foldl_cons]
    cases x with
    | v n =>
      obtain ⟨v, k, sh, h⟩ := ih (g.decV n.toNat)
      rw [h, Group.decV]
      repeat' split
      all_goals exact ⟨_, _, _, rfl⟩
    | k n =>
      obtain ⟨v, k, sh, h⟩ := ih (g.decK n.toNat)
      rw [h, Group.decK]
      repeat' split
      all_goals exact ⟨_, _, _, rfl⟩
    | latch n => exact ih g
    | sq => exact ih g

/-- Whether a register may be touched depends on accesses and waiting instructions alone. -/
theorem vregBusy_congr {g g' : Group} (ha : g'.accesses = g.accesses) (hw : g'.waiting = g.waiting) (fid : Nat) (n : VReg) :
    g'.vregBusy fid n = g.vregBusy fid n := by
  simp [Group.vregBusy, Group.stillNamed, ha, hw]

/-- What a change of a group makes of the group that is there. -/
theorem updGroup_const {s : State} {r : GRef} {g : Group} (hg : s.group? r = some g) (H : Group → Group) :
    s.updGroup r H = s.updGroup r fun _ => H g := by
  unfold State.group? at hg
  cases ht : s.team? r.team with
  | none => simp [ht] at hg
  | some t =>
    simp only [ht, Option.bind_some] at hg
    simp only [State.updGroup, State.updTeam, aupd, State.team?] at ht ⊢
    simp only [ht, hg]

/-- `s'` is `s` with the group in focus, and nothing else, become `g'`, as every later change of that group sees it. -/
structure Became (s : State) (t : Team) (g' : Group) (s' : State) : Prop where
  focus : s'.focus = s.focus
  stream : s'.stream = s.stream
  group : s'.group? s.focus = some g'
  team  : ∃ gs, s'.team? s.focus.team = some { t with groups := gs }
  later : ∀ H, s'.updGroup s.focus H = s.updGroup s.focus fun _ => H g'

theorem Became.same {s : State} {t : Team} {g : Group} (ht : s.team? s.focus.team = some t) (hg : s.group? s.focus = some g) :
    Became s t g s := ⟨rfl, rfl, hg, ⟨t.groups, ht⟩, updGroup_const hg⟩

theorem Became.upd {s : State} {t : Team} {g : Group} (ht : s.team? s.focus.team = some t) (hg : s.group? s.focus = some g)
    (F : Group → Group) : Became s t (F g) (s.updGroup s.focus F) :=
  ⟨rfl, rfl, by simp [hg], ⟨_, by simp [ht]; rfl⟩, fun H => by
    rw [State.updGroup_updGroup, updGroup_const hg]⟩

theorem Became.trans {s s' s'' : State} {t t' : Team} {g' g'' : Group} (h : Became s t g' s') (ht : s'.team? s.focus.team = some t')
    (h' : Became s' t' g'' s'') : Became s t g'' s'' := by
  obtain ⟨gs, e⟩ := h.team
  rw [ht] at e
  obtain ⟨gs', e'⟩ := h'.team
  rw [h.focus] at e'
  refine ⟨h'.focus.trans h.focus, h'.stream.trans h.stream, by rw [← h.focus]; exact h'.group, ⟨gs', ?_⟩, fun H => ?_⟩
  · rw [e']; cases e; rfl
  · have := h'.later H
    rw [h.focus] at this
    rw [this, h.later]

/-- A further change of a group that has become another. -/
theorem Became.andThen {s s1 : State} {t : Team} {g1 : Group} (b : Became s t g1 s1) (F : Group → Group) :
    Became s t (F g1) (s1.updGroup s.focus F) := by
  obtain ⟨gs, e⟩ := b.team
  have := Became.upd (s := s1) (t := { t with groups := gs }) (g := g1) (by rw [b.focus]; exact e) (by rw [b.focus]; exact b.group) F
  rw [b.focus] at this
  exact b.trans e this

/-- The writes of an instruction whose registers are free and find their slots: its group becomes what `writeAll` answers. -/
theorem writeRegs_run {c : LaneCtx} {cc : Nat} {l : List (VReg × Tag)} :
    ∀ {s : State} {t : Team} {g g' : Group}, s.team? s.focus.team = some t → s.group? s.focus = some g →
      (∀ e ∈ l, g.vregBusy c.fid e.1 = false) → writeAll t.pbase (c.frag.mode == .user) c.w cc g l = some g' →
      ∃ s', writeRegs c cc l s = .ok ((), s') ∧ Became s t g' s' := by
  induction l with
  | nil =>
    intro s t g g' ht hg _ h
    cases h
    exact ⟨s, rfl, Became.same ht hg⟩
  | cons x r ih =>
    intro s t g g' ht hg hb h
    obtain ⟨d, y⟩ := x
    simp only [writeAll, Option.bind_eq_some_iff] at h
    obtain ⟨g1, h1, h2⟩ := h
    have hk := writeV_frame h1
    let F0 : Group → Group := fun g => (g.writeV t.pbase (c.frag.mode == .user) d.toNat c.w y cc).getD g
    have e0 : F0 g = g1 := by simp [F0, h1]
    have b1 := Became.upd ht hg F0
    rw [e0] at b1
    have ht1 : (s.updGroup s.focus F0).team? s.focus.team = some { t with groups := aupd t.groups s.focus.group F0 } := by
      simp [ht]
    obtain ⟨s', hs', b2⟩ := ih (s := s.updGroup s.focus F0) ht1 b1.group
      (fun e he => by
        rw [vregBusy_congr (g := g) (by rw [hk]) (by rw [hk])]
        exact hb e (List.mem_cons_of_mem _ he)) h2
    refine ⟨s', ?_, b1.trans ht1 b2⟩
    have hb0 := hb (d, y) (List.mem_cons_self ..)
    simp only [writeRegs, windowBase, M.bind_run, M.pure_run, hereT_some ht, hereG_some hg, hb0, Bool.not_false, need_true, h1,
      modHere_run]
    exact hs'

/-- A body whose group has become another, with nothing else changed: the instruction retires on that group. -/
theorem lane_became {h : LHdr} {alu : Bool} {body : LaneCtx → M (Option Tag)} {s s' : State} {t : Team} {g g' : Group} {fid : Nat}
    {f : Fragment} {p : Option Tag} (hr : LaneReady s t g fid f h) (hb : body (laneCtx g fid f h) s = .ok (p, s'))
    (b : Became s t g' s') : runLaneWith h alu body s = .next (laneNext s t g' fid (f.mode == .user) alu p) := by
  rw [runLaneWith_ok hr hb]
  have e : ∀ u, s'.retireLane s.focus fid u alu p = (s.updGroup s.focus fun _ => g').retireLane s.focus fid u alu p := by
    intro u
    simp only [State.retireLane, b.later, State.updGroup_updGroup]
  rw [e, retireLane_updGroup hr.team hr.group]

/-- The decrements of an instruction. -/
@[simp] theorem decSources_run (names ws : List Src) (s : State) :
    decSources names ws s = .ok ((), s.updGroup s.focus fun g => g.decAll names ws) := rfl

/-- An instruction outside the ALU class whose body has only changed its group. -/
theorem runLane_became {h : LHdr} {body : LaneCtx → M Unit} {s s' : State} {t : Team} {g g' : Group} {fid : Nat} {f : Fragment}
    (hr : LaneReady s t g fid f h) (hb : body (laneCtx g fid f h) s = .ok ((), s')) (b : Became s t g' s') :
    runLane h body s = .next (laneNext s t (g'.advance fid) fid (f.mode == .user) false none) := by
  refine lane_became hr (s' := s'.updGroup s.focus (fun g => g.advance fid)) ?_ (b.andThen (fun g => g.advance fid))
  rw [M.bind_run, hb]
  simp [nextLane, laneCtx, b.focus]; rfl

/-- The addresses of a list of lanes, each of which translates. -/
theorem xlateLanes_ok {s : State} {t : Team} {c : LaneCtx} {x : LaneAddr} {nd : Need} (ht : s.team? s.focus.team = some t)
    {ls : List Nat} {ps : List (Nat × Nat)} (h1 : ps.map (·.1) = ls)
    (h2 : ∀ p ∈ ps, s.translate t.tenant t.core c.frag.mode (x.at_ p.1).toNat nd = .ok p.2) : xlateLanes c x nd ls s = .ok (ps, s) := by
  induction ls generalizing ps with
  | nil => cases ps <;> simp_all [xlateLanes]
  | cons l r ih =>
    cases ps with
    | nil => simp at h1
    | cons p ps =>
      simp only [List.map_cons, List.cons.injEq] at h1
      have hp := h2 p (List.mem_cons_self ..)
      rw [h1.1] at hp
      simp only [xlateLanes, M.bind_run, xlateVA_ok ht hp, ih h1.2 (fun q hq => h2 q (List.mem_cons_of_mem _ hq)), M.pure_run]
      obtain ⟨a, b⟩ := p
      simp at h1; simp [h1.1]

/-- The common end of a lane memory form: its destinations take their shape, its sources are decremented, and its access is issued. -/
theorem issueLane_ok {s : State} {t : Team} {g g1 : Group} {c : LaneCtx} {cc : Nat} {dests : List VReg} {u : Bool} {names : List Src}
    {a : Access} {p : Path} (ht : s.team? s.focus.team = some t) (hg : s.group? s.focus = some g) (hp : a.path = some p)
    (hi : g.inflight p < 255)
    (hb : ∀ e ∈ dests.map fun d => (d, if u then .uniform 0#32 else Tag.ofLanes fun _ => 0#32), g.vregBusy c.fid e.1 = false)
    (h1 : writeAll t.pbase (c.frag.mode == .user) c.w cc g
      (dests.map fun d => (d, if u then .uniform 0#32 else Tag.ofLanes fun _ => 0#32)) = some g1) :
    let g' := g1.decAll names (writtenBy c dests)
    ∃ s', issueLane c false cc dests u names a s = .ok ((), s') ∧
      Became s t { g' with
        accesses := pruneAccesses (g'.accesses ++ [{ a with id := g'.nextId, home := false, done := a.void }]),
        nextId := g'.nextId + 1 } s' := by
  intro g'
  obtain ⟨s1, hs1, b1⟩ := writeRegs_run ht hg hb h1
  have b2 := b1.andThen (fun g => g.decAll names (writtenBy c dests))
  have b3 := b2.andThen
    (fun g => { g with
      accesses := pruneAccesses (g.accesses ++ [{ a with id := g.nextId, home := false, done := a.void }]),
      nextId := g.nextId + 1 })
  refine ⟨_, ?_, b3⟩
  have hk := writeAll_frame h1
  obtain ⟨v, k, sh, hd⟩ := decAll_frame g1 names (writtenBy c dests)
  have hin : (g1.decAll names (writtenBy c dests)).inflight p < 255 := by
    have : (g1.decAll names (writtenBy c dests)).accesses = g.accesses := by rw [hd, hk]
    simpa [Group.inflight, this] using hi
  simp only [issueLane, M.bind_run, hs1, decSources_run, b1.focus]
  simp only [issueAccess, M.bind_run, pushAccess]
  rw [hereG_some (by simpa [b1.focus] using b2.group)]
  simp only [hp, hin, decide_true, need_true, modHere_run, State.updGroup_focus, b1.focus]
  simp [Access.void, hp]

end Sys2Proof.Machine
end

