-- ==== Sys2Proof/Laws/PerInstr.lean ====
section
/-! SUPPORT. Facts of every instruction as syntax, one lemma a constructor. RoundTrip: the words of a well-formed instruction decode
to it again, with every operand. -/

set_option Elab.async false
set_option linter.unusedSimpArgs false

namespace Sys2Proof.Laws.RoundTrip

/-- The words of a well-formed instruction decode to the instruction as its words tell it. -/
def Statement (i : Instr) : Prop := ∀ ws : List W32, i.wellFormed = true → encode i = some ws → decodeWords ws = some i.wordForm

/-- A step without words. -/
theorem of_none {i : Instr} (h : encode i = none) : Statement i := by
  intro ws _ he
  simp [h] at he

theorem add (d : SReg) (a : SReg) (b : SReg) : Statement (Instr.add d a b) := by
  exact fun _ _ => decode_scalar rfl (by simp [sx, decodeSF, decSR, decSX, decSys, noSd, noSa, noSdSa, Instr.wordForm])
theorem sub (d : SReg) (a : SReg) (b : SReg) : Statement (Instr.sub d a b) := by
  exact fun _ _ => decode_scalar rfl (by simp [sx, decodeSF, decSR, decSX, decSys, noSd, noSa, noSdSa, Instr.wordForm])
theorem mul (d : SReg) (a : SReg) (b : SReg) : Statement (Instr.mul d a b) := by
  exact fun _ _ => decode_scalar rfl (by simp [sx, decodeSF, decSR, decSX, decSys, noSd, noSa, noSdSa, Instr.wordForm])
theorem mulhi (d : SReg) (a : SReg) (b : SReg) : Statement (Instr.mulhi d a b) := by
  exact fun _ _ => decode_scalar rfl (by simp [sx, decodeSF, decSR, decSX, decSys, noSd, noSa, noSdSa, Instr.wordForm])
theorem mulhu (d : SReg) (a : SReg) (b : SReg) : Statement (Instr.mulhu d a b) := by
  exact fun _ _ => decode_scalar rfl (by simp [sx, decodeSF, decSR, decSX, decSys, noSd, noSa, noSdSa, Instr.wordForm])
theorem and (d : SReg) (a : SReg) (b : SReg) : Statement (Instr.and d a b) := by
  exact fun _ _ => decode_scalar rfl (by simp [sx, decodeSF, decSR, decSX, decSys, noSd, noSa, noSdSa, Instr.wordForm])
theorem or (d : SReg) (a : SReg) (b : SReg) : Statement (Instr.or d a b) := by
  exact fun _ _ => decode_scalar rfl (by simp [sx, decodeSF, decSR, decSX, decSys, noSd, noSa, noSdSa, Instr.wordForm])
theorem xor (d : SReg) (a : SReg) (b : SReg) : Statement (Instr.xor d a b) := by
  exact fun _ _ => decode_scalar rfl (by simp [sx, decodeSF, decSR, decSX, decSys, noSd, noSa, noSdSa, Instr.wordForm])
theorem andn (d : SReg) (a : SReg) (b : SReg) : Statement (Instr.andn d a b) := by
  exact fun _ _ => decode_scalar rfl (by simp [sx, decodeSF, decSR, decSX, decSys, noSd, noSa, noSdSa, Instr.wordForm])
theorem shl (d : SReg) (a : SReg) (b : SReg) : Statement (Instr.shl d a b) := by
  exact fun _ _ => decode_scalar rfl (by simp [sx, decodeSF, decSR, decSX, decSys, noSd, noSa, noSdSa, Instr.wordForm])
theorem shr (d : SReg) (a : SReg) (b : SReg) : Statement (Instr.shr d a b) := by
  exact fun _ _ => decode_scalar rfl (by simp [sx, decodeSF, decSR, decSX, decSys, noSd, noSa, noSdSa, Instr.wordForm])
theorem sar (d : SReg) (a : SReg) (b : SReg) : Statement (Instr.sar d a b) := by
  exact fun _ _ => decode_scalar rfl (by simp [sx, decodeSF, decSR, decSX, decSys, noSd, noSa, noSdSa, Instr.wordForm])
theorem min (d : SReg) (a : SReg) (b : SReg) : Statement (Instr.min d a b) := by
  exact fun _ _ => decode_scalar rfl (by simp [sx, decodeSF, decSR, decSX, decSys, noSd, noSa, noSdSa, Instr.wordForm])
theorem max (d : SReg) (a : SReg) (b : SReg) : Statement (Instr.max d a b) := by
  exact fun _ _ => decode_scalar rfl (by simp [sx, decodeSF, decSR, decSX, decSys, noSd, noSa, noSdSa, Instr.wordForm])
theorem minu (d : SReg) (a : SReg) (b : SReg) : Statement (Instr.minu d a b) := by
  exact fun _ _ => decode_scalar rfl (by simp [sx, decodeSF, decSR, decSX, decSys, noSd, noSa, noSdSa, Instr.wordForm])
theorem maxu (d : SReg) (a : SReg) (b : SReg) : Statement (Instr.maxu d a b) := by
  exact fun _ _ => decode_scalar rfl (by simp [sx, decodeSF, decSR, decSX, decSys, noSd, noSa, noSdSa, Instr.wordForm])
theorem slt (d : SReg) (a : SReg) (b : SReg) : Statement (Instr.slt d a b) := by
  exact fun _ _ => decode_scalar rfl (by simp [sx, decodeSF, decSR, decSX, decSys, noSd, noSa, noSdSa, Instr.wordForm])
theorem sltu (d : SReg) (a : SReg) (b : SReg) : Statement (Instr.sltu d a b) := by
  exact fun _ _ => decode_scalar rfl (by simp [sx, decodeSF, decSR, decSX, decSys, noSd, noSa, noSdSa, Instr.wordForm])
theorem seq (d : SReg) (a : SReg) (b : SReg) : Statement (Instr.seq d a b) := by
  exact fun _ _ => decode_scalar rfl (by simp [sx, decodeSF, decSR, decSX, decSys, noSd, noSa, noSdSa, Instr.wordForm])
theorem sne (d : SReg) (a : SReg) (b : SReg) : Statement (Instr.sne d a b) := by
  exact fun _ _ => decode_scalar rfl (by simp [sx, decodeSF, decSR, decSX, decSys, noSd, noSa, noSdSa, Instr.wordForm])
theorem scalarClz (d : SReg) (a : SReg) : Statement (Instr.scalarClz d a) := by
  exact fun _ _ => decode_scalar rfl (by simp [sx, decodeSF, decSR, decSX, decSys, noSd, noSa, noSdSa, Instr.wordForm])
theorem scalarPopc (d : SReg) (a : SReg) : Statement (Instr.scalarPopc d a) := by
  exact fun _ _ => decode_scalar rfl (by simp [sx, decodeSF, decSR, decSX, decSys, noSd, noSa, noSdSa, Instr.wordForm])
theorem scalarSel (d : SReg) (a : SReg) (b : SReg) : Statement (Instr.scalarSel d a b) := by
  exact fun _ _ => decode_scalar rfl (by simp [sx, decodeSF, decSR, decSX, decSys, noSd, noSa, noSdSa, Instr.wordForm])
theorem addi (d : SReg) (a : SReg) (i : BitVec 14) : Statement (Instr.addi d a i) := by
  exact fun _ _ => decode_scalar rfl (by simp [sx, decodeSF, decSR, decSX, decSys, noSd, noSa, noSdSa, Instr.wordForm])
theorem andi (d : SReg) (a : SReg) (i : BitVec 14) : Statement (Instr.andi d a i) := by
  exact fun _ _ => decode_scalar rfl (by simp [sx, decodeSF, decSR, decSX, decSys, noSd, noSa, noSdSa, Instr.wordForm])
theorem ori (d : SReg) (a : SReg) (i : BitVec 14) : Statement (Instr.ori d a i) := by
  exact fun _ _ => decode_scalar rfl (by simp [sx, decodeSF, decSR, decSX, decSys, noSd, noSa, noSdSa, Instr.wordForm])
theorem xori (d : SReg) (a : SReg) (i : BitVec 14) : Statement (Instr.xori d a i) := by
  exact fun _ _ => decode_scalar rfl (by simp [sx, decodeSF, decSR, decSX, decSys, noSd, noSa, noSdSa, Instr.wordForm])
theorem shli (d : SReg) (a : SReg) (i : BitVec 6) : Statement (Instr.shli d a i) := by
  exact fun _ _ => decode_scalar rfl (by simp [sx, decodeSF, decSR, decSX, decSys, noSd, noSa, noSdSa, Instr.wordForm, decShift])
theorem shri (d : SReg) (a : SReg) (i : BitVec 6) : Statement (Instr.shri d a i) := by
  exact fun _ _ => decode_scalar rfl (by simp [sx, decodeSF, decSR, decSX, decSys, noSd, noSa, noSdSa, Instr.wordForm, decShift])
theorem sari (d : SReg) (a : SReg) (i : BitVec 6) : Statement (Instr.sari d a i) := by
  exact fun _ _ => decode_scalar rfl (by simp [sx, decodeSF, decSR, decSX, decSys, noSd, noSa, noSdSa, Instr.wordForm, decShift])
theorem slti (d : SReg) (a : SReg) (i : BitVec 14) : Statement (Instr.slti d a i) := by
  exact fun _ _ => decode_scalar rfl (by simp [sx, decodeSF, decSR, decSX, decSys, noSd, noSa, noSdSa, Instr.wordForm])
theorem lui (d : SReg) (i : BitVec 20) : Statement (Instr.lui d i) := by
  exact fun _ _ => decode_scalar rfl (by simp [sx, decodeSF, decSR, decSX, decSys, noSd, noSa, noSdSa, Instr.wordForm])
theorem scalarLd (d : SReg) (a : SReg) (z : SSize) (i : BitVec 12) : Statement (Instr.scalarLd d a z i) := by
  exact fun _ _ => decode_scalar rfl (by simp [sx, decodeSF, decSR, decSX, decSys, noSd, noSa, noSdSa, Instr.wordForm, decSize_encSize])
theorem scalarLds (d : SReg) (a : SReg) (z : SSize) (i : BitVec 12) : Statement (Instr.scalarLds d a z i) := by
  exact fun _ _ => decode_scalar rfl (by simp [sx, decodeSF, decSR, decSX, decSys, noSd, noSa, noSdSa, Instr.wordForm, decSize_encSize])
theorem scalarSt (d : SReg) (a : SReg) (z : SSize) (i : BitVec 12) : Statement (Instr.scalarSt d a z i) := by
  exact fun _ _ => decode_scalar rfl (by simp [sx, decodeSF, decSR, decSX, decSys, noSd, noSa, noSdSa, Instr.wordForm, decSize_encSize])
theorem amo (op : AmoOp) (d : SReg) (a : SReg) (i : BitVec 8) : Statement (Instr.amo op d a i) := by
  exact fun _ _ => decode_scalar rfl (by simp [sx, decodeSF, decSR, decSX, decSys, noSd, noSa, noSdSa, Instr.wordForm, decAmo_encAmo])
theorem j (o : BitVec 26) : Statement (Instr.j o) := by
  exact fun _ _ => decode_scalar rfl (by simp [sx, decodeSF, decSR, decSX, decSys, noSd, noSa, noSdSa, Instr.wordForm])
theorem jal (o : BitVec 26) : Statement (Instr.jal o) := by
  exact fun _ _ => decode_scalar rfl (by simp [sx, decodeSF, decSR, decSX, decSys, noSd, noSa, noSdSa, Instr.wordForm])
theorem jr (d : SReg) (a : SReg) : Statement (Instr.jr d a) := by
  exact fun _ _ => decode_scalar rfl (by simp [sx, decodeSF, decSR, decSX, decSys, noSd, noSa, noSdSa, Instr.wordForm])
theorem beq (a : SReg) (b : SReg) (o : BitVec 14) : Statement (Instr.beq a b o) := by
  exact fun _ _ => decode_scalar rfl (by simp [sx, decodeSF, decSR, decSX, decSys, noSd, noSa, noSdSa, Instr.wordForm])
theorem bne (a : SReg) (b : SReg) (o : BitVec 14) : Statement (Instr.bne a b o) := by
  exact fun _ _ => decode_scalar rfl (by simp [sx, decodeSF, decSR, decSX, decSys, noSd, noSa, noSdSa, Instr.wordForm])
theorem blt (a : SReg) (b : SReg) (o : BitVec 14) : Statement (Instr.blt a b o) := by
  exact fun _ _ => decode_scalar rfl (by simp [sx, decodeSF, decSR, decSX, decSys, noSd, noSa, noSdSa, Instr.wordForm])
theorem bge (a : SReg) (b : SReg) (o : BitVec 14) : Statement (Instr.bge a b o) := by
  exact fun _ _ => decode_scalar rfl (by simp [sx, decodeSF, decSR, decSX, decSys, noSd, noSa, noSdSa, Instr.wordForm])
theorem bltu (a : SReg) (b : SReg) (o : BitVec 14) : Statement (Instr.bltu a b o) := by
  exact fun _ _ => decode_scalar rfl (by simp [sx, decodeSF, decSR, decSX, decSys, noSd, noSa, noSdSa, Instr.wordForm])
theorem bgeu (a : SReg) (b : SReg) (o : BitVec 14) : Statement (Instr.bgeu a b o) := by
  exact fun _ _ => decode_scalar rfl (by simp [sx, decodeSF, decSR, decSX, decSys, noSd, noSa, noSdSa, Instr.wordForm])
theorem sqpush (a : SReg) : Statement (Instr.sqpush a) := by
  exact fun _ _ => decode_scalar rfl (by simp [sx, decodeSF, decSR, decSX, decSys, noSd, noSa, noSdSa, Instr.wordForm])
theorem lqpop (d : SReg) : Statement (Instr.lqpop d) := by
  exact fun _ _ => decode_scalar rfl (by simp [sx, decodeSF, decSR, decSX, decSys, noSd, noSa, noSdSa, Instr.wordForm])
theorem lrun (a : SReg) : Statement (Instr.lrun a) := by
  exact fun _ _ => decode_scalar rfl (by simp [sx, decodeSF, decSR, decSX, decSys, noSd, noSa, noSdSa, Instr.wordForm])
theorem lsync : Statement Instr.lsync := by
  exact fun _ _ => decode_scalar rfl (by simp [sx, decodeSF, decSR, decSX, decSys, noSd, noSa, noSdSa, Instr.wordForm])
theorem fmt (a : SReg) : Statement (Instr.fmt a) := by
  exact fun _ _ => decode_scalar rfl (by simp [sx, decodeSF, decSR, decSX, decSys, noSd, noSa, noSdSa, Instr.wordForm])
theorem acopy (d : SReg) (a : SReg) : Statement (Instr.acopy d a) := by
  exact fun _ _ => decode_scalar rfl (by simp [sx, decodeSF, decSR, decSX, decSys, noSd, noSa, noSdSa, Instr.wordForm])
theorem acopyx (d : SReg) (a : SReg) : Statement (Instr.acopyx d a) := by
  exact fun _ _ => decode_scalar rfl (by simp [sx, decodeSF, decSR, decSX, decSys, noSd, noSa, noSdSa, Instr.wordForm])
theorem agath (d : SReg) (a : SReg) : Statement (Instr.agath d a) := by
  exact fun _ _ => decode_scalar rfl (by simp [sx, decodeSF, decSR, decSX, decSys, noSd, noSa, noSdSa, Instr.wordForm])
theorem rcopy (d : SReg) (a : SReg) : Statement (Instr.rcopy d a) := by
  exact fun _ _ => decode_scalar rfl (by simp [sx, decodeSF, decSR, decSX, decSys, noSd, noSa, noSdSa, Instr.wordForm])
theorem scalarWait (p : Path) (a : SReg) : Statement (Instr.scalarWait p a) := by
  refine fun _ _ => decode_scalar rfl ?_
  cases p <;> simp [sx, decodeSF, decSX, encPath, decPath, noSd, Instr.wordForm]
theorem twait (d : SReg) (a : SReg) : Statement (Instr.twait d a) := by
  exact fun _ _ => decode_scalar rfl (by simp [sx, decodeSF, decSR, decSX, decSys, noSd, noSa, noSdSa, Instr.wordForm])
theorem tread (d : SReg) (a : SReg) : Statement (Instr.tread d a) := by
  exact fun _ _ => decode_scalar rfl (by simp [sx, decodeSF, decSR, decSX, decSys, noSd, noSa, noSdSa, Instr.wordForm])
theorem knotArrive (a : SReg) : Statement (Instr.knotArrive a) := by
  exact fun _ _ => decode_scalar rfl (by simp [sx, decodeSF, decSR, decSX, decSys, noSd, noSa, noSdSa, Instr.wordForm])
theorem knotWait (d : SReg) (a : SReg) : Statement (Instr.knotWait d a) := by
  exact fun _ _ => decode_scalar rfl (by simp [sx, decodeSF, decSR, decSX, decSys, noSd, noSa, noSdSa, Instr.wordForm])
theorem knotExpect (d : SReg) (a : SReg) : Statement (Instr.knotExpect d a) := by
  exact fun _ _ => decode_scalar rfl (by simp [sx, decodeSF, decSR, decSX, decSys, noSd, noSa, noSdSa, Instr.wordForm])
theorem knotInit (d : SReg) (a : SReg) : Statement (Instr.knotInit d a) := by
  exact fun _ _ => decode_scalar rfl (by simp [sx, decodeSF, decSR, decSX, decSys, noSd, noSa, noSdSa, Instr.wordForm])
theorem tarm (d : SReg) (a : SReg) : Statement (Instr.tarm d a) := by
  exact fun _ _ => decode_scalar rfl (by simp [sx, decodeSF, decSR, decSX, decSys, noSd, noSa, noSdSa, Instr.wordForm])
theorem tset (a : SReg) : Statement (Instr.tset a) := by
  exact fun _ _ => decode_scalar rfl (by simp [sx, decodeSF, decSR, decSX, decSys, noSd, noSa, noSdSa, Instr.wordForm])
theorem tclr (a : SReg) : Statement (Instr.tclr a) := by
  exact fun _ _ => decode_scalar rfl (by simp [sx, decodeSF, decSR, decSX, decSys, noSd, noSa, noSdSa, Instr.wordForm])
theorem cpost (d : SReg) (a : SReg) : Statement (Instr.cpost d a) := by
  exact fun _ _ => decode_scalar rfl (by simp [sx, decodeSF, decSR, decSX, decSys, noSd, noSa, noSdSa, Instr.wordForm])
theorem cstat (d : SReg) (a : SReg) : Statement (Instr.cstat d a) := by
  exact fun _ _ => decode_scalar rfl (by simp [sx, decodeSF, decSR, decSX, decSys, noSd, noSa, noSdSa, Instr.wordForm])
theorem kcfgDefine (d : SReg) (a : SReg) : Statement (Instr.kcfgDefine d a) := by
  exact fun _ _ => decode_scalar rfl (by simp [sx, decodeSF, decSR, decSX, decSys, noSd, noSa, noSdSa, Instr.wordForm])
theorem kcfgStream (d : SReg) (a : SReg) : Statement (Instr.kcfgStream d a) := by
  exact fun _ _ => decode_scalar rfl (by simp [sx, decodeSF, decSR, decSX, decSys, noSd, noSa, noSdSa, Instr.wordForm])
theorem kcfgClear (d : SReg) (a : SReg) : Statement (Instr.kcfgClear d a) := by
  exact fun _ _ => decode_scalar rfl (by simp [sx, decodeSF, decSR, decSX, decSys, noSd, noSa, noSdSa, Instr.wordForm])
theorem kcfgStatus (d : SReg) (a : SReg) : Statement (Instr.kcfgStatus d a) := by
  exact fun _ _ => decode_scalar rfl (by simp [sx, decodeSF, decSR, decSX, decSys, noSd, noSa, noSdSa, Instr.wordForm])
theorem kcfgAttach (d : SReg) (a : SReg) : Statement (Instr.kcfgAttach d a) := by
  exact fun _ _ => decode_scalar rfl (by simp [sx, decodeSF, decSR, decSX, decSys, noSd, noSa, noSdSa, Instr.wordForm])
theorem kdrain (a : SReg) : Statement (Instr.kdrain a) := by
  exact fun _ _ => decode_scalar rfl (by simp [sx, decodeSF, decSR, decSX, decSys, noSd, noSa, noSdSa, Instr.wordForm])
theorem scalarSysc (a : SReg) : Statement (Instr.scalarSysc a) := by
  exact fun _ _ => decode_scalar rfl (by simp [sx, decodeSF, decSR, decSX, decSys, noSd, noSa, noSdSa, Instr.wordForm])
theorem scalarHcall (a : SReg) : Statement (Instr.scalarHcall a) := by
  exact fun _ _ => decode_scalar rfl (by simp [sx, decodeSF, decSR, decSX, decSys, noSd, noSa, noSdSa, Instr.wordForm])
theorem scalarTret : Statement Instr.scalarTret := by
  exact fun _ _ => decode_scalar rfl (by simp [sx, decodeSF, decSR, decSX, decSys, noSd, noSa, noSdSa, Instr.wordForm])
theorem scalarSrd (d : SReg) (a : SReg) : Statement (Instr.scalarSrd d a) := by
  exact fun _ _ => decode_scalar rfl (by simp [sx, decodeSF, decSR, decSX, decSys, noSd, noSa, noSdSa, Instr.wordForm])
theorem scalarSwr (d : SReg) (a : SReg) : Statement (Instr.scalarSwr d a) := by
  exact fun _ _ => decode_scalar rfl (by simp [sx, decodeSF, decSR, decSX, decSys, noSd, noSa, noSdSa, Instr.wordForm])
theorem feat (d : SReg) (a : SReg) : Statement (Instr.feat d a) := by
  exact fun _ _ => decode_scalar rfl (by simp [sx, decodeSF, decSR, decSX, decSys, noSd, noSa, noSdSa, Instr.wordForm])
theorem role (a : SReg) : Statement (Instr.role a) := by
  exact fun _ _ => decode_scalar rfl (by simp [sx, decodeSF, decSR, decSX, decSys, noSd, noSa, noSdSa, Instr.wordForm])
theorem yield : Statement Instr.yield := by
  exact fun _ _ => decode_scalar rfl (by simp [sx, decodeSF, decSR, decSX, decSys, noSd, noSa, noSdSa, Instr.wordForm])
theorem mwait (d : SReg) (a : SReg) : Statement (Instr.mwait d a) := by
  exact fun _ _ => decode_scalar rfl (by simp [sx, decodeSF, decSR, decSX, decSys, noSd, noSa, noSdSa, Instr.wordForm])
theorem fence (s : Scope) (o : Order) : Statement (Instr.fence s o) := by
  intro ws hw
  refine decode_scalar (f := sx 0x38#6 0 (encScope s ++ encOrder o ++ 0#1) 9#14) rfl ?_
  cases s <;> cases o <;> first | exact absurd hw (by decide) | rfl
theorem exit : Statement Instr.exit := by
  exact fun _ _ => decode_scalar rfl (by simp [sx, decodeSF, decSR, decSX, decSys, noSd, noSa, noSdSa, Instr.wordForm])
theorem scalarBrk (a : SReg) : Statement (Instr.scalarBrk a) := by
  exact fun _ _ => decode_scalar rfl (by simp [sx, decodeSF, decSR, decSX, decSys, noSd, noSa, noSdSa, Instr.wordForm])
theorem scalarNop : Statement Instr.scalarNop := by
  exact fun _ _ => decode_scalar rfl (by simp [sx, decodeSF, decSR, decSX, decSys, noSd, noSa, noSdSa, Instr.wordForm])
theorem iadd (h : LHdr) (d : VReg) (a : Src) (b : Src) : Statement (Instr.iadd h d a b) := by
  obtain ⟨pr, pn, wbs, cc⟩ := h
  intro ws hw he
  refine decode_lane rfl rfl ?_ he
  clear he
  simp [Instr.wellFormed, LHdr.noWbs, LHdr.plain, atomOk] at hw
  simp [lf, noHdr, decodeLF, decInt, LFields.hdr, LFields.noGuard, LFields.noWbs, LFields.noDst, LFields.one, Instr.wordForm, hw]
theorem isub (h : LHdr) (d : VReg) (a : Src) (b : Src) : Statement (Instr.isub h d a b) := by
  obtain ⟨pr, pn, wbs, cc⟩ := h
  intro ws hw he
  refine decode_lane rfl rfl ?_ he
  clear he
  simp [Instr.wellFormed, LHdr.noWbs, LHdr.plain, atomOk] at hw
  simp [lf, noHdr, decodeLF, decInt, LFields.hdr, LFields.noGuard, LFields.noWbs, LFields.noDst, LFields.one, Instr.wordForm, hw]
theorem imul (h : LHdr) (d : VReg) (a : Src) (b : Src) : Statement (Instr.imul h d a b) := by
  obtain ⟨pr, pn, wbs, cc⟩ := h
  intro ws hw he
  refine decode_lane rfl rfl ?_ he
  clear he
  simp [Instr.wellFormed, LHdr.noWbs, LHdr.plain, atomOk] at hw
  simp [lf, noHdr, decodeLF, decInt, LFields.hdr, LFields.noGuard, LFields.noWbs, LFields.noDst, LFields.one, Instr.wordForm, hw]
theorem imulhi (h : LHdr) (d : VReg) (a : Src) (b : Src) : Statement (Instr.imulhi h d a b) := by
  obtain ⟨pr, pn, wbs, cc⟩ := h
  intro ws hw he
  refine decode_lane rfl rfl ?_ he
  clear he
  simp [Instr.wellFormed, LHdr.noWbs, LHdr.plain, atomOk] at hw
  simp [lf, noHdr, decodeLF, decInt, LFields.hdr, LFields.noGuard, LFields.noWbs, LFields.noDst, LFields.one, Instr.wordForm, hw]
theorem imulhu (h : LHdr) (d : VReg) (a : Src) (b : Src) : Statement (Instr.imulhu h d a b) := by
  obtain ⟨pr, pn, wbs, cc⟩ := h
  intro ws hw he
  refine decode_lane rfl rfl ?_ he
  clear he
  simp [Instr.wellFormed, LHdr.noWbs, LHdr.plain, atomOk] at hw
  simp [lf, noHdr, decodeLF, decInt, LFields.hdr, LFields.noGuard, LFields.noWbs, LFields.noDst, LFields.one, Instr.wordForm, hw]
theorem imad (h : LHdr) (d : VReg) (a : Src) (b : Src) (c : Src) : Statement (Instr.imad h d a b c) := by
  obtain ⟨pr, pn, wbs, cc⟩ := h
  intro ws hw he
  refine decode_lane rfl rfl ?_ he
  clear he
  simp [Instr.wellFormed, LHdr.noWbs, LHdr.plain, atomOk] at hw
  simp [lf, noHdr, decodeLF, decInt, LFields.hdr, LFields.noGuard, LFields.noWbs, LFields.noDst, LFields.one, Instr.wordForm, hw]
theorem iand (h : LHdr) (d : VReg) (a : Src) (b : Src) : Statement (Instr.iand h d a b) := by
  obtain ⟨pr, pn, wbs, cc⟩ := h
  intro ws hw he
  refine decode_lane rfl rfl ?_ he
  clear he
  simp [Instr.wellFormed, LHdr.noWbs, LHdr.plain, atomOk] at hw
  simp [lf, noHdr, decodeLF, decInt, LFields.hdr, LFields.noGuard, LFields.noWbs, LFields.noDst, LFields.one, Instr.wordForm, hw]
theorem ior (h : LHdr) (d : VReg) (a : Src) (b : Src) : Statement (Instr.ior h d a b) := by
  obtain ⟨pr, pn, wbs, cc⟩ := h
  intro ws hw he
  refine decode_lane rfl rfl ?_ he
  clear he
  simp [Instr.wellFormed, LHdr.noWbs, LHdr.plain, atomOk] at hw
  simp [lf, noHdr, decodeLF, decInt, LFields.hdr, LFields.noGuard, LFields.noWbs, LFields.noDst, LFields.one, Instr.wordForm, hw]
theorem ixor (h : LHdr) (d : VReg) (a : Src) (b : Src) : Statement (Instr.ixor h d a b) := by
  obtain ⟨pr, pn, wbs, cc⟩ := h
  intro ws hw he
  refine decode_lane rfl rfl ?_ he
  clear he
  simp [Instr.wellFormed, LHdr.noWbs, LHdr.plain, atomOk] at hw
  simp [lf, noHdr, decodeLF, decInt, LFields.hdr, LFields.noGuard, LFields.noWbs, LFields.noDst, LFields.one, Instr.wordForm, hw]
theorem iandn (h : LHdr) (d : VReg) (a : Src) (b : Src) : Statement (Instr.iandn h d a b) := by
  obtain ⟨pr, pn, wbs, cc⟩ := h
  intro ws hw he
  refine decode_lane rfl rfl ?_ he
  clear he
  simp [Instr.wellFormed, LHdr.noWbs, LHdr.plain, atomOk] at hw
  simp [lf, noHdr, decodeLF, decInt, LFields.hdr, LFields.noGuard, LFields.noWbs, LFields.noDst, LFields.one, Instr.wordForm, hw]
theorem ishl (h : LHdr) (d : VReg) (a : Src) (b : Src) : Statement (Instr.ishl h d a b) := by
  obtain ⟨pr, pn, wbs, cc⟩ := h
  intro ws hw he
  refine decode_lane rfl rfl ?_ he
  clear he
  simp [Instr.wellFormed, LHdr.noWbs, LHdr.plain, atomOk] at hw
  simp [lf, noHdr, decodeLF, decInt, LFields.hdr, LFields.noGuard, LFields.noWbs, LFields.noDst, LFields.one, Instr.wordForm, hw]
theorem ishr (h : LHdr) (d : VReg) (a : Src) (b : Src) : Statement (Instr.ishr h d a b) := by
  obtain ⟨pr, pn, wbs, cc⟩ := h
  intro ws hw he
  refine decode_lane rfl rfl ?_ he
  clear he
  simp [Instr.wellFormed, LHdr.noWbs, LHdr.plain, atomOk] at hw
  simp [lf, noHdr, decodeLF, decInt, LFields.hdr, LFields.noGuard, LFields.noWbs, LFields.noDst, LFields.one, Instr.wordForm, hw]
theorem isar (h : LHdr) (d : VReg) (a : Src) (b : Src) : Statement (Instr.isar h d a b) := by
  obtain ⟨pr, pn, wbs, cc⟩ := h
  intro ws hw he
  refine decode_lane rfl rfl ?_ he
  clear he
  simp [Instr.wellFormed, LHdr.noWbs, LHdr.plain, atomOk] at hw
  simp [lf, noHdr, decodeLF, decInt, LFields.hdr, LFields.noGuard, LFields.noWbs, LFields.noDst, LFields.one, Instr.wordForm, hw]
theorem imin (h : LHdr) (d : VReg) (a : Src) (b : Src) : Statement (Instr.imin h d a b) := by
  obtain ⟨pr, pn, wbs, cc⟩ := h
  intro ws hw he
  refine decode_lane rfl rfl ?_ he
  clear he
  simp [Instr.wellFormed, LHdr.noWbs, LHdr.plain, atomOk] at hw
  simp [lf, noHdr, decodeLF, decInt, LFields.hdr, LFields.noGuard, LFields.noWbs, LFields.noDst, LFields.one, Instr.wordForm, hw]
theorem imax (h : LHdr) (d : VReg) (a : Src) (b : Src) : Statement (Instr.imax h d a b) := by
  obtain ⟨pr, pn, wbs, cc⟩ := h
  intro ws hw he
  refine decode_lane rfl rfl ?_ he
  clear he
  simp [Instr.wellFormed, LHdr.noWbs, LHdr.plain, atomOk] at hw
  simp [lf, noHdr, decodeLF, decInt, LFields.hdr, LFields.noGuard, LFields.noWbs, LFields.noDst, LFields.one, Instr.wordForm, hw]
theorem iminu (h : LHdr) (d : VReg) (a : Src) (b : Src) : Statement (Instr.iminu h d a b) := by
  obtain ⟨pr, pn, wbs, cc⟩ := h
  intro ws hw he
  refine decode_lane rfl rfl ?_ he
  clear he
  simp [Instr.wellFormed, LHdr.noWbs, LHdr.plain, atomOk] at hw
  simp [lf, noHdr, decodeLF, decInt, LFields.hdr, LFields.noGuard, LFields.noWbs, LFields.noDst, LFields.one, Instr.wordForm, hw]
theorem imaxu (h : LHdr) (d : VReg) (a : Src) (b : Src) : Statement (Instr.imaxu h d a b) := by
  obtain ⟨pr, pn, wbs, cc⟩ := h
  intro ws hw he
  refine decode_lane rfl rfl ?_ he
  clear he
  simp [Instr.wellFormed, LHdr.noWbs, LHdr.plain, atomOk] at hw
  simp [lf, noHdr, decodeLF, decInt, LFields.hdr, LFields.noGuard, LFields.noWbs, LFields.noDst, LFields.one, Instr.wordForm, hw]
theorem iabs (h : LHdr) (d : VReg) (a : Src) : Statement (Instr.iabs h d a) := by
  obtain ⟨pr, pn, wbs, cc⟩ := h
  intro ws hw he
  refine decode_lane rfl rfl ?_ he
  clear he
  simp [Instr.wellFormed, LHdr.noWbs, LHdr.plain, atomOk] at hw
  simp [lf, noHdr, decodeLF, decInt, LFields.hdr, LFields.noGuard, LFields.noWbs, LFields.noDst, LFields.one, Instr.wordForm, hw]
theorem laneSel (h : LHdr) (d : VReg) (a : Src) (b : Src) (c : Src) : Statement (Instr.laneSel h d a b c) := by
  obtain ⟨pr, pn, wbs, cc⟩ := h
  intro ws hw he
  refine decode_lane rfl rfl ?_ he
  clear he
  simp [Instr.wellFormed, LHdr.noWbs, LHdr.plain, atomOk] at hw
  simp [lf, noHdr, decodeLF, decInt, LFields.hdr, LFields.noGuard, LFields.noWbs, LFields.noDst, LFields.one, Instr.wordForm, hw]
theorem mov (h : LHdr) (d : VReg) (a : Src) : Statement (Instr.mov h d a) := by
  obtain ⟨pr, pn, wbs, cc⟩ := h
  intro ws hw he
  refine decode_lane rfl rfl ?_ he
  clear he
  simp [Instr.wellFormed, LHdr.noWbs, LHdr.plain, atomOk] at hw
  simp [lf, noHdr, decodeLF, decInt, LFields.hdr, LFields.noGuard, LFields.noWbs, LFields.noDst, LFields.one, Instr.wordForm, hw]
theorem laneClz (h : LHdr) (d : VReg) (a : Src) : Statement (Instr.laneClz h d a) := by
  obtain ⟨pr, pn, wbs, cc⟩ := h
  intro ws hw he
  refine decode_lane rfl rfl ?_ he
  clear he
  simp [Instr.wellFormed, LHdr.noWbs, LHdr.plain, atomOk] at hw
  simp [lf, noHdr, decodeLF, decInt, LFields.hdr, LFields.noGuard, LFields.noWbs, LFields.noDst, LFields.one, Instr.wordForm, hw]
theorem lanePopc (h : LHdr) (d : VReg) (a : Src) : Statement (Instr.lanePopc h d a) := by
  obtain ⟨pr, pn, wbs, cc⟩ := h
  intro ws hw he
  refine decode_lane rfl rfl ?_ he
  clear he
  simp [Instr.wellFormed, LHdr.noWbs, LHdr.plain, atomOk] at hw
  simp [lf, noHdr, decodeLF, decInt, LFields.hdr, LFields.noGuard, LFields.noWbs, LFields.noDst, LFields.one, Instr.wordForm, hw]
theorem brev (h : LHdr) (d : VReg) (a : Src) : Statement (Instr.brev h d a) := by
  obtain ⟨pr, pn, wbs, cc⟩ := h
  intro ws hw he
  refine decode_lane rfl rfl ?_ he
  clear he
  simp [Instr.wellFormed, LHdr.noWbs, LHdr.plain, atomOk] at hw
  simp [lf, noHdr, decodeLF, decInt, LFields.hdr, LFields.noGuard, LFields.noWbs, LFields.noDst, LFields.one, Instr.wordForm, hw]
theorem bfx (h : LHdr) (d : VReg) (a : Src) (b : Src) : Statement (Instr.bfx h d a b) := by
  obtain ⟨pr, pn, wbs, cc⟩ := h
  intro ws hw he
  refine decode_lane rfl rfl ?_ he
  clear he
  simp [Instr.wellFormed, LHdr.noWbs, LHdr.plain, atomOk] at hw
  simp [lf, noHdr, decodeLF, decInt, LFields.hdr, LFields.noGuard, LFields.noWbs, LFields.noDst, LFields.one, Instr.wordForm, hw]
theorem bfxs (h : LHdr) (d : VReg) (a : Src) (b : Src) : Statement (Instr.bfxs h d a b) := by
  obtain ⟨pr, pn, wbs, cc⟩ := h
  intro ws hw he
  refine decode_lane rfl rfl ?_ he
  clear he
  simp [Instr.wellFormed, LHdr.noWbs, LHdr.plain, atomOk] at hw
  simp [lf, noHdr, decodeLF, decInt, LFields.hdr, LFields.noGuard, LFields.noWbs, LFields.noDst, LFields.one, Instr.wordForm, hw]
theorem bfi (h : LHdr) (d : VReg) (a : Src) (b : Src) (c : Src) : Statement (Instr.bfi h d a b c) := by
  obtain ⟨pr, pn, wbs, cc⟩ := h
  intro ws hw he
  refine decode_lane rfl rfl ?_ he
  clear he
  simp [Instr.wellFormed, LHdr.noWbs, LHdr.plain, atomOk] at hw
  simp [lf, noHdr, decodeLF, decInt, LFields.hdr, LFields.noGuard, LFields.noWbs, LFields.noDst, LFields.one, Instr.wordForm, hw]
theorem icmp (h : LHdr) (cond : ICond) (d : PReg) (a : Src) (b : Src) : Statement (Instr.icmp h cond d a b) := by
  obtain ⟨pr, pn, wbs, cc⟩ := h
  intro ws hw he
  refine decode_lane rfl rfl ?_ he
  clear he
  simp [Instr.wellFormed, LHdr.noWbs, LHdr.plain, atomOk] at hw
  simp [lf, noHdr, decodeLF, decIcmp, LFields.hdr, LFields.noGuard, LFields.noWbs, LFields.noDst, LFields.one, Instr.wordForm, decICond_encICond, hw, Dec.pdst_encP10 hw.2]
theorem movk (h : LHdr) (hi : Bool) (d : VReg) (i : BitVec 21) : Statement (Instr.movk h hi d i) := by
  obtain ⟨pr, pn, wbs, cc⟩ := h
  intro ws hw he
  refine decode_lane rfl rfl ?_ he
  clear he
  simp [Instr.wellFormed, LHdr.noWbs, LHdr.plain, atomOk] at hw
  simp [lf, noHdr, decodeLF, decMovk, LFields.hdr, LFields.noGuard, LFields.noWbs, LFields.noDst, LFields.one, Instr.wordForm, hw]
theorem fadd (h : LHdr) (m : RndSel) (d : VReg) (a : Src) (b : Src) : Statement (Instr.fadd h m d a b) := by
  obtain ⟨pr, pn, wbs, cc⟩ := h
  intro ws hw he
  refine decode_lane rfl rfl ?_ he
  clear he
  simp [Instr.wellFormed, LHdr.noWbs, LHdr.plain, atomOk] at hw
  simp [lf, noHdr, decodeLF, decFloat, LFields.hdr, LFields.noGuard, LFields.noWbs, LFields.noDst, LFields.one, Instr.wordForm, decRnd_encRnd, LFields.rnd, hw]
theorem fsub (h : LHdr) (m : RndSel) (d : VReg) (a : Src) (b : Src) : Statement (Instr.fsub h m d a b) := by
  obtain ⟨pr, pn, wbs, cc⟩ := h
  intro ws hw he
  refine decode_lane rfl rfl ?_ he
  clear he
  simp [Instr.wellFormed, LHdr.noWbs, LHdr.plain, atomOk] at hw
  simp [lf, noHdr, decodeLF, decFloat, LFields.hdr, LFields.noGuard, LFields.noWbs, LFields.noDst, LFields.one, Instr.wordForm, decRnd_encRnd, LFields.rnd, hw]
theorem fmul (h : LHdr) (m : RndSel) (d : VReg) (a : Src) (b : Src) : Statement (Instr.fmul h m d a b) := by
  obtain ⟨pr, pn, wbs, cc⟩ := h
  intro ws hw he
  refine decode_lane rfl rfl ?_ he
  clear he
  simp [Instr.wellFormed, LHdr.noWbs, LHdr.plain, atomOk] at hw
  simp [lf, noHdr, decodeLF, decFloat, LFields.hdr, LFields.noGuard, LFields.noWbs, LFields.noDst, LFields.one, Instr.wordForm, decRnd_encRnd, LFields.rnd, hw]
theorem fma (h : LHdr) (m : RndSel) (d : VReg) (a : Src) (b : Src) (c : Src) : Statement (Instr.fma h m d a b c) := by
  obtain ⟨pr, pn, wbs, cc⟩ := h
  intro ws hw he
  refine decode_lane rfl rfl ?_ he
  clear he
  simp [Instr.wellFormed, LHdr.noWbs, LHdr.plain, atomOk] at hw
  simp [lf, noHdr, decodeLF, decFloat, LFields.hdr, LFields.noGuard, LFields.noWbs, LFields.noDst, LFields.one, Instr.wordForm, decRnd_encRnd, LFields.rnd, hw]
theorem fmin (h : LHdr) (d : VReg) (a : Src) (b : Src) : Statement (Instr.fmin h d a b) := by
  obtain ⟨pr, pn, wbs, cc⟩ := h
  intro ws hw he
  refine decode_lane rfl rfl ?_ he
  clear he
  simp [Instr.wellFormed, LHdr.noWbs, LHdr.plain, atomOk] at hw
  simp [lf, noHdr, decodeLF, decFloat, LFields.hdr, LFields.noGuard, LFields.noWbs, LFields.noDst, LFields.one, Instr.wordForm, hw]
theorem fmax (h : LHdr) (d : VReg) (a : Src) (b : Src) : Statement (Instr.fmax h d a b) := by
  obtain ⟨pr, pn, wbs, cc⟩ := h
  intro ws hw he
  refine decode_lane rfl rfl ?_ he
  clear he
  simp [Instr.wellFormed, LHdr.noWbs, LHdr.plain, atomOk] at hw
  simp [lf, noHdr, decodeLF, decFloat, LFields.hdr, LFields.noGuard, LFields.noWbs, LFields.noDst, LFields.one, Instr.wordForm, hw]
theorem fabs (h : LHdr) (d : VReg) (a : Src) : Statement (Instr.fabs h d a) := by
  obtain ⟨pr, pn, wbs, cc⟩ := h
  intro ws hw he
  refine decode_lane rfl rfl ?_ he
  clear he
  simp [Instr.wellFormed, LHdr.noWbs, LHdr.plain, atomOk] at hw
  simp [lf, noHdr, decodeLF, decFloat, LFields.hdr, LFields.noGuard, LFields.noWbs, LFields.noDst, LFields.one, Instr.wordForm, hw]
theorem fneg (h : LHdr) (d : VReg) (a : Src) : Statement (Instr.fneg h d a) := by
  obtain ⟨pr, pn, wbs, cc⟩ := h
  intro ws hw he
  refine decode_lane rfl rfl ?_ he
  clear he
  simp [Instr.wellFormed, LHdr.noWbs, LHdr.plain, atomOk] at hw
  simp [lf, noHdr, decodeLF, decFloat, LFields.hdr, LFields.noGuard, LFields.noWbs, LFields.noDst, LFields.one, Instr.wordForm, hw]
theorem fcmp (h : LHdr) (cond : FCond) (d : PReg) (a : Src) (b : Src) : Statement (Instr.fcmp h cond d a b) := by
  obtain ⟨pr, pn, wbs, cc⟩ := h
  intro ws hw he
  refine decode_lane rfl rfl ?_ he
  clear he
  simp [Instr.wellFormed, LHdr.noWbs, LHdr.plain, atomOk] at hw
  simp [lf, noHdr, decodeLF, decFcmp, LFields.hdr, LFields.noGuard, LFields.noWbs, LFields.noDst, LFields.one, Instr.wordForm, decFCond_encFCond, hw, Dec.pdst_encP10 hw.2]
theorem frcp (h : LHdr) (d : VReg) (a : Src) : Statement (Instr.frcp h d a) := by
  obtain ⟨pr, pn, wbs, cc⟩ := h
  intro ws hw he
  refine decode_lane rfl rfl ?_ he
  clear he
  simp [Instr.wellFormed, LHdr.noWbs, LHdr.plain, atomOk] at hw
  simp [lf, noHdr, decodeLF, decSfu, LFields.hdr, LFields.noGuard, LFields.noWbs, LFields.noDst, LFields.one, Instr.wordForm, hw]
theorem frsq (h : LHdr) (d : VReg) (a : Src) : Statement (Instr.frsq h d a) := by
  obtain ⟨pr, pn, wbs, cc⟩ := h
  intro ws hw he
  refine decode_lane rfl rfl ?_ he
  clear he
  simp [Instr.wellFormed, LHdr.noWbs, LHdr.plain, atomOk] at hw
  simp [lf, noHdr, decodeLF, decSfu, LFields.hdr, LFields.noGuard, LFields.noWbs, LFields.noDst, LFields.one, Instr.wordForm, hw]
theorem fsqrt (h : LHdr) (d : VReg) (a : Src) : Statement (Instr.fsqrt h d a) := by
  obtain ⟨pr, pn, wbs, cc⟩ := h
  intro ws hw he
  refine decode_lane rfl rfl ?_ he
  clear he
  simp [Instr.wellFormed, LHdr.noWbs, LHdr.plain, atomOk] at hw
  simp [lf, noHdr, decodeLF, decSfu, LFields.hdr, LFields.noGuard, LFields.noWbs, LFields.noDst, LFields.one, Instr.wordForm, hw]
theorem fexp2 (h : LHdr) (d : VReg) (a : Src) : Statement (Instr.fexp2 h d a) := by
  obtain ⟨pr, pn, wbs, cc⟩ := h
  intro ws hw he
  refine decode_lane rfl rfl ?_ he
  clear he
  simp [Instr.wellFormed, LHdr.noWbs, LHdr.plain, atomOk] at hw
  simp [lf, noHdr, decodeLF, decSfu, LFields.hdr, LFields.noGuard, LFields.noWbs, LFields.noDst, LFields.one, Instr.wordForm, hw]
theorem flog2 (h : LHdr) (d : VReg) (a : Src) : Statement (Instr.flog2 h d a) := by
  obtain ⟨pr, pn, wbs, cc⟩ := h
  intro ws hw he
  refine decode_lane rfl rfl ?_ he
  clear he
  simp [Instr.wellFormed, LHdr.noWbs, LHdr.plain, atomOk] at hw
  simp [lf, noHdr, decodeLF, decSfu, LFields.hdr, LFields.noGuard, LFields.noWbs, LFields.noDst, LFields.one, Instr.wordForm, hw]
theorem fln (h : LHdr) (d : VReg) (a : Src) : Statement (Instr.fln h d a) := by
  obtain ⟨pr, pn, wbs, cc⟩ := h
  intro ws hw he
  refine decode_lane rfl rfl ?_ he
  clear he
  simp [Instr.wellFormed, LHdr.noWbs, LHdr.plain, atomOk] at hw
  simp [lf, noHdr, decodeLF, decSfu, LFields.hdr, LFields.noGuard, LFields.noWbs, LFields.noDst, LFields.one, Instr.wordForm, hw]
theorem fcls (h : LHdr) (d : VReg) (a : Src) : Statement (Instr.fcls h d a) := by
  obtain ⟨pr, pn, wbs, cc⟩ := h
  intro ws hw he
  refine decode_lane rfl rfl ?_ he
  clear he
  simp [Instr.wellFormed, LHdr.noWbs, LHdr.plain, atomOk] at hw
  simp [lf, noHdr, decodeLF, decFcls, LFields.hdr, LFields.noGuard, LFields.noWbs, LFields.noDst, LFields.one, Instr.wordForm, hw]
theorem cvt (h : LHdr) (k : CvtKind) (m : RndSel) (d : VReg) (a : Src) : Statement (Instr.cvt h k m d a) := by
  obtain ⟨pr, pn, wbs, cc⟩ := h
  intro ws hw he
  refine decode_lane rfl rfl ?_ he
  clear he
  simp [Instr.wellFormed, LHdr.noWbs, LHdr.plain, atomOk] at hw
  simp [lf, noHdr, decodeLF, decCvtF, LFields.hdr, LFields.noGuard, LFields.noWbs, LFields.noDst, LFields.one, Instr.wordForm, decCvt_encCvt, decRnd_encRnd, LFields.rnd, hw]
theorem npenc (h : LHdr) (d : VReg) (a : Src) : Statement (Instr.npenc h d a) := by
  obtain ⟨pr, pn, wbs, cc⟩ := h
  intro ws hw he
  refine decode_lane rfl rfl ?_ he
  clear he
  simp [Instr.wellFormed, LHdr.noWbs, LHdr.plain, atomOk] at hw
  simp [lf, noHdr, decodeLF, decNp, LFields.hdr, LFields.noGuard, LFields.noWbs, LFields.noDst, LFields.one, Instr.wordForm, hw]
theorem npdec (h : LHdr) (planes : BitVec 4) (f32 : Bool) (d : VReg) (a : Src) : Statement (Instr.npdec h planes f32 d a) := by
  obtain ⟨pr, pn, wbs, cc⟩ := h
  intro ws hw he
  refine decode_lane rfl rfl ?_ he
  clear he
  simp [Instr.wellFormed, LHdr.noWbs, LHdr.plain, atomOk] at hw
  simp [lf, noHdr, decodeLF, decNp, LFields.hdr, LFields.noGuard, LFields.noWbs, LFields.noDst, LFields.one, Instr.wordForm, hw]
theorem plx (h : LHdr) (plane : BitVec 3) (d : VReg) (a : Src) : Statement (Instr.plx h plane d a) := by
  obtain ⟨pr, pn, wbs, cc⟩ := h
  intro ws hw he
  refine decode_lane rfl rfl ?_ he
  clear he
  simp [Instr.wellFormed, LHdr.noWbs, LHdr.plain, atomOk] at hw
  simp [lf, noHdr, decodeLF, decNp, LFields.hdr, LFields.noGuard, LFields.noWbs, LFields.noDst, LFields.one, Instr.wordForm, hw]
theorem pli (h : LHdr) (plane : BitVec 3) (d : VReg) (a : Src) (b : Src) : Statement (Instr.pli h plane d a b) := by
  obtain ⟨pr, pn, wbs, cc⟩ := h
  intro ws hw he
  refine decode_lane rfl rfl ?_ he
  clear he
  simp [Instr.wellFormed, LHdr.noWbs, LHdr.plain, atomOk] at hw
  simp [lf, noHdr, decodeLF, decNp, LFields.hdr, LFields.noGuard, LFields.noWbs, LFields.noDst, LFields.one, Instr.wordForm, hw]
theorem pand (h : LHdr) (d : PReg) (a : PReg) (b : PReg) : Statement (Instr.pand h d a b) := by
  obtain ⟨pr, pn, wbs, cc⟩ := h
  intro ws hw he
  refine decode_lane rfl rfl ?_ he
  clear he
  simp [Instr.wellFormed, LHdr.noWbs, LHdr.plain, atomOk] at hw
  simp [lf, noHdr, decodeLF, decPred, LFields.hdr, LFields.noGuard, LFields.noWbs, LFields.noDst, LFields.one, Instr.wordForm, hw, Dec.pdst_encP10 hw.2]
theorem por (h : LHdr) (d : PReg) (a : PReg) (b : PReg) : Statement (Instr.por h d a b) := by
  obtain ⟨pr, pn, wbs, cc⟩ := h
  intro ws hw he
  refine decode_lane rfl rfl ?_ he
  clear he
  simp [Instr.wellFormed, LHdr.noWbs, LHdr.plain, atomOk] at hw
  simp [lf, noHdr, decodeLF, decPred, LFields.hdr, LFields.noGuard, LFields.noWbs, LFields.noDst, LFields.one, Instr.wordForm, hw, Dec.pdst_encP10 hw.2]
theorem pxor (h : LHdr) (d : PReg) (a : PReg) (b : PReg) : Statement (Instr.pxor h d a b) := by
  obtain ⟨pr, pn, wbs, cc⟩ := h
  intro ws hw he
  refine decode_lane rfl rfl ?_ he
  clear he
  simp [Instr.wellFormed, LHdr.noWbs, LHdr.plain, atomOk] at hw
  simp [lf, noHdr, decodeLF, decPred, LFields.hdr, LFields.noGuard, LFields.noWbs, LFields.noDst, LFields.one, Instr.wordForm, hw, Dec.pdst_encP10 hw.2]
theorem pnot (h : LHdr) (d : PReg) (a : PReg) : Statement (Instr.pnot h d a) := by
  obtain ⟨pr, pn, wbs, cc⟩ := h
  intro ws hw he
  refine decode_lane rfl rfl ?_ he
  clear he
  simp [Instr.wellFormed, LHdr.noWbs, LHdr.plain, atomOk] at hw
  simp [lf, noHdr, decodeLF, decPred, LFields.hdr, LFields.noGuard, LFields.noWbs, LFields.noDst, LFields.one, Instr.wordForm, hw, Dec.pdst_encP10 hw.2]
theorem pmov (h : LHdr) (d : PReg) (a : PReg) : Statement (Instr.pmov h d a) := by
  obtain ⟨pr, pn, wbs, cc⟩ := h
  intro ws hw he
  refine decode_lane rfl rfl ?_ he
  clear he
  simp [Instr.wellFormed, LHdr.noWbs, LHdr.plain, atomOk] at hw
  simp [lf, noHdr, decodeLF, decPred, LFields.hdr, LFields.noGuard, LFields.noWbs, LFields.noDst, LFields.one, Instr.wordForm, hw, Dec.pdst_encP10 hw.2]
theorem ballot (h : LHdr) (d : VReg) (a : PReg) : Statement (Instr.ballot h d a) := by
  obtain ⟨pr, pn, wbs, cc⟩ := h
  intro ws hw he
  refine decode_lane rfl rfl ?_ he
  clear he
  simp [Instr.wellFormed, LHdr.noWbs, LHdr.plain, atomOk] at hw
  simp [lf, noHdr, decodeLF, decPred, LFields.hdr, LFields.noGuard, LFields.noWbs, LFields.noDst, LFields.one, Instr.wordForm, hw, bitOf]
theorem ballotLq (h : LHdr) (a : PReg) : Statement (Instr.ballotLq h a) := by
  obtain ⟨pr, pn, wbs, cc⟩ := h
  intro ws hw he
  refine decode_lane rfl rfl ?_ he
  clear he
  simp [Instr.wellFormed, LHdr.noWbs, LHdr.plain, atomOk] at hw
  simp [lf, noHdr, decodeLF, decPred, LFields.hdr, LFields.noGuard, LFields.noWbs, LFields.noDst, LFields.one, Instr.wordForm, hw, bitOf]
theorem vote (h : LHdr) (k : VoteKind) (d : PReg) (a : PReg) : Statement (Instr.vote h k d a) := by
  obtain ⟨pr, pn, wbs, cc⟩ := h
  intro ws hw he
  refine decode_lane rfl rfl ?_ he
  clear he
  simp [Instr.wellFormed, LHdr.noWbs, LHdr.plain, atomOk] at hw
  simp [lf, noHdr, decodeLF, decPred, LFields.hdr, LFields.noGuard, LFields.noWbs, LFields.noDst, LFields.one, Instr.wordForm, decVote_encVote, hw, Dec.pdst_encP10 hw.2]
theorem shfl (h : LHdr) (d : VReg) (a : Src) (b : Src) : Statement (Instr.shfl h d a b) := by
  obtain ⟨pr, pn, wbs, cc⟩ := h
  intro ws hw he
  refine decode_lane rfl rfl ?_ he
  clear he
  simp [Instr.wellFormed, LHdr.noWbs, LHdr.plain, atomOk] at hw
  simp [lf, noHdr, decodeLF, decXlane, LFields.hdr, LFields.noGuard, LFields.noWbs, LFields.noDst, LFields.one, Instr.wordForm, hw]
theorem xchg (h : LHdr) (d : VReg) (a : Src) (b : Src) : Statement (Instr.xchg h d a b) := by
  obtain ⟨pr, pn, wbs, cc⟩ := h
  intro ws hw he
  refine decode_lane rfl rfl ?_ he
  clear he
  simp [Instr.wellFormed, LHdr.noWbs, LHdr.plain, atomOk] at hw
  simp [lf, noHdr, decodeLF, decXlane, LFields.hdr, LFields.noGuard, LFields.noWbs, LFields.noDst, LFields.one, Instr.wordForm, hw]
theorem redux (h : LHdr) (op : FoldOp) (d : VReg) (a : Src) : Statement (Instr.redux h op d a) := by
  obtain ⟨pr, pn, wbs, cc⟩ := h
  intro ws hw he
  refine decode_lane rfl rfl ?_ he
  clear he
  simp [Instr.wellFormed, LHdr.noWbs, LHdr.plain, atomOk] at hw
  simp [lf, noHdr, decodeLF, decXlane, LFields.hdr, LFields.noGuard, LFields.noWbs, LFields.noDst, LFields.one, Instr.wordForm, decFold_encFold, hw]
theorem reduxLq (h : LHdr) (op : FoldOp) (a : Src) : Statement (Instr.reduxLq h op a) := by
  obtain ⟨pr, pn, wbs, cc⟩ := h
  intro ws hw he
  refine decode_lane rfl rfl ?_ he
  clear he
  simp [Instr.wellFormed, LHdr.noWbs, LHdr.plain, atomOk] at hw
  simp [lf, noHdr, decodeLF, decXlane, LFields.hdr, LFields.noGuard, LFields.noWbs, LFields.noDst, LFields.one, Instr.wordForm, decFold_encFold, hw]
theorem scan (h : LHdr) (op : FoldOp) (excl : Bool) (d : VReg) (a : Src) : Statement (Instr.scan h op excl d a) := by
  obtain ⟨pr, pn, wbs, cc⟩ := h
  intro ws hw he
  refine decode_lane rfl rfl ?_ he
  clear he
  simp [Instr.wellFormed, LHdr.noWbs, LHdr.plain, atomOk] at hw
  simp [lf, noHdr, decodeLF, decXlane, LFields.hdr, LFields.noGuard, LFields.noWbs, LFields.noDst, LFields.one, Instr.wordForm, decFold_encFold, hw]
theorem welf (h : LHdr) (d : VReg) (a : VReg) (b : Src) : Statement (Instr.welf h d a b) := by
  obtain ⟨pr, pn, wbs, cc⟩ := h
  intro ws hw he
  refine decode_lane rfl rfl ?_ he
  clear he
  simp [Instr.wellFormed, LHdr.noWbs, LHdr.plain, atomOk] at hw
  simp [lf, noHdr, decodeLF, decWelf, LFields.hdr, LFields.noGuard, LFields.noWbs, LFields.noDst, LFields.one, Instr.wordForm, hw]
theorem wmerge (h : LHdr) (d : VReg) (a : VReg) (b : VReg) : Statement (Instr.wmerge h d a b) := by
  obtain ⟨pr, pn, wbs, cc⟩ := h
  intro ws hw he
  refine decode_lane rfl rfl ?_ he
  clear he
  simp [Instr.wellFormed, LHdr.noWbs, LHdr.plain, atomOk] at hw
  simp [lf, noHdr, decodeLF, decWelf, LFields.hdr, LFields.noGuard, LFields.noWbs, LFields.noDst, LFields.one, Instr.wordForm, hw]
theorem lbr (h : LHdr) (inv : Bool) (a : PReg) (i : BitVec 21) : Statement (Instr.lbr h inv a i) := by
  obtain ⟨pr, pn, wbs, cc⟩ := h
  intro ws hw he
  refine decode_lane rfl rfl ?_ he
  clear he
  simp [Instr.wellFormed, LHdr.noWbs, LHdr.plain, atomOk] at hw
  simp [lf, noHdr, decodeLF, decCtrl, LFields.hdr, LFields.noGuard, LFields.noWbs, LFields.noDst, LFields.one, Instr.wordForm, hw]
theorem ljmp (i : BitVec 21) : Statement (Instr.ljmp i) := by
  exact fun _ _ => decode_lane rfl rfl (by simp [lf, noHdr, decodeLF, decCtrl, LFields.hdr, LFields.noGuard, LFields.noWbs, LFields.noDst, LFields.one, Instr.wordForm])
theorem mark (i : BitVec 21) : Statement (Instr.mark i) := by
  exact fun _ _ => decode_lane rfl rfl (by simp [lf, noHdr, decodeLF, decCtrl, LFields.hdr, LFields.noGuard, LFields.noWbs, LFields.noDst, LFields.one, Instr.wordForm])
theorem join : Statement Instr.join := by
  exact fun _ _ => decode_lane rfl rfl (by simp [lf, noHdr, decodeLF, decCtrl, LFields.hdr, LFields.noGuard, LFields.noWbs, LFields.noDst, LFields.one, Instr.wordForm])
theorem lend : Statement Instr.lend := by
  exact fun _ _ => decode_lane rfl rfl (by simp [lf, noHdr, decodeLF, decCtrl, LFields.hdr, LFields.noGuard, LFields.noWbs, LFields.noDst, LFields.one, Instr.wordForm])
theorem lfmt (i : W16) : Statement (Instr.lfmt i) := by
  exact fun _ _ => decode_lane rfl rfl (by simp [lf, noHdr, decodeLF, decCtrl, LFields.hdr, LFields.noGuard, LFields.noWbs, LFields.noDst, LFields.one, Instr.wordForm])
theorem mkrd (cc : BitVec 3) (n : BitVec 2) (d : VReg) : Statement (Instr.mkrd cc n d) := by
  intro ws hw he
  refine decode_lane rfl rfl ?_ he
  clear he
  simp [Instr.wellFormed, LHdr.noWbs, LHdr.plain, atomOk] at hw
  simp [lf, noHdr, decodeLF, decCtrl, LFields.hdr, LFields.noGuard, LFields.noWbs, LFields.noDst, LFields.one, Instr.wordForm, hw, Dec.chk]
theorem mkwr (n : BitVec 2) (a : Src) : Statement (Instr.mkwr n a) := by
  intro ws hw he
  refine decode_lane rfl rfl ?_ he
  clear he
  simp [Instr.wellFormed, LHdr.noWbs, LHdr.plain, atomOk] at hw
  simp [lf, noHdr, decodeLF, decCtrl, LFields.hdr, LFields.noGuard, LFields.noWbs, LFields.noDst, LFields.one, Instr.wordForm, hw, Dec.chk]
theorem laneLd (h : LHdr) (m : MemMod) (a64 : Bool) (w : LdWidth) (d : VReg) (a : Src) (i : BitVec 21) : Statement (Instr.laneLd h m a64 w d a i) := by
  obtain ⟨pr, pn, wbs, cc⟩ := h
  intro ws hw he
  refine decode_lane rfl rfl ?_ he
  clear he
  simp [Instr.wellFormed, LHdr.noWbs, LHdr.plain, atomOk] at hw
  simp [lf, noHdr, decodeLF, decLoad, LFields.hdr, LFields.noGuard, LFields.noWbs, LFields.noDst, LFields.one, Instr.wordForm, decLd_encLd, Dec.mem, hw]
theorem laneSt (h : LHdr) (m : MemMod) (a64 : Bool) (w : StWidth) (a : Src) (b : Src) (i : BitVec 21) : Statement (Instr.laneSt h m a64 w a b i) := by
  obtain ⟨pr, pn, wbs, cc⟩ := h
  intro ws hw he
  refine decode_lane rfl rfl ?_ he
  clear he
  simp [Instr.wellFormed, LHdr.noWbs, LHdr.plain, atomOk] at hw
  simp [lf, noHdr, decodeLF, decStore, LFields.hdr, LFields.noGuard, LFields.noWbs, LFields.noDst, LFields.one, Instr.wordForm, decSt_encSt, Dec.mem, hw]
theorem laneLds (h : LHdr) (m : MemMod) (w : LdWidth) (d : VReg) (a : Src) (i : BitVec 21) : Statement (Instr.laneLds h m w d a i) := by
  obtain ⟨pr, pn, wbs, cc⟩ := h
  intro ws hw he
  refine decode_lane rfl rfl ?_ he
  clear he
  simp [Instr.wellFormed, LHdr.noWbs, LHdr.plain, atomOk] at hw
  simp [lf, noHdr, decodeLF, decLoad, LFields.hdr, LFields.noGuard, LFields.noWbs, LFields.noDst, LFields.one, Instr.wordForm, decLd_encLd, Dec.mem, hw, Src.pairIf]
theorem sts (h : LHdr) (m : MemMod) (w : StWidth) (a : Src) (b : Src) (i : BitVec 21) : Statement (Instr.sts h m w a b i) := by
  obtain ⟨pr, pn, wbs, cc⟩ := h
  intro ws hw he
  refine decode_lane rfl rfl ?_ he
  clear he
  simp [Instr.wellFormed, LHdr.noWbs, LHdr.plain, atomOk] at hw
  simp [lf, noHdr, decodeLF, decStore, LFields.hdr, LFields.noGuard, LFields.noWbs, LFields.noDst, LFields.one, Instr.wordForm, decSt_encSt, Dec.mem, hw, Src.pairIf]
theorem atom (h : LHdr) (m : MemMod) (a64 : Bool) (ret : Bool) (w64 : Bool) (op : AtomOp) (d : VReg) (a : Src) (b : Src) (c : Src) (i : BitVec 21) : Statement (Instr.atom h m a64 ret w64 op d a b c i) := by
  obtain ⟨pr, pn, wbs, cc⟩ := h
  intro ws hw he
  refine decode_lane rfl rfl ?_ he
  clear he
  simp [Instr.wellFormed, LHdr.noWbs, LHdr.plain, atomOk] at hw
  by_cases hc : op = .cas
  · subst hc; simp_all [lf, noHdr, decodeLF, decAtomF, LFields.hdr, LFields.noGuard, LFields.noWbs, LFields.noDst, LFields.one, Instr.wordForm, decAtom_encAtom, Dec.mem, Dec.chk, Dec.opnd, Src.pairIf]; grind
  · have : c = .v 0#10 := by simp_all
    subst this; simp_all [lf, noHdr, decodeLF, decAtomF, LFields.hdr, LFields.noGuard, LFields.noWbs, LFields.noDst, LFields.one, Instr.wordForm, decAtom_encAtom, Dec.mem, encSrc_v0, Dec.src_zero, Dec.srcPair, Dec.chk, Dec.opnd, Src.pairIf]
theorem atoms (h : LHdr) (m : MemMod) (ret : Bool) (w64 : Bool) (op : AtomOp) (d : VReg) (a : Src) (b : Src) (c : Src) (i : BitVec 21) : Statement (Instr.atoms h m ret w64 op d a b c i) := by
  obtain ⟨pr, pn, wbs, cc⟩ := h
  intro ws hw he
  refine decode_lane rfl rfl ?_ he
  clear he
  simp [Instr.wellFormed, LHdr.noWbs, LHdr.plain, atomOk] at hw
  by_cases hc : op = .cas
  · subst hc; simp_all [lf, noHdr, decodeLF, decAtomF, LFields.hdr, LFields.noGuard, LFields.noWbs, LFields.noDst, LFields.one, Instr.wordForm, decAtom_encAtom, Dec.mem, Dec.chk, Dec.opnd, Src.pairIf]; grind
  · have : c = .v 0#10 := by simp_all
    subst this; simp_all [lf, noHdr, decodeLF, decAtomF, LFields.hdr, LFields.noGuard, LFields.noWbs, LFields.noDst, LFields.one, Instr.wordForm, decAtom_encAtom, Dec.mem, encSrc_v0, Dec.src_zero, Dec.srcPair, Dec.chk, Dec.opnd, Src.pairIf]
theorem smaxpk (h : LHdr) (m : MemMod) (a64 : Bool) (ret : Bool) (d : VReg) (a : Src) (b : Src) (c : Src) (i : BitVec 21) : Statement (Instr.smaxpk h m a64 ret d a b c i) := by
  obtain ⟨pr, pn, wbs, cc⟩ := h
  intro ws hw he
  refine decode_lane rfl rfl ?_ he
  clear he
  simp [Instr.wellFormed, LHdr.noWbs, LHdr.plain, atomOk] at hw
  cases ret <;> simp_all [lf, noHdr, decodeLF, decSmaxpk, LFields.hdr, LFields.noGuard, LFields.noWbs, LFields.noDst, LFields.one, Instr.wordForm, Dec.mem]
theorem pst (h : LHdr) (m : MemMod) (a64 : Bool) (each : Bool) (a : Src) (b : PReg) (i : BitVec 21) : Statement (Instr.pst h m a64 each a b i) := by
  obtain ⟨pr, pn, wbs, cc⟩ := h
  intro ws hw he
  refine decode_lane rfl rfl ?_ he
  clear he
  simp [Instr.wellFormed, LHdr.noWbs, LHdr.plain, atomOk] at hw
  simp [lf, noHdr, decodeLF, decPst, LFields.hdr, LFields.noGuard, LFields.noWbs, LFields.noDst, LFields.one, Instr.wordForm, Dec.mem, hw]
theorem pld (h : LHdr) (m : MemMod) (a64 : Bool) (each : Bool) (d : PReg) (a : Src) (i : BitVec 21) : Statement (Instr.pld h m a64 each d a i) := by
  obtain ⟨pr, pn, wbs, cc⟩ := h
  intro ws hw he
  refine decode_lane rfl rfl ?_ he
  clear he
  simp [Instr.wellFormed, LHdr.noWbs, LHdr.plain, atomOk] at hw
  simp [lf, noHdr, decodeLF, decPld, LFields.hdr, LFields.noGuard, LFields.noWbs, LFields.noDst, LFields.one, Instr.wordForm, Dec.mem, hw, Dec.pdst_encP10 hw.2]
theorem lfence (s : Scope) (o : Order) : Statement (Instr.lfence s o) := by
  intro ws hw he
  refine decode_lane rfl rfl ?_ he
  clear he
  simp [Instr.wellFormed, LHdr.noWbs, LHdr.plain, atomOk] at hw
  simp [lf, noHdr, decodeLF, decLfence, LFields.hdr, LFields.noGuard, LFields.noWbs, LFields.noDst, LFields.one, Instr.wordForm, hw, Dec.chk]
theorem kacc (h : LHdr) (p : BitVec 5) (f : BitVec 4) (key64 : Bool) (val64 : Bool) (a : Src) (b : Src) : Statement (Instr.kacc h p f key64 val64 a b) := by
  obtain ⟨pr, pn, wbs, cc⟩ := h
  intro ws hw he
  refine decode_lane rfl rfl ?_ he
  clear he
  simp [Instr.wellFormed, LHdr.noWbs, LHdr.plain, atomOk] at hw
  simp [lf, noHdr, decodeLF, decGrove, LFields.hdr, LFields.noGuard, LFields.noWbs, LFields.noDst, LFields.one, Instr.wordForm, hw]
theorem klook (h : LHdr) (p : BitVec 5) (f : BitVec 4) (key64 : Bool) (d : VReg) (a : Src) (hit : PReg) : Statement (Instr.klook h p f key64 d a hit) := by
  obtain ⟨pr, pn, wbs, cc⟩ := h
  intro ws hw he
  refine decode_lane rfl rfl ?_ he
  clear he
  simp [Instr.wellFormed, LHdr.noWbs, LHdr.plain, atomOk] at hw
  simp [lf, noHdr, decodeLF, decGrove, LFields.hdr, LFields.noGuard, LFields.noWbs, LFields.noDst, LFields.one, Instr.wordForm, hw]
theorem klookLq (h : LHdr) (p : BitVec 5) (f : BitVec 4) (key64 : Bool) (a : Src) (hit : PReg) : Statement (Instr.klookLq h p f key64 a hit) := by
  obtain ⟨pr, pn, wbs, cc⟩ := h
  intro ws hw he
  refine decode_lane rfl rfl ?_ he
  clear he
  simp [Instr.wellFormed, LHdr.noWbs, LHdr.plain, atomOk] at hw
  simp [lf, noHdr, decodeLF, decGrove, LFields.hdr, LFields.noGuard, LFields.noWbs, LFields.noDst, LFields.one, Instr.wordForm, hw]
theorem kread (h : LHdr) (p : BitVec 5) (f : BitVec 4) (d : VReg) (a : Src) (valid : PReg) : Statement (Instr.kread h p f d a valid) := by
  obtain ⟨pr, pn, wbs, cc⟩ := h
  intro ws hw he
  refine decode_lane rfl rfl ?_ he
  clear he
  simp [Instr.wellFormed, LHdr.noWbs, LHdr.plain, atomOk] at hw
  simp [lf, noHdr, decodeLF, decGrove, LFields.hdr, LFields.noGuard, LFields.noWbs, LFields.noDst, LFields.one, Instr.wordForm, hw]
theorem kclr (h : LHdr) (p : BitVec 5) (key64 : Bool) (a : Src) : Statement (Instr.kclr h p key64 a) := by
  obtain ⟨pr, pn, wbs, cc⟩ := h
  intro ws hw he
  refine decode_lane rfl rfl ?_ he
  clear he
  simp [Instr.wellFormed, LHdr.noWbs, LHdr.plain, atomOk] at hw
  simp [lf, noHdr, decodeLF, decGrove, LFields.hdr, LFields.noGuard, LFields.noWbs, LFields.noDst, LFields.one, Instr.wordForm, hw]
theorem propose : Statement Instr.propose := by
  exact fun _ _ => decode_lane rfl rfl (by simp [lf, noHdr, decodeLF, decProp, LFields.hdr, LFields.noGuard, LFields.noWbs, LFields.noDst, LFields.one, Instr.wordForm])
theorem accept (h : LHdr) (d : PReg) (a : Src) : Statement (Instr.accept h d a) := by
  obtain ⟨pr, pn, wbs, cc⟩ := h
  intro ws hw he
  refine decode_lane rfl rfl ?_ he
  clear he
  simp [Instr.wellFormed, LHdr.noWbs, LHdr.plain, atomOk] at hw
  simp [lf, noHdr, decodeLF, decProp, LFields.hdr, LFields.noGuard, LFields.noWbs, LFields.noDst, LFields.one, Instr.wordForm, hw, Dec.pdst_encP10 hw.2]
theorem pabort : Statement Instr.pabort := by
  exact fun _ _ => decode_lane rfl rfl (by simp [lf, noHdr, decodeLF, decProp, LFields.hdr, LFields.noGuard, LFields.noWbs, LFields.noDst, LFields.one, Instr.wordForm])
theorem rand (h : LHdr) (k : Bool) (d : VReg) : Statement (Instr.rand h k d) := by
  obtain ⟨pr, pn, wbs, cc⟩ := h
  intro ws hw he
  refine decode_lane rfl rfl ?_ he
  clear he
  simp [Instr.wellFormed, LHdr.noWbs, LHdr.plain, atomOk] at hw
  simp [lf, noHdr, decodeLF, decProp, LFields.hdr, LFields.noGuard, LFields.noWbs, LFields.noDst, LFields.one, Instr.wordForm, hw]
theorem mma (h : LHdr) (a : VReg) (b : BitVec 11) (acc : BitVec 4) : Statement (Instr.mma h a b acc) := by
  obtain ⟨pr, pn, wbs, cc⟩ := h
  intro ws hw he
  refine decode_lane rfl rfl ?_ he
  clear he
  simp [Instr.wellFormed, LHdr.noWbs, LHdr.plain, atomOk] at hw
  simp [lf, noHdr, decodeLF, decMat, LFields.hdr, LFields.noGuard, LFields.noWbs, LFields.noDst, LFields.one, Instr.wordForm, hw]
theorem accrd (h : LHdr) (d : VReg) (a : Src) (acc : BitVec 4) : Statement (Instr.accrd h d a acc) := by
  obtain ⟨pr, pn, wbs, cc⟩ := h
  intro ws hw he
  refine decode_lane rfl rfl ?_ he
  clear he
  simp [Instr.wellFormed, LHdr.noWbs, LHdr.plain, atomOk] at hw
  simp [lf, noHdr, decodeLF, decMat, LFields.hdr, LFields.noGuard, LFields.noWbs, LFields.noDst, LFields.one, Instr.wordForm, hw]
theorem accwr (h : LHdr) (a : Src) (b : Src) (acc : BitVec 4) : Statement (Instr.accwr h a b acc) := by
  obtain ⟨pr, pn, wbs, cc⟩ := h
  intro ws hw he
  refine decode_lane rfl rfl ?_ he
  clear he
  simp [Instr.wellFormed, LHdr.noWbs, LHdr.plain, atomOk] at hw
  simp [lf, noHdr, decodeLF, decMat, LFields.hdr, LFields.noGuard, LFields.noWbs, LFields.noDst, LFields.one, Instr.wordForm, hw]
theorem accst (h : LHdr) (t : VReg) (r : VReg) (c : VReg) (acc : BitVec 4) : Statement (Instr.accst h t r c acc) := by
  obtain ⟨pr, pn, wbs, cc⟩ := h
  intro ws hw he
  refine decode_lane rfl rfl ?_ he
  clear he
  simp [Instr.wellFormed, LHdr.noWbs, LHdr.plain, atomOk] at hw
  simp [lf, noHdr, decodeLF, decMat, LFields.hdr, LFields.noGuard, LFields.noWbs, LFields.noDst, LFields.one, Instr.wordForm, hw]
theorem accver (h : LHdr) (d : VReg) (acc : BitVec 4) : Statement (Instr.accver h d acc) := by
  obtain ⟨pr, pn, wbs, cc⟩ := h
  intro ws hw he
  refine decode_lane rfl rfl ?_ he
  clear he
  simp [Instr.wellFormed, LHdr.noWbs, LHdr.plain, atomOk] at hw
  simp [lf, noHdr, decodeLF, decMat, LFields.hdr, LFields.noGuard, LFields.noWbs, LFields.noDst, LFields.one, Instr.wordForm, hw]
theorem lqpush (h : LHdr) (b64 : Bool) (a : Src) : Statement (Instr.lqpush h b64 a) := by
  obtain ⟨pr, pn, wbs, cc⟩ := h
  intro ws hw he
  refine decode_lane rfl rfl ?_ he
  clear he
  simp [Instr.wellFormed, LHdr.noWbs, LHdr.plain, atomOk] at hw
  simp [lf, noHdr, decodeLF, decQueue, LFields.hdr, LFields.noGuard, LFields.noWbs, LFields.noDst, LFields.one, Instr.wordForm, hw]
theorem sqpop (cc : BitVec 3) (write : Bool) (d : VReg) : Statement (Instr.sqpop cc write d) := by
  intro ws hw he
  refine decode_lane rfl rfl ?_ he
  clear he
  simp [Instr.wellFormed, LHdr.noWbs, LHdr.plain, atomOk] at hw
  simp [lf, noHdr, decodeLF, decQueue, LFields.hdr, LFields.noGuard, LFields.noWbs, LFields.noDst, LFields.one, Instr.wordForm, hw, Dec.chk]
theorem laneSrd (h : LHdr) (hi : Bool) (d : VReg) (sel : BitVec 14) : Statement (Instr.laneSrd h hi d sel) := by
  obtain ⟨pr, pn, wbs, cc⟩ := h
  intro ws hw he
  refine decode_lane rfl rfl ?_ he
  clear he
  simp [Instr.wellFormed, LHdr.noWbs, LHdr.plain, atomOk] at hw
  simp [lf, noHdr, decodeLF, decSpec, LFields.hdr, LFields.noGuard, LFields.noWbs, LFields.noDst, LFields.one, Instr.wordForm, hw]
theorem laneSwr (h : LHdr) (hi : Bool) (a : Src) (sel : BitVec 14) : Statement (Instr.laneSwr h hi a sel) := by
  obtain ⟨pr, pn, wbs, cc⟩ := h
  intro ws hw he
  refine decode_lane rfl rfl ?_ he
  clear he
  simp [Instr.wellFormed, LHdr.noWbs, LHdr.plain, atomOk] at hw
  simp [lf, noHdr, decodeLF, decSpec, LFields.hdr, LFields.noGuard, LFields.noWbs, LFields.noDst, LFields.one, Instr.wordForm, swrFields, swrRow_none _ hw.2, hw]
theorem kmov (h : LHdr) (d : BitVec 5) (a : Src) : Statement (Instr.kmov h d a) := by
  obtain ⟨pr, pn, wbs, cc⟩ := h
  intro ws hw he
  refine decode_lane rfl rfl ?_ he
  clear he
  simp [Instr.wellFormed, LHdr.noWbs, LHdr.plain, atomOk] at hw
  simp [lf, noHdr, decodeLF, decSpec, LFields.hdr, LFields.noGuard, LFields.noWbs, LFields.noDst, LFields.one, Instr.wordForm, hw]
theorem laneSysc (h : LHdr) (n : BitVec 21) : Statement (Instr.laneSysc h n) := by
  obtain ⟨pr, pn, wbs, cc⟩ := h
  intro ws hw he
  refine decode_lane rfl rfl ?_ he
  clear he
  simp [Instr.wellFormed, LHdr.noWbs, LHdr.plain, atomOk] at hw
  simp [lf, noHdr, decodeLF, decCall, LFields.hdr, LFields.noGuard, LFields.noWbs, LFields.noDst, LFields.one, Instr.wordForm, hw]
theorem laneHcall (h : LHdr) (n : BitVec 21) : Statement (Instr.laneHcall h n) := by
  obtain ⟨pr, pn, wbs, cc⟩ := h
  intro ws hw he
  refine decode_lane rfl rfl ?_ he
  clear he
  simp [Instr.wellFormed, LHdr.noWbs, LHdr.plain, atomOk] at hw
  simp [lf, noHdr, decodeLF, decCall, LFields.hdr, LFields.noGuard, LFields.noWbs, LFields.noDst, LFields.one, Instr.wordForm, hw]
theorem laneBrk (h : LHdr) (n : BitVec 21) : Statement (Instr.laneBrk h n) := by
  obtain ⟨pr, pn, wbs, cc⟩ := h
  intro ws hw he
  refine decode_lane rfl rfl ?_ he
  clear he
  simp [Instr.wellFormed, LHdr.noWbs, LHdr.plain, atomOk] at hw
  simp [lf, noHdr, decodeLF, decCall, LFields.hdr, LFields.noGuard, LFields.noWbs, LFields.noDst, LFields.one, Instr.wordForm, hw]
theorem laneNop (h : LHdr) : Statement (Instr.laneNop h) := by
  obtain ⟨pr, pn, wbs, cc⟩ := h
  intro ws hw he
  refine decode_lane rfl rfl ?_ he
  clear he
  simp [Instr.wellFormed, LHdr.noWbs, LHdr.plain, atomOk] at hw
  simp [lf, noHdr, decodeLF, decCall, LFields.hdr, LFields.noGuard, LFields.noWbs, LFields.noDst, LFields.one, Instr.wordForm, hw]
theorem laneTret (h : LHdr) (write : Bool) (fin : Bool) (d : VReg) (a : Src) : Statement (Instr.laneTret h write fin d a) := by
  obtain ⟨pr, pn, wbs, cc⟩ := h
  intro ws hw he
  refine decode_lane rfl rfl ?_ he
  clear he
  simp [Instr.wellFormed, LHdr.noWbs, LHdr.plain, atomOk] at hw
  cases write <;> simp_all [lf, noHdr, decodeLF, decCall, LFields.hdr, LFields.noGuard, LFields.noWbs, LFields.noDst, LFields.one, Instr.wordForm, encSrc_v0, Dec.src_zero]
theorem fmtrWrite (w : SwrForm) : Statement (Instr.fmtrWrite w) := by
  cases w with
  | scalar d a => exact fun _ _ => decode_scalar rfl (by simp [sx, decodeSF, decSX, decSys, Instr.wordForm])
  | lane h hi a =>
    obtain ⟨pr, pn, wbs, cc⟩ := h
    intro ws hw
    simp only [Instr.wellFormed, Instr.wellFormed.swrOk, LHdr.plain, Bool.and_eq_true, Bool.not_eq_true', beq_iff_eq] at hw
    obtain ⟨rfl, rfl⟩ := hw
    exact decode_lane rfl rfl (by simp [lf, decodeLF, decSpec, swrFields, swrRow, LFields.hdr, LFields.noWbs, LFields.noDst, Instr.wordForm])
theorem gangWrite (w : SwrForm) : Statement (Instr.gangWrite w) := by
  cases w with
  | scalar d a => exact fun _ _ => decode_scalar rfl (by simp [sx, decodeSF, decSX, decSys, Instr.wordForm])
  | lane h hi a =>
    obtain ⟨pr, pn, wbs, cc⟩ := h
    intro ws hw
    simp only [Instr.wellFormed, Instr.wellFormed.swrOk, LHdr.plain, Bool.and_eq_true, Bool.not_eq_true', beq_iff_eq] at hw
    obtain ⟨rfl, rfl⟩ := hw
    exact decode_lane rfl rfl (by simp [lf, decodeLF, decSpec, swrFields, swrRow, LFields.hdr, LFields.noWbs, LFields.noDst, Instr.wordForm])
theorem ptbaseWrite (w : SwrForm) : Statement (Instr.ptbaseWrite w) := by
  cases w with
  | scalar d a => exact fun _ _ => decode_scalar rfl (by simp [sx, decodeSF, decSX, decSys, Instr.wordForm])
  | lane h hi a =>
    obtain ⟨pr, pn, wbs, cc⟩ := h
    intro ws hw
    simp only [Instr.wellFormed, Instr.wellFormed.swrOk, LHdr.plain, Bool.and_eq_true, Bool.not_eq_true', beq_iff_eq] at hw
    obtain ⟨rfl, rfl⟩ := hw
    exact decode_lane rfl rfl (by simp [lf, decodeLF, decSpec, swrFields, swrRow, LFields.hdr, LFields.noWbs, LFields.noDst, Instr.wordForm])
theorem winbaseWrite (w : SwrForm) : Statement (Instr.winbaseWrite w) := by
  cases w with
  | scalar d a => exact fun _ _ => decode_scalar rfl (by simp [sx, decodeSF, decSX, decSys, Instr.wordForm])
  | lane h hi a =>
    obtain ⟨pr, pn, wbs, cc⟩ := h
    intro ws hw
    simp only [Instr.wellFormed, Instr.wellFormed.swrOk, LHdr.plain, Bool.and_eq_true, Bool.not_eq_true', beq_iff_eq] at hw
    obtain ⟨rfl, rfl⟩ := hw
    exact decode_lane rfl rfl (by simp [lf, decodeLF, decSpec, swrFields, swrRow, LFields.hdr, LFields.noWbs, LFields.noDst, Instr.wordForm])
theorem winlimWrite (w : SwrForm) : Statement (Instr.winlimWrite w) := by
  cases w with
  | scalar d a => exact fun _ _ => decode_scalar rfl (by simp [sx, decodeSF, decSX, decSys, Instr.wordForm])
  | lane h hi a =>
    obtain ⟨pr, pn, wbs, cc⟩ := h
    intro ws hw
    simp only [Instr.wellFormed, Instr.wellFormed.swrOk, LHdr.plain, Bool.and_eq_true, Bool.not_eq_true', beq_iff_eq] at hw
    obtain ⟨rfl, rfl⟩ := hw
    exact decode_lane rfl rfl (by simp [lf, decodeLF, decSpec, swrFields, swrRow, LFields.hdr, LFields.noWbs, LFields.noDst, Instr.wordForm])
theorem bankmodeWrite (w : SwrForm) : Statement (Instr.bankmodeWrite w) := by
  cases w with
  | scalar d a => exact fun _ _ => decode_scalar rfl (by simp [sx, decodeSF, decSX, decSys, Instr.wordForm])
  | lane h hi a =>
    obtain ⟨pr, pn, wbs, cc⟩ := h
    intro ws hw
    simp only [Instr.wellFormed, Instr.wellFormed.swrOk, LHdr.plain, Bool.and_eq_true, Bool.not_eq_true', beq_iff_eq] at hw
    obtain ⟨rfl, rfl⟩ := hw
    exact decode_lane rfl rfl (by simp [lf, decodeLF, decSpec, swrFields, swrRow, LFields.hdr, LFields.noWbs, LFields.noDst, Instr.wordForm])
theorem bankownWrite (w : SwrForm) : Statement (Instr.bankownWrite w) := by
  cases w with
  | scalar d a => exact fun _ _ => decode_scalar rfl (by simp [sx, decodeSF, decSX, decSys, Instr.wordForm])
  | lane h hi a =>
    obtain ⟨pr, pn, wbs, cc⟩ := h
    intro ws hw
    simp only [Instr.wellFormed, Instr.wellFormed.swrOk, LHdr.plain, Bool.and_eq_true, Bool.not_eq_true', beq_iff_eq] at hw
    obtain ⟨rfl, rfl⟩ := hw
    exact decode_lane rfl rfl (by simp [lf, decodeLF, decSpec, swrFields, swrRow, LFields.hdr, LFields.noWbs, LFields.noDst, Instr.wordForm])
theorem gnanClear (w : SwrForm) : Statement (Instr.gnanClear w) := by
  cases w with
  | scalar d a => exact fun _ _ => decode_scalar rfl (by simp [sx, decodeSF, decSX, decSys, Instr.wordForm])
  | lane h hi a =>
    obtain ⟨pr, pn, wbs, cc⟩ := h
    intro ws hw
    simp only [Instr.wellFormed, Instr.wellFormed.swrOk, LHdr.plain, Bool.and_eq_true, Bool.not_eq_true', beq_iff_eq] at hw
    obtain ⟨rfl, rfl⟩ := hw
    exact decode_lane rfl rfl (by simp [lf, decodeLF, decSpec, swrFields, swrRow, LFields.hdr, LFields.noWbs, LFields.noDst, Instr.wordForm])
theorem pnanClear (w : SwrForm) : Statement (Instr.pnanClear w) := by
  cases w with
  | scalar d a => exact fun _ _ => decode_scalar rfl (by simp [sx, decodeSF, decSX, decSys, Instr.wordForm])
  | lane h hi a =>
    obtain ⟨pr, pn, wbs, cc⟩ := h
    intro ws hw
    simp only [Instr.wellFormed, Instr.wellFormed.swrOk, LHdr.plain, Bool.and_eq_true, Bool.not_eq_true', beq_iff_eq] at hw
    obtain ⟨rfl, rfl⟩ := hw
    exact decode_lane rfl rfl (by simp [lf, decodeLF, decSpec, swrFields, swrRow, LFields.hdr, LFields.noWbs, LFields.noDst, Instr.wordForm])
theorem teamPlace : Statement Instr.teamPlace := of_none rfl
theorem teamRetire (team : Nat) : Statement (Instr.teamRetire team) := of_none rfl
theorem preemptQuantum (team : Nat) : Statement (Instr.preemptQuantum team) := of_none rfl
theorem preemptRequest (which : PreemptTarget) : Statement (Instr.preemptRequest which) := of_none rfl
theorem teamHaltEnd (team : Nat) : Statement (Instr.teamHaltEnd team) := of_none rfl
theorem blockStart (g : GRef) : Statement (Instr.blockStart g) := of_none rfl
theorem memoryAccessReturn (g : GRef) (id : Nat) : Statement (Instr.memoryAccessReturn g id) := of_none rfl
theorem orderedOperationPerform (g : GRef) (stream : StreamRef) : Statement (Instr.orderedOperationPerform g stream) := of_none rfl
theorem gangRendezvous (team : Nat) (gang : Nat) : Statement (Instr.gangRendezvous team gang) := of_none rfl
theorem mmaUpdate (g : GRef) (id : Nat) : Statement (Instr.mmaUpdate g id) := of_none rfl
theorem engineCommandComplete (team : Nat) (ctx : Nat) (seq : Nat) : Statement (Instr.engineCommandComplete team ctx seq) := of_none rfl
theorem engineFault (team : Nat) (ctx : Nat) (seq : Nat) : Statement (Instr.engineFault team ctx seq) := of_none rfl
theorem knotRemoteArrival (launch : Nat) (index : Nat) : Statement (Instr.knotRemoteArrival launch index) := of_none rfl
theorem armedCopyFire (t : Nat) (entry : Nat) : Statement (Instr.armedCopyFire t entry) := of_none rfl
theorem armedChunkFire (t : Nat) (entry : Nat) : Statement (Instr.armedChunkFire t entry) := of_none rfl
theorem groveStreamRoom (core : Nat) (part : Nat) : Statement (Instr.groveStreamRoom core part) := of_none rfl
theorem mwaitWritten (g : GRef) : Statement (Instr.mwaitWritten g) := of_none rfl
theorem mwaitTimeout (g : GRef) : Statement (Instr.mwaitTimeout g) := of_none rfl
theorem powerFail : Statement Instr.powerFail := of_none rfl
theorem rcTransportTimeout (t : Option Nat) (qp : Nat) : Statement (Instr.rcTransportTimeout t qp) := of_none rfl
theorem spliceFrameWrongPsn (f : FrameHdr) (ftype : Nat) : Statement (Instr.spliceFrameWrongPsn f ftype) := of_none rfl
theorem commandComplete (q : QRef) (seq : Nat) : Statement (Instr.commandComplete q seq) := of_none rfl
theorem scalarLoadReturn (g : GRef) (id : Nat) : Statement (Instr.scalarLoadReturn g id) := of_none rfl
theorem storePerformed (g : GRef) (id : Nat) : Statement (Instr.storePerformed g id) := of_none rfl
theorem powerOn (env : BootEnv) : Statement (Instr.powerOn env) := of_none rfl
theorem thermalTrip (env : BootEnv) : Statement (Instr.thermalTrip env) := of_none rfl
theorem clockThrottle (aclk : Byte) (fclk : Byte) : Statement (Instr.clockThrottle aclk fclk) := of_none rfl
theorem clockRaise (aclk : Byte) (fclk : Byte) : Statement (Instr.clockRaise aclk fclk) := of_none rfl
theorem rootWatchdogExpiry (env : BootEnv) : Statement (Instr.rootWatchdogExpiry env) := of_none rfl
theorem frontLinkUp (port : Nat) : Statement (Instr.frontLinkUp port) := of_none rfl
theorem frontLinkDown (port : Nat) : Statement (Instr.frontLinkDown port) := of_none rfl
theorem rcRetryExhausted (t : Option Nat) (qp : Nat) : Statement (Instr.rcRetryExhausted t qp) := of_none rfl
theorem fabricLinkUp (port : Nat) : Statement (Instr.fabricLinkUp port) := of_none rfl
theorem fabricLinkDown (port : Nat) : Statement (Instr.fabricLinkDown port) := of_none rfl
theorem rcConnectionSetup (t : Nat) (front : Nat) (retries : Nat) : Statement (Instr.rcConnectionSetup t front retries) := of_none rfl
theorem mgmtConnectionSetup (req : MgmtRequest) : Statement (Instr.mgmtConnectionSetup req) := of_none rfl
theorem rdmaWrite (c : Conn) (keyOk : Bool) (addr : Nat) (data : List Byte) (imm : Option W32) : Statement (Instr.rdmaWrite c keyOk addr data imm) := of_none rfl
theorem rdmaRead (c : Conn) (keyOk : Bool) (addr : Nat) (len : Nat) : Statement (Instr.rdmaRead c keyOk addr len) := of_none rfl
theorem rdmaSend (c : Conn) (place : Option Nat) (data : List Byte) (imm : Option W32) : Statement (Instr.rdmaSend c place data imm) := of_none rfl
theorem rdmaAtomicRequest (c : Conn) : Statement (Instr.rdmaAtomicRequest c) := of_none rfl
theorem unsupportedTransportPacket : Statement Instr.unsupportedTransportPacket := of_none rfl
theorem icrcFailPacket : Statement Instr.icrcFailPacket := of_none rfl
theorem noTenantPacket (front : Nat) (ip : Nat) (vlan : Nat) : Statement (Instr.noTenantPacket front ip vlan) := of_none rfl
theorem socketPacket (front : Nat) (ip : Nat) (vlan : Nat) (data : List Byte) : Statement (Instr.socketPacket front ip vlan data) := of_none rfl
theorem pauseFrame (port : Nat) : Statement (Instr.pauseFrame port) := of_none rfl
theorem timeSyncFrame (port : Nat) : Statement (Instr.timeSyncFrame port) := of_none rfl
theorem ecnMarkedPacket (c : Conn) : Statement (Instr.ecnMarkedPacket c) := of_none rfl
theorem cnp (c : Conn) : Statement (Instr.cnp c) := of_none rfl
theorem fabricTypeDiscard (port : Nat) (ethertype : Nat) : Statement (Instr.fabricTypeDiscard port ethertype) := of_none rfl
theorem spliceFrameDiscard (f : AnyFrame) : Statement (Instr.spliceFrameDiscard f) := of_none rfl
theorem splicePostFrame (f : FrameHdr) (rank : Nat) (index : Nat) (sig : Sig) (l : Nat) : Statement (Instr.splicePostFrame f rank index sig l) := of_none rfl
theorem spliceTicketFrame (f : FrameHdr) (index : Nat) (value : Nat) : Statement (Instr.spliceTicketFrame f index value) := of_none rfl
theorem spliceDataFrame (f : FrameHdr) (rank : Nat) (inst : W64) (offset : Nat) (data : List Byte) : Statement (Instr.spliceDataFrame f rank inst offset data) := of_none rfl
theorem spliceAckFrame (w : FlowRef) (next : W32) : Statement (Instr.spliceAckFrame w next) := of_none rfl
theorem spliceFailFrame (f : BuildFrame) (status : Nat) : Statement (Instr.spliceFailFrame f status) := of_none rfl
theorem spliceBuildFrame (f : BuildFrame) (rank : Nat) (digest : BitVec 512) : Statement (Instr.spliceBuildFrame f rank digest) := of_none rfl
theorem spliceRebuildFrame (f : BuildFrame) (rank : Nat) : Statement (Instr.spliceRebuildFrame f rank) := of_none rfl
theorem spliceResendTimeout (w : FlowRef) (oldest : W32) : Statement (Instr.spliceResendTimeout w oldest) := of_none rfl
theorem commBuildTimeout (c : CRef) : Statement (Instr.commBuildTimeout c) := of_none rfl
theorem commRebuildTimeout (c : CRef) : Statement (Instr.commRebuildTimeout c) := of_none rfl
theorem collectiveStart (c : CRef) (seq : Nat) : Statement (Instr.collectiveStart c seq) := of_none rfl
theorem collectiveComplete (c : CRef) (seq : Nat) : Statement (Instr.collectiveComplete c seq) := of_none rfl
theorem recoveryImageWrite (addr : Nat) (data : List Byte) : Statement (Instr.recoveryImageWrite addr data) := of_none rfl
theorem recoverySend (data : List Byte) (env : BootEnv) : Statement (Instr.recoverySend data env) := of_none rfl
theorem queueNotification (q : QRef) : Statement (Instr.queueNotification q) := of_none rfl
theorem qenableWrite (q : QRef) : Statement (Instr.qenableWrite q) := of_none rfl
theorem eventHeldWrite (t : Option Nat) : Statement (Instr.eventHeldWrite t) := of_none rfl
theorem launch (q : QRef) (seq : Nat) : Statement (Instr.launch q seq) := of_none rfl
theorem launchCollPost (id : Nat) : Statement (Instr.launchCollPost id) := of_none rfl
theorem launchComplete (id : Nat) : Statement (Instr.launchComplete id) := of_none rfl
theorem copy (q : QRef) (seq : Nat) : Statement (Instr.copy q seq) := of_none rfl
theorem fill (q : QRef) (seq : Nat) : Statement (Instr.fill q seq) := of_none rfl
theorem signal (q : QRef) (seq : Nat) : Statement (Instr.signal q seq) := of_none rfl
theorem wait (q : QRef) (seq : Nat) : Statement (Instr.wait q seq) := of_none rfl
theorem commBuild (q : QRef) (seq : Nat) : Statement (Instr.commBuild q seq) := of_none rfl
theorem commRebuild (q : QRef) (seq : Nat) : Statement (Instr.commRebuild q seq) := of_none rfl
theorem loadObject (q : QRef) (seq : Nat) : Statement (Instr.loadObject q seq) := of_none rfl
theorem translate (q : QRef) (seq : Nat) : Statement (Instr.translate q seq) := of_none rfl
theorem queryDeviceStatus (q : QRef) (seq : Nat) : Statement (Instr.queryDeviceStatus q seq) := of_none rfl
theorem queryFabricLink (q : QRef) (seq : Nat) : Statement (Instr.queryFabricLink q seq) := of_none rfl
theorem queryAttestation (q : QRef) (seq : Nat) : Statement (Instr.queryAttestation q seq) := of_none rfl
theorem queryCertificate (q : QRef) (seq : Nat) : Statement (Instr.queryCertificate q seq) := of_none rfl
theorem queryQuota (q : QRef) (seq : Nat) : Statement (Instr.queryQuota q seq) := of_none rfl
theorem queryFeatures (q : QRef) (seq : Nat) : Statement (Instr.queryFeatures q seq) := of_none rfl
theorem queryMgmtNonce (q : QRef) (seq : Nat) : Statement (Instr.queryMgmtNonce q seq) := of_none rfl
theorem queryDiscardCounters (q : QRef) (seq : Nat) : Statement (Instr.queryDiscardCounters q seq) := of_none rfl
theorem queryTenantCounters (q : QRef) (seq : Nat) : Statement (Instr.queryTenantCounters q seq) := of_none rfl
theorem reset (seq : Nat) (env : BootEnv) : Statement (Instr.reset seq env) := of_none rfl
theorem lcTransitionProvisioned (seq : Nat) (env : BootEnv) : Statement (Instr.lcTransitionProvisioned seq env) := of_none rfl
theorem lcTransitionDeployed (seq : Nat) (env : BootEnv) : Statement (Instr.lcTransitionDeployed seq env) := of_none rfl
theorem lcTransitionReturned (seq : Nat) (env : BootEnv) : Statement (Instr.lcTransitionReturned seq env) := of_none rfl
theorem fwUpdate (seq : Nat) : Statement (Instr.fwUpdate seq) := of_none rfl
theorem badKindCommand (q : QRef) (seq : Nat) : Statement (Instr.badKindCommand q seq) := of_none rfl
theorem tenantCreate (cfg : TenantCfg) : Statement (Instr.tenantCreate cfg) := of_none rfl
theorem tenantTeardown (t : Nat) : Statement (Instr.tenantTeardown t) := of_none rfl
theorem tenantScrub (t : Nat) : Statement (Instr.tenantScrub t) := of_none rfl
theorem supvInstallActivate (t : Nat) : Statement (Instr.supvInstallActivate t) := of_none rfl
theorem supvInstall (g : GRef) (stream : StreamRef) : Statement (Instr.supvInstall g stream) := of_none rfl
theorem teamEndCall (g : GRef) (stream : StreamRef) : Statement (Instr.teamEndCall g stream) := of_none rfl
theorem bowlineRead (g : GRef) (stream : StreamRef) (replies : List Reply) : Statement (Instr.bowlineRead g stream replies) := of_none rfl
theorem bowlineWrite (g : GRef) (stream : StreamRef) (replies : List Reply) : Statement (Instr.bowlineWrite g stream replies) := of_none rfl
theorem bowlineOpen (g : GRef) (stream : StreamRef) (replies : List Reply) : Statement (Instr.bowlineOpen g stream replies) := of_none rfl
theorem bowlineClose (g : GRef) (stream : StreamRef) (replies : List Reply) : Statement (Instr.bowlineClose g stream replies) := of_none rfl
theorem bowlineSocket (g : GRef) (stream : StreamRef) (replies : List Reply) : Statement (Instr.bowlineSocket g stream replies) := of_none rfl
theorem bowlineConnect (g : GRef) (stream : StreamRef) (replies : List Reply) : Statement (Instr.bowlineConnect g stream replies) := of_none rfl
theorem bowlineBind (g : GRef) (stream : StreamRef) (replies : List Reply) : Statement (Instr.bowlineBind g stream replies) := of_none rfl
theorem bowlineAccept (g : GRef) (stream : StreamRef) (replies : List Reply) : Statement (Instr.bowlineAccept g stream replies) := of_none rfl
theorem supvLoad (g : GRef) (stream : StreamRef) (replies : List Reply) : Statement (Instr.supvLoad g stream replies) := of_none rfl

end Sys2Proof.Laws.RoundTrip
end

