-- ==== Sys2Proof/Laws/Waits.lean ====
section
/-! SUPPORT. What the shared operations on waiting instructions, due traps, pending faults and arrivals do, each once. -/

namespace Sys2Proof.Machine

/-! ## Instructions that wait (R159, R194, R330) -/

@[simp] theorem Group.unwait_waiting (g : Group) (fid : Nat) : (g.unwait fid).waiting = adel g.waiting fid := rfl
@[simp] theorem Group.unwait_vregs (g : Group) (fid : Nat) : (g.unwait fid).vregs = g.vregs := rfl
@[simp] theorem Group.unwait_frags (g : Group) (fid : Nat) : (g.unwait fid).frags = g.frags := rfl

/-- An instruction that waits no more has no place among the accesses, and every other access stays. -/
theorem Group.mem_unwait {g : Group} {fid : Nat} {a : Access} :
    a ∈ (g.unwait fid).accesses ↔ a ∈ g.accesses ∧ a.kind ≠ .reserved fid := by
  simp [Group.unwait, Access.reservedBy]

/-- It holds no register back from the other fragments any more (R6, R330): whatever else the table of waits names does. -/
theorem Group.stillNamed_unwait {g : Group} {fid : Nat} (k : Nat) (n : VReg) :
    (g.unwait fid).stillNamed k n = (adel g.waiting fid).any fun e => e.1 != k && e.2.2.contains n := rfl

/-- The fragment that waits alone holds no register back from itself. -/
theorem Group.stillNamed_own {g : Group} {fid : Nat} (h : ∀ e ∈ g.waiting, e.1 = fid) (n : VReg) : g.stillNamed fid n = false := by
  simp only [Group.stillNamed, List.any_eq_false]
  intro e he
  simp [h e he]

/-! ## A GANG_ORPHAN that is due (R147) -/

/-- It is due once: a group with one due is as it was. -/
theorem Group.orphaned_due {g : Group} (h : ∃ e ∈ g.frags, e.2.wait = .orphan) (f : Nat) : g.orphaned f = g := by
  obtain ⟨e, he, hw⟩ := h
  have : (g.frags.any fun e => e.2.wait == .orphan) = true := List.any_eq_true.2 ⟨e, he, by simp [hw]⟩
  simp [Group.orphaned, this]

/-- Else fragment `f` is marked, where it waits at the rendezvous, and no other is touched. -/
theorem Group.orphaned_frags {g : Group} (h : ∀ e ∈ g.frags, e.2.wait ≠ .orphan) (f : Nat) :
    (∀ x, aget g.frags f = some x → x.wait = .rendezvous → aget (g.orphaned f).frags f = some { x with wait := .orphan }) ∧
    ∀ k, k ≠ f → aget (g.orphaned f).frags k = aget g.frags k := by
  have : (g.frags.any fun e => e.2.wait == .orphan) = false := by simpa [List.any_eq_false] using h
  refine ⟨fun x hx hw => ?_, fun k hk => ?_⟩
  · simp [Group.orphaned, this, hx, hw]
  · simp [Group.orphaned, this, aget_aupd_ne _ _ hk.symm]

/-! ## An ENGINE_FAULT that is pending (R234) -/

/-- Only the fault of one group changes, and one that is pending already stays. -/
theorem Team.pendFault_groups (t : Team) (i : Nat) (f : W32 × W64) :
    t.pendFault i f = t ∨ ∃ k, t.pendFault i f = { t with groups := aupd t.groups k fun g => { g with fault := some (g.fault.getD f) } } := by
  unfold Team.pendFault
  dsimp only
  split
  · exact .inr ⟨_, rfl⟩
  · exact .inl rfl

/-! ## Arrivals (R109, R166, R220) -/

/-- The stamp that the waiting groups take up is never below the last arrival's, and is that outside ordered launches. -/
theorem Team.le_joinStamp (t : Team) (k : Knot) (c : Nat) : c ≤ t.joinStamp k c := by
  unfold Team.joinStamp
  split <;> omega
@[simp] theorem Team.joinStamp_plain {t : Team} (h : t.isOrdered = false) (k : Knot) (c : Nat) : t.joinStamp k c = c := by
  simp [Team.joinStamp, h]

/-- In an ordered launch it does not depend on which of two arrivals comes first (R220). -/
theorem Team.joinStamp_comm {t : Team} (h : t.isOrdered = true) (k : Knot) (a b : Nat) :
    t.joinStamp { k with stamp := max k.stamp (a + 1) } b = t.joinStamp { k with stamp := max k.stamp (b + 1) } a := by
  simp [Team.joinStamp, h]
  omega

/-! ## Exits of the teams of a bound launch (R87) -/

/-- A team is the last of its bit exactly when the bit's teams have all exited, it after the others. -/
theorem Launch.lastOfBit_iff (l : Launch) (tpb k tid : Nat) : l.lastOfBit tpb k tid = true ↔
    (∀ i < tpb, k * tpb + i < l.teamCount → k * tpb + i ∈ l.tiled) ∧ l.tiled.find? (fun i => i / tpb == k) = some tid := by
  simp only [Launch.lastOfBit, Bool.and_eq_true, List.all_eq_true, List.mem_range, Bool.or_eq_true, decide_eq_true_eq, List.contains_eq_mem,
    beq_iff_eq]
  refine and_congr_left' ⟨fun h i hi hl => (h i hi).resolve_left (by omega), fun h i hi => ?_⟩
  by_cases hl : l.teamCount ≤ k * tpb + i
  · exact .inl hl
  · exact .inr (h i hi (by omega))

/-- The exit of a team is noted once. -/
theorem State.noteExit_none {s : State} {k : Nat} (h : s.team? k = none) : s.noteExit k = s := by
  simp [State.noteExit, h]

end Sys2Proof.Machine
end

