-- ==== Sys2Proof/Tests/Slice0.lean ====
section
/-! SUPPORT. Tests: words written out from the spec's encodings, ill-formed terms that WellFormed refuses, single steps whose results are
worked out by hand from the rules, and for the statements of Certificates/Slice0/Obligations.lean states and operands that meet their
hypotheses. -/

set_option maxRecDepth 100000

open Sys2Proof Sys2Proof.Machine Sys2Proof.Claims

namespace Sys2Proof.Tests

/-! ## Words and their instructions -/

/-- A header with no guard and no write-back fields. -/
def h0 : LHdr := { pr := 0, pn := false, wbs := false, cc := 0 }

-- The example of R306: addi s5, s0, 3; add s6, s6, s5; addi s5, s5, -1; bne s5, s0, LOOP.
theorem test_decode_addi : decodeScalar 0x08500003#32 = some (.addi 5 0 3) := by decide
theorem test_decode_add : decodeScalar 0x04618500#32 = some (.add 6 6 5) := by decide
theorem test_decode_addi_negative : decodeScalar 0x08517FFF#32 = some (.addi 5 5 (-1)) := by decide
theorem test_decode_bne : decodeScalar 0x70503FFE#32 = some (.bne 5 0 (-2)) := by decide
-- Examples of the chapters on the scalar stream: amo.add s5, 16(s6); fence.dev.rel; cpost s10, s11; sysc s5 (R321).
theorem test_decode_amo : decodeScalar 0x4C51B010#32 = some (.amo .add 5 6 16) := by decide
theorem test_decode_fence : decodeScalar 0xE0070009#32 = some (.fence .dev .rel) := by decide
theorem test_decode_cpost : decodeScalar 0xC4A2C000#32 = some (.cpost 10 11) := by decide
theorem test_decode_sysc : decodeScalar 0xE0014000#32 = some (.scalarSysc 5) := by decide
-- Examples of the lane chapters.
theorem test_decode_imad :
    decodeLane 0x01050080#32 0x0080141E#32 0x80000000#32 = .ok (.imad { h0 with cc := 1 } 30 (.v 4) (.v 5) (.latch 0)) := by decide
theorem test_decode_fcmp :
    decodeLane 0x05021800#32 0x01002403#32 0#32 = .ok (.fcmp { h0 with pr := 1, pn := true } .lt 3 (.v 8) (.v 9)) := by decide
theorem test_decode_fma :
    decodeLane 0x04030001#32 0x02C05417#32 0x01400000#32 = .ok (.fma h0 .rne 23 (.v 22) (.v 21) (.v 10)) := by decide
theorem test_decode_ld :
    decodeLane 0x14851036#32 0x02800008#32 0x00000040#32 =
      .ok (.laneLd { h0 with pr := 1 } { scope := .dev, order := .acq, promote := true, ord := false } true .b64 8 (.v 20) 64) := by decide
theorem test_decode_movk : decodeLane 0x03000001#32 0x00000002#32 0x0007F000#32 = .ok (.movk h0 true 2 0x7F000) := by decide
theorem test_decode_cvt : decodeLane 0x08010002#32 0x00C00005#32 0#32 = .ok (.cvt h0 .bf16F32 .rtz 5 (.v 6)) := by decide
theorem test_decode_xchg : decodeLane 0x0B010000#32 0x0140A00B#32 0#32 = .ok (.xchg h0 11 (.v 10) (.v 40)) := by decide
theorem test_decode_scan : decodeLane 0x0B030010#32 0x00200002#32 0#32 = .ok (.scan h0 .add true 2 (.v 1)) := by decide
theorem test_decode_redux : decodeLane 0x0B022018#32 0x02800000#32 0#32 = .ok (.reduxLq { h0 with pr := 2 } .fadd (.v 20)) := by decide
theorem test_decode_lqpush : decodeLane 0x2C002000#32 0x01200000#32 0#32 = .ok (.lqpush { h0 with pr := 2 } false (.v 9)) := by decide
theorem test_decode_sqpop : decodeLane 0x2C010001#32 0x00000006#32 0#32 = .ok (.sqpop 0 true 6) := by decide
theorem test_decode_lane_sysc : decodeLane 0x30004000#32 0#32 2#32 = .ok (.laneSysc { h0 with pr := 4 } 2) := by decide
theorem test_decode_tret : decodeLane 0x30010001#32 0xA0A00001#32 0#32 = .ok (.laneTret h0 true false 1 (.k 5)) := by decide
-- R294, R295, R297: an opcode that is not assigned is no instruction of either stream.
theorem test_decode_unassigned_scalar : decodeScalar 0#32 = none := by decide
theorem test_decode_unassigned_lane : decodeLane 0#32 0#32 0#32 = .illegal := by decide
-- R293: a source field of all ones names nothing.
theorem test_decode_bad_operand : decodeLane 0x01050080#32 0xFFE0141E#32 0x80000000#32 = .badOperand := by decide
-- R296: a shift count above 63 is refused.
theorem test_decode_shift_limit : decodeScalar 0x18000040#32 = none := by decide

/-! ## Ill-formed instructions -/

/-- A header with a write-back selection, where it is not allowed. -/
def hw : LHdr := { h0 with wbs := true }
def m0 : MemMod := { scope := .grp, order := .plain, promote := false, ord := false }

theorem test_wf_fence_plain : (Instr.fence .dev .plain).wellFormed = false := by decide
theorem test_wf_icmp_p0 : (Instr.icmp h0 .eq 0 (.v 1) (.v 2)).wellFormed = false := by decide
theorem test_wf_fcmp_wbs : (Instr.fcmp hw .eq 1 (.v 1) (.v 2)).wellFormed = false := by decide
theorem test_wf_npdec_planes : (Instr.npdec h0 1 false 1 (.v 2)).wellFormed = false := by decide
theorem test_wf_predicates : ((Instr.pand h0 0 1 1).wellFormed || (Instr.por h0 0 1 1).wellFormed || (Instr.pxor h0 0 1 1).wellFormed ||
    (Instr.pnot h0 0 1).wellFormed || (Instr.pmov h0 0 1).wellFormed) = false := by decide
theorem test_wf_ballot_triple : (Instr.ballot h0 1022 1).wellFormed = false := by decide
theorem test_wf_ballot_lq : (Instr.ballotLq hw 1).wellFormed = false := by decide
theorem test_wf_vote : (Instr.vote h0 .all 0 1).wellFormed = false := by decide
theorem test_wf_redux_lq : (Instr.reduxLq hw .add (.v 1)).wellFormed = false := by decide
theorem test_wf_welf : ((Instr.welf h0 0 1022 (.v 1)).wellFormed || (Instr.wmerge h0 0 1 1023).wellFormed) = false := by decide
theorem test_wf_lbr : (Instr.lbr hw false 1 0).wellFormed = false := by decide
theorem test_wf_masks : ((Instr.mkrd 0 3 1).wellFormed || (Instr.mkwr 3 (.v 1)).wellFormed) = false := by decide
theorem test_wf_ld_release : (Instr.laneLd h0 { m0 with order := .rel } false .b32 1 (.v 1) 0).wellFormed = false := by decide
theorem test_wf_ld_pair : (Instr.laneLd h0 m0 true .b32 1 (.v 1) 0).wellFormed = false := by decide
theorem test_wf_ld_quad : (Instr.laneLd h0 m0 false .b128 2 (.v 1) 0).wellFormed = false := by decide
theorem test_wf_st_acquire : (Instr.laneSt h0 { m0 with order := .acq } false .b32 (.v 1) (.v 2) 0).wellFormed = false := by decide
theorem test_wf_st_source : (Instr.laneSt h0 m0 false .b64 (.v 1) (.v 3) 0).wellFormed = false := by decide
theorem test_wf_lds_sts : ((Instr.laneLds hw m0 .b32 1 (.v 1) 0).wellFormed || (Instr.sts h0 m0 .b64 (.v 1) .sq 0).wellFormed) = false := by
  decide
theorem test_wf_promote_scope : (Instr.laneLd h0 { m0 with order := .acq, promote := true } false .b32 1 (.v 1) 0).wellFormed = false := by
  decide
theorem test_wf_ord_scope : (Instr.laneSt h0 { m0 with ord := true } false .b32 (.v 1) (.v 2) 0).wellFormed = false := by decide
theorem test_wf_atom_float64 :
    (Instr.atom h0 m0 false true true .fadd 2 (.v 1) (.v 2) (.v 0) 0).wellFormed = false := by decide
theorem test_wf_atom_cas_returns :
    (Instr.atom h0 m0 false false false .cas 0 (.v 1) (.v 2) (.v 3) 0).wellFormed = false := by decide
theorem test_wf_atoms_third :
    (Instr.atoms h0 m0 true false .add 2 (.v 1) (.v 2) (.v 3) 0).wellFormed = false := by decide
theorem test_wf_smaxpk : (Instr.smaxpk h0 m0 false true 1 (.v 1) (.v 2) (.v 3) 0).wellFormed = false := by decide
theorem test_wf_packed : ((Instr.pst hw m0 false false (.v 1) 1 0).wellFormed || (Instr.pld h0 m0 false false 0 (.v 1) 0).wellFormed) = false := by
  decide
theorem test_wf_lfence_plain : (Instr.lfence .dev .plain).wellFormed = false := by decide
theorem test_wf_kacc_pair : (Instr.kacc h0 0 0 true false (.v 1) (.v 2)).wellFormed = false := by decide
theorem test_wf_klook : ((Instr.klook hw 0 0 false 1 (.v 1) 1).wellFormed || (Instr.klookLq h0 0 0 true (.v 1) 1).wellFormed ||
    (Instr.kread h0 0 0 1 (.v 1) 1).wellFormed || (Instr.kclr h0 0 true (.v 1)).wellFormed) = false := by decide
theorem test_wf_proposal : ((Instr.accept h0 0 (.v 1)).wellFormed || (Instr.rand hw false 1).wellFormed) = false := by decide
theorem test_wf_matrix : ((Instr.mma h0 1 0 0).wellFormed || (Instr.accrd hw 1 (.v 1) 0).wellFormed || (Instr.accwr hw (.v 1) (.v 2) 0).wellFormed ||
    (Instr.accst h0 1 2 4 0).wellFormed || (Instr.accver hw 1 0).wellFormed) = false := by decide
theorem test_wf_queues : ((Instr.lqpush h0 true (.v 1)).wellFormed || (Instr.sqpop 1 false 0).wellFormed) = false := by decide
theorem test_wf_special : ((Instr.laneSrd hw false 1 0).wellFormed || (Instr.laneSwr h0 false (.v 1) 0x010).wellFormed) = false := by decide
theorem test_wf_swr_rows : ((Instr.fmtrWrite (.lane hw false (.v 1))).wellFormed || (Instr.gangWrite (.lane hw false (.v 1))).wellFormed ||
    (Instr.ptbaseWrite (.lane hw false (.v 1))).wellFormed || (Instr.winbaseWrite (.lane hw false (.v 1))).wellFormed ||
    (Instr.winlimWrite (.lane hw false (.v 1))).wellFormed || (Instr.bankmodeWrite (.lane hw false (.v 1))).wellFormed ||
    (Instr.bankownWrite (.lane hw false (.v 1))).wellFormed || (Instr.gnanClear (.lane hw false (.v 1))).wellFormed ||
    (Instr.pnanClear (.lane hw false (.v 1))).wellFormed) = false := by decide
theorem test_wf_calls : ((Instr.kmov hw 1 (.v 1)).wellFormed || (Instr.laneSysc hw 1).wellFormed || (Instr.laneHcall hw 1).wellFormed ||
    (Instr.laneBrk hw 1).wellFormed || (Instr.laneNop hw).wellFormed || (Instr.laneTret h0 false false 1 (.v 0)).wellFormed) = false := by decide
theorem test_wf_accepts : (Instr.add 1 2 3).wellFormed = true := by decide
/-! ## States for the tests -/

/-- A group of 64 slots at 0x10000, as a team of one group starts it. -/
def g0 : Group := freshGroup 0 0 64 0x10000 0
/-- The same with one fragment of all 96 lanes at 0x10000. -/
def gl : Group := { g0 with frags := [(0, startFragment 0x10000 0)] }
/-- A team of one group. -/
def tm (g : Group) : Team := { bareTeam false with groups := [(0, g)] }
/-- Tenant 0 with one window over the low megabyte, one team under key 0, and a stream of its group in focus. -/
def st (t : Team) (x : Tenant) (lane : Bool) : State :=
  { State.reset with root := { Root.reset with windows := [(0, bareWindow)] }, tenants := [(0, x)], teams := [(0, t)],
                     stream := if lane then .lane 0 else .scalar }
/-- The scalar stream of a group in focus. -/
def sc (g : Group) : State := st (tm g) bareTenant false
/-- Fragment 0 of a group in focus. -/
def ln (g : Group) : State := st (tm g) bareTenant true
/-- What an instruction of the scalar stream leaves. -/
def after (s : State) (i : Instr) : Option Group :=
  match exec i s with
  | .next s' => s'.group? ⟨0, 0⟩
  | _ => none
/-- A scalar register after it. -/
def regAfter (s : State) (i : Instr) (d : SReg) : Option W64 := (after s i).map (·.sreg d)
/-- The code of the trap it takes, where it takes one. -/
def trapAfter (s : State) (i : Instr) : Option Cause := (after s i).bind fun g => (g.trap.bind (aget g.traps)).map (·.cause)
/-- A group with some scalar registers set. -/
def regs (l : List (SReg × W64)) : Group := l.foldl (fun g e => g.setSreg e.1 e.2) g0

/-- No load is under way in a group without accesses. -/
theorem here_of {g : Group} (h : g.accesses = []) (l : List SReg) : ScalarsHere g l := by
  intro x _
  simp [Group.sregPending, h]

/-! ## The scalar stream -/

-- R305, R306: results worked out from the tables; R304: a write to s0 is discarded.
theorem test_add_wraps : regAfter (sc (regs [(5, -1), (6, 2)])) (.add 7 5 6) 7 = some 1 := by decide
theorem test_sub_wraps : regAfter (sc (regs [(5, 0), (6, 1)])) (.sub 7 5 6) 7 = some 0xFFFFFFFFFFFFFFFF#64 := by decide
theorem test_mulhi_signed : regAfter (sc (regs [(5, -1), (6, 2)])) (.mulhi 7 5 6) 7 = some 0xFFFFFFFFFFFFFFFF#64 := by decide
theorem test_mulhu_unsigned : regAfter (sc (regs [(5, -1), (6, 2)])) (.mulhu 7 5 6) 7 = some 1 := by decide
theorem test_sar_amount_mod_64 : regAfter (sc (regs [(5, 0x8000000000000000), (6, 65)])) (.sar 7 5 6) 7 = some 0xC000000000000000#64 := by decide
theorem test_minu_maxu : regAfter (sc (regs [(5, -1), (6, 2)])) (.minu 7 5 6) 7 = some 2 ∧
    regAfter (sc (regs [(5, -1), (6, 2)])) (.max 7 5 6) 7 = some 2 := by decide
theorem test_clz_popc : regAfter (sc (regs [(5, 1)])) (.scalarClz 7 5) 7 = some 63 ∧ regAfter (sc (regs [(5, 0)])) (.scalarClz 7 5) 7 = some 64 ∧
    regAfter (sc (regs [(5, -1)])) (.scalarPopc 7 5) 7 = some 64 := by decide
theorem test_sel_reads_destination : regAfter (sc (regs [(7, 9), (8, 4), (9, 5)])) (.scalarSel 7 8 9) 7 = some 4 := by decide
theorem test_andi_sign_extends : regAfter (sc (regs [(5, 0x123456789ABCDEF0)])) (.andi 7 5 (-16)) 7 = some 0x123456789ABCDEF0#64 := by decide
theorem test_lui_sign : regAfter (sc g0) (.lui 7 0x80000) 7 = some 0xFFFFFFFF80000000#64 := by decide
theorem test_write_s0 : regAfter (sc g0) (.addi 0 0 3) 0 = some 0 := by decide
-- R309: the branch of the example of R306 goes back two words; jr takes its target before it links.
theorem test_bne_back : ((after (sc (regs [(5, 1)])) (.bne 5 0 (-2))).map (·.pc)) = some 0xFFF8#64 := by decide
theorem test_jr_same_register : ((after (sc (regs [(5, 0x20000)])) (.jr 5 5)).map fun g => (g.pc, g.sreg 5)) = some (0x20000#64, 0x10004#64) := by
  decide
theorem test_lclock : ((after (sc g0) .scalarNop).map (·.lclock)) = some 1 := by decide

theorem witness_ScalarArithmeticResult : ScalarReady (sc g0) (tm g0) g0 ∧ ScalarsHere g0 (scalarReads (.addi 5 0 3)) ∧
    scalarValue g0.sreg (.addi 5 0 3) = some (5, 3) := ⟨⟨rfl, rfl, rfl⟩, here_of rfl _, rfl⟩
theorem witness_ScalarJumpResult : ScalarReady (sc g0) (tm g0) g0 ∧ ScalarsHere g0 (scalarReads (.jal 4)) ∧
    scalarJump g0.sreg g0.pc (.jal 4) = some (0x10010, some 1) := ⟨⟨rfl, rfl, rfl⟩, here_of rfl _, rfl⟩
theorem witness_ScalarArithmeticFrame : ScalarReady (sc g0) (tm g0) g0 ∧ (scalarValue g0.sreg (.addi 5 0 3)).isSome ∧
    ∃ s', exec (.addi 5 0 3) (sc g0) = .next s' := ⟨⟨rfl, rfl, rfl⟩, rfl, _, rfl⟩

-- R307: loads extend by zeros or by the sign; a store at an address that is no multiple of its size traps.
theorem test_lds_sign : loadedValue 2 true [0xFE, 0xFF] = -2 ∧ loadedValue 2 false [0xFE, 0xFF] = 0xFFFE := by decide
theorem test_store_misaligned : trapAfter (sc (regs [(6, 0x2001)])) (.scalarSt 5 6 .h 0) = some .misaligned := by decide
theorem test_store_outside : trapAfter (sc (regs [(6, 0x100000)])) (.scalarSt 5 6 .h 0) = some .xlate := by decide
theorem test_store_bytes : (match exec (.scalarSt 5 6 .h 0) (sc (regs [(5, 0x1234), (6, 0x2000)])) with
    | .next s => [s.cachedByte 0 0x2000, s.cachedByte 0 0x2001, s.cachedByte 0 0x2002]
    | _ => []) = [0x34, 0x12, 0] := by decide

/-- s5 holds data and s6 an address. -/
def gm : Group := regs [(5, 0x1234), (6, 0x2000)]
/-- The load and the amo of that address, issued. -/
def aLoad : Access := { newAccess (.scalarLoad 5 true) with id := 0, items := [scalarItem 0x2000 (byteCount .h) []] }
def aAmo : Access := { newAccess (.amo .add 5) with id := 0, scope := .dev, order := .ar, items := [scalarItem 0x2000 8 (leBytes 8 (7#64).toNat)] }

theorem witness_ScalarReadIssue : ScalarReady (sc gm) (tm gm) gm ∧ ScalarsHere gm [6] ∧
    loadForm (.scalarLds 5 6 .h 0) = some (5, 6, .h, true, 0) ∧ (gm.sreg 6 + sext64 (0#12)).toNat % byteCount .h = 0 ∧
    (sc gm).translate 0 0 gm.mode (gm.sreg 6 + sext64 (0#12)).toNat 1#4 = .ok 0x2000 := ⟨⟨rfl, rfl, rfl⟩, here_of rfl _, rfl, rfl, rfl⟩
theorem witness_AtomicIssue : ScalarReady (sc gm) (tm gm) gm ∧ ScalarsHere gm [5, 6] ∧ (tm gm).isOrdered = false ∧
    (gm.sreg 6 + sext64 (0#8)).toNat % 8 = 0 ∧ (sc gm).translate 0 0 gm.mode (gm.sreg 6 + sext64 (0#8)).toNat 3#4 = .ok 0x2000 :=
  ⟨⟨rfl, rfl, rfl⟩, here_of rfl _, rfl, rfl, rfl⟩
theorem witness_ScalarReadValue : ({ gm with accesses := [aLoad] } : Group).ready 0 = some aLoad ∧
    ({ gm with accesses := [aAmo] } : Group).ready 0 = some aAmo := ⟨rfl, rfl⟩
theorem witness_ScalarStoreResult : ScalarReady (sc gm) (tm gm) gm ∧ ScalarsHere gm [5, 6] ∧ (gm.sreg 6 + sext64 (0#12)).toNat % byteCount .d = 0 ∧
    (sc gm).translate 0 0 gm.mode (gm.sreg 6 + sext64 (0#12)).toNat 2#4 = .ok 0x2000 ∧ gm.noAcquire = true ∧
    gm.bytesFree false ((List.range (byteCount .d)).map (0x2000 + ·)) = true := ⟨⟨rfl, rfl, rfl⟩, here_of rfl _, rfl, rfl, rfl, rfl⟩
theorem witness_StoreFrame : (sc gm).mem.wf = true ∧ ((sc gm).cluster 0).hasCache = true ∧
    ({ sc gm with clusters := [(0, { freshCluster with bankmode := 0xFFFFFFFFFFFFFFFF })] } : State).mem.wf = true := by decide
theorem witness_ScalarAccessTraps : ScalarReady (sc gm) (tm gm) gm ∧ ScalarsHere gm (scalarReads (.scalarSt 5 6 .d 1)) ∧
    scalarAccess (.scalarSt 5 6 .d 1) = some (6, 1, 8, 2#4) ∧ (gm.sreg 6 + 1).toNat % 8 ≠ 0 ∧
    (sc gm).translate 0 0 gm.mode 0x100000 2#4 = .fail 5 0x100000 := ⟨⟨rfl, rfl, rfl⟩, here_of rfl _, rfl, by decide, rfl⟩
theorem witness_ScalarAccessTraps_ordered :
    let t := { tm gm with isOrdered := true }
    ScalarReady (st t bareTenant false) t gm ∧ ScalarsHere gm (scalarReads (.amo .add 5 6 0)) ∧
    scalarAccess (.amo .add 5 6 0) = some (6, 0, 8, 3#4) := ⟨⟨rfl, rfl, rfl⟩, here_of rfl _, rfl⟩

-- R310, R311: sqpush appends; a pop of an empty lq with an idle lane stream is QUEUE_ORPHAN; a block beyond the table is BLOCK_RANGE.
theorem test_sqpush : ((after (sc gm) (.sqpush 5)).map (·.sq)) = some [0x1234] := by decide
theorem test_lqpop_orphan : trapAfter (sc g0) (.lqpop 5) = some .queueOrphan := by decide
theorem test_lrun_range : trapAfter (sc gm) (.lrun 6) = some .blockRange := by decide
theorem test_fmt_invalid : trapAfter (sc gm) (.fmt 5) = some .fmtInvalid := by decide
theorem test_lrun : ((after (sc g0) (.lrun 0)).map (·.dispatch)) = some [(0, 0)] := by decide

theorem witness_QueueForms : ScalarReady (sc gm) (tm gm) gm ∧ QueueForm (tm gm) gm (.sqpush 5) { gm with sq := gm.sq ++ [gm.sreg 5] } ∧
    QueueForm (tm gm) { gm with lq := [3] } (.lqpop 5) (wrote { gm with lq := [] } 5 3) ∧
    QueueForm (tm gm) gm (.lrun 0) { gm with dispatch := gm.dispatch ++ [(0, gm.fmtr)], laneTurn := gm.laneTurn || (tm gm).isOrdered } ∧
    QueueForm (tm gm) gm .lsync gm ∧ QueueForm (tm gm) gm (.fmt 0) { gm with fmtr := gm.sreg 0 } ∧
    QueueForm (tm gm) gm (.scalarWait .ld 0) gm :=
  ⟨⟨rfl, rfl, rfl⟩, .push 5 (by decide), .pop 5 3 [] rfl, .run 0 0 rfl (by decide), .sync ⟨rfl, rfl⟩, .format 0 ⟨by decide, by decide, rfl, rfl⟩, .wait .ld 0 (by decide)⟩
/-- A lane stream at work and a full sq. -/
def gfull : Group := { gl with sq := List.replicate 16 0 }
theorem witness_QueueTraps : ScalarReady (sc g0) (tm g0) g0 ∧ g0.lq = [] ∧ LaneIdle g0 ∧ ScalarReady (sc gfull) (tm gfull) gfull ∧ 16 ≤ gfull.sq.length ∧ ¬ LaneIdle gfull ∧
    ((tm gm).roleOf gm).table.length ≤ (gm.sreg 6).toNat ∧ ¬ FormatOk (gm.sreg 5) ∧
    (gm.sreg 0).toNat < ({ gm with accesses := [{ aLoad with path := some .ld, active := 1 }] } : Group).inflight .ld :=
  ⟨⟨rfl, rfl, rfl⟩, rfl, ⟨rfl, rfl⟩, ⟨rfl, rfl, rfl⟩, by decide, (fun h => nomatch h.1), by decide, (fun h => absurd h.2.2.1 (by decide)), by decide⟩

-- R163, R318: tl0 is named 0x4000_0000, and a name above 2^32 none.
theorem test_tread : regAfter (sc (regs [(6, 0x40000000)])) (.tread 5 6) 5 = some 0 := by decide
theorem test_twait_bad : trapAfter (sc (regs [(6, 0x60000000)])) (.twait 5 6) = some .badHandle := by decide
theorem witness_TimelineForms :
    let g := regs [(6, 0x40000000)]
    ScalarReady (sc g) (tm g) g ∧ ScalarsHere g [5, 6] ∧ namedTimeline (sc g) (tm g) (g.sreg 6) = some 0 ∧ (g.sreg 5).toNat ≤ 0 ∧
    0 < (g.sreg 6).toNat ∧ namedTimeline (sc g) (tm g) 0x60000000 = none := ⟨⟨rfl, rfl, rfl⟩, here_of rfl _, rfl, by decide, by decide, rfl⟩

-- R166, R319: an arrival at a knot that awaits one completes its phase.
theorem test_knot_arrive : (match exec (.knotArrive 0) (sc g0) with
    | .next s => ((s.team? 0).map fun t => ((t.knot 0).phase, (t.knot 0).pend))
    | _ => none) = some (true, 1) := by decide
theorem test_knot_init_bad : (after (sc g0) (.knotInit 0 0)).isSome = true := by decide
theorem witness_KnotCompletion : 15 < (tm g0).knots.length ∧ aget (tm g0).groups 0 = some g0 := by decide
theorem witness_KnotForms :
    let g := regs [(5, 1), (7, 0x80000003)]
    ScalarReady (sc g) (tm g) g ∧ ScalarsHere g [5, 0] ∧
    (∃ s' t' g', KnotForm (sc g) (tm g) g (.knotInit 5 0) s' t' g') ∧ (∃ s' t' g', KnotForm (sc g) (tm g) g (.knotExpect 5 0) s' t' g') ∧
    (∃ s' t' g', KnotForm (sc g) { tm g with knots := List.replicate 16 { freshKnot 1 with phase := true } } g (.knotWait 0 0) s' t' g') ∧
    (∃ s' t' g', KnotForm (sc g) (tm g) g (.knotArrive 0) s' t' g') ∧ ((tm g).knot (g.sreg 5).toNat).phase = (g.sreg 0 == 1#64) :=
  ⟨⟨rfl, rfl, rfl⟩, here_of rfl _, ⟨_, _, _, .init 5 0 _ _ (by decide) (by decide) (by decide) (by decide) rfl rfl rfl rfl⟩,
   ⟨_, _, _, .expect 5 0 _ _ (by decide) (by decide) (by decide) rfl rfl⟩, ⟨_, _, _, .wait 0 0 0 (by decide) (by decide) rfl rfl⟩,
   ⟨_, _, _, .arrive 0 _ _ rfl (.inl ⟨rfl, rfl⟩) (by decide) rfl rfl rfl⟩, rfl⟩
/-- A launch record of one group a team. -/
def rec0 : LaunchRec :=
  { lflags := 0, gridx := 2, gridy := 1, gridz := 1, groups := 1, nroles := 1, spare := 0, scratch := 0, nacc := 0, ngrove := 0, pbase := 0,
    argptr := 0, indptr := 0, roles := [(0x10000, 64, 1, 0, 0)], waits := [], signals := [], groves := [], comm := 0, tilebase := 0,
    chunkmap := 0 }
/-- A launch of two teams, with an arrival on its way to team 0. -/
def la0 : Launch :=
  { tenant := 0, queue := 0, seq := 1, prio := 1, order := 1, object := 0, record := rec0, phase := .placing, gx := 2, gy := 1, gz := 1,
    next := 1, passes := 0, keys := [0], exited := [], saved := [], savedParts := [], held := [], arrivals := [(0, 3, 5)], coll := none,
    armed := 0, fault := none, gnan := false, tiled := [], bits := [] }
/-- The state with that launch, whose team 0 is resident. -/
def sl : State := { st { tm gm with launch := some 0 } bareTenant false with launches := [(0, la0)] }

theorem witness_RemoteArrival : sl.launch? 0 = some la0 ∧ la0.arrivals[0]? = some (0, 3, 5) ∧ sl.residentTeam 0 0 = some 0 ∧
    (∃ t t', sl.team? 0 = some t ∧ t.arrive 3 5 true = some t') ∧ ({ sl with teams := [] } : State).residentTeam 0 1 = none ∧ la0.next ≤ 1 ∧
    1 ∉ la0.exited ∧ la0.saved.any (·.2.tid == 0) = false ∧ la0.next > 0 ∧
    (∃ s', ArrivalReaches (sl.updLaunch 0 fun l => { l with arrivals := l.arrivals.eraseIdx 0 }) 0 la0 0 3 5 s') ∧
    (∃ s', ArrivalReaches sl 0 la0 1 3 5 s') ∧ (∃ s', ArrivalReaches { sl with teams := [] } 0 la0 0 3 5 s') :=
  ⟨rfl, rfl, rfl, ⟨_, _, rfl, rfl⟩, rfl, by decide, by decide, rfl, by decide, ⟨_, .taken 0 _ _ rfl rfl rfl⟩,
   ⟨_, .kept rfl (.inr ⟨by decide, by decide⟩)⟩, ⟨_, .gone rfl rfl (.inl (by decide))⟩⟩
/-- The clauses of an arrival: on a knot that awaits none, one, and two with a byte. -/
theorem witness_KnotArrival : let t := { tm gm with knots := [{ freshKnot 1 with pend := 0 }, freshKnot 1, { freshKnot 2 with bytes := 1 }] }
    t.arrive 0 4 true = none ∧ (∃ t', t.arrive 1 4 true = some t' ∧ (t'.knot 1).last = true ∧ (t'.knot 1).phase = true) ∧
    ∃ t', t.arrive 2 4 false = some t' ∧ (t'.knot 2).pend = 1 ∧ (t'.knot 2).phase = false := ⟨rfl, ⟨_, rfl, rfl, rfl⟩, ⟨_, rfl, rfl, rfl⟩⟩

-- R326: mwait arms a watch; a write to the line ends it with status 0, 2^20 cycles with status 1.
def gw : Group := { gm with mwait := some { line := 64, seen := 0, armed := 0, result := none } }
theorem test_mwait_timeout : (match exec (.mwaitTimeout ⟨0, 0⟩) { sc gw with cores := [(0, { cyc := 0x100000, parts := [] })] } with
    | .next s => (s.group? ⟨0, 0⟩).bind fun g => g.mwait.bind (·.result)
    | _ => none) = some 1 := by decide
theorem test_mwait_written : (match exec (.mwaitWritten ⟨0, 0⟩) { sc gw with watch := [(64, 1)] } with
    | .next s => (s.group? ⟨0, 0⟩).bind fun g => g.mwait.bind (·.result)
    | _ => none) = some 0 := by decide
theorem witness_MemoryWait : ScalarReady (sc gm) (tm gm) gm ∧ ScalarsHere gm [6] ∧ gm.mwait = none ∧ (gm.sreg 6).toNat % 8 = 0 ∧
    (sc gm).translate 0 0 gm.mode (gm.sreg 6).toNat 1#4 = .ok 0x2000 ∧ (sc gw).team? 0 = some (tm gw) ∧ (sc gw).group? ⟨0, 0⟩ = some gw ∧
    0 < ({ sc gw with watch := [(64, 1)] } : State).lineWrites 64 := ⟨⟨rfl, rfl, rfl⟩, here_of rfl _, rfl, rfl, rfl, rfl, rfl, by decide⟩

/-- A record in memory. -/
def withMem (s : State) (a : Nat) (bs : List Byte) : State := { s with mem := memSetN s.mem a bs }
/-- An acopy descriptor (R313): 8 bytes from window address 0x3000 to 0x4000, context 0, knot 0, team scope. -/
def copyDesc : List Byte := leBytes 8 0x3000 ++ leBytes 8 0x4000 ++ leBytes 8 8 ++ [0, 0, 0, 0, 0, 0, 0, 1] ++ List.replicate 32 0
theorem record_at {s : State} {t : Team} {g : Group} {a : SReg} {n : Nat} {bs : List Byte} (l : List (Nat × Nat))
    (h1 : (g.sreg a).toNat % n = 0) (h2 : g.noAcquire = true)
    (h3 : s.translateRange t.tenant t.core g.mode (g.sreg a).toNat n 1#4 = .ok (some l)) (h4 : g.bytesFree false (pieceAddrs l) = true)
    (h5 : bs = (pieceAddrs l).map (s.cachedByte (clusterOf t.core))) : RecordAt s t g a n bs := ⟨h1, h2, l, h3, h4, h5⟩
theorem test_acopy_queues : (match exec (.acopy 5 6) (withMem (sc gm) 0x2000 copyDesc) with
    | .next s => (s.team? 0).map fun t => (t.ctxs.map fun c => c.cmds.length, ((s.group? ⟨0, 0⟩).map (·.sreg 5)))
    | _ => none) = some ([1, 0, 0, 0, 0, 0, 0, 0, 0], some 1) := by decide
theorem witness_EngineIssue : ScalarReady (withMem (sc gm) 0x2000 copyDesc) (tm gm) gm ∧ ScalarsHere gm [6] ∧
    engineForm (.acopy 5 6) = some (0, 5, 6) ∧ RecordAt (withMem (sc gm) 0x2000 copyDesc) (tm gm) gm 6 64 copyDesc ∧
    (engineDesc 0 copyDesc).valid = true ∧ (engineDesc 0 copyDesc).scratchFits 0 = true ∧
    rcopyRefusal (some bareTenant) (engineDesc 0 copyDesc) = none ∧ gm.drained = true ∧
    (engineDesc 0 (List.replicate 64 0xFF)).valid = false :=
  ⟨⟨rfl, rfl, rfl⟩, here_of rfl _, rfl, record_at [(0x2000, 64)] rfl rfl rfl rfl (by decide), by decide, by decide, by decide, rfl, by decide⟩

theorem test_cstat_bad : trapAfter (sc gm) (.cstat 5 6) = some .badHandle := by decide
theorem witness_CommunicatorForms : ScalarReady (sc gm) (tm gm) gm ∧ ScalarsHere gm [6] ∧ (sc gm).tenant? 0 = some bareTenant ∧
    RecordAt (sc gm) (tm gm) gm 6 64 (List.replicate 64 0) ∧ (sc gm).postRefusal bareTenant (postDesc (List.replicate 64 0)) = some (-2) ∧
    bareTenant.heldComm (3 * 2 ^ 28 + (gm.sreg 6).toNat / 2 ^ 48) = none :=
  ⟨⟨rfl, rfl, rfl⟩, here_of rfl _, rfl, record_at [(0x2000, 64)] rfl rfl rfl rfl (by decide), by decide, rfl⟩

/-- A partition of the team's core, as the team's first; a DEFINE record for it, of width 0 and no entry limit. -/
def part0 : Partition :=
  { owner := 0, width := 0, gop := 0, evict := false, limit := 8192, entries := [], stamp := 0, fullcnt := 0, ovfcnt := 0, stream := none,
    attached := [], tokens := [], stale := [] }
def tpart (g : Group) : Team := { tm g with parts := [7] }
def spart (g : Group) : State := { st (tpart g) bareTenant false with cores := [(0, { cyc := 0, parts := [(7, part0)] })] }
theorem test_kcfg_define : (match exec (.kcfgDefine 5 6) (withMem (spart gm) 0x2000 (List.replicate 32 0)) with
    | .next s => ((s.core 0).parts.map (fun e => e.2.limit), (s.group? ⟨0, 0⟩).map (·.sreg 5))
    | _ => ([], none)) = ([8192], some 0) := by decide
theorem witness_GroveConfig : ScalarReady (spart gm) (tpart gm) gm ∧ ScalarsHere gm [6] ∧
    RecordAt (spart gm) (tpart gm) gm 6 32 (List.replicate 32 0) ∧ kcfgValid (List.replicate 32 0) = true ∧
    (∃ s' v, KcfgForm (spart gm) (tpart gm) gm (List.replicate 32 0) (.kcfgDefine 5 6) 5 6 s' v) ∧
    (∃ s' v, KcfgForm (spart gm) (tpart gm) gm ([4] ++ List.replicate 31 0) (.kcfgAttach 5 6) 5 6 s' v) :=
  ⟨⟨rfl, rfl, rfl⟩, here_of rfl _, record_at [(0x2000, 32)] rfl rfl rfl rfl (by decide), by decide,
   ⟨_, _, .define 5 6 7 part0 (by decide) ⟨rfl, rfl, rfl, by unfold NoneAtPort; decide⟩ rfl⟩,
   ⟨_, _, .attachNone 5 6 (by decide) (.inl rfl) (by decide) (by unfold NoneAtPort; decide)⟩⟩
theorem witness_GroveDrain : ScalarReady (spart g0) (tpart g0) g0 ∧ ScalarsHere g0 [0] ∧ (g0.sreg 0).toNat < 32 ∧
    PartFree (spart g0) (tpart g0) (g0.sreg 0).toNat 7 part0 ∧ part0.entries = [] :=
  ⟨⟨rfl, rfl, rfl⟩, here_of rfl _, by decide, ⟨rfl, rfl, rfl, by unfold NoneAtPort; decide⟩, rfl⟩

-- R83: bit 5 set by tset with FIRST 5 and COUNT 1; COUNT 0 is SCOREBOARD_RANGE.
theorem test_tset : (match exec (.tset 5) (sc (regs [(5, 0x10005)])) with
    | .next s => (s.tenant? 0).map fun x => (x.board.getLsbD 5, x.board.getLsbD 6)
    | _ => none) = some (true, false) := by decide
theorem test_tset_range : trapAfter (sc (regs [(5, 0x20FFF)])) (.tset 5) = some .scoreboardRange := by decide
theorem witness_ScoreboardForms :
    let g := regs [(5, 0x10FFF), (6, 0x2000)]
    ScalarReady (sc g) (tm g) g ∧ ScalarsHere g [5] ∧ (sc g).tenant? 0 = some bareTenant ∧ (g.sreg 5).extractLsb' 12 4 = 0#4 ∧
    (g.sreg 5).extractLsb' 29 35 = 0#35 ∧ ((g.sreg 5).extractLsb' 0 12).toNat + ((g.sreg 5).extractLsb' 16 13).toNat ≤ 4096 ∧ g.drained = true ∧
    RecordAt (sc g) (tm g) g 6 64 (List.replicate 64 0) ∧ afree bareTenant.armed 256 0 = some 0 :=
  ⟨⟨rfl, rfl, rfl⟩, here_of rfl _, rfl, rfl, rfl, by decide, rfl, record_at [(0x2000, 64)] rfl rfl rfl rfl (by decide), rfl⟩
theorem witness_BoardBits : 4095 + 1 ≤ 4096 := by decide

-- R321: sysc in user mode goes to the supervisor with bits 20 to 0 of sA; hcall there is PRIV_INSTRUCTION; R228: EPC is the next address.
theorem test_sysc_entry : ((after (sc (regs [(5, 0xFFE00003)])) (.scalarSysc 5)).bind fun g => (g.trap.bind (aget g.traps)).map fun fr =>
    (fr.cause, fr.causeWord.toNat / 2 ^ 32, fr.epc, g.mode)) = some (.syscall, 3, 0x10004, .supervisor) := by decide
theorem test_hcall_user : trapAfter (sc g0) (.scalarHcall 5) = some .privInstruction := by decide
theorem test_tret_user : trapAfter (sc g0) .scalarTret = some .privInstruction := by decide
/-- A handler of a SYSCALL, in supervisor mode. -/
def frame0 : TrapFrame :=
  { cause := .syscall, causeWord := causeWord .syscall 5 true .user 0x1FF, epc := 0x10004, badaddr := 0, callmask := 0, frag := none, pmode := .user,
    prop := false, fin := false, fmtr := 0, prev := none }
def gh : Group := { g0 with mode := .supervisor, traps := [(0, frame0)], trap := some 0 }
theorem test_tret : ((after (sc gh) .scalarTret).map fun g => (g.pc, g.mode, g.traps, g.lclock)) = some (0x10004, .user, [], 1) := by decide
theorem witness_ScalarCalls : ScalarReady (sc g0) (tm g0) g0 ∧ ScalarsHere g0 [5] ∧ callForm (.scalarSysc 5) = some (.syscall, 5) ∧
    CallAllowed .syscall g0.mode ∧ (tm g0).halt = none ∧ ¬ CallAllowed .hcall g0.mode ∧
    ScalarReady (st { tm g0 with halt := some { fin := false, teamEnd := false } } bareTenant false) { tm g0 with halt := some { fin := false, teamEnd := false } } g0 :=
  ⟨⟨rfl, rfl, rfl⟩, here_of rfl _, rfl, .inr (.inl ⟨rfl, rfl⟩), rfl,
   (fun h => by rcases h with h | ⟨h, _⟩ | ⟨_, h⟩ <;> cases h), ⟨rfl, rfl, rfl⟩⟩
theorem witness_ScalarTrapEntry : (sc g0).team? 0 = some (tm g0) ∧ (sc g0).group? ⟨0, 0⟩ = some g0 ∧ g0.freeFrame = some 0 ∧
    ({ g0 with traps := [(0, frame0), (1, frame0), (2, frame0), (3, frame0)] } : Group).freeFrame = none := by decide
theorem witness_ScalarReturn : ScalarReady (sc gh) (tm gh) gh ∧ gh.mode ≠ .user ∧ gh.trap = some 0 ∧ aget gh.traps 0 = some frame0 ∧
    frame0.fin = false ∧ frame0.cause ∈ [Cause.syscall, .hcall, .brk, .xlate] ∧ (tm gh).halt = none ∧ g0.mode = .user ∧ ScalarReady (sc g0) (tm g0) g0 :=
  ⟨⟨rfl, rfl, rfl⟩, by decide, rfl, rfl, rfl, by decide, rfl, rfl, ⟨rfl, rfl, rfl⟩⟩

-- R118: TEAM 3 of a grid of 2 by 2 by 1 stands at x = 1, y = 1; its group 1 of 2 has GID 7.
theorem witness_GroupIdentity :
    let t := { tm g0 with tid := 3, gx := 2, gy := 2, gz := 1, ngroups := 2, core := 383 }
    let v (sel : Nat) := (sc g0).sregValue ⟨0, 1⟩ t g0 ⟨.user, 0, none, true⟩ sel
    0 < t.gx ∧ t.gx < 2 ^ 21 ∧ t.tid < t.gx * t.gy * t.gz ∧ v 0 = 7 ∧ v 3 = 672 ∧ v 5 = 47 ∧ v 6 = 3 ∧ v 8 = 0x200001 := by decide

-- R303, R222: PTBASE in user mode is PRIV_OPERAND, an unlisted selector SREG_RANGE, GID is never written.
theorem test_srd_priv : trapAfter (sc (regs [(5, 0x107)])) (.scalarSrd 7 5) = some .privOperand := by decide
theorem test_srd_range : trapAfter (sc (regs [(5, 0x3FFF)])) (.scalarSrd 7 5) = some .sregRange := by decide
theorem test_swr_gid : trapAfter (sc g0) (.scalarSwr 7 0) = some .privOperand := by decide
theorem test_swr_rctr : ((after (sc (regs [(5, 0x012), (7, 0x100000009)])) (.scalarSwr 7 5)).map (·.rctr)) = some 9 := by decide
theorem witness_ScalarSpecialRegisters :
    let g := regs [(5, 0x011), (7, 3)]
    ScalarReady (sc g) (tm g) g ∧ ScalarsHere g [7, 5] ∧ readMode ((g.sreg 5).toNat % 2 ^ 14) = some .user ∧
    writeMode ((g.sreg 5).toNat % 2 ^ 14) = some .user ∧ scalarSwrForm (.scalarSwr 7 5) = some (7, 5) ∧
    ∃ s' t' g', SpecialWrite (sc g) (tm g) g g.mode g.trap (fun f => { g with fmtr := f }) ((g.sreg 5).toNat % 2 ^ 14) (g.sreg 7) s' t' g' :=
  ⟨⟨rfl, rfl, rfl⟩, here_of rfl _, by decide, by decide, rfl, _, _, _, .rseed _⟩
theorem witness_SpecialRegisterPrivilege :
    let g := regs [(5, 0x107), (7, 0x3FFF)]
    ScalarReady (sc g) (tm g) g ∧ ScalarsHere g [7, 5] ∧ readMode ((g.sreg 7).toNat % 2 ^ 14) = none ∧
    readMode ((g.sreg 5).toNat % 2 ^ 14) = some .supervisor ∧ writeMode ((g.sreg 5).toNat % 2 ^ 14) = some .supervisor ∧
    g.mode.code < Mode.supervisor.code ∧ readMode ((g.sreg 0).toNat % 2 ^ 14) ≠ none ∧ writeMode ((g.sreg 0).toNat % 2 ^ 14) = none :=
  ⟨⟨rfl, rfl, rfl⟩, here_of rfl _, by decide, by decide, by decide, by decide, by decide, by decide⟩

-- R290: word 0; a selector of 16 is SREG_RANGE. R120: role 0 goes to its entry.
theorem test_feat : regAfter (sc g0) (.feat 7 0) 7 = some 0x101806004 := by decide
theorem test_feat_range : trapAfter (sc (regs [(5, 16)])) (.feat 7 5) = some .sregRange := by decide
theorem test_role : ((after (sc g0) (.role 0)).map (·.pc)) = some 0x10000#64 := by decide
theorem witness_ScalarSystemForms : ScalarReady (sc g0) (tm g0) g0 ∧ ScalarsHere g0 [0] ∧ (g0.sreg 0).toNat % 2 ^ 14 < 16 ∧ g0.mode = .user ∧
    (∃ x, (tm g0).roles[(g0.sreg 0).toNat]? = some x ∧ x.slots ≤ g0.allot + (tm g0).spareFree ∧ g0.slotsUsed ≤ x.slots) ∧
    g0.quiescent = true ∧ g0.drained = true ∧ 16 ≤ ((regs [(5, 16)]).sreg 5).toNat % 2 ^ 14 :=
  ⟨⟨rfl, rfl, rfl⟩, here_of rfl _, by decide, rfl, ⟨_, rfl, by decide, by decide⟩, rfl, rfl, by decide⟩

theorem test_exit : ((after (sc gm) .exit).map (·.exited)) = some true := by decide
theorem test_exit_supervisor : trapAfter (sc gh) .exit = some .privInstruction := by decide
theorem witness_GroupExit : ScalarReady (sc g0) (tm g0) g0 ∧ LaneIdle g0 ∧ g0.mode = .user ∧ (∀ e ∈ (tm g0).groups, gangSize e.2.gang = 0) ∧
    ScalarReady (sc gl) (tm gl) gl ∧ ¬ LaneIdle gl ∧ gh.mode ≠ .user :=
  ⟨⟨rfl, rfl, rfl⟩, ⟨rfl, rfl⟩, rfl, by decide, ⟨rfl, rfl, rfl⟩, (fun h => nomatch h.1), by decide⟩
theorem witness_BlockStart :
    let g := { g0 with dispatch := [(2, 5)] }
    (sc g).team? 0 = some (tm g) ∧ (sc g).group? ⟨0, 0⟩ = some g ∧ g.frags = [] ∧ g.exited = false ∧ (tm g).ended = false ∧ (tm g).halt = none ∧
    g.dispatch = [(2, 5)] := by decide

/-! ## The lane stream: operands and results -/

/-- A header with guard p0 and a count of one read. -/
def hh : LHdr := { pr := 0, pn := false, wbs := false, cc := 1 }
/-- A lane register that holds a value, without a count. -/
def vr (x : Tag) : LaneReg := { tag := x, cc := 0, spare := false }
/-- The group of one fragment with v1, v2, … holding values. -/
def vs (l : List Tag) : Group := { gl with vregs := (l.zipIdx 1).map fun e => (e.2, vr e.1) }
/-- A lane register after an instruction. -/
def tagAfter (s : State) (i : Instr) (n : Nat) : Option Tag := (after s i).map fun g => (g.vreg n).tag
def laneAfter (s : State) (i : Instr) (n l : Nat) : Option W32 := (tagAfter s i n).map (·.lane l)
/-- The cause of the lane trap an instruction takes. -/
def laneTrap (s : State) (i : Instr) : Option Cause := ((after s i).bind fun g => g.traps.head?).map (·.2.cause)
/-- The fragment of `gl`. -/
def f0 : Fragment := startFragment 0x10000 0

-- R131, R132: uniform plus affine stays affine; a product of two affines does not.
theorem test_iadd_affine : tagAfter (ln (vs [.affine 3 4, .uniform 10])) (.iadd hh 3 (.v 1) (.v 2)) 3 = some (.affine 13 4) := by decide
theorem test_imul_affine_lane : laneAfter (ln (vs [.affine 3 4, .affine 1 1])) (.imul hh 3 (.v 1) (.v 2)) 3 5 = some 138 := by decide
theorem test_isar_amount : tagAfter (ln (vs [.uniform 0x80000000, .uniform 33])) (.isar hh 3 (.v 1) (.v 2)) 3 = some (.uniform 0xC0000000) := by
  decide
-- R342: the bfloat16 of 0x3F808001 truncated and rounded to nearest.
theorem test_cvt_rtz_rne : tagAfter (ln (vs [.uniform 0x3F808001])) (.cvt hh .bf16F32 .rtz 3 (.v 1)) 3 = some (.uniform 0x3F80) ∧
    tagAfter (ln (vs [.uniform 0x3F808001])) (.cvt hh .bf16F32 .rne 3 (.v 1)) 3 = some (.uniform 0x3F81) := by decide
-- R136: a source read once with count 1 is released, and reading it again is a trap.
theorem test_count_released :
    tagAfter (ln { gl with vregs := [(1, { vr (.uniform 5) with cc := 1 })] }) (.mov hh 3 (.v 1)) 1 = some .released ∧
    laneTrap (ln (vs [.released])) (.mov hh 3 (.v 1)) = some .regReleased := by decide

theorem ready_gl (l : List Tag) : LaneReady (ln (vs l)) (tm (vs l)) (vs l) 0 f0 hh := ⟨rfl, rfl, rfl, rfl, rfl, rfl⟩
theorem witness_IntegerResult :
    let g := vs [.affine 3 4, .uniform 10]
    ∃ op g' push, intForm (.iadd hh 3 (.v 1) (.v 2)) = some (hh, 3, [.v 1, .v 2], op) ∧
    Sources (tm g) g 0 f0 [.v 1, .v 2] [.affine 3 4, .uniform 10] ∧ AluEnds (tm g) g 0 f0 hh [.v 1, .v 2] [(3, .affine 13 4)] g' push :=
  ⟨_, _, _, rfl, rfl, _, ⟨by decide, _, rfl, rfl⟩, rfl, rfl⟩
theorem witness_AffineExact (h : LHdr) (d : VReg) (a b : Src) : (∃ op, intForm (.iadd h d a b) = some (h, d, [a, b], op)) ∧
    affineOf (.iadd h d a b) [.affine 3 4, .uniform 10] = some (.affine 13 4) := ⟨⟨_, rfl⟩, rfl⟩
theorem witness_FloatResult :
    let g := vs [.uniform 0x3F808001]
    ∃ op g' push x, floatForm f0 (.cvt hh .bf16F32 .dyn 3 (.v 1)) = some (hh, 3, [.v 1], op) ∧ x = op [0x3F808001] ∧
    Sources (tm g) g 0 f0 [.v 1] [.uniform 0x3F808001] ∧ AluEnds (tm g) g 0 f0 hh [.v 1] [(3, .uniform x)] g' push :=
  ⟨_, _, _, _, rfl, rfl, rfl, _, ⟨by decide, _, rfl, rfl⟩, rfl, rfl⟩
theorem witness_FloatWords : f32.read 0x40490FDB = .fin false 0xC90FDB (-22) ∧ 0x40490FDB < 2 ^ (1 + f32.eb + f32.fb) ∧
    val32 0x7F800001 = .nan ∧ val32 0x7F800000 = .inf false ∧ val32 0x80000000 = .fin true 0 (-149) := by decide
-- R334, R346.
/-- The group with predicates p1 and p2. -/
def gp : Group := { vs [.affine 0 1, .uniform 40] with preds := [(1, 0x7#96), (2, 0#96)] }
theorem test_icmp_ltu : ((after (ln gp) (.icmp hh .ltu 3 (.v 1) (.v 2))).map (·.pred 3)) = some 0xFFFFFFFFFF#96 := by decide
theorem test_vote_any : ((after (ln gp) (.vote hh .any 3 1)).map fun g => (g.pred 3, g.pred 1)) = some (BitVec.allOnes 96, 7#96) := by decide
theorem witness_PredicateResult :
    LaneReady (ln gp) (tm gp) gp 0 f0 hh ∧ (∃ op, predForm (.icmp hh .ltu 3 (.v 1) (.v 2)) = some (hh, 3, [.v 1, .v 2], [], op)) ∧
    Sources (tm gp) gp 0 f0 [.v 1, .v 2] [.affine 0 1, .uniform 40] ∧ (∀ p ∈ [(3 : PReg), 1], gp.predBusy p = false) :=
  ⟨⟨rfl, rfl, rfl, rfl, rfl, rfl⟩, ⟨_, rfl⟩, rfl, by decide⟩
-- R345, R347 to R350.
theorem test_ballot : ((after (ln gp) (.ballot hh 4 1)).map fun g => ((g.vreg 4).tag, (g.vreg 5).tag)) = some (.uniform 7, .uniform 0) := by
  decide
theorem test_xchg_pairs : (laneAfter (ln (vs [.affine 0 1, .uniform 1])) (.xchg hh 3 (.v 1) (.v 2)) 3 6) = some 7 := by decide
theorem test_redux_add : tagAfter (ln (vs [.affine 0 1])) (.redux hh .add 3 (.v 1)) 3 = some (.ofLanes fun _ => 4560) := by decide
theorem test_scan_excl : tagAfter (ln (vs [.uniform 3])) (.scan hh .add true 3 (.v 1)) 3 = some (.affine 0 3) := by decide
theorem witness_CrossResult :
    let g := vs [.affine 0 1, .uniform 1]
    ∃ dests g' push, crossForm g (written g f0 hh) [.affine 0 1, .uniform 1] (.xchg hh 3 (.v 1) (.v 2)) = some (hh, [.v 1, .v 2], dests) ∧
    Sources (tm g) g 0 f0 [.v 1, .v 2] [.affine 0 1, .uniform 1] ∧ g.predBusy (ballotPred (.xchg hh 3 (.v 1) (.v 2))) = false ∧
    AluEnds (tm g) g 0 f0 hh [.v 1, .v 2] dests g' push :=
  ⟨_, _, _, rfl, rfl, rfl, _, ⟨by decide, _, rfl, rfl⟩, rfl, rfl⟩
theorem test_reduxLq : ((after (ln (vs [.affine 0 1])) (.reduxLq hh .maxu (.v 1))).map (·.lq)) = some [95] := by decide
theorem witness_QueueResult :
    let g := vs [.affine 0 1]
    LaneReady (ln g) (tm g) g 0 f0 hh ∧ g.predBusy 15 = false ∧ g.lq.length + 2 ≤ 16 ∧ Sources (tm g) g 0 f0 [.v 1] [.affine 0 1] :=
  ⟨⟨rfl, rfl, rfl, rfl, rfl, rfl⟩, by decide, by decide, rfl⟩
theorem witness_LaneAluFrame :
    let g := vs [.uniform 5]
    ∃ g', AluEnds (tm g) g 0 f0 hh [.v 1] [(3, .uniform 5)] g' (some (.uniform 5)) ∧ (3 : VReg) ∈ [((3 : VReg), Tag.uniform 5)].map (·.1) ∧
    g.proposal = false ∧ written g f0 hh ≠ 0#96 ∧ (2 : VReg) ∉ [(3 : VReg)] ∧ Src.v 2 ∉ [Src.v 1] :=
  ⟨_, ⟨_, ⟨by decide, _, rfl, rfl⟩, rfl, rfl⟩, by decide, rfl, by decide, by decide, by decide⟩

/-! ## Control of fragments, and lane memory -/

/-- The frame of a mark at 0x10000 over all lanes, whose join stands at 0x1000C. -/
def fr0 : Frame := { rejoin := 0x1000C, mask := allLanes, span := allLanes, fmtr := 0, link := none }
/-- Two fragments with half the lanes each, at the join of one frame; `w` says whether the other waits there. -/
def half (m : LaneMask) (w : FragWait) : Fragment := { f0 with pc := 0x1000C, mask := m, span := m, frame := some 0, wait := w }
def g2 (w : FragWait) : Group :=
  { gl with frames := [(0, fr0)], frags := [(0, half 0xFFFFFFFFFFFF#96 .none), (1, half (0xFFFFFFFFFFFF#96 <<< 48) w)] }
/-- Eight fragments, so that none is free. -/
def g8 : Group := { gl with preds := [(1, 7#96)], frags := (List.range 8).map fun k => (k, f0) }
/-- Sixteen frames, so that none is free. -/
def g16 : Group := { gl with frames := (List.range 16).map fun k => (k, fr0), frags := [(0, { f0 with frame := some 0 })] }

-- R126, R385: a divided branch makes a second fragment. R128: the join of both halves makes one. R127: mark takes the lowest frame.
theorem test_lbr_split : ((after (ln gp) (.lbr hh false 1 4)).map fun g => g.frags.map fun e => (e.1, e.2.pc, e.2.mask)) =
    some [(0, 0x1000C, allLanes &&& ~~~7#96), (1, 0x10030, 7#96)] := by decide
theorem test_lbr_whole : ((after (ln gl) (.lbr hh false 0 (-1))).map fun g => g.frags.map (·.2.pc)) = some [0xFFF4] := by decide
theorem test_join_merges : ((after (ln (g2 .join)) .join).map fun g => (g.frags.map fun e => (e.1, e.2.pc, e.2.mask), g.frames)) =
    some ([(0, 0x10018, allLanes)], []) := by decide
theorem test_join_waits : ((after (ln (g2 .none)) .join).map fun g => g.frags.map (·.2.wait)) = some [.join, .none] := by decide
theorem test_lend : ((after (ln gl) .lend).map (·.frags)) = some [] := by decide
theorem test_lend_unbalanced : laneTrap (ln g16) .lend = some .lendUnbalanced := by decide
theorem test_mkwr_span : ((after (ln (vs [.uniform 5])) (.mkwr 1 (.v 1))).map fun g => g.frags.map (·.2.mask)) =
    some [0xFFFFFFFF00000005FFFFFFFF#96] := by decide

theorem witness_ControlForms :
    LaneReady (ln gp) (tm gp) gp 0 f0 hh ∧ ControlForm (tm gp) gp 0 f0 (.lbr hh true 0 1) hh { gp.advance 0 with running := some 0 } ∧
    (∃ g', ControlForm (tm gp) gp 0 f0 (.lbr hh false 0 1) hh g') ∧ (∃ g', ControlForm (tm gp) gp 0 f0 (.lbr hh false 1 1) hh g') ∧
    (∃ g', ControlForm (tm gp) gp 0 f0 (.mark 1) noGuard g') ∧
    (∃ g', ControlForm (tm (g2 .join)) (g2 .join) 0 (half 0xFFFFFFFFFFFF#96 .none) .join noGuard g') ∧
    (∃ g', ControlForm (tm gp) gp 0 f0 .lend noGuard g') ∧ (∃ g', ControlForm (tm gp) gp 0 f0 (.lfmt 0xC088) noGuard g') ∧
    (∃ g', ControlForm (tm gp) gp 0 f0 (.mkrd 1 2 3) noGuard g') ∧ ∃ g', ControlForm (tm gp) gp 0 f0 (.mkwr 2 (.v 2)) noGuard g' :=
  ⟨⟨rfl, rfl, rfl, rfl, rfl, rfl⟩, .pass _ _ _ _ (by decide) (by decide), ⟨_, .branch _ _ _ _ (by decide) (by decide) (by decide)⟩,
   ⟨_, .split _ _ _ _ 1 0 3 _ (by decide) rfl (by decide) (by decide) (by decide) (by decide) (by decide)⟩, ⟨_, .mark _ 0 (by decide)⟩,
   ⟨_, .join 0 fr0 (by decide) (by decide) (by decide)⟩, ⟨_, .lend (by decide) (by decide)⟩,
   ⟨_, .format _ ⟨by decide, by decide, by decide, by decide⟩⟩, ⟨_, .maskRead 1 2 3 _ ⟨by decide, _, rfl, rfl⟩⟩,
   ⟨_, .maskWrite 2 (.v 2) 40 rfl⟩⟩
theorem witness_JoinMerge :
    let g := { g2 .join with frags := aupd (g2 .join).frags 0 fun f => { f with wait := .join } }
    keysRise g.frags = true ∧ (g.frags.map fun e => (e.2.frame, e.2.wait)) = [(some 0, .join), (some 0, .join)] ∧
    (g.frags.map (·.2.span)).foldl (· ||| ·) 0#96 = fr0.mask ∧ ((g2 .none).frags.map (·.2.wait)) = [.none, .none] := by decide
theorem witness_ControlTraps :
    LaneReady (ln g8) (tm g8) g8 0 f0 hh ∧ taken g8 f0 hh false 1 ≠ 0#96 ∧ taken g8 f0 hh false 1 ≠ f0.mask ∧ afree g8.frags 8 0 = none ∧
    LaneReady (ln g16) (tm g16) g16 0 { f0 with frame := some 0 } hh ∧ afree g16.frames 16 0 = none ∧ fr0.rejoin ≠ f0.pc ∧
    ¬ FormatOk (zext64 (9 : W16)) ∧ Sources (tm gp) gp 0 f0 [.v 1] [.affine 0 1] :=
  ⟨⟨rfl, rfl, rfl, rfl, rfl, rfl⟩, by decide, by decide, by decide, ⟨rfl, rfl, rfl, rfl, rfl, rfl⟩, by decide, by decide,
   (fun h => absurd h.1 (by decide)), rfl⟩

/-- The modifiers of a plain access of the group. -/
def mm : MemMod := { scope := .grp, order := .plain, promote := false, ord := false }
/-- v1: addresses 0x2000, 0x2010, …; v2 and v3: data. -/
def gd : Group := vs [.affine 0x2000 16, .affine 7 1, .uniform 9]
/-- A fragment with lanes 0 and 2 alone, for witnesses with few lanes. -/
def f2 : Fragment := { f0 with mask := 5, span := 5 }
def gd2 : Group := { gd with frags := [(0, f2)] }
theorem aligned_of {g : Group} {f : Fragment} {h : LHdr} {addr : Nat → W64} {n : Nat}
    (e : ((lanesIn (written g f h)).all fun l => (addr l).toNat % n == 0) = true) : Aligned g f h addr n := by
  simpa [Aligned] using e

-- R354, R358: a store to scratch and a load from it, performed; R360: atomics on one word, lanes ascending.
/-- The first access of the group, performed. -/
def performed (s : State) (i : Instr) (store : Bool) : Option State :=
  match exec i s with
  | .next s1 => match exec (if store then .storePerformed ⟨0, 0⟩ 0 else .memoryAccessReturn ⟨0, 0⟩ 0) s1 with
    | .next s2 => some s2
    | _ => none
  | _ => none
/-- The state whose fragment has lanes 0 and 2. -/
def l2 : State := ln gd2
theorem test_laneSt : ((performed l2 (.laneSt hh { mm with scope := .dev } false .b32 (.v 1) (.v 2) 4) true).map fun s =>
    (memGet s.mem 0x2004, memGet s.mem 0x2014, memGet s.mem 0x2024)) = some (7, 0, 9) := by decide
theorem test_laneLd_sign : ((performed (withMem l2 0x2000 [0x80]) (.laneLd hh { mm with scope := .dev } false .s8 4 (.v 1) 0) false).bind
    fun s => ((s.group? ⟨0, 0⟩).map fun g => ((g.vreg 4).tag.lane 0, (g.vreg 4).tag.lane 2))) = some (0xFFFFFF80, 0) := by decide
theorem test_atom_same_word : ((performed (ln { gd2 with vregs := [(1, vr (.uniform 0x2000)), (2, vr (.affine 7 1))] })
    (.atom hh mm false true false .add 4 (.v 1) (.v 2) (.v 2) 0) false).map fun s =>
    (memGetN s.mem 0x2000 2, (s.group? ⟨0, 0⟩).map fun g => ((g.vreg 4).tag.lane 0, (g.vreg 4).tag.lane 2))) = some ([16, 0], some (0, 7)) := by
  decide
theorem test_laneLd_misaligned : laneTrap (ln gd) (.laneLd hh mm false .b32 4 (.v 1) 2) = some .misaligned := by decide

theorem witness_MemoryForms :
    LaneReady l2 (tm gd2) gd2 0 f2 hh ∧
    (∃ d n a g', MemForm l2 (tm gd2) gd2 0 f2 (.laneLd hh mm false .b128 4 (.v 1) 0) hh l2 d n a ∧ (∀ p, a.path = some p → gd2.inflight p < 255) ∧
      Writes (tm gd2) gd2 0 f2 (written gd2 f2 hh) hh.cc.toNat n d g') ∧
    (∃ d n a, MemForm l2 (tm gd2) gd2 0 f2 (.laneSt hh mm false .b32 (.v 1) (.v 2) 4) hh l2 d n a) ∧
    (∃ d n a, MemForm l2 (tm gd2) gd2 0 f2 (.sts hh mm .b64 (.v 1) (.v 2) 8) hh l2 d n a) ∧
    (∃ d n a, MemForm l2 (tm gd2) gd2 0 f2 (.atom hh mm false true false .cas 4 (.v 1) (.v 2) (.v 3) 0) hh l2 d n a) ∧
    (∃ d n a, MemForm l2 (tm gd2) gd2 0 f2 (.smaxpk hh mm false true 4 (.v 1) (.v 2) (.v 3) 0) hh l2 d n a) ∧
    (∃ d n a, MemForm l2 (tm gd2) gd2 0 f2 (.pld hh mm false true 3 (.v 1) 1) hh l2 d n a) :=
  ⟨⟨rfl, rfl, rfl, rfl, rfl, rfl⟩,
   ⟨_, _, _, _, .ld _ _ _ _ _ _ _ _ _ [(0, 0x2000), (2, 0x2020)] ⟨_, rfl, rfl, .inl ⟨rfl, rfl⟩⟩ (aligned_of (by decide)) ⟨by decide, by decide⟩
      (by unfold marked; decide), (by decide), ⟨by decide, _, rfl, rfl⟩⟩,
   ⟨_, _, _, .st _ _ _ _ _ _ _ _ _ [(0, 0x2004), (2, 0x2024)] [.affine 7 1] ⟨_, rfl, rfl, .inl ⟨rfl, rfl⟩⟩ rfl (aligned_of (by decide))
      ⟨by decide, by decide⟩ (by unfold marked; decide)⟩,
   ⟨_, _, _, .sts _ _ _ _ _ _ _ _ [.affine 7 1, .uniform 9] ⟨_, rfl, rfl, rfl⟩ rfl (aligned_of (by decide))⟩,
   ⟨_, _, _, .atom _ _ _ _ _ _ _ _ _ _ _ _ _ [(0, 0x2000), (2, 0x2020)] [.affine 7 1] [.uniform 9] ⟨_, rfl, rfl, .inl ⟨rfl, rfl⟩⟩ rfl rfl
      (.inr fun n h => nomatch h) (aligned_of (by decide)) ⟨by decide, by decide⟩ (.inl rfl)⟩,
   ⟨_, _, _, .smaxpk _ _ _ _ _ _ _ _ _ _ _ [(0, 0x2000), (2, 0x2020)] (.affine 7 1) (.uniform 9) _ ⟨_, rfl, rfl, .inl ⟨rfl, rfl⟩⟩ rfl
      (aligned_of (by decide)) ⟨by decide, by decide⟩ (.inl rfl) (by rw [if_neg (by decide)])⟩,
   ⟨_, _, _, .pldEach _ _ _ _ _ _ _ _ [(0, 0x2001), (2, 0x2021)] ⟨_, rfl, rfl, .inl ⟨rfl, rfl⟩⟩ (by decide) ⟨by decide, by decide⟩
      (by unfold marked; decide)⟩⟩
theorem witness_LaneFence : LaneReady (ln gl) (tm gl) gl 0 f0 noGuard ∧ gl.drained = true := ⟨⟨rfl, rfl, rfl, rfl, rfl, rfl⟩, rfl⟩

-- The statements about what a performed access does, and about traps, have no other premises.
theorem witness_LaneAccessTraps :
    LaneReady (ln gd) (tm gd) gd 0 f0 hh ∧ Sources (tm gd) gd 0 f0 [] [] ∧ gd.predBusy 0 = false ∧
    deviceForm (.laneLd hh mm false .b32 4 (.v 1) 2) = some (hh, false, .v 1, 2, 1#4, 4) ∧
    (∃ addr u, DeviceAddr (tm gd) gd 0 f0 false (.v 1) 2 addr u ∧ (addr 0).toNat % 4 ≠ 0) ∧
    (∃ addr u, DeviceAddr (tm gd) gd 0 f0 false (.v 1) 0xFE000 addr u ∧
      ∃ r b, (ln gd).translate 0 0 .user (addr 0).toNat 1#4 = .fail r b) ∧
    (∃ addr u, ScratchAddr (tm gd) gd 0 f0 (.v 1) 2 addr u ∧ (addr 0).toNat % 4 ≠ 0) ∧
    scopedAtomic (.atom hh { mm with scope := .clu } false true false .add 4 (.v 1) (.v 2) (.v 2) 0) = some .clu :=
  ⟨⟨rfl, rfl, rfl, rfl, rfl, rfl⟩, rfl, by decide, rfl, ⟨_, _, ⟨_, rfl, rfl, .inl ⟨rfl, rfl⟩⟩, by decide⟩,
   ⟨_, _, ⟨_, rfl, rfl, .inl ⟨rfl, rfl⟩⟩, _, _, rfl⟩, ⟨_, _, ⟨_, rfl, rfl, rfl⟩, by decide⟩, rfl⟩
/-- A load of two lanes and a store of one, issued. -/
def aLd : Access := { newAccess (.load .b32 4 false) with active := 5, items := [⟨0, 0x2000, true, 4, [], []⟩, ⟨2, 0x2020, true, 4, [], []⟩] }
def aSt : Access := { newAccess .store with active := 1, items := [⟨0, 0x2000, true, 4, [1, 2, 3, 4], []⟩] }
def ga (a : Access) : Group := { gd2 with accesses := [a], nextId := 1 }
theorem witness_MemoryEvents : (ln (ga aLd)).group? ⟨0, 0⟩ = some (ga aLd) ∧ (ga aLd).ready 0 = some aLd ∧ aLd.returns = true ∧
    (ga aSt).ready 0 = some aSt ∧ aSt.stores = true ∧ (ga aSt).ready 1 = none := by decide
theorem witness_LoadPerformed : (ln (ga aLd)).team? 0 = some (tm (ga aLd)) ∧ UniformParts aLd ∧ aLd.order = .plain ∧ aLd.shadow = false ∧
    (ln (ga aLd)).mem.wf = true ∧ keysRise ((ln (ga aLd)).cluster 0).dirty = true :=
  ⟨rfl, ⟨by decide, by decide, .inr (by decide)⟩, rfl, rfl, by decide, by decide⟩
theorem witness_LoadWords : [(0x80 : Byte)].length = ldBytes .s8 ∧ (List.replicate 16 (1 : Byte)).length = ldBytes .b128 ∧ 3 < ldCount .b128 := by
  decide
theorem witness_StorePerformed : (ln (ga aSt)).team? 0 = some (tm (ga aSt)) ∧ UniformParts aSt ∧ (∀ i ∈ aSt.items, i.data.length = i.size) ∧
    (tm (ga aSt)).scratch.wf = true ∧ (∀ i ∈ aSt.items, i.live = true) :=
  ⟨rfl, ⟨by decide, by decide, .inr (by decide)⟩, by decide, by decide, by decide⟩
theorem witness_AtomicAddSums : State.reset.mem.wf = true ∧
    ∀ i ∈ [(⟨0, 0x2000, true, 4, [1, 0, 0, 0], []⟩ : LaneAcc), ⟨1, 0x2000, true, 4, [255, 255, 255, 255], []⟩], i.addr = 0x2000 ∧ i.size = 4 := by
  decide

/-! ## The Grove, proposals and draws -/

/-- The partition adds integers of 32 bits (GOP 0) in a payload of 8 bytes; fragment 0 has lanes 0 and 2. -/
def lpart (q : Partition) (g : Group) : State := { st (tpart g) bareTenant true with cores := [(0, { cyc := 0, parts := [(7, q)] })] }
/-- A partition with an entry for key 9 in its place, and one of limit 1 that holds no other and has no stream. -/
def part1 : Partition := (part0.applyKey 0 9 (leBytes 4 5)).1
def part2 : Partition := { part1 with limit := 1 }
/-- v1: keys 9 and 11 in lanes 0 and 2; v2: the value 3 in each. -/
def gk : Group := { vs [.affine 9 1, .uniform 3] with frags := [(0, f2)] }
/-- What stands under a key in the first partition of the core. -/
def underKey (s : State) (i : Instr) (k : W64) : Option (Bool × List Byte) :=
  match exec i s with
  | .next s' => (aget (s'.core 0).parts 7).map fun q => q.look 0 k
  | _ => none
-- R183, R184: a hit combines, a miss enters its partial. R185: a miss at the limit without a stream is GROVE_NOSTREAM.
theorem test_kacc : underKey (lpart part1 gk) (.kacc hh 0 0 false false (.v 1) (.v 2)) 9 = some (true, leBytes 4 8) ∧
    underKey (lpart part1 gk) (.kacc hh 0 0 false false (.v 1) (.v 2)) 11 = some (true, leBytes 4 3) := by decide
theorem test_kacc_nostream : laneTrap (lpart part2 gk) (.kacc hh 0 0 false false (.v 1) (.v 2)) = some .groveNostream := by decide
theorem test_kclr : underKey (lpart part1 gk) (.kclr hh 0 false (.v 1)) 9 = some (false, leBytes 4 0) := by decide
theorem test_kacc_partition : laneTrap (lpart part1 gk) (.kacc hh 1 0 false false (.v 1) (.v 2)) = some .grovePartition := by decide
theorem test_klook_field : laneTrap (lpart part1 gk) (.klook hh 0 2 false 4 (.v 1) 3) = some .groveField := by decide
theorem test_kread_index : laneTrap (lpart part1 { gk with vregs := [(1, vr (.uniform 8192))] }) (.kread hh 0 0 4 (.v 1) 3) = some .groveIndex := by
  decide

theorem witness_GroveAccumulate :
    LaneReady (lpart part2 gk) (tpart gk) gk 0 f2 hh ∧ PortFree (lpart part2 gk) (tpart gk) 0 7 part2 ∧
    Sources (tpart gk) gk 0 f2 (groupOf (.v 1) (sized false)) [.affine 9 1] ∧ Sources (tpart gk) gk 0 f2 (valueRegs 0 false (.v 2)) [.uniform 3] ∧
    part2.hasField 0 = true ∧ part2.attached = [] ∧ part2.stream = none ∧
    ((part1.applyAll 0 (grovePartials 0 [(9, 3), (11, 3)])).2 = [] ∧ (part2.applyAll 0 (grovePartials 0 [(9, 3), (11, 3)])).2 ≠ []) :=
  ⟨⟨rfl, rfl, rfl, rfl, rfl, rfl⟩, ⟨⟨rfl, rfl⟩, (fun _ h => nomatch h)⟩, rfl, rfl, by decide, rfl, rfl, by decide⟩
theorem test_partials : grovePartials 0 [(9, 1), (4, 2), (9, 5)] = [(9, leBytes 4 6), (4, leBytes 4 2)] := by decide
theorem witness_GroveEntryRules : Partition.Sound part1 ∧ part1.hasField 0 = true ∧ (leBytes 4 3).length = fieldBytes part1.gop ∧
    (part1.find 9).isSome = true ∧ part1.find 11 = none ∧ part2.limit ≤ part2.entries.length ∧ part2.evict = false := by
  refine ⟨⟨by decide, by decide, by decide, by decide, ?_, ?_⟩, by decide, by decide, by decide, by decide, by decide, by decide⟩
  · intro i e h
    obtain ⟨n, d, hp⟩ : ∃ n d, part1.entries = [(n, d)] := ⟨_, _, rfl⟩
    rw [hp] at h
    simp only [aget] at h
    split at h
    · cases h; cases hp; subst_vars; decide
    · cases h
  · intro i j e d h1 h2 _
    obtain ⟨n, d', hp⟩ : ∃ n d, part1.entries = [(n, d)] := ⟨_, _, rfl⟩
    rw [hp] at h1 h2
    simp only [aget] at h1 h2
    split at h1 <;> split at h2 <;> simp_all
theorem witness_GroveReads :
    (∃ g', GroveRead (tpart gk) gk 0 f2 part1 (.klook hh 0 0 false 4 (.v 1) 3) 0 hh g') ∧
    (∃ g', GroveRead (tpart gk) gk 0 f2 part1 (.klookLq hh 0 0 false (.v 2) 3) 0 hh g') ∧
    (∃ g', GroveRead (tpart gk) gk 0 f2 part1 (.kread hh 0 0 4 (.v 1) 3) 0 hh g') ∧ gk.inflight .kv < 255 ∧
    PortFree (lpart part1 gk) (tpart gk) 0 7 part1 :=
  ⟨⟨_, .look _ _ _ _ _ _ _ [.affine 9 1] _ (by decide) rfl (by decide) (by decide) ⟨by decide, _, rfl, rfl⟩⟩,
   ⟨_, .lookQueue _ _ _ _ _ _ [.uniform 3] _ rfl (by decide) (by decide) (by decide) (by decide) (by decide) rfl⟩,
   ⟨_, .read _ _ _ _ _ _ (.affine 9 1) _ rfl (by decide) (by decide) (by decide) ⟨by decide, _, rfl, rfl⟩⟩, by decide, ⟨⟨rfl, rfl⟩, (fun _ h => nomatch h)⟩⟩
theorem witness_GroveTraps :
    groveForm 0 (.klook hh 0 2 false 4 (.v 1) 3) = some (hh, 0, some 2, [.v 1]) ∧ part1.hasField 2 = false ∧
    valueGroup 4 (klookCount part1.gop) = true ∧ valueGroup 1023 2 = false ∧ Sources (tpart gk) gk 0 f2 [.v 1] [.affine 9 1] ∧
    0 ∈ lanesIn (written gk f2 hh) ∧ (if (1 : BitVec 5).toNat < 24 then (tpart gk).parts[1]? else none) = none :=
  ⟨rfl, by decide, by decide, by decide, rfl, by decide, by decide⟩

/-- A team with the proposal window from v32 on, and a group with an open proposal that has written v40 in lane 0. -/
def tw (g : Group) : Team := { tm g with pbase := 32 }
def lw (g : Group) : State := st (tw g) bareTenant true
def gw0 : Group := { gk with vregs := [(1, vr (.uniform 0x3F800000)), (40, vr (.uniform 6))], proposal := true,
                             shadows := [(40, { words := List.replicate 96 8, written := 1 })] }
-- R372: a value of 1.0 accepts in every lane of W, since the logarithm of a draw is below 0; the shadow is taken where it was written.
theorem test_accept : ((after (lw gw0) (.accept hh 3 (.v 1))).map fun g =>
    ((g.vreg 40).tag.lane 0, (g.vreg 40).tag.lane 2, g.pred 3, g.proposal)) = some (8, 6, 5#96, false) ∧
    ((after (lw gw0) (.accept hh 3 (.v 1))).map fun g => (g.pprop, g.pacc, g.rctr)) = some (2, 2, 1) := by decide
theorem test_pabort : ((after (lw gw0) .pabort).map fun g => ((g.vreg 40).tag.lane 0, g.shadows, g.proposal)) = some (6, [], false) := by decide
theorem test_propose_nested : laneTrap (lw gw0) .propose = some .proposalNested := by decide
theorem test_propose_none : laneTrap (ln gl) .propose = some .proposalNone := by decide
theorem witness_ProposalOpens : LaneReady (lw gw0) (tw gw0) gw0 0 f2 noGuard ∧ f2.mode = .user ∧ (tw gw0).pbase ≠ 0xFFFF ∧ gw0.proposal = true ∧
    WindowQuiet (tw gw0) gw0 ∧ gk.proposal = false ∧ WindowQuiet (tw gk) gk ∧ (tm gk).pbase = 0xFFFF ∧
    LaneReady (ln { gk with frags := [(0, { f2 with mode := .supervisor })] }) (tm { gk with frags := [(0, { f2 with mode := .supervisor })] })
      { gk with frags := [(0, { f2 with mode := .supervisor })] } 0 { f2 with mode := .supervisor } noGuard :=
  ⟨⟨rfl, rfl, rfl, rfl, rfl, rfl⟩, rfl, by decide, rfl, (fun _ h => nomatch h), rfl, (fun _ h => nomatch h), rfl, ⟨rfl, rfl, rfl, rfl, rfl, rfl⟩⟩
theorem witness_ProposalAccepts : LaneReady (lw gw0) (tw gw0) gw0 0 f2 hh ∧ Sources (tw gw0) gw0 0 f2 [.v 1] [.uniform 0x3F800000] ∧
    gw0.predBusy 3 = false ∧ keysRise gw0.shadows = true := ⟨⟨rfl, rfl, rfl, rfl, rfl, rfl⟩, rfl, by decide, by decide⟩
theorem witness_DrawForms : LaneReady (ln gk) (tm gk) gk 0 f2 hh ∧ f2.mode = .user ∧ gk.proposal = false ∧
    ∃ g', Writes (tm gk) gk 0 f2 (written gk f2 hh) 1 [] [(4, Tag.ofLanes fun l => drawOf (tm gk) gk ⟨0, 0⟩ l)] g' :=
  ⟨⟨rfl, rfl, rfl, rfl, rfl, rfl⟩, rfl, rfl, _, by decide, _, rfl, rfl⟩

/-! ## Matrices, and the lane's system forms -/

/-- Two planes on each side, the integer kind. v2 and v3: the address 0x2000; v8 to v13: B. -/
def fx : Fragment := { f2 with fmtr := 0x822 }
def gx (gang : W64) : Group :=
  { gl with gang := gang, frags := [(0, fx)],
            vregs := [(2, vr (.uniform 0x2000)), (3, vr (.uniform 0))] ++ (List.range 6).map fun k => (8 + k, vr (.uniform 0xFF)) }
/-- An accumulator with 7 in row 0, column 2. -/
def acc0 : Acc := { freshAcc.setWord 0 2 7 with version := 3 }
def tx (g : Group) : Team := { tm g with accs := [acc0] }
def lx (g : Group) : State := st (tx g) bareTenant true
/-- The A tile's addresses: rows of 96 bytes, of which the parts of each 32. -/
def tileRows : List (List (List Nat)) :=
  (List.range 64).map fun r => (rowParts 0x822).map fun p => pieceAddrs [(0x2000 + 96 * r + p.1, p.2)]
theorem ok_of {α β : Type} {x : Except α β} {y : β} (h : x.toOption = some y) : x = .ok y := by
  cases x <;> simp_all [Except.toOption]
theorem tile_at : TileAt (lx (gx 0)) (tx (gx 0)) fx (0#32 ++ 0x2000#32) (tileRows.map List.flatten).flatten := by
  have h1 : ∀ r < 64, ∀ p ∈ rowParts 0x822, ((0#32 ++ 0x2000#32 : W64) + BitVec.ofNat 64 (96 * r)).toNat + p.1 + p.2 ≤ 2 ^ 48 := by decide
  have h2 : ∀ r < 64, (tileRows.getD r []).length = (rowParts 0x822).length := by decide
  have h3 : ((List.range 64).all fun r => (List.range 3).all fun j => decide (((lx (gx 0)).translateRange 0 0 .user
      (((0#32 ++ 0x2000#32 : W64) + BitVec.ofNat 64 (96 * r)).toNat + ((rowParts 0x822).getD j (0, 0)).1)
      ((rowParts 0x822).getD j (0, 0)).2 1#4).toOption = some (some [(0x2000 + 96 * r + ((rowParts 0x822).getD j (0, 0)).1, 8)]))) = true := by
    decide
  have h4 : ∀ r < 64, ∀ j < (rowParts 0x822).length,
      (tileRows.getD r []).getD j [] = pieceAddrs [(0x2000 + 96 * r + ((rowParts 0x822).getD j (0, 0)).1, 8)] := by decide
  exact ⟨tileRows, rfl, by decide, fun r hr => ⟨fun _ => h1 r hr, h2 r hr, fun j hj => ⟨_, ok_of (of_decide_eq_true (List.all_eq_true.mp (List.all_eq_true.mp h3 r (List.mem_range.mpr hr)) j (List.mem_range.mpr hj))), h4 r hr j hj⟩⟩⟩
-- R379, R380: the formats and the registers of an mma.
theorem test_mma_acc : laneTrap (lx (gx 0)) (.mma hh 2 8 1) = some .accRange := by decide
theorem test_mma_regs : laneTrap (lx (gx 0)) (.mma hh 2 1019 0) = some .illegalOperand := by decide
-- R259: 96 products of -1 in NP2 (code 0xFF reads as -1) and 1, and the clamp.
theorem test_mma_clamp : mmaInt 0x80000001 (-1) = (0x80000001#32, true) ∧ mmaInt 5 (-7) = (0xFFFFFFFE#32, false) := by decide
theorem witness_MmaIssue :
    LaneReady (lx (gx 0)) (tx (gx 0)) (gx 0) 0 fx hh ∧ (0 : BitVec 4).toNat < (tx (gx 0)).accs.length ∧ mmaLegal fx.fmtr = true ∧
    (8 : BitVec 11).toNat + mmaRegs fx.fmtr ≤ 1024 ∧ gangSize (gx 0).gang = 0 ∧
    Sources (tx (gx 0)) (gx 0) 0 fx (groupOf (.v 2) 2) [.uniform 0x2000, .uniform 0] ∧
    Sources (tx (gx 0)) (gx 0) 0 fx ((regsFrom ((8 : BitVec 11).setWidth 10) (mmaRegs fx.fmtr)).map .v) (List.replicate 6 (.uniform 0xFF)) ∧
    TileAt (lx (gx 0)) (tx (gx 0)) fx (0#32 ++ 0x2000#32) (tileRows.map List.flatten).flatten ∧ (gx 0).noAcquire = true ∧
    (gx 0).bytesFree false (tileRows.map List.flatten).flatten = true :=
  ⟨⟨rfl, rfl, rfl, rfl, rfl, rfl⟩, by decide, by decide, by decide, by decide, rfl, rfl, tile_at, by decide, rfl⟩

/-- Gang 0 of groups 0 and 1: GSIZE 1, GINDEX 0 and 1; `w` says whether their mma wait at the rendezvous. -/
def gmem (n : Nat) (w : Bool) : Group :=
  { gx (0x10 + 4 * BitVec.ofNat 64 n) with
      slot := n, frags := [(0, { fx with wait := if w then .rendezvous else .none })],
      waiting := if w then [(0, (.mma hh 2 8 0, []))] else [] }
def tgang (w : Bool) : Team := { tx (gmem 0 w) with ngroups := 2, groups := [(0, gmem 0 w), (1, gmem 1 w)], latches := if w then [(0, [(0, 0, 0x10000), (1, 0, 0x10000)])] else [] }
def sgang (w : Bool) : State := st (tgang w) bareTenant true
theorem witness_GangWaits : LaneReady (sgang false) (tgang false) (gmem 0 false) 0 fx hh ∧ gangSize (gmem 0 false).gang ≠ 0 ∧
    (∀ n < 4, (tgang false).gangStranded n = false) ∧ keysRise (tgang false).groups = true :=
  ⟨⟨rfl, rfl, rfl, rfl, rfl, rfl⟩, by decide, by decide, by decide⟩
theorem witness_MmaTraps : LaneReady (lx (gx 0)) (tx (gx 0)) (gx 0) 0 fx hh ∧ (tx (gx 0)).accs.length ≤ (1 : BitVec 4).toNat ∧
    (0 : BitVec 4).toNat < (tx (gx 0)).accs.length ∧ mmaLegal 0x812 = false ∧ mmaLegal fx.fmtr = true ∧
    1024 < (1019 : BitVec 11).toNat + mmaRegs fx.fmtr := ⟨⟨rfl, rfl, rfl, rfl, rfl, rfl⟩, by decide, by decide, by decide, by decide, by decide⟩
theorem witness_MmaInteger : fmtrAcck 0x822 = true := by decide
/-- An mma of lane 0, issued without an A tile. -/
def aMma : Access := { newAccess (.mma 0 0x822 [(0, List.replicate 6 0xFF)] none) with active := 1, items := [⟨0, 0, false, 0, List.replicate 1536 0x0F, []⟩] }
def gmma : Group := { gx 0 with accesses := [aMma], nextId := 1 }
theorem witness_MmaUpdates : (lx gmma).group? ⟨0, 0⟩ = some gmma ∧ gmma.ready 0 = some aMma ∧ (tx gmma).accs[0]? = some acc0 ∧
    (([(0, List.replicate 6 0xFF)] : List (Nat × List W32)).map (·.1)).Nodup ∧ keysRise acc0.words = true :=
  ⟨rfl, rfl, rfl, by decide, by decide⟩
-- R383: a row of the accumulator and its SAT; R384: accst stores the rows.
theorem test_accver : laneAfter (lx (gx 0)) (.accver hh 4 0) 4 2 = some 3 := by decide
theorem test_accrd : laneAfter (lx (gx 0)) (.accrd hh 4 (.v 3) 0) 4 2 = some 7 ∧ laneAfter (lx (gx 0)) (.accrd hh 4 (.v 3) 0) 4 0 = some 0 := by decide
theorem test_accrd_range : laneTrap (lx (gx 0)) (.accrd hh 4 (.v 8) 0) = some .accRange := by decide
theorem witness_AccumulatorForms : LaneReady (lx (gx 0)) (tx (gx 0)) (gx 0) 0 fx hh ∧ (tx (gx 0)).accs[(0 : BitVec 4).toNat]? = some acc0 ∧
    (gx 0).noAcquire = true ∧ (gx 0).accFree 0 = true ∧ Sources (tx (gx 0)) (gx 0) 0 fx [.v 3, .v 8] [.uniform 0, .uniform 0xFF] ∧
    (∀ l ∈ lanesIn (written (gx 0) fx hh), ((Tag.uniform 0).lane l).toNat ≤ 64) ∧
    (∃ g', Writes (tx (gx 0)) (gx 0) 0 fx (written (gx 0) fx hh) 1 [.v 3]
      [(4, Tag.ofLanes fun l => if l = 2 then 7#32 else 0#32)] g') ∧
    (0 ∈ lanesIn (written (gx 0) fx hh) ∧ 64 < ((Tag.uniform 0xFF).lane 0).toNat) :=
  ⟨⟨rfl, rfl, rfl, rfl, rfl, rfl⟩, rfl, by decide, by decide, rfl, by decide, ⟨_, by decide, _, rfl, rfl⟩, by decide⟩
/-- The three pairs of accst: v2 and v3 with 0x2000, and two with an address that is only a multiple of 4, and of nothing. -/
def gst : Group := { gx 0 with vregs := [(2, vr (.uniform 0x2000)), (3, vr (.uniform 0)), (4, vr (.uniform 0x9004)), (5, vr (.uniform 0)),
                                         (6, vr (.uniform 0x9006)), (7, vr (.uniform 0))] }
theorem test_accst_misaligned : laneTrap (lx gst) (.accst hh 4 2 2 0) = some .misaligned := by decide
theorem witness_AccumulatorStore : LaneReady (lx gst) (tx gst) gst 0 fx hh ∧
    Sources (tx gst) gst 0 fx (groupOf (.v 2) 2 ++ groupOf (.v 4) 2 ++ groupOf (.v 6) 2)
      [.uniform 0x2000, .uniform 0, .uniform 0x9004, .uniform 0, .uniform 0x9006, .uniform 0] ∧
    (0#32 ++ 0x2000#32 : W64).toNat % 128 = 0 ∧ fmtrScale fx.fmtr = 0 ∧ fmtrScale 0x3822 = 3 ∧ (0#32 ++ 0x9006#32 : W64).toNat % 4 ≠ 0 ∧
    (∀ l ∈ lanesIn (written gst fx hh), (lx gst).translate 0 0 .user ((0#32 ++ 0x2000#32 : W64).toNat + 4 * l) 2#4 = .ok (0x2000 + 4 * l)) ∧
    WordsAt (lx gst) (tx gst) fx 0x9004 1 (pieceAddrs [(0x9004, 4)]) :=
  ⟨⟨rfl, rfl, rfl, rfl, rfl, rfl⟩, rfl, by decide, by decide, by decide, by decide, by decide,
   [pieceAddrs [(0x9004, 4)]], by decide, rfl, fun k hk => ⟨[(0x9004, 4)], (by omega : k = 0) ▸ ⟨rfl, rfl⟩⟩⟩
/-- The members of the gang. -/
def mem1 (n : Nat) : Member :=
  { ref := ⟨0, n⟩, ctx := { fid := 0, frag := { fx with wait := .rendezvous }, w := 5 }, h := hh, a := 2, b := 8, acc := 0 }
theorem witness_GangPairs : (sgang true).team? 0 = some (tgang true) ∧ PairingOpen (tgang true) [mem1 0, mem1 1] ∧ keysRise (tgang true).groups = true ∧
    gangReady (sgang true) 0 (tgang true) 0 = some [mem1 0, mem1 1] ∧ ([mem1 0, mem1 1].map (·.ref)).Nodup ∧
    (∃ ea cols, MemberReady (sgang true) (tgang true) (mem1 1) ea cols) ∧ fmtrA fx.fmtr ≠ fmtrA 0x821 :=
  ⟨rfl, ⟨rfl, .inl rfl⟩, by decide, rfl, by decide, ⟨_, _, gmem 1 true, 0x2000, 0, List.replicate 6 (.uniform 0xFF), rfl, rfl, rfl, rfl, rfl⟩, by decide⟩

-- R386, R388, R387, R303.
theorem test_lqpush_lowest : ((after (ln gk) (.lqpush hh false (.v 1))).map (·.lq)) = some [9] := by decide
theorem test_sqpop_low : ((after (ln { gl with sq := [0x500000003] }) (.sqpop 1 true 3)).map fun g => ((g.vreg 3).tag, g.sq)) =
    some (.uniform 3, []) := by decide
theorem test_srd_high : tagAfter (ln { gl with rctr := 0 }) (.laneSrd hh false 3 0x001) 3 = some (.uniform 0) := by decide
theorem test_laneSwr_half : ((after (ln (vs [.uniform 7])) (.laneSwr hh false (.v 1) 0x011)).map (·.rseed)) = some 7 := by decide
theorem test_kmov_user : laneTrap (ln (vs [.uniform 7])) (.kmov hh 3 (.v 1)) = some .privOperand := by decide
/-- A handler fragment in supervisor mode, alone at trap frame 0 of a SYSCALL. -/
def fh : Fragment := { f0 with mode := .supervisor, handler := some 0 }
def tr0 : TrapFrame := { frame0 with frag := some 0, callmask := allLanes }
def glh : Group := { gl with traps := [(0, tr0)], frags := [(0, { f0 with parkedBy := some 0 }), (8, fh)],
                             vregs := [(1, vr (.uniform 7))] }
def lh (g : Group) : State := { st (tm g) bareTenant true with stream := .lane 8 }
theorem test_kmov : ((after (lh glh) (.kmov hh 3 (.v 1))).map fun g => (g.kreg 3).tag) = some (.uniform 7) := by decide
theorem test_lane_tret : ((after (lh glh) (.laneTret hh true false 2 (.v 1))).map fun g => (g.frags.map fun e => (e.1, e.2.pc, e.2.mode))) =
    some [(0, 0x10004, .user)] := by decide
theorem witness_LaneSystemPlain : LaneReady (ln gk) (tm gk) gk 0 f2 hh ∧ Sources (tm gk) gk 0 f2 (groupOf (.v 1) (sized false)) [.affine 9 1] ∧
    gk.lq.length + 1 ≤ 16 ∧ readMode 0x012 = some .user ∧ (∃ x r, ({ gl with sq := [5] } : Group).sq = x :: r) ∧
    (∃ g', Writes (tm gk) gk 0 f2 (written gk f2 hh) 1 [] [(4, .uniform 0)] g') ∧
    LaneReady (lh glh) (tm glh) glh 8 fh hh ∧ fh.mode ≠ .user ∧ (∃ g', glh.writeK (tm glh).spareFree 3 (written glh fh hh) (.uniform 7) 1 = some g') :=
  ⟨⟨rfl, rfl, rfl, rfl, rfl, rfl⟩, rfl, by decide, by decide, ⟨_, _, rfl⟩, ⟨_, by decide, _, rfl, rfl⟩, ⟨rfl, rfl, rfl, rfl, rfl, rfl⟩, by decide,
   ⟨_, rfl⟩⟩
theorem witness_LaneSpecialWrites :
    let g := vs [.uniform 7]
    LaneReady (ln g) (tm g) g 0 f0 hh ∧ laneSwrForm (.laneSwr hh false (.v 1) 0x011) = some (hh, false, .v 1, 0x011) ∧
    Sources (tm g) g 0 f0 [.v 1] [.uniform 7] ∧ writeMode 0x011 = some .user ∧ written g f0 hh ≠ 0#96 ∧ writeMode 0x017 = some .user ∧
    readMode 0x3FFF = none ∧ writeMode 0x000 = none ∧ readMode 0x000 ≠ none ∧
    ∃ s' t' g', SpecialWrite (ln g) (tm g) g f0.mode f0.handler (fun v => moved g 0 fun f => { f with fmtr := v }) 0x011 7 s' t' g' :=
  ⟨⟨rfl, rfl, rfl, rfl, rfl, rfl⟩, rfl, rfl, by decide, by decide, by decide, by decide, by decide, by decide, _, _, _, .rseed _⟩
theorem test_lane_sysc : ((after (ln gl) (.laneSysc hh 9)).map fun g => (g.frags.map fun e => (e.1, e.2.parkedBy, e.2.mode))) =
    some [(0, some 0, .user), (8, none, .supervisor)] := by decide
/-- Fragment 0 in a latch run, which a halt lets end (R232). -/
def grun : Group := { gl with run := some { frag := 0, length := 1, pushes := [] } }
theorem witness_LaneCalls : laneCallForm (.laneSysc hh 9) = some (hh, .syscall, 9) ∧ CallAllowed .syscall f0.mode ∧
    ¬ CallAllowed .hcall f0.mode ∧ (tm gl).halt = none ∧ written gl f0 { hh with pn := true } = 0#96 ∧
    LaneReady (st { tm grun with halt := some { fin := false, teamEnd := false } } bareTenant true) { tm grun with halt := some { fin := false, teamEnd := false } } grun 0 f0 hh :=
  ⟨rfl, .inr (.inl ⟨rfl, rfl⟩), (fun h => by rcases h with h | ⟨h, _⟩ | ⟨_, h⟩ <;> cases h), rfl, by decide, ⟨rfl, rfl, rfl, rfl, rfl, rfl⟩⟩
theorem witness_LaneReturn : LaneReady (lh glh) (tm glh) glh 8 fh hh ∧ fh.mode ≠ .user ∧ fh.frame = none ∧ fh.handler = some 0 ∧
    aget glh.traps 0 = some tr0 ∧ (∃ g1, ReturnWrites (tm glh) glh 8 fh hh true 2 (.v 1) g1) ∧ fh.span = tr0.callmask ∧ tr0.fin = false ∧
    LaneReady (ln gl) (tm gl) gl 0 f0 hh ∧ f0.mode = .user :=
  ⟨⟨rfl, rfl, rfl, rfl, rfl, rfl⟩, by decide, rfl, rfl, rfl, ⟨_, _, _, rfl, by decide, rfl, rfl⟩, rfl, rfl, ⟨rfl, rfl, rfl, rfl, rfl, rfl⟩, rfl⟩
theorem witness_LaneTrapEntry : (ln gl).team? 0 = some (tm gl) ∧ aget gl.frags 0 = some f0 ∧ keysRise gl.frags = true ∧ gl.freeFrame = some 0 ∧
    ({ gl with traps := (List.range 4).map fun k => (k, tr0) } : Group).freeFrame = none := ⟨rfl, rfl, by decide, by decide, by decide⟩

/-! ## The distributor, teams, engines, armed operations and the Grove's ports -/

/-- A code object with one section and two symbols, and tenant 0 with it, quotas for one team, and quantum 65536. -/
def sym0 : Sym := { bind := 1, kind := 0, section_ := 1, value := 0, size := 8, name := [] }
def obj0 : CodeObj := { gen := 0, sections := [(1, 0x10000, 64)], syms := [sym0, { sym0 with kind := 1 }], btab := [], digest := 0, module := none, sarx := [] }
def xq : Tenant := { bareTenant with quota := ⟨4, 4, 4, 1024, 4, 4, 4⟩, objects := [(0, obj0)] }
/-- The record with one role, at symbol 0. -/
def rec1 : LaunchRec := { rec0 with roles := [(0, 1, 64, 0, 1)] }
def la1 : Launch := { la0 with record := rec1, next := 0, keys := [], arrivals := [] }
/-- That launch pending, with no team, on core 0. -/
def sp : State := { st (tm g0) xq false with launches := [(0, la1)], teams := [], nextKey := 1, cores := [(0, { cyc := 0, parts := [] })] }
-- R94, R119: the pending launch places team 0 on core 0, whose group starts at its role's entry.
theorem test_teamPlace : (match exec .teamPlace sp with
    | .next s => s.teams.map fun e => (e.1, e.2.core, e.2.tid, e.2.groups.map fun g => (g.2.pc, g.2.allot))
    | _ => []) = [(1, 0, 0, [(0x10000, 64)])] := by decide
theorem witness_TeamPlacement : sp.launch? 0 = some la1 ∧ la1.pending = true ∧ la1.isOrdered = false ∧ la1.nextTeam = some 0 ∧
    sp.tenant? 0 = some xq ∧ sp.supvBusy 0 = false ∧ quotaCovers xq (sp.held 0 noneGone) rec1.need = true ∧ BestCore sp la1 0 ∧
    aget xq.objects la1.object = some obj0 ∧ rec1.groves.length = rec1.ngrove ∧ (aget (startGroups (launchRoles obj0 la1) 0) 0).isSome = true :=
  ⟨rfl, by decide, by decide, by decide, rfl, by decide, by decide,
   ⟨⟨by decide, by decide⟩, fun c h hc => absurd (List.mem_singleton.mp h.1) hc⟩, rfl, by decide, by decide⟩
/-- The launch with two teams pre-empted, in the order of their keys 4 and 9. -/
theorem witness_NextTeam : ({ la1 with saved := [(4, { tm g0 with tid := 1 }), (9, tm g0)] } : Launch).nextTeam = some 0 := by decide

/-- A team of that launch whose group has exited. -/
def tdone : Team := { tm { g0 with exited := true } with launch := some 0 }
def sdone : State := { st tdone xq false with launches := [(0, { la1 with next := 2, keys := [0] })] }
def snext : State := { sdone with nextKey := 1, launches := [(0, { la1 with next := 1, keys := [0] })], cores := [(0, { cyc := 0, parts := [] })] }
theorem test_teamRetire_waits : (match exec (.teamRetire 0) (sc g0) with
    | .next s => s.teams.length
    | _ => 9) = 1 := by decide
theorem test_teamRetire : (match exec (.teamRetire 0) snext with
    | .next s => (s.teams.map fun e => (e.1, e.2.tid), (s.launch? 0).map (·.exited))
    | _ => ([], none)) = ([(1, 1)], some [0]) := by decide
theorem witness_TeamRetirement : sdone.team? 0 = some tdone ∧ (∀ e ∈ tdone.groups, e.2.exited = true ∧ e.2.drained = true) ∧
    (∀ c ∈ tdone.ctxs, c.cmds = []) ∧ tdone.isInit = false ∧ ({ la1 with next := 2, keys := [0] } : Launch).pending = false ∧
    ¬ (∀ e ∈ (tm g0).groups, e.2.exited = true ∧ e.2.drained = true) ∧ ({ la1 with next := 1, keys := [0] } : Launch).pending = true ∧
    ({ la1 with next := 1, keys := [0] } : Launch).nextTeam = some 1 := ⟨rfl, by decide, by decide, rfl, by decide, by decide, by decide, by decide⟩
theorem witness_PartitionsReturn : let s := { spart g0 with teams := [] }
    keysRise s.cores = true ∧ (∀ e ∈ s.cores, keysRise e.2.parts = true) ∧ s.team? 0 = none ∧ ∃ e ∈ (s.core 0).parts, e.2.owner = 0 := by decide
/-- A team that halts, whose group is back in user mode; and one that is not. -/
def th (fin : Bool) (g : Group) : Team := { tm g with halt := some { fin := fin, teamEnd := false } }
theorem test_teamHaltEnd : (match exec (.teamHaltEnd 0) (st (th true g0) bareTenant false) with
    | .next s => (s.team? 0).map (·.ended)
    | _ => none) = some true := by decide
theorem witness_HaltEnd : (st (th true g0) bareTenant false).team? 0 = some (th true g0) ∧ (th true g0).halt = some { fin := true, teamEnd := false } ∧
    (∀ e ∈ (th true g0).groups, e.2.exited = true ∨ e.2.traps = [] ∧ e.2.mode = .user) ∧
    ¬ (∀ e ∈ (th true gh).groups, e.2.exited = true ∨ e.2.traps = [] ∧ e.2.mode = .user) := ⟨rfl, rfl, by decide, by decide⟩

/-- A pre-emptible team of that launch at its quantum, with a launch of higher priority that has no room besides it. -/
def tq (q : Nat) : Team := { tm g0 with launch := some 0, preempt := true, quantum := q }
def sq1 (q : Nat) : State :=
  { st (tq q) xq false with launches := [(0, { la1 with next := 2, keys := [0] }), (1, { la1 with prio := 2, order := 2 })],
                            cores := [(0, { cyc := 0, parts := [] })] }
theorem test_preempt : (match exec (.preemptQuantum 0) (sq1 65536) with
    | .next s => (s.teams.length, (s.launch? 0).map fun l => l.saved.map (·.1))
    | _ => (9, none)) = (0, some [0]) ∧ (match exec (.preemptQuantum 0) (sq1 65535) with
    | .next s => s.teams.length
    | _ => 9) = 1 := by decide
theorem witness_PreemptTriggers : (sq1 65536).team? 0 = some (tq 65536) ∧ (tq 65536).isOrdered = false ∧
    Savable (sq1 65536) (tq 65536) ∧ xq.quantum ≤ (tq 65536).quantum ∧ (tq 65535).quantum < xq.quantum ∧
    (sq1 65536).quantumDue 0 (tq 65536) = true ∧ (tm g0).preempt = false :=
  ⟨rfl, rfl, ⟨rfl, rfl, rfl, ⟨_, List.mem_singleton.mpr rfl, rfl⟩, by decide, by decide⟩, by decide, by decide, by decide, rfl⟩
theorem witness_SavedTeam : keysRise (sq1 0).teams = true ∧ keysRise la1.saved = true ∧ la1.held = [] ∧
    (∀ e ∈ la1.saved, e.2.tid ≠ (tq 0).tid) ∧ (∀ e ∈ ((sq1 0).core 0).parts, ∀ x ∈ e.2.tokens, x.g.team ≠ 0) ∧ 8 ≤ (sq1 0).root.reserve.2 ∧
    Memory.wf (sq1 0).mem = true := by decide

/-- A group of an ordered launch whose knot.arrive at team 1 waits for its turn. -/
def gord : Group :=
  { regs [(5, 0x180000003)] with lclock := 4, ordered := some { stream := .scalar, instr := .knotArrive 5, stamp := 4, granted := false } }
def tord : Team := { tm gord with launch := some 0, isOrdered := true, gx := 2 }
def sord : State := { st tord xq false with launches := [(0, { la1 with next := 1, keys := [0] })] }
theorem test_ordered_arrive : (match exec (.orderedOperationPerform ⟨0, 0⟩ .scalar) sord with
    | .next s => ((s.launch? 0).map (·.held), (s.group? ⟨0, 0⟩).map fun g => (g.pc, g.ordered.isNone))
    | _ => (none, none)) = (some [(1, 3, 4)], some (0x10004, true)) := by decide
theorem turn_sord : HasTurn sord ⟨0, 0⟩ tord { stream := .scalar, instr := .knotArrive 5, stamp := 4, granted := false } := by
  intro e he _ x hx _ _ hd
  rw [List.mem_singleton.mp he] at hx hd
  rw [List.mem_singleton.mp hx] at hd
  simp at hd
theorem witness_OrderedOperations : sord.team? 0 = some tord ∧ sord.group? ⟨0, 0⟩ = some gord ∧
    HasTurn sord ⟨0, 0⟩ tord { stream := .scalar, instr := .knotArrive 5, stamp := 4, granted := false } ∧ ScalarsHere gord [5] ∧
    gord.drained = true ∧ ((gord.sreg 5).extractLsb' 4 27 = 0#27 ∧ (gord.sreg 5).getLsbD 31 = true) ∧
    ((gord.sreg 5).extractLsb' 32 32).toNat ≠ tord.tid ∧ (∃ x, sord.launch? 0 = some x ∧ ((gord.sreg 5).extractLsb' 32 32).toNat < x.gx * x.gy * x.gz) ∧
    orderable (.knotArrive 5) = true ∧ StreamRef.scalar ≠ StreamRef.lane 0 :=
  ⟨rfl, rfl, turn_sord, here_of rfl _, by decide, by decide, by decide, ⟨_, rfl, by decide⟩, rfl, by decide⟩

/-- A command of context 0: 8 bytes from address 0x3000 to 0x4000, 0x4000 rows from an address that is in no window, or a remote copy. -/
def edesc : EngineDesc :=
  { kind := 0, src := 0x3000, dst := 0x4000, bytes := 8, rows := 0, ctx := 0, knot := 0, flags := 0, scope := 3, sstride := 0, dstride := 0,
    comm := 0, peer := 0, idx := 0 }
def ecmd (d : EngineDesc) : EngineCmd := { seq := 1, desc := d, group := 0, mode := .user, begun := true, sent := 0, stored := 0, got := [], refused := none }
def tc (d : EngineDesc) : Team := { tm g0 with ctxs := { issued := 1, timeline := 0, finished := [], cmds := [ecmd d], wide := none } :: List.replicate 8 freshCtx }
def se (d : EngineDesc) : State := withMem (st (tc d) bareTenant false) 0x3000 [1, 2, 3, 4, 5, 6, 7, 8]
/-- The places of 8 bytes. -/
def locs (a : Nat) : List Loc := (pieceAddrs [(a, 8)]).map .dev
-- R315, R162, R166: the bytes move, the timeline advances, and the knot loses 8 bytes.
theorem test_engine_copy : (match exec (.engineCommandComplete 0 0 1) (se edesc) with
    | .next s => (memGetN s.mem 0x4000 8, (s.team? 0).map fun t => (t.ctxs.map (·.timeline)).head?, (s.team? 0).bind fun t => t.knots[0]?.map (·.bytes))
    | _ => ([], none, none)) = ([1, 2, 3, 4, 5, 6, 7, 8], some (some 1), some (-8)) := by decide
theorem places_at (d : EngineDesc) (a : Nat) (nd : BitVec 4)
    (h : ((se d).translateRange 0 0 .user a 8 nd).toOption = some (some [(a, 8)])) : Places (se d) (tc d) .user nd false a 8 (locs a) :=
  ⟨_, ok_of h, rfl⟩
theorem witness_CopyCompletes : (se edesc).team? 0 = some (tc edesc) ∧ (tc edesc).command 0 1 = some (ecmd edesc) ∧
    RowPlaces (se edesc) (tc edesc) (ecmd edesc) 0 [] (locs 0x3000) (locs 0x4000) ∧
    (∀ m ∈ (locs 0x3000).zip (locs 0x4000), ∀ n ∈ (locs 0x3000).zip (locs 0x4000), m.1 ≠ n.2) :=
  ⟨rfl, rfl, ⟨⟨rfl, places_at edesc 0x3000 1 (by decide)⟩, places_at edesc 0x4000 2 (by decide)⟩, by decide⟩
theorem witness_CopyWrites : (se edesc).mem.wf = true ∧ ((se edesc).cluster 0).dirty = [] ∧
    (((locs 0x4000).map fun l => (l, (7 : Byte))).map (·.1)).Nodup ∧ (tc edesc).scratch.wf = true := by decide
-- R162: numbers 2 and 4 are done, and 1 completes: the timeline stands at 2, and 4 is kept.
theorem test_timeline : finishNumber 0 [2, 4] 1 = (2, [4]) := by decide
theorem witness_TimelineAdvance : 0 < 1 ∧ (∀ k ∈ [2, 4], 0 < k) ∧ [1, 2, 4].Nodup := by decide
theorem witness_CommandFinish : (tc edesc).ctxs[0]?.isSome = true ∧ edesc.knot ≠ 0xFF ∧ (tc edesc).knots[edesc.knot]? = some (freshKnot 1) := by decide
/-- A remote copy of 8 bytes that has all its bytes, to 0x4000. -/
def rdesc : EngineDesc := { edesc with kind := 3 }
theorem witness_RemoteCopyCompletes : (tc rdesc).command 0 1 = some (ecmd rdesc) ∧ rdesc.put = false ∧ (ecmd rdesc).refused = none ∧
    0 < rdesc.bytes ∧ (ecmd rdesc).begun = true ∧ (ecmd rdesc).stored = (ecmd rdesc).sent ∧ (∃ b, aget [(0, (5 : Byte))] 0 = some b) ∧
    Places (se rdesc) (tc rdesc) .user 2 false 0x4000 8 (locs 0x4000) := ⟨rfl, rfl, rfl, by decide, rfl, rfl, ⟨_, rfl⟩, places_at rdesc 0x4000 2 (by decide)⟩
theorem witness_CopyFails : let d := { edesc with src := 0x500000 }
    (tc d).command 0 1 = some (ecmd d) ∧ d.kind ≤ 2 ∧ (tc d).ended = false ∧ keysRise ((se d).cluster 0).dirty = true ∧ g0.held = false ∧ aget (tc d).groups 0 = some g0 ∧
    keysRise (tc d).groups = true ∧ g0.blocked = none ∧ g0.mwait = none ∧
    badPlaces ((((se d).openIndex (tc d) (ecmd d)).engineRows (tc d) (ecmd d)).map Row.places).flatten ≠ [] := ⟨rfl, by decide, rfl, by decide, rfl, rfl, by decide, rfl, rfl, by decide⟩
theorem witness_FaultGoesTo : keysRise (tm gw).groups = true ∧ aget (tm gw).groups 0 = some gw ∧ gw.exited = false ∧ gw.mwait.isSome = true ∧
    scalarMayIssue (tm gw) gw = true ∧ (∀ e ∈ tdone.groups, e.2.exited = true) := ⟨by decide, rfl, rfl, rfl, rfl, by decide⟩

/-- An armed copy of 8 bytes that is due, and one that is not; it signals timeline 3 with 9. -/
def arm (due : Bool) : Armed :=
  { chunk := false, first := 0, count := 1, src := 0x3000, dst := 0x4000, bytes := 8, sig := 3, sigval := 9, team := none, group := 0, due := due }
def xa (due : Bool) : Tenant := { bareTenant with armed := [(0, arm due)], signals := [(3, 4)] }
def sa (due : Bool) : State := withMem (st (tm g0) (xa due) false) 0x3000 [1, 2, 3, 4, 5, 6, 7, 8]
theorem test_armed_copy : (match exec (.armedCopyFire 0 0) (sa true) with
    | .next s => (memGetN s.mem 0x4000 8, (s.tenant? 0).map fun x => (x.armed.length, aget x.signals 3))
    | _ => ([], none)) = ([1, 2, 3, 4, 5, 6, 7, 8], some (0, some 9)) := by decide
theorem test_armed_not_due : (match exec (.armedCopyFire 0 0) (sa false) with
    | .next s => memGetN s.mem 0x4000 1
    | _ => []) = [0] := by decide
theorem witness_ArmedOperations : (sa true).tenant? 0 = some (xa true) ∧ aget (xa true).armed 0 = some (arm true) ∧ (arm true).due = true ∧
    (∀ i, i < (arm true).bytes → stageTwo ((sa true).rootWindows (xa true)) (0x3000 + i) 1#4 = .ok (0x3000 + i)) ∧
    (∀ i, i < (arm true).bytes → stageTwo ((sa true).rootWindows (xa true)) (0x4000 + i) 2#4 = .ok (0x4000 + i)) ∧
    (∀ i j, i < (arm true).bytes → j < (arm true).bytes → 0x3000 + i ≠ 0x4000 + j) ∧ (arm false).due = false := by
  refine ⟨rfl, rfl, rfl, ?_, ?_, ?_, rfl⟩
  · decide
  · decide
  · intro i j hi hj
    simp only [arm] at hi hj
    omega
/-- An armed chunk of instance 0 of communicator 0. -/
theorem witness_ArmedChunk : ({ arm true with chunk := true, src := 0, dst := 0, bytes := 2 } : Armed).due = true ∧ (2 : Nat) ∉ ([0, 1] : List Nat) := by decide

/-- A partition with a kacc of fragment 0 waiting at it. -/
def partw : Partition := { part1 with tokens := [{ g := ⟨0, 0⟩, stream := .lane 0, instr := .kclr hh 0 false (.v 1), counted := true, record := [] }] }
theorem test_groveStreamRoom : (match exec (.groveStreamRoom 0 7) (lpart partw gk) with
    | .next s => (aget (s.core 0).parts 7).map fun q => (q.tokens.length, q.entries.length)
    | _ => none) = some (0, 0) := by decide
theorem witness_GroveRoomReturns : aget ((lpart partw gk).core 0).parts 7 = some partw ∧ groveWaiter (.kclr hh 0 false (.v 1)) = true ∧
    f2.parkedBy = none ∧ (∃ s', runsThere (lpart partw gk) ⟨0, 0⟩ (.lane 0) (.kclr hh 0 false (.v 1)) = .next s') ∧ part1.tokens = [] :=
  ⟨rfl, rfl, rfl, ⟨_, rfl⟩, rfl⟩

/-! ## Splice, collectives and queues -/

/-- Communicator 0 of tenant 0, with the tenants of devices 0 and 1; this device is the coordinator. -/
def cm : Comm :=
  { coord := 0, ckey := 5, members := [(0, 0), (1, 0)], rank := 0, digest := 0, routes := [(0, 0), (2, 0)], phase := .ready, queue := 0, cmd := 0,
    seq := 1, index := 1, broken := none, failed := none, failures := [], timeline := 0, finished := [], insts := [], digests := [], posts := [],
    rebuilt := [], asked := 0, asks := [] }
def xc (c : Comm) : Tenant := { bareTenant with comms := [(0, c)] }
def scm (c : Comm) : State := let s := st (tm g0) (xc c) false; { s with root := { s.root with devid := 0 } }
/-- A frame from device 1 with number 0. -/
def fh0 : FrameHdr := { src := 1, dst := 0, coord := 0, ckey := 5, psn := 0 }
/-- An all-reduce of one 32-bit integer. -/
def sg : Sig := { kind := 0, dtype := 0, rop := 0, count := 1, root := 0 }
-- R71, R82: an accepted post is noted, the flow goes on, and its number is acknowledged; a wrong key is discarded and counted.
theorem test_post_frame : (match exec (.splicePostFrame fh0 1 0 sg 7) (scm cm) with
    | .next s => ((s.comm? 0 0).map (·.posts.length), s.root.flows.map (·.recvPsn), s.sent.length)
    | _ => (none, [], 0)) = (some 1, [1], 1) := by decide
theorem test_frame_discard : (match exec (.spliceFrameDiscard ⟨{ fh0 with ckey := 6 }, 1⟩) (scm cm) with
    | .next s => s.root.counters.splice
    | _ => 0) = 1 := by decide
theorem witness_SpliceFrames : (scm cm).frameComm fh0 = some (0, 0, cm) ∧ Accepted (scm cm) fh0 1 0 0 cm ∧
    (∃ s', FrameForm (tookNext (scm cm) (flowOf (scm cm) 0 cm 1)) fh0 1 0 0 cm (.splicePostFrame fh0 1 0 sg 7) s') ∧
    (∃ s', FrameForm (tookNext (scm cm) (flowOf (scm cm) 0 cm 1)) fh0 1 0 0 cm (.spliceFailFrame ⟨fh0, 0⟩ 0x12) s') ∧
    (∃ s', FrameForm (tookNext (scm cm) (flowOf (scm cm) 0 cm 1)) fh0 1 0 0 cm (.spliceRebuildFrame ⟨fh0, 3⟩ 1) s') ∧
    (∀ e ∈ (scm cm).tenants, ∀ k ∈ e.2.comms, ¬ Addressed (scm cm) { fh0 with ckey := 6 } e.1 k.2) ∧
    (flowOf (scm cm) 0 cm 1).recvPsn ≠ ({ fh0 with psn := 1 } : FrameHdr).psn :=
  ⟨by decide, ⟨by decide, rfl, by decide, by decide, by decide⟩, ⟨_, .post _ _ _ rfl rfl⟩, ⟨_, .noticeHead _ (by decide) rfl⟩, ⟨_, .rebuild _ rfl⟩,
   (fun e he k hk h => by
     rw [List.mem_singleton.mp he] at hk h
     rw [List.mem_singleton.mp hk] at h
     exact absurd h.2.2.1 (by decide)), by decide⟩
/-- A flow with one frame not acknowledged, sent again 15 or 16 times. -/
def fl0 (n : Nat) : Machine.Flow :=
  { ref := ⟨0, 0, 5, (1, 0)⟩, port := 2, dmac := 0, sendPsn := 1, recvPsn := 0, resends := n, unacked := [⟨0, 3, 0, 0, []⟩] }
def scmf (n : Nat) : State := let s := scm cm; { s with root := { s.root with flows := [fl0 n] } }
theorem test_ack_frame : (match exec (.spliceAckFrame (fl0 0).ref 1) (scmf 15) with
    | .next s => s.root.flows.map fun w => (w.resends, w.unacked.length)
    | _ => []) = [(0, 0)] := by decide
theorem test_resend : (match exec (.spliceResendTimeout (fl0 0).ref 0) (scmf 15) with
    | .next s => s.sent.length
    | _ => 9) = 1 ∧ (match exec (.spliceResendTimeout (fl0 0).ref 0) (scmf 16) with
    | .next s => s.root.faberr.toNat
    | _ => 0) = 4 := by decide
theorem witness_FlowRules : ((scmf 15).root.flows.find? fun f => f.ref == (fl0 0).ref) = some (fl0 15) ∧
    (((fl0 15).unacked.filter fun x => !(x.psn != (1 : W32) && ((1 : W32) - x.psn).toNat < 2 ^ 31)).length < (fl0 15).unacked.length) ∧
    flowOf (scmf 15) 0 cm 1 = fl0 15 ∧ (flowOf (scmf 15) 0 cm 1).recvPsn ≠ 1 ∧ (scmf 15).comm? 0 0 = some cm :=
  by decide
theorem witness_ResendRule : ((scmf 16).root.flows.find? fun f => f.ref == (fl0 0).ref) = some (fl0 16) ∧ (fl0 15).resends < 16 ∧
    16 ≤ (fl0 16).resends ∧ (fl0 15).unacked ≠ [] ∧ ({ fl0 0 with unacked := [] } : Machine.Flow).unacked = [] := by decide
/-- R67: both digests are in, and differ or not; R80: both members have sent REBUILD. -/
def cmb (d : BitVec 512) : Comm := { cm with phase := .building, digests := [(0, 0), (1, d)], asks := [(1, 1)] }
theorem test_checkBuild : (((scm (cmb 0)).checkBuild 0 0).comm? 0 0).map (·.phase) = some .ready ∧
    (((scm (cmb 1)).checkBuild 0 0).comm? 0 0) = none := by decide
theorem witness_BuildChecks : (scm (cmb 1)).comm? 0 0 = some (cmb 1) ∧ (cmb 1).rank = 0 ∧ (cmb 1).digests.length = (cmb 1).members.length ∧
    (∃ e ∈ (cmb 1).digests, e.2 ≠ (cmb 1).digest) ∧ (∀ e ∈ (cmb 0).digests, e.2 = (cmb 0).digest) ∧
    (∀ r < cm.members.length, r ∈ [1, 0]) ∧ (scm (cmb 1)).tenant? 0 = some (xc (cmb 1)) ∧ aget (xc (cmb 1)).comms 0 = some (cmb 1) := by decide
-- R73: with both posts, the ticket is one above the higher clock.
theorem test_ticket : ((((scm { cm with posts := [(0, 1, sg, 4), (1, 1, sg, 7)] }).issueTicket 0 0 1)).root.ticket) = 8 := by decide
theorem witness_TicketRule : let c := { cm with posts := [(0, 1, sg, 4), (1, 1, sg, 7)] }
    (scm c).comm? 0 0 = some c ∧ c.broken = none ∧ (c.posts.filter fun p => p.2.1 == 1).length = c.members.length ∧
    (∀ p ∈ c.posts, p.2.2.2 < 8) ∧ (∃ p ∈ c.posts, p.2.2.2 + 1 = 8) ∧ 2 ^ 48 - 2 < 2 ^ 48 - 1 := by decide

/-- An instance of that all-reduce, and the communicator with it. -/
def in0 (st : InstState) : Inst :=
  { index := 1, sig := sg, evec := 0xFF, nchunk := 0, sbuf := 0x3000, dbuf := 0x4000, l := 4, state := st, ticket := 8, status := 0, chunks := [],
    got := if st == .started then [(0, [(0, 5), (1, 0), (2, 0), (3, 0)]), (1, [(0, 6), (1, 0), (2, 0), (3, 0)])] else [], staging := [] }
def cmi (st : InstState) : Comm := { cm with insts := [(1, in0 st)] }
theorem witness_BreakRule : keysRise (cmi .posted).insts = true ∧ (in0 .posted).state.live = true ∧ (cmi .posted).broken = none := by decide
-- R76: the sum of 5 and 6 is stored, and the timeline advances.
theorem test_collective_complete : (match exec (.collectiveComplete ⟨0, 0⟩ 1) (scm (cmi .started)) with
    | .next s => (memGetN s.mem 0x4000 4, (s.comm? 0 0).map fun c => (c.timeline, c.insts.length))
    | _ => ([], none)) = ([11, 0, 0, 0], some (1, 0)) := by decide
theorem witness_CompleteRule : (scm (cmi .started)).tenant? 0 = some (xc (cmi .started)) ∧ aget (cmi .started).insts 1 = some (in0 .started) ∧
    (in0 .started).chunks.dedup.length = (in0 .started).nchunk ∧ [[11, 0, 0, 0]].length = dbufCount sg 2 ∧
    (in0 .started).element (cmi .started) 0 = some [11, 0, 0, 0] ∧
    (scm (cmi .started)).rootRange (xc (cmi .started)) 2#4 0x4000 4 = some [(0x4000, 4)] := ⟨rfl, rfl, by decide, by decide, by decide, by decide⟩
theorem witness_CollectiveStart : (in0 .ticketed).state = .ticketed ∧ (cmi .ticketed).broken = none ∧
    (startedInsts (scm (cmi .ticketed))).length < 64 ∧ (freeSegments (scm (cmi .ticketed))).length < 4 ∧
    4 ≤ (freeSegments { scm (cmi .ticketed) with clusters := [(0, { bankmode := 2, bankown := [], dirty := [], clean := [], relLines := [] })] }).length ∧ (in0 .ticketed).nchunk = 0 ∧
    ComesNext (scm (cmi .ticketed)) (cmi .ticketed) (in0 .ticketed) := by
  refine ⟨rfl, rfl, by decide, by decide, by decide, rfl, ?_⟩
  intro e he k hk j hj
  rw [List.mem_singleton.mp he] at hk
  rw [List.mem_singleton.mp hk] at hj ⊢
  rw [List.mem_singleton.mp hj]
  exact ⟨fun _ => .inr ⟨rfl, Nat.le_refl _⟩, fun h => nomatch h⟩
theorem witness_DataNeeded : sg.kind ≤ 4 ∧ 0 < dbufCount sg 2 ∧ (1, 0) ∈ elementSources sg 2 0 0 := by decide
theorem witness_IntegerSums : [3, 2 ^ 32 - 1] ≠ [] ∧ reduceElement 0 0 [3, 2 ^ 32 - 1] % 2 ^ 32 = 2 := by decide
theorem witness_BuildTimers : (scm { cm with phase := .building }).comm? 0 0 = some { cm with phase := .building } ∧
    ({ cm with phase := .rebuilding } : Comm).phase ≠ .building ∧ cm.phase ≠ .rebuilding := ⟨rfl, by decide, by decide⟩

/-! ## Queues, commands and launches -/

/-- A record: KIND, the header with no completion event and no wait, and a body of 40 bytes. -/
def cmdBytes (kind : Byte) (body : List Byte) : List Byte :=
  [kind, 0, 0xFF, 0, 0, 0, 0, 0, 0xFF, 0xFF, 0xFF, 0xFF, 0, 0, 0, 0] ++ List.replicate 8 0 ++ body
def cmd0 (kind : Byte) (body : List Byte) : Cmd := { seq := 1, bytes := cmdBytes kind body }
/-- Queue 0 of tenant 0 with a command waiting to start, or running. -/
def qw (c : Cmd) : Queue := { emptyQueue with enabled := true, latch := true, qlog := 4, fetched := 1, waiting := [c] }
def qr (c : Cmd) : Queue := { emptyQueue with enabled := true, latch := true, qlog := 4, fetched := 1, started := 1, running := [c] }
def squ (q : Queue) : State := st (tm g0) { xq with queues := [(0, q)] } false
/-- COPY of 8 bytes from 0x3000 to 0x4000, FILL of 4 bytes at 0x4000 with 0xAB, SIGNAL of timeline 3 to 9. -/
def copyBody : List Byte := leBytes 8 0x3000 ++ leBytes 8 0x4000 ++ leBytes 8 8 ++ List.replicate 16 0
def fillBody : List Byte := leBytes 8 0x4000 ++ leBytes 8 4 ++ leBytes 8 0xAB ++ [1] ++ List.replicate 15 0
def signalBody : List Byte := leBytes 4 0x20000003 ++ leBytes 4 0 ++ leBytes 8 9 ++ List.replicate 24 0
/-- The state once a command has begun. -/
def begun (c : Cmd) : State := let s := squ (qr c); { s with root := { s.root with lastTenant := [(0, 0)], lastQueue := [(0, 0)] } }
theorem begins_squ (c : Cmd) (h : (squ (qw c)).nextStart = some (.tenant 0 0, 0)) (e : c.seq = 1) :
    Begins (squ (qw c)) (.tenant 0 0) 1 c (begun c) := ⟨0, qw c, [], h, rfl, rfl, e, rfl⟩

-- R48: SIGNAL raises its timeline and completes; R47: an unknown KIND completes too, a FILL writes its bytes.
theorem test_signal : (match exec (.signal (.tenant 0 0) 1) (squ (qw (cmd0 4 signalBody))) with
    | .next s => (s.tenant? 0).map fun x => (aget x.signals 3, x.queues.map fun q => (q.2.timeline, q.2.running.length))
    | _ => none) = some (some 9, [(1, 0)]) := by decide
theorem test_fill : (match exec (.commandComplete (.tenant 0 0) 1) (squ (qr (cmd0 3 fillBody))) with
    | .next s => memGetN s.mem 0x4000 5
    | _ => []) = [0xAB, 0xAB, 0xAB, 0xAB, 0] := by decide
theorem test_badKind : (match exec (.badKindCommand (.tenant 0 0) 1) (squ (qw (cmd0 0xB signalBody))) with
    | .next s => (s.tenant? 0).map fun x => x.queues.map (·.2.timeline)
    | _ => none) = some [1] := by decide
theorem witness_CommandBegins : Begins (squ (qw (cmd0 4 signalBody))) (.tenant 0 0) 1 (cmd0 4 signalBody) (begun (cmd0 4 signalBody)) ∧
    commandKind (.signal (.tenant 0 0) 1) = some (.tenant 0 0, 1, 4) ∧ fieldAt (cmd0 4 signalBody).bytes 0 1 = 4 ∧
    HeaderOk (begun (cmd0 4 signalBody)) (.tenant 0 0) (cmd0 4 signalBody).bytes ∧ BodyOk (cmd0 4 signalBody).bytes 4 ∧
    (∃ x s2, CommandForm (begun (cmd0 4 signalBody)) 0 0 1 (cmd0 4 signalBody) x (.signal (.tenant 0 0) 1) s2) ∧
    ¬ BodyOk (cmd0 4 copyBody).bytes 4 :=
  ⟨begins_squ _ (by decide) rfl, rfl, by decide, ⟨by decide, by decide, by decide, by decide, .inl (by decide)⟩, ⟨by decide, by decide, by decide, by decide⟩,
   ⟨xq, _, .signal (by decide)⟩, fun h => absurd h.2.2.1 (by decide)⟩
theorem witness_KindsChecked : Begins (squ (qw (cmd0 0xB signalBody))) (.tenant 0 0) 1 (cmd0 0xB signalBody) (begun (cmd0 0xB signalBody)) ∧
    0xB ≤ fieldAt (cmd0 0xB signalBody).bytes 0 1 := ⟨begins_squ _ (by decide) rfl, by decide⟩
theorem witness_CommandStarts :
    (∃ x s2, CommandForm (begun (cmd0 2 copyBody)) 0 0 1 (cmd0 2 copyBody) x (.copy (.tenant 0 0) 1) s2 ∧ BodyOk (cmd0 2 copyBody).bytes 2) ∧
    (∃ x s2, CommandForm (begun (cmd0 3 fillBody)) 0 0 1 (cmd0 3 fillBody) x (.fill (.tenant 0 0) 1) s2 ∧ BodyOk (cmd0 3 fillBody).bytes 3) ∧
    (∃ x s2, CommandForm (begun (cmd0 8 copyBody)) 0 0 1 (cmd0 8 copyBody) x (.loadObject (.tenant 0 0) 1) s2) ∧
    ∃ x s2, CommandForm (begun (cmd0 9 [])) 0 0 1 (cmd0 9 []) x (.translate (.tenant 0 0) 1) s2 :=
  ⟨⟨{ xq with queues := [(0, qr (cmd0 2 copyBody))] }, _, .copy [(0x3000, 8)] [(0x4000, 8)] (by decide) (by decide), by decide, by decide⟩,
   ⟨{ xq with queues := [(0, qr (cmd0 3 fillBody))] }, _, .fill [(0x4000, 4)] (by decide), by decide, by decide, by decide, by decide⟩,
   ⟨{ xq with queues := [(0, qr (cmd0 8 copyBody))] }, _, .load _ _ rfl rfl⟩, ⟨xq, _, .translateNone obj0 (by decide) rfl⟩⟩
/-- A WAIT for timeline 3 to be at least 9, and for two waits that name none. -/
def waitBody : List Byte := leBytes 4 0x20000003 ++ leBytes 4 0xFFFFFFFF ++ leBytes 4 0xFFFFFFFF ++ leBytes 4 0 ++ leBytes 8 9 ++ List.replicate 16 0
theorem test_wait_runs : (match exec (.wait (.tenant 0 0) 1) (squ (qw (cmd0 5 waitBody))) with
    | .next s => (s.tenant? 0).map fun x => x.queues.map fun q => (q.2.timeline, q.2.running.length)
    | _ => none) = some [(0, 1)] := by decide
theorem witness_WaitCommand : fieldAt (cmd0 5 waitBody).bytes 0 1 = 5 ∧
    Begins (squ (qw (cmd0 5 waitBody))) (.tenant 0 0) 1 (cmd0 5 waitBody) (begun (cmd0 5 waitBody)) ∧
    (squ (qw (cmd0 5 waitBody))).runningCmd (.tenant 0 0) 1 = none ∧ zeroAt (cmd0 5 waitBody).bytes 0x24 4 = true ∧
    (∀ w ∈ namedWaits (cmd0 5 waitBody).bytes, w.1 = 0xFFFFFFFF ∨ (begun (cmd0 5 waitBody)).waitValue? (.tenant 0 0) w.1 = some 0) ∧
    (squ (qr (cmd0 5 waitBody))).runningCmd (.tenant 0 0) 1 = some (cmd0 5 waitBody) :=
  ⟨by decide, begins_squ _ (by decide) rfl, by decide, by decide, by decide, by decide⟩
theorem witness_CopyAndFillEnd : (squ (qr (cmd0 2 copyBody))).runningCmd (.tenant 0 0) 1 = some (cmd0 2 copyBody) ∧
    fieldAt (cmd0 2 copyBody).bytes 0 1 = 2 ∧ fieldAt (cmd0 2 copyBody).bytes 0x28 8 = 8 ∧
    (∀ i, i < 8 → stageTwo ((squ (qr (cmd0 2 copyBody))).rootWindows xq) (fieldAt (cmd0 2 copyBody).bytes 0x18 8 + i) 1#4 = .ok (0x3000 + i)) ∧
    fieldAt (cmd0 3 fillBody).bytes 0 1 = 3 ∧ fieldAt (cmd0 3 fillBody).bytes 0x30 1 ≠ 0 ∧
    (squ (qr (cmd0 3 fillBody))).rootRange xq 2#4 (fieldAt (cmd0 3 fillBody).bytes 0x18 8) 4 = some [(0x4000, 4)] := by decide
theorem witness_ObjectsEnd : let c := { cmd0 8 copyBody with bytes := cmdBytes 8 copyBody ++ List.replicate 8 0 }
    fieldAt c.bytes 0 1 = 8 ∧ 64 ≤ c.bytes.length ∧
    (squ (qr c)).ownRead (some 0) 1#4 (fieldAt c.bytes 0x18 8) (c.bytes.drop 64).length = some (c.bytes.drop 64) ∧
    aget xq.objects (fieldAt (cmdBytes 9 (List.replicate 40 0)) 0x18 4) = some obj0 := by decide
theorem witness_LoaderSteps : objectOk [] = false ∧ (squ (qr (cmd0 8 copyBody))).tenant? 0 ≠ none := by decide

/-- A notification of queue 0, and the control block with QENABLE 1, QLOG 4 and QBASE 0x8000. -/
def snote (enable : Bool) (q : Queue) (l : List (Nat × Byte)) : State :=
  let s := squ q
  let m := l.foldl (fun m e => memSet m e.1 e.2) s.mem
  { s with mem := m, root := { s.root with notices := [{ q := .tenant 0 0, enable := enable }] } }
theorem test_qenable : (match exec (.qenableWrite (.tenant 0 0)) (snote true emptyQueue [(1, 0x80), (8, 4), (10, 1)]) with
    | .next s => ((s.tenant? 0).map fun x => x.queues.map fun q => (q.2.enabled, q.2.qbase), memGet s.mem 0xB)
    | _ => (none, 0)) = (some [(true, 0x8000)], 1) := by decide
theorem test_qenable_bad : (match exec (.qenableWrite (.tenant 0 0)) (snote true emptyQueue [(1, 0x80), (8, 3), (10, 1)]) with
    | .next s => (s.tenant? 0).map fun x => x.queues.map fun q => q.2.enabled
    | _ => none) = some [false] := by decide
theorem witness_EnableRule : let s := snote true emptyQueue [(1, 0x80), (8, 4), (10, 1)]
    NoticeTaken s (.tenant 0 0) true { s with root := { s.root with notices := [] } } ∧ s.queue? (.tenant 0 0) = some emptyQueue ∧
    s.cbRead (some 0) 0xA 1 = 1 ∧ s.cbRead (some 0) 8 1 = 4 ∧ s.cbRead (some 0) 0 8 % 64 = 0 ∧ s.rootRange { xq with queues := [(0, emptyQueue)] } 2#4 0x8000 1024 = some [(0x8000, 1024)] :=
  ⟨⟨[], [], rfl, (fun _ h => nomatch h), rfl⟩, rfl, by decide, by decide, by decide, by decide⟩
theorem witness_FetchRule : let q := { qr (cmd0 4 []) with qbase := 0x8000, running := [] }
    let s := snote false q [(16, 1)]
    NoticeTaken s (.tenant 0 0) false { s with root := { s.root with notices := [] } } ∧ q.enabled = true ∧
    (BitVec.ofNat 32 (s.cbRead (some 0) 0x10 4) - q.head).toNat = 1 ∧
    s.ownRead (some 0) 2#4 0x8000 64 = some (List.replicate 64 0) ∧ 2 ^ q.qlog < 17 := by
  refine ⟨⟨[], [], rfl, (fun _ h => nomatch h), rfl⟩, rfl, by decide, by decide, by decide⟩
/-- Events held, and the region enabled: ELOG 6, EENABLE 1. -/
def sev : State := let s := st (tm g0) { xq with events := { next := 0, held := [.event (List.replicate 64 0) none] } } false
                   { s with mem := memSet (memSet s.mem 0x408 6) 0x40A 1 }
theorem test_eventHeldWrite : (match exec (.eventHeldWrite (some 0)) sev with
    | .next s => (s.tenant? 0).map fun x => (x.events.next, x.events.held.length)
    | _ => none) = (if sev.eventPath (some 0) 0 then some (1, 0) else some (0, 1)) := by decide
theorem witness_EventsWritten : (sev.eventsOf (some 0)).held ≠ [] ∧ sev.cbRead (some 0) 0x408 1 = 6 ∧ sev.cbRead (some 0) 0x40A 1 = 1 ∧
    ((squ emptyQueue).eventsOf (some 0)).held = [] := by decide
theorem witness_CommandEnds : let s := squ (qr (cmd0 4 signalBody))
    s.queue? (.tenant 0 0) = some (qr (cmd0 4 signalBody)) ∧ s.runningCmd (.tenant 0 0) 1 = some (cmd0 4 signalBody) ∧
    (qr (cmd0 4 signalBody)).timeline < 1 ∧ keysRise (qr (cmd0 4 signalBody)).finished = true := by decide
theorem witness_StartOrder : keysRise (squ (qw (cmd0 4 signalBody))).tenants = true ∧
    MayStart (squ (qw (cmd0 4 signalBody))) (.tenant 0 0) (qw (cmd0 4 signalBody)) ∧
    (squ (qw (cmd0 4 signalBody))).nextStart = some (.tenant 0 0, 0) := ⟨by decide, ⟨_, _, rfl, by decide, by decide⟩, by decide⟩

/-! ## Launches -/

/-- The bytes of a launch record: a grid of 2 by 1 by 1, one group of 64 slots, no wait and no signal. -/
def recBytes (version : Nat) : List Byte :=
  let none4 := (List.replicate 4 (leBytes 4 0xFFFFFFFF ++ List.replicate 12 (0 : Byte))).flatten
  leBytes 4 version ++ leBytes 4 0 ++ leBytes 4 2 ++ leBytes 4 1 ++ leBytes 4 1 ++ [1, 1, 0, 0, 0, 0, 0, 0, 0, 0, 0xFF, 0xFF] ++
  List.replicate 96 0 ++ leBytes 4 0 ++ leBytes 4 1 ++ [64, 0, 1, 1] ++ List.replicate 52 0 ++ none4 ++ none4 ++ List.replicate 224 0
/-- LAUNCH of object 0 with the record at 0x6000. -/
def launchBody : List Byte := leBytes 8 0x6000 ++ leBytes 4 0 ++ List.replicate 28 0
def slaunch (version : Nat) : State := withMem (squ (qw (cmd0 1 launchBody))) 0x6000 (recBytes version)
-- R51 to R53: the record passes, and the launch is pending; a version of 2 does not.
theorem test_record : recordOk (recBytes 1) = true ∧ recordOk (recBytes 2) = false := by decide
theorem test_launch : (match exec (.launch (.tenant 0 0) 1) (slaunch 1) with
    | .next s => s.launches.map fun e => (e.2.gx, e.2.pending, e.2.record.roles.length)
    | _ => []) = [(2, true, 1)] := by decide
theorem witness_LaunchStarts : ∃ s1, Begins (slaunch 1) (.tenant 0 0) 1 (cmd0 1 launchBody) s1 ∧ (slaunch 1).runningCmd (.tenant 0 0) 1 = none ∧
    fieldAt (cmd0 1 launchBody).bytes 0 1 = 1 ∧ HeaderOk s1 (.tenant 0 0) (cmd0 1 launchBody).bytes ∧
    zeroAt (cmd0 1 launchBody).bytes 0x24 28 = true ∧ s1.ownRead (some 0) 1#4 (fieldAt (cmd0 1 launchBody).bytes 0x18 8) 544 = some (recBytes 1) ∧
    s1.namesOk (.tenant 0 0) obj0 (launchRec (recBytes 1)) = true ∧ WaitsMet s1 (.tenant 0 0) (launchRec (recBytes 1)) :=
  ⟨_, ⟨0, qw (cmd0 1 launchBody), [], by decide, rfl, rfl, rfl, rfl⟩, by decide, by decide,
   ⟨by decide, by decide, by decide, by decide, .inl (by decide)⟩, by decide, by decide, by decide, by unfold WaitsMet; decide⟩
/-- That launch, waiting for timeline 3 to be at least 9; and what it does once it goes on. -/
def law (n : Nat) : Launch := { la1 with phase := .waiting, record := { rec1 with waits := [(0x20000003, n)] }, seq := 1 }
def slaw (n : Nat) : State := { squ (qr (cmd0 1 launchBody)) with launches := [(0, law n)] }
theorem witness_LaunchResumes : (slaw 9).runningCmd (.tenant 0 0) 1 = some (cmd0 1 launchBody) ∧
    ((slaw 9).launches.find? fun e => e.2.tenant == 0 && e.2.queue == 0 && e.2.seq == 1) = some (0, law 9) ∧ (law 9).phase = .waiting ∧
    ¬ WaitsMet (slaw 9) (.tenant 0 0) (law 9).record ∧ WaitsMet (slaw 0) (.tenant 0 0) (law 0).record ∧ ∃ s3, LaunchGoes (slaw 0) 0 (law 0) s3 :=
  ⟨by decide, rfl, rfl, (by unfold WaitsMet; decide), (by unfold WaitsMet; decide), _, .direct (by decide)⟩
theorem witness_ShapeRule : (slaw 9).tenant? (law 9).tenant ≠ none ∧ (∃ c ∈ xq.cores, (slaw 9).fitsEmpty (law 9).record.need c = true) ∧
    quotaCovers xq noNeed (law 9).record.need = true ∧ 2 ^ 32 ≤ 2 ^ 21 * 2 ^ 11 * 1 := by decide
-- R55, R54: a launch whose teams have all exited completes with OK; a team ended gives TEAM_FAULT.
/-- A launch with nothing left to place. -/
def lae (f : Option Nat) : Launch := { la1 with next := 2, fault := f, seq := 1 }
def slae (f : Option Nat) : State := { squ (qr (cmd0 1 launchBody)) with launches := [(0, lae f)], teams := [] }
theorem test_launchComplete : (match exec (.launchComplete 0) (slae none) with
    | .next s => (s.launches.length, (s.tenant? 0).map fun x => x.queues.map (·.2.timeline))
    | _ => (9, none)) = (0, some [1]) := by decide
theorem witness_LaunchCompletes : (slae none).launch? 0 = some (lae none) ∧ (lae none).phase = .placing ∧ (lae none).pending = false ∧
    (∀ e ∈ (slae none).teams, e.2.launch ≠ some 0) ∧ (lae (some 1)).fault = some 1 ∧ (∀ e ∈ (lae none).record.signals, e.1 = 0xFFFFFFFF) ∧
    la1.pending = true := by decide
/-- A bound launch that posts, whose chunk map lies in no window, or is all zero. -/
def lab (a : Nat) : Launch := { la1 with phase := .posting, record := { rec1 with lflags := 8, chunkmap := a } }
def slab (a : Nat) : State := { squ emptyQueue with launches := [(0, lab a)] }
theorem witness_BoundLaunch : (slab 0x500000).launch? 0 = some (lab 0x500000) ∧ (lab 0x500000).phase = .posting ∧ (lab 0x500000).coll = none ∧
    ((slab 0x500000).chunkMap (lab 0x500000)).isNone = true ∧
    ((slab 0x3000).chunkMap (lab 0x3000)).any (fun e => !chunkMapOk (lab 0x3000) e.1 e.2.1 e.2.2) = true ∧
    chunkMapOk la1 ({ postDesc (List.replicate 64 0) with nchunk := 1 }) { seq := 0, bitbase := 4094, tpb := 1, chunks := [(4095, 1)] } 1 = true ∧
    afree xq.armed 256 0 = some 0 ∧ afree ((List.range 256).map fun k => (k, arm false)) 256 0 = none := by decide

/-! ## Root, the network, tenants -/

/-- The management channel with a command waiting. -/
def smg (c : Cmd) : State :=
  let s := st (tm g0) xq false
  { s with root := { s.root with nonce := 0, mgmtQueue := qw c } }
/-- QUERY of item 1 with a buffer of 64 bytes at 0x2000. -/
def queryBody (item : Nat) : List Byte := leBytes 2 item ++ [0xFF, 0, 0, 0, 0, 0] ++ leBytes 8 0x2000 ++ leBytes 4 64 ++ List.replicate 20 0
-- R13, R49: byte 0 of DEVICE_STATUS holds LCSTATE, FRONTLINK and HVSTATE; a tenant may not ask for item 8.
theorem test_query_status : (match exec (.queryDeviceStatus .mgmt 1) (smg (cmd0 0xA (queryBody 1))) with
    | .next s => (s.root.mgmtQueue.timeline, (memGet s.root.mgmtMem 0x2000).toNat % 4)
    | _ => (0, 0)) = (1, 1) := by decide
theorem test_query_denied : (match exec (.queryDiscardCounters (.tenant 0 0) 1) (squ (qw (cmd0 0xA (queryBody 8)))) with
    | .next s => (s.tenant? 0).map fun x => (x.queues.map (·.2.timeline), memGet s.mem 0x2000)
    | _ => none) = some ([1], 0) := by decide
theorem begins_smg (c : Cmd) (h : (smg c).nextStart = some (.mgmt, 0)) (e : c.seq = 1) :
    ∃ s1, Begins (smg c) .mgmt 1 c s1 := ⟨_, 0, qw c, [], h, rfl, rfl, e, rfl⟩
theorem witness_QueryForms : (∃ s1, Begins (smg (cmd0 0xA (queryBody 1))) .mgmt 1 (cmd0 0xA (queryBody 1)) s1) ∧
    fieldAt (cmd0 0xA (queryBody 1)).bytes 0x18 2 = 1 ∧ QueryRow .mgmt 1 1 (.queryDeviceStatus .mgmt 1) ∧
    HeaderOk (smg (cmd0 0xA (queryBody 1))) .mgmt (cmd0 0xA (queryBody 1)).bytes ∧ zeroAt (cmd0 0xA (queryBody 1)).bytes 0x1B 5 = true ∧
    Concerns (smg (cmd0 0xA (queryBody 1))) .mgmt 1 0xFF none ∧
    (∃ bs, ItemBytes (smg (cmd0 0xA (queryBody 1))) .mgmt none (cmd0 0xA (queryBody 1)) 0 1 bs) ∧ QueryRow .mgmt 1 10 (.queryDeviceStatus .mgmt 1) ∧
    (∀ who, ¬ Concerns (smg (cmd0 0xA (queryBody 1))) .mgmt 1 3 who) :=
  ⟨begins_smg _ (by decide) rfl, by decide, .inl ⟨.inl rfl, rfl⟩, ⟨by decide, by decide, by decide, by decide, .inl (by decide)⟩, by decide,
   ⟨rfl, rfl⟩, ⟨_, .status⟩, .inl ⟨.inr (.inr (by decide)), rfl⟩, fun _ h => absurd h.1 (by decide)⟩

theorem test_clockThrottle : (match exec (.clockThrottle 0x20 0x16) State.reset with
    | .next s => (s.root.aclk, s.root.fclk)
    | _ => (0, 0)) = (0x20, 0x16) := by decide
theorem witness_ClockRules : State.reset.root.phase ≠ .off ∧ (0x0B : Byte).toNat ≤ State.reset.root.aclk.toNat ∧
    (0x0B : Byte).toNat ≤ State.reset.root.fclk.toNat ∧ State.reset.root.aclk = 0x21 ∧ (0x0A : Byte).toNat < 0x0B := by decide
theorem witness_LinkRules : State.reset.root.phase ≠ .off ∧ State.reset.root.fuses.lcstate ≠ 0#2 ∧ (1 : Nat) < 2 ∧ (15 : Nat) < 16 := by decide
def env0 : BootEnv := { frontLink := 3, fabUp := 0, tjmax := 0, tvecH := 0, hvWindows := [], bankModes := [] }
theorem witness_ResetRule : env0.bankModes = [] := rfl
theorem witness_ResetCauses : ({ State.reset.root with phase := .off } : Root).phase = .off ∧ State.reset.root.phase = .running ∧
    State.reset.tenants = [] ∧ (∀ e ∈ (sc g0).tenants, (sc g0).cbRead (some e.1) 0x40A 1 ≠ 1) ∧ (sev.cbRead (some 0) 0x40A 1 = 1 ∧ sev.tenants.length = 1) ∧
    0 + [(1 : Byte)].length ≤ 2 ^ 27 ∧ 2 ^ 27 < 2 ^ 27 + [(1 : Byte)].length := by decide

-- R31, R64: a signature made with SHA-512 and RSASSA-PSS outside this package, over the record of a RESET and a nonce of zero.
/-- The owner's modulus, a signature under it, and the block at 0x1000 that carries them. -/
def modulus : Nat := 0x8079c0b2d498a3236a2baeb424bf2aa7ded6f0b73a8f02ffe68180ed08078300f1916e1e0f744cbf94e01f955f7431a7ddb90fbc426f69d6472c54c7b6a44fe1e73e10e1b3350e0b9355aa1254d794f37b9612cccea80aebb4af09b0ce50a5e25a8d3ec37fe8a05230918a4341a3ac36e8537907678f9193909eca5f9e08dc936b31bd395ffdaef5a0f3dd215d82bcb3ffbbee84f536bb4160615630ba60c1f92ca002002c7515ddf5e07f22efff4fc598cf0fcd1bfec1ec89f49d38a6902f7e86e4dd0801757020f0ac6f61566707e7f68477ee9deaa6718a623db2a95c04bf7c2450b73e1b9a44e5a182365446df99de5eb462539160ff704340eef9ba2ae3c4735e1478ce05b36c3222714c1b925b16654c6cc1109c4f03276ed87f318f86870ce446f0183f77e4714c6e6e701cf452ca2c9e8563b6ede83b9ce8e182bef3143675946e5fc239d9c65734ccf2f471904ff64e2b1b3aee6932c78352ec262f9615a77216f81821c329beb948d2f4d5bf6ea62bb8498ee29d1ee47e3df8f66f8a6a3f69f390ab418f933ab979d414c07f2fee1e23516c7b698ab4e61f4988c340f88f392699f2429121c675a3309a6e2cb64a9ffd9e0c480bd5bc93e53826775020b37f5915f371f0d04258df1eb5a496f6be79ad651b88cadec135ff30cac8fb4986cf115b9f17cc37924795678e92c026eda22353bf6539a76457a10b7057
def signature : Nat := 0x4f7ae87215c234a67dcffdc4e9ceba3a08224c34a61cd2c94f412615ab156028ba3cda9e9f9880a8d0d7d5a432ad11724770cc5bc293b6c9d015c9268ce5ab8dc1e62c8abd1344dc4e953f9103ea4ab24d0908992dbb3fef8d2602bd3605e4d0092e44d2ebedf678d053ecc0cf9bc0a6c4d81f6c1677597f4ead98a645350dce5abe636eb7ae06ca0c64442e2745f3693fbd6040d1a82a8a0c901d73f24933fd6fca55639ac21f72d2d610040369095996c99d88d700f98e283ddf2f8c04eae40d4d1f37ad949d490aafce95d09602fd0df741d80928b0505cec22c94b00da3112dc86cdd8f0469828d02cfd570c6d4cdb3aafa3cce681a67042964365c174da0130b7dcabd0e894f301c428a2a4400e0f200918887dcffad50585451cea443cd09e0d8f358ad254d26923190a17c3b70d50674c1dd67a3bc34fee71b1d99aec56f6e16a35cad45b44171a67c9e6ef080627a07b79ae1c31488756c9f9bbb10ed1d2bed894a93a2f32b3946d14c1e5b5fa78483fbab0535ce0925a0179678744b539c4c9276acdd448a7ca40eb50c66ed36b6e743b4d659a53bc31a50dc37c1fc9f3bc846671f5024816346b1414df3b93bcbf0fd36008238cd8a78d80326b9706f2934279be44b19dffa7395ae8203330609b2a01ff0983523300617025f06d9386c682c079df923869f9e697cadfee995d75d046480622f30a9b59d9d6b3c4
def block : List Byte := beBytes 512 signature ++ [1, 0, 0, 0, 0, 0, 0, 0] ++ beBytes 512 modulus
def resetCmd : Cmd := cmd0 0xB (leBytes 8 0x1000 ++ List.replicate 32 0)
def message : List Byte := unsignedRecord resetCmd.bytes ++ leBytes 64 0
def ssign : State :=
  let s := smg resetCmd
  { s with root := { s.root with mgmtMem := memSetN [] 0x1000 block,
                                 fuses := { s.root.fuses with lcstate := 2, ownerKey := sha512 (beBytes 512 modulus) } } }
theorem test_pss : pssVerify modulus 65537 message (beBytes 512 signature) = true := by decide
theorem block_read (s : State) (bs : List Byte) (l : bs.length = 0x408) (h : s.root.mgmtMem = memSetN [] 0x1000 bs) :
    s.ownRead none 1#4 0x1000 0x408 = some bs := by
  have e : memGetN (memSetN [] 0x1000 bs) 0x1000 bs.length = bs := memGetN_memSetN_self _ _ _
  rw [l] at e
  simp only [State.ownRead, h, e]
  rfl
theorem block_parts : block.take 512 = beBytes 512 signature ∧ (block.drop 0x208).take 512 = beBytes 512 modulus ∧ fieldAt block 0x200 1 = 1 ∧
    beNat (beBytes 512 modulus) = modulus := by decide
theorem block_verifies (r : Root) (h : r.fuses.ownerKey = sha512 (beBytes 512 modulus)) : r.signedBy block message = true := by
  unfold Root.signedBy
  simp only [block_parts.1, block_parts.2.1, block_parts.2.2.1, block_parts.2.2.2, keyMatches, h, test_pss, beq_self_eq_true, Nat.one_ne_zero,
    if_false, Bool.and_self]
theorem witness_SignedForms : ∃ s1, Begins ssign .mgmt 1 resetCmd s1 ∧ Signed s1 resetCmd 0xB 1 [] ∧ fieldAt resetCmd.bytes 0 1 = 0xB ∧
    s1.root.fuses.lcstate = 2#2 ∧ zeroAt resetCmd.bytes 0x20 32 = true := by
  refine ⟨_, ⟨0, qw resetCmd, [], by rfl, rfl, rfl, rfl, rfl⟩, ⟨⟨by decide, by decide, by decide, by decide, .inl (by decide)⟩, by decide, block, ?_, rfl,
    block_parts.2.2.1, by decide, by decide, .inl rfl, ?_⟩, by decide, rfl, by decide⟩
  · exact block_read _ _ (by decide) rfl
  · exact block_verifies _ rfl
/-- A block of the owner's key that holds zeros. -/
def block0 : List Byte := List.replicate 512 0 ++ [1] ++ List.replicate 519 0
def sbad : State := let s := smg resetCmd
                    { s with root := { s.root with mgmtMem := memSetN [] 0x1000 block0, fuses := { s.root.fuses with ownerKey := 0 } } }
theorem zeros_no_key : keyMatches (List.replicate 512 0) 0 = false := by decide
theorem block0_parts : (block0.drop 0x208).take 512 = List.replicate 512 0 ∧ fieldAt block0 0x200 1 = 1 ∧ signBlockOk block0 = true := by decide
theorem witness_BadSignature : ∃ s1, Begins sbad .mgmt 1 resetCmd s1 ∧ s1.ownRead none 1#4 (fieldAt resetCmd.bytes 0x18 8) 0x408 = some block0 ∧
    signBlockOk block0 = true ∧ s1.root.signedBy block0 message = false := by
  refine ⟨_, ⟨0, qw resetCmd, [], by rfl, rfl, rfl, rfl, rfl⟩, block_read _ _ (by decide) rfl, block0_parts.2.2, ?_⟩
  have e : sbad.root.fuses.ownerKey = 0 := rfl
  simp only [Root.signedBy, block0_parts.1, block0_parts.2.1, Nat.one_ne_zero, if_false]
  have k : keyMatches (List.replicate 512 0) sbad.root.fuses.ownerKey = false := by rw [e]; exact zeros_no_key
  exact (congrArg (· && _) k).trans (Bool.false_and _)

-- R16 to R20: discards are counted; a write to a window without the RDMA bit is refused and counted at the tenant.
/-- Queue pair 0 of tenant 0, with `r` of 2 retries used up; the window grants everything. -/
def qp0 (r : Nat) : Qp := { front := 0, retries := r, limit := 2, error := false, cuts := 0, retrying := true }
def snet (r : Nat) : State :=
  st (tm g0) { xq with qps := [(0, qp0 r)], ips := [9], vlans := [1, 2] } false
theorem test_rdma_write : (match exec (.rdmaWrite (.tenant 0 0) true 0x3000 [7] none) (snet 0) with
    | .next s => (memGet s.mem 0x3000, s.sent.length)
    | _ => (0, 0)) = (7, 1) := by decide
theorem test_rdma_refused : (match exec (.rdmaWrite (.tenant 0 0) true 0x500000 [7] none) (snet 0) with
    | .next s => (s.tenant? 0).map (·.rdmanak)
    | _ => none) = some 1 := by decide
theorem test_retry_exhausted : (match exec (.rcRetryExhausted (some 0) 0) (snet 2) with
    | .next s => (s.tenant? 0).map fun x => (x.qps.map fun q => q.2.error, x.events.held.length)
    | _ => none) = some ([true], 1) := by decide
theorem witness_NetworkForms : (snet 0).root.phase = .running ∧ (∃ s', Discarded (snet 0) (.noTenantPacket 0 8 1) s') ∧
    (∃ s', Discarded (snet 0) (.socketPacket 0 9 1 [7]) s') ∧ (∃ s', Discarded (snet 0) (.fabricTypeDiscard 15 0x800) s') ∧
    ConnUp (snet 0) (.tenant 0 0) (qp0 0) ∧ (∃ s1, Arrives (snet 0) (.tenant 0 0) 0x3000 [7] true (some s1)) ∧
    Arrives (snet 0) (.tenant 0 0) 0x500000 [7] false none ∧ (qp0 0).retries < (qp0 0).limit ∧ (qp0 2).limit ≤ (qp0 2).retries ∧
    (∀ q, ¬ ConnUp (snet 0) (.tenant 0 1) q) ∧ (aget (snet 0).root.mgmtConns 0 = none) := by
  refine ⟨rfl, ⟨_, .noTenant _ _ _ (by decide) (by decide) (by decide)⟩, ⟨_, .socket _ _ _ 0 _ _ (by decide) rfl (by decide) (by decide) (by decide) (by decide)⟩,
    ⟨_, .fabric _ _ (by decide) (by decide)⟩, ⟨rfl, _, rfl, rfl⟩, ⟨((snet 0).homeWrite [(0x3000, 7)]).notice 0 [(0x3000, 7)], _, rfl, (fun h => nomatch h), ?_⟩, ⟨_, rfl, (fun _ => rfl), (fun _ h => nomatch h)⟩,
    by decide, by decide, ?_, rfl⟩
  · intro l h
    cases h
    rfl
  · rintro q ⟨_, x, hx, hq⟩
    cases hx
    cases hq
theorem witness_NoticeRule : (31 : Nat) < 32 ∧ (leBytes 4 5).length = 4 ∧
    noticesOf (some 3) 0x8000 (bytesAt (0x8000 + 32 * 31 + 0xA) [1]) = [{ q := .tenant 3 31, enable := true }] := by decide

-- R37 to R41: a tenant's windows; R61: its teardown.
def cfg0 : TenantCfg :=
  { num := 1, windows := [{ wstart := 0, wend := 0x10000, reloc := 0x200000, perm := 0xF#4 }], quota := ⟨4, 4, 4, 1024, 4, 4, 0⟩, cores := [1],
    quantum := 65536, ips := [10], vlans := [1, 2], objArea := 0x8000, signKey := none, supvBase := 0x4000, cacheArea := 0x8000, bankModes := [],
    bankOwn := [] }
def scr0 : State := { State.reset with root := { State.reset.root with hvstate := 0 } }
theorem test_tenantCreate : (match exec (.tenantCreate cfg0) scr0 with
    | .next s => (s.tenant? 1).map fun x => (x.queues.length, x.fds.length, x.supv.tvecS)
    | _ => none) = some (32, 3, 0x4000) := by decide
theorem test_tenantCreate_refused : (match exec (.tenantCreate { cfg0 with windows := [{ wstart := 0, wend := 0x10001, reloc := 0, perm := 0xF#4 }] }) scr0 with
    | .next s => s.tenants.length
    | _ => 9) = 0 := by decide
theorem witness_TenantCreation : scr0.root.phase = .running ∧ scr0.root.hvstate = 0#4 ∧ scr0.root.fuses.lcstate ≠ 3#2 ∧ scr0.tenant? 1 = none ∧
    WindowsAccepted scr0 cfg0.windows ∧ cfg0.cores.Nodup ∧ cfg0.bankModes = [] ∧ ¬ WindowsAccepted scr0 [] := by
  refine ⟨rfl, rfl, by decide, rfl, ⟨by decide, by decide, ?_, by simp [cfg0], _, rfl, by decide, by decide⟩, by decide, rfl, fun h => absurd h.1 (by decide)⟩
  intro w hw
  rw [List.mem_singleton.mp hw]
  exact ⟨by decide, by decide, by decide, by decide, by decide, by decide, .inr (by decide), (fun _ h => nomatch h), (fun _ h => nomatch h)⟩
theorem test_tenantTeardown : (match exec (.tenantTeardown 0) (sc g0) with
    | .next s => (s.tenants.length, s.teams.length, s.root.scrubbing.map (·.2.wend))
    | _ => (9, 9, [])) = (0, 0, [0x100000]) := by decide
theorem witness_TenantTeardown : (∀ e ∈ (sc g0).teams, e.2.tenant = 0 → (∀ c ∈ e.2.ctxs, c.cmds = []) ∧ ∀ g ∈ e.2.groups, g.2.drained = true) ∧
    keysRise (sc g0).tenants = true ∧ bareTenant.comms = [] ∧ (∃ c ∈ (tc edesc).ctxs, c.cmds ≠ []) :=
  ⟨by decide, by decide, rfl, ⟨_, List.mem_cons_self, by decide⟩⟩
theorem witness_TenantScrub : (sc g0).mem.wf = true := by decide
/-- A supervisor image: its vector at 0x10000 and its initialisation entry behind it. -/
def objS : CodeObj :=
  { obj0 with syms := [{ sym0 with name := nameVector, value := 0 }, { sym0 with name := nameInit, value := 0x20 }] }
def xs (p : Option Nat) : Tenant := { xq with objects := [(0, objS)], supv := { xq.supv with pending := p } }
def ss : State := { st (tm g0) (xs (some 0)) false with teams := [], nextKey := 1, cores := [(0, { cyc := 0, parts := [] })] }
theorem test_supvInstallActivate : (match exec (.supvInstallActivate 0) ss with
    | .next s => (s.tenant? 0).map fun x => (x.supv.tvecS, x.supv.init, x.supv.pending)
    | _ => none) = some (0x10000, some 0x10020, none) := by decide
theorem witness_InstallActivates : ss.tenant? 0 = some (xs (some 0)) ∧ objS.supervisor = some (0x10000, 0x10020) ∧
    ss.roomOn initNeed 0 noneGone = true ∧ (xs (some 0)).supv.rerun = false ∧ (0 ∈ (xs (some 0)).cores ∧ ∀ c ∈ (xs (some 0)).cores, 0 ≤ c) ∧
    (∃ e ∈ (sc g0).teams, e.2.tenant = 0) := ⟨rfl, by decide, by decide, rfl, by decide, ⟨_, List.mem_singleton.mpr rfl, rfl⟩⟩

/-! ## The vendor's handlers and a step -/

/-- A group in Bowline's handler of a SYSCALL with a number, at its entry (TVEC_S is 0). -/
def trS (n : Nat) : TrapFrame := { frame0 with causeWord := BitVec.ofNat 64 (n * 2 ^ 32) }
def gbw (n : Nat) : Group := { regs [(3, 0)] with pc := 0, mode := .supervisor, traps := [(0, trS n)], trap := some 0 }
def xb : Tenant := { bareTenant with fds := [(0, { kind := 0 }), (1, { kind := 1 }), (2, { kind := 1 })] }
def sb (n : Nat) : State := st (tm (gbw n)) xb false
-- R239: SOCKET answers descriptor 3, ACCEPT on no socket −1, and number 10 is not listed.
theorem test_bowlineSocket : (match exec (.bowlineSocket ⟨0, 0⟩ .scalar []) (sb 5) with
    | .next s => ((s.group? ⟨0, 0⟩).map fun g => (g.sreg 3, g.mode, g.pc), (s.tenant? 0).map fun x => x.fds.length)
    | _ => (none, none)) = (some (3, .user, 0x10004), some 4) := by decide
theorem test_bowlineAccept : (match exec (.bowlineAccept ⟨0, 0⟩ .scalar []) (sb 8) with
    | .next s => (s.group? ⟨0, 0⟩).map (·.sreg 3)
    | _ => none) = some 0xFFFFFFFFFFFFFFFF#64 := by decide
theorem test_vendor_unknown : (match vendorAnswer ⟨0, 0⟩ .scalar (sb 10) with
    | .next s => (s.group? ⟨0, 0⟩).map (·.sreg 3)
    | _ => none) = some 0xFFFFFFFFFFFFFFFB#64 := by decide
theorem at_sb (n : Nat) : AtHandler (sb n) ⟨0, 0⟩ .scalar .supervisor (tm (gbw n)) (gbw n) 0 (trS n) := ⟨rfl, rfl, rfl, rfl, rfl, rfl, rfl⟩
theorem witness_BowlineServes : AtHandler (sb 5) ⟨0, 0⟩ .scalar .supervisor (tm (gbw 5)) (gbw 5) 0 (trS 5) ∧
    bowlineCall (.bowlineSocket ⟨0, 0⟩ .scalar []) = some (⟨0, 0⟩, .scalar, [], 5, 1) ∧ xb.supv.init = none ∧ (trS 5).cause = .syscall ∧
    (trS 5).causeWord.toNat / 2 ^ 32 = 5 ∧ (trS 5).fin = false ∧ ScalarsHere (gbw 5) [3] ∧
    (∃ s1 v, Served ⟨0, 0⟩ 0 0 (fun _ => 0#32) (sb 5) [] 5 s1 v []) ∧ (∃ s1 v, Served ⟨0, 0⟩ 0 0 (fun _ => 0#32) (sb 5) [] 4 s1 v []) ∧
    (∃ s1 v, Served ⟨0, 0⟩ 0 0 (fun _ => 0#32) (sb 5) [] 8 s1 v []) ∧ ∃ s1 v, Served ⟨0, 0⟩ 0 0 (fun _ => 7#32) (sb 5) [.done 1] 1 s1 v [.done 1] :=
  ⟨at_sb 5, rfl, rfl, rfl, by decide, rfl, here_of rfl _, ⟨_, _, .socket 3 _ (by decide) ⟨_, rfl, by decide, by decide, by decide, rfl⟩⟩,
   ⟨_, _, .closed _ rfl (by decide)⟩, ⟨_, _, .acceptBadf (by decide)⟩, ⟨_, _, .readBadf (.inl (by decide))⟩⟩
/-- The hypervisor's handler of an HCALL with a number, at its entry. -/
def trH (n : Nat) : TrapFrame := { trS n with cause := .hcall, pmode := .supervisor }
def ghv (n : Nat) : Group := { gbw n with mode := .hypervisor, pc := 0, traps := [(0, trH n)] }
def shv (n : Nat) : State := let s := st (tm (ghv n)) (xs none) false
                             { s with root := { s.root with tvecH := 0 } }
theorem test_supvInstall : (match exec (.supvInstall ⟨0, 0⟩ .scalar) (shv 1) with
    | .next s => ((s.tenant? 0).map (·.supv.pending), (s.group? ⟨0, 0⟩).map fun g => ((aget g.ks 3).getD 1, g.mode))
    | _ => (none, none)) = (some (some 0), some (0, .supervisor)) := by decide
theorem witness_HypervisorCalls : AtHandler (shv 1) ⟨0, 0⟩ .scalar .hypervisor (tm (ghv 1)) (ghv 1) 0 (trH 1) ∧ (trH 1).cause = .hcall ∧
    (trH 1).causeWord.toNat / 2 ^ 32 = 1 ∧ (∃ s1 v, InstallAnswer (shv 1) 0 0 false s1 v) ∧ wholeCall .scalar (ghv 2) 0 (trH 2) = true ∧
    (tm (ghv 2)).halt = none :=
  ⟨⟨rfl, rfl, rfl, rfl, rfl, rfl, rfl⟩, rfl, by decide, ⟨_, _, .pending _ (0x10000, 0x10020) rfl (by decide) rfl rfl⟩, rfl, rfl⟩
theorem witness_VendorAnswers : AtHandler (sb 10) ⟨0, 0⟩ .scalar .supervisor (tm (gbw 10)) (gbw 10) 0 (trS 10) ∧
    9 < (trS 10).causeWord.toNat / 2 ^ 32 ∧ AtHandler (shv 3) ⟨0, 0⟩ .scalar .hypervisor (tm (ghv 3)) (ghv 3) 0 (trH 3) ∧
    (trH 3).causeWord.toNat / 2 ^ 32 = 3 ∧ Cause.brk ≠ .syscall := ⟨at_sb 10, by decide, ⟨rfl, rfl, rfl, rfl, rfl, rfl, rfl⟩, by decide, by decide⟩

/-- The word of addi s5, s0, 3 at 0x10000, and the words of a lane nop. -/
def sfetch : State := withMem (sc g0) 0x10000 (leBytes 4 0x08500003)
def lfetch (l : List W32) : State := withMem (ln gl) 0x10000 (l.map fun w => leBytes 4 w.toNat).flatten
theorem test_step_addi : (match step sfetch with
    | .next s => (s.group? ⟨0, 0⟩).map fun g => (g.sreg 5, g.pc)
    | _ => none) = some (3, 0x10004) := by decide
theorem test_step_illegal : (match step (withMem (sc g0) 0x10000 (leBytes 4 0xFFFFFFFF)) with
    | .next s => ((s.group? ⟨0, 0⟩).bind fun g => g.traps.head?).map fun e => (e.2.cause, e.2.epc)
    | _ => none) = some (.illegalInstruction, 0x10000) := by decide
theorem test_fetchWord : (match step (State.reset.withFetchWord 32 0x08500003) with
    | .next s => (s.group? ⟨0, 0⟩).map fun g => g.sreg 5
    | _ => none) = some 3 := by decide
theorem fetches_g0 (m : Memory) : ScalarFetches { sc g0 with mem := m } (tm g0) g0 := ⟨⟨rfl, rfl, rfl⟩, rfl, rfl, .inl rfl, rfl⟩
theorem fetches_gl (m : Memory) : LaneFetches { ln gl with mem := m } (tm gl) gl 0 f0 := ⟨⟨rfl, rfl, rfl⟩, rfl, rfl, rfl, .inl rfl, (fun e he _ _ x hx _ _ hr => by
  rw [List.mem_singleton.mp he] at hx
  rw [List.mem_singleton.mp hx] at hr
  exact nomatch (show false = true from hr)), .inl rfl⟩
theorem witness_StepRunsDecoded : ScalarFetches sfetch (tm g0) g0 ∧ g0.pc.toNat % 4 = 0 ∧
    sfetch.translateRange 0 0 .user g0.pc.toNat 4 needX = .ok (some [(0x10000, 4)]) ∧
    decodeScalar (BitVec.ofNat 32 (fieldAt ((pieceAddrs [(0x10000, 4)]).map (memGet sfetch.mem)) 0 4)) = some (.addi 5 0 3) ∧
    (∃ i, LaneFetches (lfetch [0x30004000, 0, 2]) (tm gl) gl 0 f0 ∧ decodeLane 0x30004000 0 2 = .ok i) ∧
    (lfetch [0x30004000, 0, 2]).translateRange 0 0 .user f0.pc.toNat 12 needX = .ok (some [(0x10000, 12)]) ∧
    decodeScalar 0xFFFFFFFF = none ∧ decodeLane 0xFFFFFFFF 0xFFFFFFFF 0xFFFFFFFF = .illegal ∧
    ({ sfetch with agenda := [.event .teamPlace] } : State).agenda = .event .teamPlace :: [] ∧ encode .teamPlace = none ∧
    (encode (.addi 5 0 3)).isSome = true :=
  ⟨fetches_g0 _, by decide, rfl, by decide, ⟨_, fetches_gl _, rfl⟩, rfl, by decide, by decide, rfl, rfl, rfl⟩
theorem witness_EncodingRoundTrip : (Instr.addi 63 0 (-2048)).wellFormed = true ∧ (encode (.addi 63 0 (-2048))).isSome = true ∧
    (Instr.laneLd hh mm true .b32 1023 (.v 2) 0x1FFFFF).wellFormed = true := by decide
theorem witness_MemoryCanonical : Canonical sfetch ∧ ∃ s', step sfetch = .next s' := ⟨⟨by decide, by decide⟩, _, rfl⟩

/-- The tag record of an affine register with a shadow, by the layout of R242: shape 2, CC 3, base 0x10, stride 4, no slot of its own,
shadow slot 7. -/
theorem test_save_tag :
    saveTag { tag := .affine 0x10#32 4#32, cc := 3, spare := false } (some { words := [], written := 0#96 }) 7 =
      ([2, 3, 0, 0, 0x10, 0, 0, 0, 4, 0, 0, 0, 0xFF, 0xFF, 7, 0].map fun (b : Byte) => some b) := by decide

/-- A knot's word by R165: PHASE 63, EXPECT 62 to 55, PEND 54 to 47, BYTES signed below. -/
theorem test_knot_word :
    Knot.word { phase := true, expect := 2, pend := 1, bytes := -1, wide := false, last := false, stamp := 0, lastStamp := 0 } = 0x8100FFFFFFFFFFFF#64 := by decide

/-! ## Further witnesses -/

/-- 1.0 and −1.0 as words and as numbers. -/
theorem isNum_one : IsNum f32 0x3F800000 1 := ⟨false, 8388608, -23, by decide, by norm_num [realOf]⟩
theorem isNum_negOne : IsNum f32 0xBF800000 (-1) := ⟨true, 8388608, -23, by decide, by norm_num [realOf]⟩
theorem isNum_two : IsNum f32 0x40000000 2 := ⟨false, 8388608, -22, by decide, by norm_num [realOf]⟩
theorem isNum_zero : IsNum f32 0 0 := ⟨false, 0, -149, by decide, by norm_num [realOf]⟩

theorem witness_ArithmeticRounds : IsNum f32 (0x3F800000#32).toNat 1 ∧ IsNum f32 (0x40000000#32).toNat 2 ∧ IsNum f32 (0xBF800000#32).toNat (-1) ∧
    IsNum f32 (0#32).toNat 0 ∧ ((1 : ℝ) + 2 ≠ 0) ∧ ((1 : ℝ) + -1 = 0) ∧ ((1 : ℝ) - 2 ≠ 0) ∧ ((1 : ℝ) - 1 = 0) ∧ ((1 : ℝ) * 0 = 0) ∧
    ((1 : ℝ) * 2 ≠ 0) ∧ ((1 : ℝ) * 2 + -1 ≠ 0) ∧ ((1 : ℝ) * -1 + 1 = 0) :=
  ⟨isNum_one, isNum_two, isNum_negOne, isNum_zero, by norm_num, by norm_num, by norm_num, by norm_num, by norm_num, by norm_num, by norm_num, by norm_num⟩

theorem witness_ConversionRounds : IsNum f32 (0x3F800000#32).toNat 1 ∧ IsNum bf16 ((0x3F80#32).toNat % 2 ^ 16) 1 ∧
    IsNum fp16 ((0x3C00#32).toNat % 2 ^ 16) 1 ∧ (∀ m, NearestInt m 1 1) ∧ (0x7FFFFFFF#32 ≠ 0#32) ∧ val32 0x7F800001 = .nan := by
  refine ⟨isNum_one, ⟨false, 128, -7, by decide, by norm_num [realOf]⟩, ⟨false, 1024, -10, by decide, by norm_num [realOf]⟩, ?_, by decide, by decide⟩
  intro m; cases m <;> norm_num [NearestInt]

theorem witness_FunctionRounds : IsNum f32 (0x40000000#32).toNat 2 ∧ (2 : ℝ) ≠ 0 ∧ (0 : ℝ) < 2 ∧ (2 : ℝ) = ((2 : Int) : ℝ) ∧
    (2 : ℝ) = (2 : ℝ) ^ (1 : Int) ∧ IsNum f32 (0xBF800000#32).toNat (-1) ∧ (-1 : ℝ) < 0 ∧ IsNum f32 (0x43000000#32).toNat 128 ∧
    val32 0x7F800001 = .nan :=
  ⟨isNum_two, by norm_num, by norm_num, by norm_num, by norm_num, isNum_negOne, by norm_num,
    ⟨false, 8388608, -16, by decide, by norm_num [realOf]⟩, by decide⟩
/-- A float format: BF16 for A and B; a row of zeros of A and a column of zeros of B. -/
theorem zeroProducts (j : Nat) (hj : j < 48) : rowFloat (fmtrA 0) (List.replicate 96 0) j = .fin false 0 (-133) ∧
    colFloat (fmtrB 0) (List.replicate 24 0) j = .fin false 0 (-133) :=
  (by decide : ∀ j < 48, rowFloat (fmtrA 0) (List.replicate 96 0) j = .fin false 0 (-133) ∧
    colFloat (fmtrB 0) (List.replicate 24 0) j = .fin false 0 (-133)) j hj
theorem witness_MmaFloating : fmtrAcck 0 = false ∧ (∀ j < 48, rowFloat (fmtrA 0) (List.replicate 96 0) j = .fin false 0 (-133) ∧
      colFloat (fmtrB 0) (List.replicate 24 0) j = .fin false 0 (-133)) ∧
    (0 : ℝ) = realOf false 0 (-133) ∧ val32 0x3F800000 = .fin false 8388608 (-23) ∧ (mmaElement 0 (List.replicate 96 0) (List.replicate 24 0) 0x3F800000).1 = 0x3F800000#32 ∧
    (mmaElement 0 (List.replicate 96 0) (List.replicate 24 0) 0x80000000).1 = 0#32 ∧ val32 0x7F800001 = .nan ∧
    (val32 0x7F800000 = .inf false ∧ FVal.inf true ∉ val32 0x7F800000 :: (List.range 48).map fun j =>
      mulVal (rowFloat (fmtrA 0) (List.replicate 96 0) j) (colFloat (fmtrB 0) (List.replicate 24 0) j)) :=
  ⟨by decide, zeroProducts, by norm_num [realOf], by decide, by decide, by decide, by decide, by decide, by decide⟩

/-- A gang whose second member has another A format, and one whose leader's A is not aligned or not mapped. -/
def fx8 : Fragment := { fx with fmtr := 0x821, wait := .rendezvous }
def tgangf : Team := { tgang true with groups := [(0, gmem 0 true), (1, { gmem 1 true with frags := [(0, fx8)] })] }
def memf : Member := { mem1 1 with ctx := { fid := 0, frag := fx8, w := 5 } }
def gmemA (a : W32) : Group := { gmem 0 true with vregs := [(2, vr (.uniform a)), (3, vr (.uniform 0))] ++ (List.range 6).map fun k => (8 + k, vr (.uniform 0xFF)) }
def tgangA (a : W32) : Team := { tgang true with groups := [(0, gmemA a), (1, gmem 1 true)] }
theorem witness_GangTraps : gangReady (st tgangf bareTenant true) 0 tgangf 0 = some [mem1 0, memf] ∧
    (∃ ea cols, MemberReady (st tgangf bareTenant true) tgangf (mem1 0) ea cols) ∧ fmtrA memf.ctx.frag.fmtr ≠ fmtrA (mem1 0).ctx.frag.fmtr ∧
    inLatchRun (st tgangf bareTenant true) tgangf (gmem 1 true) = false ∧
    gangReady (st (tgangA 0x2004) bareTenant true) 0 (tgangA 0x2004) 0 = some [mem1 0, mem1 1] ∧
    (∃ cols, MemberReady (st (tgangA 0x2004) bareTenant true) (tgangA 0x2004) (mem1 0) 0x2004 cols) ∧ (0x2004 : W64).toNat % 128 ≠ 0 ∧
    (∃ cols, MemberReady (st (tgangA 0x500000) bareTenant true) (tgangA 0x500000) (mem1 0) 0x500000 cols) ∧ (0x500000 : W64).toNat % 128 = 0 ∧
    ∃ reason bad, TileFails (st (tgangA 0x500000) bareTenant true) (tgangA 0x500000) fx 0x500000 reason bad := by
  refine ⟨rfl, ⟨_, _, gmem 0 true, 0x2000, 0, List.replicate 6 (.uniform 0xFF), rfl, rfl, rfl, rfl, rfl⟩, by decide, by decide, rfl,
    ⟨_, gmemA 0x2004, 0x2004, 0, List.replicate 6 (.uniform 0xFF), rfl, rfl, rfl, rfl, rfl⟩, by decide,
    ⟨_, gmemA 0x500000, 0x500000, 0, List.replicate 6 (.uniform 0xFF), rfl, rfl, rfl, rfl, rfl⟩, by decide,
    5, 0x500000, 0, by decide, by omega, .inr ⟨by decide, 0, by decide, by omega, by decide⟩⟩

theorem witness_TurnRule : StreamRef.scalar = StreamRef.scalar ∧ orderable (.knotArrive 5) = true ∧
    ∃ s', exec (.knotArrive 5) (turnGiven sord ⟨0, 0⟩ .scalar) = .next s' := ⟨rfl, rfl, _, rfl⟩

/-- An armed chunk that is due, of an instance that has ended. -/
theorem witness_ArmedChunkLate : let e : Armed := { arm true with chunk := true, src := 0, dst := 5, bytes := 2 }
    let x : Tenant := { xa true with armed := [(0, e)] }
    (st (tm g0) x false).tenant? 0 = some x ∧ aget x.armed 0 = some e ∧ e.chunk = true ∧ e.due = true ∧ ∀ c, aget x.comms e.src = some c → aget c.insts e.dst = none :=
  ⟨rfl, rfl, rfl, rfl, fun _ h => nomatch h⟩

/-- A kacc that waits first at a partition of limit 1 with a stream of 4 records, of which `p` have been written. -/
def kacw : Instr := .kacc hh 0 0 false false (.v 1) (.v 2)
def str0 (p : W32) : GStream := { sbase := 0x8000, slog := 2, p := p, pidx := 0x9000, cidx := 0x9040 }
def partk (p : W32) : Partition :=
  { part2 with stream := some (str0 p), tokens := [{ g := ⟨0, 0⟩, stream := .lane 0, instr := kacw, counted := true, record := [] }] }
theorem test_kacc_room : (match exec (.groveStreamRoom 0 7) (lpart (partk 0) gk) with
    | .next s => (aget (s.core 0).parts 7).map fun q => (q.tokens.length, q.stream.map (·.p))
    | _ => none) = some (0, some 1) ∧
    (match exec (.groveStreamRoom 0 7) (lpart (partk 4) gk) with
    | .next s => (aget (s.core 0).parts 7).map fun q => (q.tokens.length, q.stream.map (·.p))
    | _ => none) = some (1, some 4) := by decide
theorem kacc_applies (p : W32) : KaccApplies (lpart (partk p) gk) (tpart gk) gk 0 f2 hh 7 (partk p) kacw
    ((gk.decAll (groupOf (.v 1) (sized false) ++ valueRegs 0 false (.v 2)) []).advance 0)
    ((partk p).applyAll 0 (grovePartials 0 [(9, 3), (11, 3)])).1 ((partk p).applyAll 0 (grovePartials 0 [(9, 3), (11, 3)])).2 :=
  .mk 0 0 false false (.v 1) (.v 2) [.affine 9 1] [.uniform 3] _ _ ⟨rfl, rfl, rfl, rfl, rfl, rfl⟩
    ⟨⟨rfl, rfl⟩, fun x h => by cases h; exact ⟨rfl, rfl⟩⟩ rfl rfl rfl (by intro _ n h; cases h) (.inl rfl) rfl
theorem witness_WaitingKacc : aget ((lpart (partk 0) gk).core 0).parts 7 = some (partk 0) ∧
    (∃ s', KaccDone (lpart (partk 0) gk) (tpart gk) gk 0 f2 hh 7 (partk 0) kacw s') ∧
    ((partk 4).applyAll 0 (grovePartials 0 [(9, 3), (11, 3)])).2.length = 1 ∧ (partk 4).stream = some (str0 4) ∧
    (lpart (partk 4) gk).translateRange 0 0 .user 0x9040 4 1#4 = .ok (some [(0x9040, 4)]) ∧
    ((4 : W32) - BitVec.ofNat 32 (leNat ((pieceAddrs [(0x9040, 4)]).map (memGet (lpart (partk 4) gk).mem)))).toNat = 4 := by
  refine ⟨rfl, ⟨_, _, _, _, kacc_applies 0, .inr ⟨str0 0, [pieceAddrs [(0x8000, 16)]], pieceAddrs [(0x9000, 4)], by decide, by decide, rfl, ?_, rfl⟩⟩, by decide, rfl, by decide, by decide⟩
  refine ⟨⟨[(0x9040, 4)], _, by decide, rfl, by decide⟩, by decide, ?_, [(0x9000, 4)], by decide, rfl⟩
  intro j h
  obtain rfl : j = 0 := by simpa using h
  exact ⟨[(0x8000, 16)], by decide, rfl⟩
-- R50, R81, R82: a frame whose communicator has ended, on a flow that the device still holds.
def sgone : State := let s := scm { cm with ckey := 7 }; { s with root := { s.root with flows := [fl0 3] } }
theorem test_frame_late : (match exec (.spliceFrameDiscard ⟨fh0, 3⟩) sgone with
    | .next s => (s.root.counters.splice, s.root.flows.map (·.recvPsn))
    | _ => (9, [])) = (1, [1]) := by decide
theorem witness_FrameDelivery : (∀ e ∈ sgone.tenants, ∀ k ∈ e.2.comms, ¬ Addressed sgone fh0 e.1 k.2) ∧ FlowNamed sgone fh0 (fl0 3) ∧
    (fl0 3).recvPsn = fh0.psn ∧ (fl0 3).recvPsn ≠ ({ fh0 with psn := 5 } : FrameHdr).psn ∧ fh0.dst = fh0.coord :=
  ⟨(fun e he k hk h => by
     rw [List.mem_singleton.mp he] at hk h
     rw [List.mem_singleton.mp hk] at h
     exact absurd h.2.2.1 (by decide)),
   ⟨by decide, by decide, by decide, by decide, by decide, by decide⟩, by decide, by decide, by decide⟩

/-- COMM_BUILD of two members with the member list at 0x3000 and the routes at 0x4000, this device the coordinator; and COMM_REBUILD. -/
def memberList : List Byte := leBytes 4 5 ++ leBytes 4 0 ++ (leBytes 2 0 ++ [0, 0, 0, 0, 0, 0]) ++ (leBytes 2 1 ++ [0, 0, 0, 0, 0, 0])
def routeBytes : List Byte := List.replicate 16 0 ++ ([2, 0] ++ leBytes 6 0x55 ++ List.replicate 8 0)
def buildBody (list : Nat) : List Byte := leBytes 8 list ++ leBytes 4 2 ++ leBytes 4 0 ++ leBytes 8 0x4000 ++ List.replicate 16 0
def rebuildBody (h : Nat) : List Byte := leBytes 4 h ++ leBytes 4 0 ++ leBytes 8 0x4000 ++ List.replicate 24 0
def sbuild : State := withMem (withMem (squ emptyQueue) 0x3000 memberList) 0x4000 routeBytes
def xbrk (f : Option Nat) : Tenant := { xq with comms := [(0, { cm with broken := f })] }
theorem routes_kept (n : Nat) (h : n < 2) : RoutesKept routeBytes 2 n ↔ n = 0 := by
  interval_cases n
  · exact ⟨fun _ => rfl, fun _ i hi => by interval_cases i <;> decide⟩
  · exact ⟨fun h => absurd ((h 1 (by decide)).1 rfl) (by decide), fun h => absurd h (by decide)⟩
theorem witness_CommandBuilds :
    (∃ s2, CommandForm sbuild 0 0 1 (cmd0 6 (buildBody 0x3000)) xq (.commBuild (.tenant 0 0) 1) s2) ∧
    (∃ s2, CommandForm sbuild 0 0 1 (cmd0 6 (buildBody 0x500000)) xq (.commBuild (.tenant 0 0) 1) s2) ∧
    MembersKept memberList 2 ∧ RoutesKept routeBytes 2 0 ∧ ¬ RoutesKept routeBytes 2 1 :=
  have hm : MembersKept memberList 2 := ⟨by decide, fun i hi => by interval_cases i <;> decide⟩
  ⟨⟨_, .build memberList routeBytes 2 0 0 (by decide) (by decide) (by decide) (by decide) hm ((routes_kept 0 (by decide)).mpr rfl) (by decide)
      (fun _ h => nomatch h) (by decide) (by decide) (fun _ h => absurd h (by omega)) (by decide)⟩,
   ⟨_, .buildOutside 2 (by decide) (.inl (by decide))⟩, hm, (routes_kept 0 (by decide)).mpr rfl, fun h => absurd ((routes_kept 1 (by decide)).mp h) (by decide)⟩
theorem witness_CommandRebuilds :
    (∃ s2, CommandForm { sbuild with root := { sbuild.root with fabup := 4 } } 0 0 1 (cmd0 7 (rebuildBody 0x30000000)) (xbrk (some 3)) (.commRebuild (.tenant 0 0) 1) s2) ∧
    (∃ s2, CommandForm { sbuild with root := { sbuild.root with fabup := 0 } } 0 0 1 (cmd0 7 (rebuildBody 0x30000000)) (xbrk (some 3)) (.commRebuild (.tenant 0 0) 1) s2) ∧
    (∃ s2, CommandForm sbuild 0 0 1 (cmd0 7 (rebuildBody 0x30000000)) (xbrk none) (.commRebuild (.tenant 0 0) 1) s2) ∧
    ∃ s2, CommandForm sbuild 0 0 1 (cmd0 7 (rebuildBody 0x30000001)) (xbrk none) (.commRebuild (.tenant 0 0) 1) s2 :=
  ⟨⟨_, .rebuild { cm with broken := some 3 } routeBytes (by decide) (by decide) rfl (by decide) ((routes_kept 0 (by decide)).mpr rfl)
      (fun i hi h => by obtain rfl : i = 1 := (by have : i < 2 := hi; have : i ≠ 0 := h; omega); decide)⟩,
   ⟨_, .rebuildDown { cm with broken := some 3 } routeBytes 1 (by decide) (by decide) rfl (by decide) ((routes_kept 0 (by decide)).mpr rfl)
      (by decide) (by decide) (by decide)⟩,
   ⟨_, .rebuildUnbroken cm (by decide) rfl⟩, ⟨_, .rebuildNone (by decide)⟩⟩

/-- One held event with vector 3, whose message is enabled, a region at 0x50000 with 64 slots, over connection 0. -/
def ev3 : Held := .event (List.replicate 32 7) (some 3)
def sev1 (held : List Held) : State :=
  let s := st (tm g0) { xq with events := { next := 65, held := held }, qps := [(0, qp0 0)] } false
  { s with mem := [(0x408, 6), (0x40A, 1), (0x402, 5), (0x40C, 3), (0x86C, 1)].foldl (fun m (e : Nat × Byte) => memSet m e.1 e.2) s.mem }
theorem test_event_written : (match exec (.eventHeldWrite (some 0)) (sev1 [ev3]) with
    | .next s => ((s.eventsOf (some 0)).held.length, (s.eventsOf (some 0)).next, s.sent.length)
    | _ => (9, 9, 9)) = (0, 66, 4) := by decide
theorem witness_EventsRoom : EventRoom (sev1 [ev3]) (some 0) ∧ ((sev1 [ev3]).eventsOf (some 0)).held = [ev3] ∧
    ¬ EventRoom sev (some 0) := by
  refine ⟨⟨by decide, by decide, by decide, by decide, by decide⟩, rfl, fun h => absurd h.2.2.2.1 (by decide)⟩
theorem heldEvents_replicate (n : Nat) (b : List Byte) (v : Option Nat) : heldEvents (List.replicate n (.event b v)) = n := by
  simp [heldEvents]
/-- 4096 events held, and a region that takes none. -/
def sfull : State := st (tm g0) { xq with events := { next := 0, held := List.replicate 4096 (.event [] none) } } false
theorem witness_EventsHeld : sfull.tenant? 0 = some { xq with events := { next := 0, held := List.replicate 4096 (.event [] none) } } ∧
    4096 ≤ heldEvents (List.replicate 4096 (Held.event [] none)) ∧ Flushed (some 0) sfull sfull ∧
    heldEvents [ev3] < 4096 ∧ (∃ a b w, List.replicate 4096 (Held.event [] none) = a ++ [.event b w]) :=
  ⟨rfl, by rw [heldEvents_replicate], .stop _ (.inl fun h => absurd h.1 (by decide)), by decide,
   List.replicate 4095 (.event [] none), [], none, by rw [← List.replicate_succ']⟩

theorem witness_EnableBad : let s := snote true { emptyQueue with qprio := 2 } [(1, 0x80), (8, 4), (9, 4), (10, 1)]
    NoticeTaken s (.tenant 0 0) true { s with root := { s.root with notices := [] } } ∧ s.cbRead (some 0) 0xA 1 = 1 ∧
    ¬ s.cbRead (some 0) 9 1 ≤ 3 ∧ (snote true emptyQueue [(8, 17), (10, 1)]).cbRead (some 0) 8 1 = 17 ∧ (snote true emptyQueue []).cbRead (some 0) 0xA 1 = 0 :=
  ⟨⟨[], [], rfl, (fun _ h => nomatch h), rfl⟩, by decide, by decide, by decide, by decide⟩
/-- Two queues of a tenant with a command each, after one of queue 0. -/
def stwo : State := let s := st (tm g0) { xq with queues := [(0, qw (cmd0 4 signalBody)), (1, qw (cmd0 4 signalBody))] } false
                    { s with root := { s.root with lastTenant := [(0, 0)], lastQueue := [(0, 0)] } }
theorem witness_TurnOf : keysRise stwo.tenants = true ∧ MayStart stwo (.tenant 0 0) (qw (cmd0 4 signalBody)) ∧ MayStart stwo (.tenant 0 1) (qw (cmd0 4 signalBody)) ∧
    stwo.nextStart = some (.tenant 0 1, 0) ∧ TurnOf (some 0) 1 0 ∧ ¬ MayStart stwo .mgmt stwo.root.mgmtQueue :=
  ⟨by decide, ⟨_, _, rfl, by decide, by decide⟩, ⟨_, _, rfl, by decide, by decide⟩, by decide, by unfold TurnOf; omega,
   fun ⟨_, _, h, _⟩ => nomatch h⟩
theorem witness_StartManagement : MayStart (smg (cmd0 0xA (queryBody 1))) .mgmt (smg (cmd0 0xA (queryBody 1))).root.mgmtQueue ∧
    (smg (cmd0 0xA (queryBody 1))).nextStart = some (.mgmt, 0) := ⟨⟨_, _, rfl, by decide, by decide⟩, by decide⟩

/-- An ordered launch of `n` teams of one core. -/
def lao (n : Nat) : Launch := { law 9 with gx := n, record := { rec1 with lflags := 1, waits := [] }, next := 0, keys := [], phase := .waiting }
theorem witness_ShapeOrdered : (∃ c ∈ xq.cores, (slaw 9).fitsEmpty (lao 1).record.need c = true) ∧ quotaCovers xq noNeed (lao 1).record.need = true ∧
    (lao 1).isOrdered = true ∧ (lao 1).saved = [] ∧ (lao 1).next = 0 ∧ quotaCovers xq noNeed ((lao 1).record.need.times 1) = true ∧
    (slaw 9).shapeRefusal (lao 1) = none := by decide

/-- A launch that has ended with signals on two timelines, one of them lower than its value, and one that names none. -/
def las : Launch := { lae none with record := { rec1 with signals := [(0xFFFFFFFF, 0), (0x20000003, 4), (0x20000004, 1), (0xFFFFFFFF, 0)] } }
def xsig : Tenant := { xq with queues := [(0, qr (cmd0 1 launchBody))], signals := [(4, 5)] }
def slas : State := { st (tm g0) xsig false with launches := [(0, las)], teams := [] }
theorem test_launch_signals : (match exec (.launchComplete 0) slas with
    | .next s => (s.tenant? 0).map fun x => (aget x.signals 3, aget x.signals 4)
    | _ => none) = some (some 4, some 5) := by decide
theorem witness_Signalled : ∃ s', Signalled 0 slas las.record.signals s' true :=
  ⟨_, .none _ _ _ _ _ (.made _ _ xsig _ _ _ _ (by decide) rfl (by decide) (.lower _ _ { xsig with signals := [(3, 4), (4, 5)] } _ _ _ _ (by decide) rfl (by decide)
    (.none _ _ _ _ _ (.nil _))))⟩
theorem witness_LaunchStays : (st (tm g0) xq false).launch? 0 = none ∧ sord.launch? 0 = some { la1 with next := 1, keys := [0] } ∧
    (∃ e ∈ sord.teams, e.2.launch = some 0) := by decide
theorem witness_SignaturesVerify : let k : RsaKey := { modulus := 2 ^ 4095, verify := 1, sign := 1 }
    (List.replicate 64 (0 : Byte)).length = 64 ∧ 2 ^ 4095 ≤ k.modulus ∧ k.modulus < 2 ^ 4096 ∧
    ∀ a, a < k.modulus → (a ^ k.sign % k.modulus) ^ k.verify % k.modulus = a := by
  refine ⟨by decide, le_refl _, Nat.pow_lt_pow_right (by norm_num) (by norm_num), fun a ha => ?_⟩
  simp only [pow_one, Nat.mod_mod]
  exact Nat.mod_eq_of_lt ha
theorem witness_ReportRule : (scm cm).tenant? 0 = some (xc cm) ∧ aget (xc cm).comms 0 = some cm ∧ cm.broken = none ∧
    ({ cm with broken := some 3 } : Comm).broken ≠ none := by decide
theorem routed_scm : RoutedOver (scm cm) 2 0 0 := ⟨xc cm, cm, 1, by decide, by decide, by decide, by decide, by decide, by decide⟩
theorem test_fabricLinkDown : (match exec (.fabricLinkDown 2) (scm cm) with
    | .next s => ((s.comm? 0 0).map (·.broken), s.root.faberr.toNat)
    | _ => (none, 0)) = (some (some 0x13), 4) := by decide
theorem witness_LinkDown : RoutedOver (scm cm) 2 0 0 ∧ keysRise (scm cm).tenants = true ∧ keysRise (xc cm).comms = true ∧ (scm cm).root.phase ≠ .off ∧
    (snet 0).tenant? 0 = some { xq with qps := [(0, qp0 0)], ips := [9], vlans := [1, 2] } ∧ (qp0 0).front = 0 ∧ (qp0 0).error = false :=
  ⟨routed_scm, by decide, by decide, by decide, rfl, rfl, rfl⟩
/-- Root in recovery, with its connection. -/
def srec : State := { State.reset with root := { State.reset.root with phase := .recovery, mgmtConns := [(0, qp0 0)] } }
theorem test_recovery_write : (match exec (.recoveryImageWrite 0 [7, 8]) srec with
    | .next s => (memGetN s.root.staging 0 3, s.sent.length)
    | _ => ([], 9)) = ([7, 8, 0], 0) ∧
    (match exec (.recoveryImageWrite 4 [7, 8]) srec with
    | .next s => (memGetN s.root.staging 0 3, s.sent.length)
    | _ => ([], 9)) = ([0, 0, 0], 1) := by decide
theorem witness_Recovers : Recovers srec ∧ ¬ Recovers State.reset ∧ ¬ ((16 : Nat) = 15) :=
  ⟨⟨rfl, _, rfl, rfl⟩, fun h => absurd h.1 (by decide), by decide⟩
theorem witness_SignedFields : SignedRow 1 resetCmd.bytes (.reset 1 env0) ∧ SignedBody resetCmd.bytes ∧
    ¬ SignedBody (cmd0 0xB (leBytes 8 0x1001 ++ List.replicate 32 0)).bytes ∧ SignedParts resetCmd.bytes block0 [] ∧
    ¬ SignedParts resetCmd.bytes (List.replicate 512 0 ++ [2] ++ List.replicate 519 0) [] ∧ SignedRow 1 (cmd0 0xD []).bytes (.fwUpdate 1) :=
  ⟨⟨rfl, by decide⟩, by unfold SignedBody; decide, fun h => absurd h.1 (by decide), by unfold SignedParts; decide,
   fun h => absurd h.1 (by decide), rfl, by decide⟩

/-- The management channel with a connection that has used up `n` of its retries. -/
def snm (n : Nat) : State := { State.reset with root := { State.reset.root with phase := .running, mgmtConns := [(0, qp0 n)], frontlink := 1 } }
theorem test_mgmt_setup : (match exec (.mgmtConnectionSetup ⟨0, (snm 0).root.fuses.recIp, (snm 0).root.fuses.recVlan, 7⟩) (snm 0) with
    | .next s => s.root.mgmtConns.map fun q => (q.1, q.2.limit)
    | _ => []) = [(0, 2), (1, 7)] ∧
    (match exec (.rcRetryExhausted none 0) (snm 2) with
    | .next s => s.root.mgmtConns.map (·.2.error)
    | _ => []) = [true] := by decide
theorem witness_MgmtConnections : (snm 0).root.frontlink.getLsbD 0 = true ∧ (snm 0).root.phase = .running ∧ DeviceQps (snm 0) < 4096 ∧
    aget (snm 0).root.mgmtConns 1 = none ∧ (∀ k, k < 1 → (aget (snm 0).root.mgmtConns k).isSome = true) ∧ aget (snm 0).root.mgmtConns 0 = some (qp0 0) ∧
    (qp0 0).retries < (qp0 0).limit ∧ ((qp0 2).limit ≤ (qp0 2).retries ∧ (qp0 2).retrying = true) ∧ srec.root.phase = .recovery ∧
    (∀ k, k < 1 → (aget srec.root.mgmtConns k).isSome = true) := by decide
theorem witness_ConnectionForms : (snet 0).tenant? 0 = some { xq with qps := [(0, qp0 0)], ips := [9], vlans := [1, 2] } ∧ (snet 0).root.phase = .running ∧
    ({ (snet 0).root with frontlink := 1 } : Root).frontlink.getLsbD 0 = true ∧ [(0, qp0 0)].length < min xq.quota.qpq 256 ∧ DeviceQps (snet 0) < 4096 ∧
    (aget [(0, qp0 0)] 1 = none) ∧ min 1 256 ≤ [(0, qp0 0)].length := by decide
theorem witness_RequestForms : Arrives (snm 0) (.mgmt 0) 0x3000 [7] true (some { snm 0 with root := { (snm 0).root with
      mgmtMem := memSetN (snm 0).root.mgmtMem 0x3000 [7], notices := (snm 0).root.notices ++ noticesOf none 0 (bytesAt 0x3000 [7]) } }) ∧
    Arrives (snm 0) (.mgmt 0) (2 ^ 28) [7] true none ∧ ConnUp (snm 0) (.mgmt 0) (qp0 0) ∧ (snet 0).ownRead (some 0) 9#4 0x3000 1 = some [0] ∧
    (snet 0).ownRead (some 0) 9#4 0x500000 1 = none := ⟨rfl, rfl, ⟨rfl, rfl⟩, by decide, by decide⟩

/-- Tenants whose supervisor has come into force without its initialisation: Bowline's, and an image's. -/
def xrer (i : Option W64) : Tenant := { xq with supv := { xq.supv with rerun := true, init := i, banks := [] } }
def srer (i : Option W64) : State := { st (tm g0) (xrer i) false with teams := [], nextKey := 1, cores := [(0, { cyc := 0, parts := [] })] }
theorem test_rerun : (match exec (.supvInstallActivate 0) (srer (some 0x5000)) with
    | .next s => (s.teams.map fun e => (e.1, e.2.isInit), (s.tenant? 0).map (·.supv.rerun))
    | _ => ([], none)) = ([(1, true)], some false) ∧
    (match exec (.supvInstallActivate 0) (srer none) with
    | .next s => (s.teams.length, (s.tenant? 0).map fun x => (x.vendorMap, x.supv.rerun))
    | _ => (9, none)) = (0, some (true, false)) := by decide
theorem witness_InstallReruns : (srer none).tenant? 0 = some (xrer none) ∧ (xrer none).supv.rerun = true ∧ (srer none).teams = [] ∧
    (srer (some 0x5000)).roomOn initNeed 0 noneGone = true ∧ (0 ∈ (xrer none).cores ∧ ∀ c ∈ (xrer none).cores, 0 ≤ c) := by decide

/-- A tenant under Bowline's page tables with an object of a .scode at 0x20000 and a .data at 0x30000. -/
def xmap : Tenant := { bareTenant with vendorMap := true, objects := [(0, { obj0 with sections := [(1, 0x20000, 0x100), (4, 0x30000, 0x100)] })] }
def smap : State := st (tm g0) xmap false
theorem test_map : smap.translate 0 0 .user 0x20010 1#4 = .ok 0x20010 ∧ smap.translate 0 0 .user 0x30010 2#4 = .ok 0x30010 ∧
    smap.translate 0 0 .user 0x20010 2#4 = .fail 3 0x20010 := by decide
theorem witness_BowlineMapping : smap.tenant? 0 = some xmap ∧ xmap.vendorMap = true ∧ xmap.tlb = [] ∧
    (4, 0x30000, 0x100) ∈ ({ obj0 with sections := [(1, 0x20000, 0x100), (4, 0x30000, 0x100)] } : CodeObj).sections ∧
    (∀ e ∈ xmap.objects, ∀ y ∈ e.2.sections, y.1 = 4 ∨ y.1 = 6 → y.2.1 / 65536 ≤ 0x20010 / 65536 →
      (y.2.1 + y.2.2 - 1) / 65536 < 0x20010 / 65536 ∨ y.2.2 = 0) := by decide
/-- A handler fragment of Bowline at its lane entry, of a SYSCALL with a number by all the lanes of fragment 0, with 1 in v1. -/
def trl (n : Nat) : TrapFrame := { tr0 with causeWord := BitVec.ofNat 64 (n * 2 ^ 32) }
def fhl : Fragment := { fh with pc := 0x100 }
def glb (n : Nat) : Group :=
  { glh with traps := [(0, trl n)], frags := [(0, { f0 with parkedBy := some 0 }), (8, fhl)], vregs := [(1, vr (.uniform 1))] }
def sbl (n : Nat) : State := st (tm (glb n)) xb false
-- R239: CLOSE of descriptor 1 by every lane: the first closes it, and the rest find it closed; so v1 is general, and takes a slot.
theorem test_bowline_lanes : (match exec (.bowlineClose ⟨0, 0⟩ (.lane 8) []) (sbl 4) with
    | .next s => (s.group? ⟨0, 0⟩).map fun g => ((g.vreg 1).tag.lane 0, (g.vreg 1).tag.lane 1, g.frags.length, g.traps.length)
    | _ => none) = some (0, 0xFFFFFFFF, 1, 0) := by decide
theorem at_sbl (n : Nat) : AtHandler (sbl n) ⟨0, 0⟩ (.lane 8) .supervisor (tm (glb n)) (glb n) 0 (trl n) :=
  ⟨rfl, rfl, rfl, fhl, rfl, rfl, rfl, rfl, rfl, rfl, .inl rfl⟩
theorem lanes_unlisted (l : List Nat) : ∀ s : State, ServedLanes ⟨0, 0⟩ 0 0 1 [.uniform 9] l s [] s (l.map fun k => (k, -1)) ∨ fdKind s 0 9 ≠ none := by
  induction l with
  | nil => exact fun s => .inl ⟨rfl, rfl⟩
  | cons k l ih =>
    intro s
    by_cases h : fdKind s 0 9 = none
    · refine .inl ⟨s, -1, [], _, .readBadf (.inl ?_), (ih s).resolve_right (fun c => c h), rfl⟩
      rw [show ([Tag.uniform 9].getD 0 .released).lane k = 9 from rfl, h]
    · exact .inr h
theorem witness_BowlineLanes : AtHandler (sbl 1) ⟨0, 0⟩ (.lane 8) .supervisor (tm (glb 1)) (glb 1) 0 (trl 1) ∧ (trl 1).cause = .syscall ∧
    (trl 1).causeWord.toNat / 2 ^ 32 = 1 ∧ (trl 1).fin = false ∧ aget (glb 1).frags 8 = some fhl ∧ (glb 1).vregBusy 8 1 = false ∧
    ServedLanes ⟨0, 0⟩ 0 0 1 [.uniform 9] (lanesIn fhl.mask) (sbl 1) [] (sbl 1) ((lanesIn fhl.mask).map fun k => (k, -1)) ∧
    ((glb 1).writeK (tm (glb 1)).spareFree 5 fhl.mask (.uniform 7) 0).isSome = true ∧
    AtHandler (sbl 10) ⟨0, 0⟩ (.lane 8) .supervisor (tm (glb 10)) (glb 10) 0 (trl 10) ∧ 9 < (trl 10).causeWord.toNat / 2 ^ 32 :=
  ⟨at_sbl 1, rfl, by decide, rfl, rfl, by decide, (lanes_unlisted _ _).resolve_right (fun h => h (by decide)), by decide, at_sbl 10, by decide⟩

-- R13: the hottest junction is measured, and TJMAX shows it; R303: CYC counts.
theorem test_agenda : (match step { sfetch with agenda := [.temperature 300] } with
    | .next s => (s.root.tjmax, s.agenda.length)
    | _ => (0, 9)) = (255, 0) ∧
    (match step { sfetch with agenda := [.cycles 0 5] } with
    | .next s => (s.core 0).cyc - (sfetch.core 0).cyc
    | _ => 0) = 5 := by decide
theorem witness_AgendaRuns : sfetch.root.phase ≠ .off ∧ ({ sfetch with agenda := [.temperature 300] } : State).agenda = .temperature 300 :: [] := by decide

/-- A halt of an initialisation team whose stream is back in supervisor mode, with no frame; and one of a stream still in a handler. -/
def ti : Team := { th false { g0 with mode := .supervisor } with isInit := true }
theorem test_haltEnd_init : (match exec (.teamHaltEnd 0) (st ti bareTenant false) with
    | .next s => (s.team? 0).map fun t => (t.halt.isNone, t.ended)
    | _ => none) = some (true, false) := by decide
theorem witness_HaltEndInit : (st ti bareTenant false).team? 0 = some ti ∧ ti.halt.isSome = true ∧ ti.isInit = true ∧
    (∀ e ∈ ti.groups, e.2.traps = [] ∧ e.2.mode ≠ .user ∧ inLatchRun (st ti bareTenant false) ti e.2 = false) := by decide

/-- R235: an error of a handler fragment in supervisor mode goes to the hypervisor, in frame 1. -/
theorem test_trap_in_handler : let s := (lh glh).takeLaneTrap ⟨0, 0⟩ 8 { cause := .misaligned, lane := some 3, info := 0, bad := 0x2004, set := none }
    (s.group? ⟨0, 0⟩).map (fun g => (g.frags.map fun e => (e.1, e.2.handler, e.2.parkedBy), (aget g.traps 1).map fun f => (f.frag, f.pmode))) =
      some ([(0, none, some 0), (8, some 0, some 1), (9, some 1, none)], some (some 8, .supervisor)) := by decide
theorem witness_TrapInHandler : aget glh.frags 8 = some fh ∧ keysRise glh.frags = true ∧ glh.freeFrame = some 1 ∧ fh.handler = some 0 ∧
    aget glh.frags 9 = none := by decide

/-- An object of one variant of GEN 1 with the sections .scode, .lcode, .btab, the seventh, .symtab and .strtab, all empty; and one of no
variant. -/
def objHeader (n size : Nat) : List Byte :=
  leBytes 4 0x014F5647 ++ leBytes 2 1 ++ [0, 0] ++ leBytes 4 n ++ leBytes 4 0 ++ leBytes 8 0x40 ++ List.replicate 32 0 ++ leBytes 8 size
def emptySection (typ : Byte) : List Byte := [typ, 0, 0, 0, 0, 0, 0, 0] ++ leBytes 8 0x140 ++ List.replicate 16 0
def objFile : List Byte :=
  objHeader 1 0x140 ++ ([1, 0] ++ leBytes 2 6 ++ List.replicate 20 0 ++ leBytes 8 0x80 ++ List.replicate 32 0) ++
  ([1, 2, 3, 7, 9, 10].map emptySection).flatten
def bareFile : List Byte := objHeader 0 0x40
theorem test_objectOk : objectOk objFile = true ∧ objectOk bareFile = true ∧ objectOk (objFile.set 0 0) = false := by decide
def xl : Tenant := { xq with objects := [], objBase := 0x20000, objTop := 0x20000, quota := ⟨4, 4, 4, 1024, 4, 4, 0x10000⟩ }
theorem has_empty {typ o n : Nat} (h : HasSection objFile 0 typ o n) : n = 0 := by
  obtain ⟨j, hj, _, _, rfl⟩ := h
  exact (by decide : ∀ j < 6, fieldAt objFile (sectionAt objFile 0 j + 0x10) 8 = 0) j hj
theorem objFile_kept : ObjectKept objFile := by
  have hv : ∀ i, i < fieldAt objFile 8 4 → i = 0 := fun i hi => by
    have : fieldAt objFile 8 4 = 1 := by decide
    omega
  refine ⟨by decide, by decide, .inl (by decide), fun i hi => ?_, by decide, ?_⟩
  · rw [hv i hi]
    refine ⟨by decide, by decide, by decide, by decide, by decide, by decide, by decide, by decide, ?_, ?_, ?_, ?_⟩
    · have h : ∀ j < 6, SectionKept objFile 0 j := by unfold SectionKept; decide
      exact h
    · have h : ∀ k < 6, ∀ j < k, fieldAt objFile (sectionAt objFile 0 j) 4 ≠ fieldAt objFile (sectionAt objFile 0 k) 4 := by decide
      exact fun j k hj hk => h k hk j hj
    · intro typ ht
      have h : ∀ typ ∈ [1, 2, 3, 7, 9, 10], ∃ j < 6, typ = fieldAt objFile (sectionAt objFile 0 j) 4 := by decide
      obtain ⟨j, hj, e⟩ := h typ ht
      exact ⟨_, _, j, hj, e, rfl, rfl⟩
    · intro so sn st tn h1 _
      rw [has_empty h1]
      refine ⟨⟨fun k hk => absurd hk (Nat.not_lt_zero k), fun k l _ hl => absurd hl (Nat.not_lt_zero l)⟩, fun ro rn h3 => ?_⟩
      rw [has_empty h3]
      exact fun k hk => absurd hk (Nat.not_lt_zero k)
  · intro i k so sn st tn so' sn' st' tn' hi hk h1 _ h3 _
    rw [hv i hi] at h1
    rw [hv k hk] at h3
    rw [has_empty h1, has_empty h3]
    rfl
theorem witness_LoaderKept : ObjectKept objFile ∧ SignatureKept objFile 0 none ∧ ¬ SignatureKept objFile 1 none ∧ Chosen objFile 0 ∧
    (∃ pl e, Laid objFile 0 0 (fieldAt objFile (variantAt objFile 0 + 2) 2) 0x20000 pl e ∧ e = 0x20000) ∧
    (st (tm g0) xl false).tenant? 0 = some xl ∧ xl.objTop = 0x20000 ∧ (st (tm g0) xl false).rootRange xl 0#4 0x20000 0 = some [] := by
  have h6 : fieldAt objFile 0x30 8 = 0 := by decide
  have hn : fieldAt objFile 8 4 = 1 := by decide
  refine ⟨objFile_kept, ⟨fun h => absurd h (by decide), fun _ => by decide⟩, fun h => absurd (h.2 (by decide)) (by decide),
    ⟨by decide, by unfold EligibleAt; decide, fun k hk _ => by obtain rfl : k = 0 := (by omega); exact ⟨le_refl _, fun _ => le_refl _⟩⟩, ?_, rfl, rfl, rfl⟩
  have e6 : fieldAt objFile (variantAt objFile 0 + 2) 2 = 6 := by decide
  have a0 : ∀ j < 6, fieldAt objFile (sectionAt objFile 0 j + 0x18) 4 = 0 ∧ fieldAt objFile (sectionAt objFile 0 j + 0x10) 8 = 0 := by decide
  have laid : ∀ n j, j + n = 6 → ∃ pl, Laid objFile 0 j n 0x20000 pl 0x20000 := by
    intro n
    induction n with
    | zero => exact fun j _ => ⟨_, .nil _ _⟩
    | succ n ih =>
      intro j h
      obtain ⟨pl, hp⟩ := ih (j + 1) (by omega)
      obtain ⟨h1, h2⟩ := a0 j (by omega)
      refine ⟨_, .cons j n 0x20000 0x20000 0x20000 pl (le_refl _) ?_ ?_ ?_⟩
      · rw [h1]; decide
      · rw [h1]; decide
      · rw [h2]; exact hp
  rw [e6]
  obtain ⟨pl, hp⟩ := laid 6 0 rfl
  exact ⟨pl, _, hp, rfl⟩
theorem witness_NoVariant : (∀ i, i < fieldAt bareFile 8 4 → ¬ EligibleAt bareFile i) ∧ (bareFile.drop (fieldAt bareFile 0x18 8)).take (fieldAt bareFile 0x20 8) = [] := by
  refine ⟨fun i hi => absurd hi ?_, by decide⟩
  rw [show fieldAt bareFile 8 4 = 0 by decide]
  exact Nat.not_lt_zero i
/-- A Sarxis module of 32 bytes for one global symbol, and a tenant whose cache holds its translation. -/
def modul : List Byte := leBytes 4 0x58524153 ++ [1, 0, 0, 0] ++ leBytes 8 32 ++ leBytes 4 1 ++ List.replicate 12 0
def tc0 (d : BitVec 512) : TCache := { digest := d, addr := 0x30000, size := 4, used := 2 }
def xt (d : BitVec 512) (q : Nat) : Tenant := { xl with tcache := [tc0 d], quota := ⟨4, 4, 4, 1024, 4, 4, q⟩ }
theorem witness_TranslationRule : (xt (sha512 modul) 0x10000).tcache = [] ++ tc0 (sha512 modul) :: [] ∧ (tc0 (sha512 modul)).digest = sha512 modul ∧
    (st (tm g0) (xt 0 0x10000) false).rootRange (xt 0 0x10000) 0#4 0x30000 4 = some [(0x30000, 4)] ∧ ModuleKept modul ∧ ¬ ModuleKept [] ∧
    Evicted 8 (xt 0 0x10000) (xt 0 0x10000) ∧ Evicted 8 (xt 0 8) { xt 0 8 with tcache := [] } :=
  ⟨rfl, rfl, by decide, by unfold ModuleKept; decide, fun h => absurd h.1 (by decide), .fits _ (by decide),
   .leaves _ _ (tc0 0) (by decide) (by decide) (fun _ h => nomatch h) (fun f hf hn => absurd (List.mem_singleton.mp hf) hn) (.fits _ (by decide))⟩

/-! ## Witnesses of the wider statements -/

/-- A frame of an error, and one to which its handler has given END; a handler of such a frame in a team that halts. -/
def ferr : TrapFrame := { frame0 with cause := .misaligned }
def fend : TrapFrame := { frame0 with fin := true }
def hl0 : Halt := { fin := false, teamEnd := false }
def ghe (fr : TrapFrame) : Group := { gh with traps := [(0, fr)] }
def the (g : Group) : Team := { tm g with halt := some hl0 }
-- R233: the frame pops under the halt, the stream is back in user mode and stops, and the halt is to end the team.
theorem test_tret_error : (match exec .scalarTret (st (the (ghe ferr)) bareTenant false) with
    | .next s => (s.team? 0).map fun t => (t.halt, t.groups.map fun e => (e.2.mode, e.2.stopped, e.2.traps.length))
    | _ => none) = some (some { fin := true, teamEnd := false }, [(.user, true, 0)]) := by decide
theorem witness_ScalarReturn_halted : ScalarReady (st (the (ghe ferr)) bareTenant false) (the (ghe ferr)) (ghe ferr) ∧
    ScalarReady (st (the (ghe fend)) bareTenant false) (the (ghe fend)) (ghe fend) ∧ (ghe ferr).mode ≠ .user ∧ (ghe ferr).trap = some 0 ∧
    aget (ghe ferr).traps 0 = some ferr ∧ ferr.cause ∉ [Cause.syscall, .hcall, .brk, .xlate] ∧ aget (ghe fend).traps 0 = some fend ∧
    fend.fin = true ∧ (the (ghe ferr)).halt = some hl0 :=
  ⟨⟨rfl, rfl, rfl⟩, ⟨rfl, rfl, rfl⟩, by decide, rfl, rfl, by decide, rfl, rfl, rfl⟩
/-- The lane's handler of such a frame. -/
def glhe : Group := { glh with traps := [(0, { tr0 with cause := .misaligned })] }
theorem test_lane_tret_error : (match exec (.laneTret hh false false 0 (.v 0)) { st (the glhe) bareTenant true with stream := .lane 8 } with
    | .next s => (s.team? 0).map fun t => (t.halt, t.groups.map fun e => (e.2.frags.length, e.2.traps.length))
    | _ => none) = some (some { fin := true, teamEnd := false }, [(0, 0)]) := by decide
theorem witness_LaneReturn_halted : LaneReady { st (the glhe) bareTenant true with stream := .lane 8 } (the glhe) glhe 8 fh hh ∧ fh.mode ≠ .user ∧
    fh.frame = none ∧ fh.handler = some 0 ∧ aget glhe.traps 0 = some { tr0 with cause := .misaligned } ∧
    ReturnWrites (the glhe) glhe 8 fh hh false 0 (.v 0) glhe ∧ fh.span = tr0.callmask ∧ Cause.misaligned.isError = true ∧ (the glhe).halt = some hl0 :=
  ⟨⟨rfl, rfl, rfl, rfl, rfl, rfl⟩, by decide, rfl, rfl, rfl, rfl, rfl, by decide, rfl⟩
/-- The vendor's handlers under a halt: TEAM_END, and END to an error. -/
def svh (g : Group) : State := let s := st (the g) xb false
                               { s with root := { s.root with tvecH := 0 } }
def gbe : Group := { gbw 0 with traps := [(0, { trS 0 with cause := .misaligned })] }
theorem test_teamEnd_halted : (match exec (.teamEndCall ⟨0, 0⟩ .scalar) (svh (ghv 2)) with
    | .next s => (s.team? 0).map fun t => (t.halt, t.groups.map fun e => (e.2.mode, e.2.stopped))
    | _ => none) = some (some { fin := true, teamEnd := true }, [(.user, true)]) := by decide
theorem witness_HypervisorCalls_halted : AtHandler (svh (ghv 2)) ⟨0, 0⟩ .scalar .hypervisor (the (ghv 2)) (ghv 2) 0 (trH 2) ∧ (trH 2).cause = .hcall ∧
    (trH 2).causeWord.toNat / 2 ^ 32 = 2 ∧ wholeCall .scalar (ghv 2) 0 (trH 2) = true ∧ (the (ghv 2)).halt = some hl0 :=
  ⟨⟨rfl, rfl, rfl, rfl, rfl, rfl, rfl⟩, rfl, by decide, rfl, rfl⟩
theorem witness_VendorAnswers_halted : AtHandler (svh gbe) ⟨0, 0⟩ .scalar .supervisor (the gbe) gbe 0 { trS 0 with cause := .misaligned } ∧
    (svh gbe).tenant? 0 = some xb ∧ xb.supv.init = none ∧ Cause.misaligned ≠ .syscall ∧
    wholeCall .scalar gbe 0 { trS 0 with cause := .misaligned } = true ∧ (the gbe).halt = some hl0 :=
  ⟨⟨rfl, rfl, rfl, rfl, rfl, rfl, rfl⟩, rfl, rfl, by decide, rfl, rfl⟩
-- R239: WRITE of 2 bytes at 0x3000 to the console gives 2, whatever the other services have to say.
def sbc : State := withMem (sb 2) 0x3000 [7, 8]
def argc : Nat → W32 := fun i => if i = 0 then 1 else if i = 1 then 0x3000 else if i = 3 then 2 else 0
theorem witness_WriteConsole : fdKind sbc 0 (argc 0) = some 1 ∧ (argc 3).toNat ≤ 2 ^ 24 ∧ CallReads sbc ⟨0, 0⟩ 0 0 (argAt argc 1) (argc 3).toNat [7, 8] ∧
    ∃ s1, Served ⟨0, 0⟩ 0 0 argc sbc [] 2 s1 2 [] := by
  have h : CallReads sbc ⟨0, 0⟩ 0 0 (argAt argc 1) (argc 3).toNat [7, 8] :=
    ⟨[0x3000, 0x3001], rfl, (fun g hg => by cases hg; exact ⟨by decide, by decide⟩), by decide⟩
  exact ⟨rfl, by decide, h, _, .writeConsole [7, 8] rfl (by decide) h⟩

/-- The partition with a kdrain of the scalar stream waiting at it; and with a klook of fragment 0, which waits with its place among the accesses. -/
def klk : Instr := .klook hh 0 0 false 4 (.v 1) 3
def partq (st : StreamRef) (i : Instr) : Partition := { part1 with tokens := [{ g := ⟨0, 0⟩, stream := st, instr := i, counted := false, record := [] }] }
def gkw : Group := { gk with accesses := [{ newAccess (.reserved 0) with path := some .kv, active := 5 }], nextId := 1, waiting := [(0, (klk, [1, 4]))] }
-- R188, R190, R159: the klook stands behind the kdrain and is counted as in flight; once the port is free it delivers.
theorem test_klook_queued : (match exec klk (lpart (partq .scalar (.kdrain 5)) gk) with
    | .next s => (s.group? ⟨0, 0⟩).map fun g => (g.inflight .kv, (aget (s.core 0).parts 7).map (·.tokens.length))
    | _ => none) = some (1, some 2) ∧
    (match exec klk (lpart (partq (.lane 0) klk) gkw) with
    | .next s => (s.group? ⟨0, 0⟩).map fun g => (g.inflight .kv, (aget (s.core 0).parts 7).map (·.tokens.length))
    | _ => none) = some (1, some 0) := by decide
theorem witness_GroveQueues : let q := partq .scalar (.kdrain 5)
    LaneReady (lpart q gk) (tpart gk) gk 0 f2 hh ∧ Named (lpart q gk) (tpart gk) 0 7 q ∧
    (∀ y ∈ q.tokens, ¬ (y.g = (lpart q gk).focus ∧ y.stream = (lpart q gk).stream)) ∧ gk.inflight .kv < 255 ∧
    ∃ g', GroveRead (tpart gk) gk 0 f2 { q with tokens := [] } klk 0 hh g' :=
  ⟨⟨rfl, rfl, rfl, rfl, rfl, rfl⟩, ⟨rfl, rfl⟩, by decide, by decide,
   ⟨_, .look _ _ _ _ _ _ _ [.affine 9 1] _ (by decide) rfl (by decide) (by decide) ⟨by decide, _, rfl, rfl⟩⟩⟩
theorem witness_GroveReads_waiting : let q := partq (.lane 0) klk
    LaneReady (lpart q gkw) (tpart gkw) gkw 0 f2 hh ∧ PortFree (lpart q gkw) (tpart gkw) 0 7 q ∧ q.tokens ≠ [] ∧
    ∃ g', GroveRead (tpart gkw) gkw 0 f2 q klk 0 hh g' :=
  ⟨⟨rfl, rfl, rfl, rfl, rfl, rfl⟩, ⟨⟨rfl, rfl⟩, (fun x h => by cases h; exact ⟨rfl, rfl⟩)⟩, by decide,
   ⟨_, .look _ _ _ _ _ _ _ [.affine 9 1] _ (by decide) rfl (by decide) (by decide) ⟨by decide, _, rfl, rfl⟩⟩⟩
-- R294: the register group of a klook is checked before the privilege of its sources.
theorem test_klook_order : laneTrap (lpart { part1 with gop := 1 } gk) (.klook hh 0 0 false 5 (.k 1) 3) = some .illegalOperand ∧
    laneTrap (lpart part1 gk) (.klook hh 0 0 false 4 (.k 1) 3) = some .privOperand := by decide
theorem witness_GroveTraps_order : LaneReady (lpart { part1 with gop := 1 } gk) (tpart gk) gk 0 f2 hh ∧
    Named (lpart { part1 with gop := 1 } gk) (tpart gk) 0 7 { part1 with gop := 1 } ∧
    valueGroup 5 (klookCount 1) = false ∧ valueGroup 4 (klookCount part1.gop) = true ∧ f2.mode = .user ∧
    (∃ n, .k n ∈ groveNames (.klook hh 0 0 false 4 (.k 1) 3)) ∧ (∀ n, .k n ∉ groveNames klk) ∧ ∀ r ∈ regsFrom (4 : VReg) 4, gk.vregBusy 0 r = false :=
  ⟨⟨rfl, rfl, rfl, rfl, rfl, rfl⟩, ⟨rfl, rfl⟩, by decide, by decide, rfl, ⟨1, List.mem_cons_self⟩, (fun n h => by cases h with | tail _ h => cases h), by decide⟩

/-- A gang of two groups: the second waits at the rendezvous, the first has no lane work left. -/
def gx0 : Group := { g0 with gang := 0x10 }
def tgx : Team := { tx gx0 with ngroups := 2, groups := [(0, gx0), (1, gmem 1 true)], latches := [(0, [(1, 0, 0x10000)])] }
theorem test_exit_orphans : (match exec .exit (st tgx bareTenant false) with
    | .next s => (s.team? 0).map fun t => (t.latches.length, t.groups.map fun e => e.2.frags.map (·.2.wait))
    | _ => none) = some (0, [[], [.orphan]]) := by decide
theorem witness_GroupExit_gang : ScalarReady (st tgx bareTenant false) tgx gx0 ∧ gx0.mode = .user ∧ LaneIdle gx0 ∧ gangSize gx0.gang ≠ 0 ∧
    aget tgx.latches (gangNum gx0.gang) = some [(1, 0, 0x10000)] ∧ (∀ n, n ≠ gangNum gx0.gang → aget tgx.latches n = none) ∧
    (∀ e ∈ [(1, 0, (0x10000 : W64))], e.1 ≠ 0 ∧ MateWaits tgx e.1 e.2.1) ∧
    [(1, 0, (0x10000 : W64))].find? (fun x => x.1 == 1) = some (1, 0, 0x10000) := by
  refine ⟨⟨rfl, rfl, rfl⟩, rfl, ⟨rfl, rfl⟩, by decide, rfl, fun n h => ?_, ?_, rfl⟩
  · have e : gangNum gx0.gang = 0 := by decide
    rw [e] at h
    exact if_neg (Ne.symm h)
  · intro e he
    rw [List.mem_singleton.mp he]
    exact ⟨by decide, gmem 1 true, _, rfl, rfl, rfl, by decide⟩
/-- A fragment to which a GANG_ORPHAN is due. -/
def forph : Fragment := { f0 with wait := .orphan }
def gorph : Group := { gl with frags := [(0, forph)] }
theorem test_orphan_step : (match step (ln gorph) with
    | .next s => (s.group? ⟨0, 0⟩).map fun g => (g.traps.map (·.2.cause), g.frags.map fun e => (e.1, e.2.wait))
    | _ => none) = some ([.gangOrphan], [(0, .none), (8, .none)]) := by decide
theorem witness_GroupExit_orphan : (ln gorph).agenda = [] ∧ (ln gorph).stream = .lane 0 ∧ (ln gorph).team? 0 = some (tm gorph) ∧
    (ln gorph).group? ⟨0, 0⟩ = some gorph ∧ aget gorph.frags 0 = some forph ∧ forph.wait = .orphan ∧ (tm gorph).ended = false ∧ gorph.exited = false ∧
    forph.parkedBy = none ∧ NoRunElse (ln gorph) ⟨0, 0⟩ (tm gorph) gorph 0 := by
  refine ⟨rfl, rfl, rfl, rfl, rfl, rfl, rfl, rfl, rfl, fun e he _ _ x hx _ _ hr => ?_⟩
  rw [List.mem_singleton.mp he] at hx hr
  rw [List.mem_singleton.mp hx] at hr
  exact nomatch (show false = true from hr)
/-- A ganged group of which fragment 1 waits with the A pair that fragment 0's mma names. -/
def gshare : Group := { gmem 0 false with waiting := [(1, (.mma hh 2 16 0, [2, 3, 16, 17, 18, 19, 20, 21]))] }
def tgshare : Team := { tgang false with groups := [(0, gshare), (1, gmem 1 false)] }
def sgshare : State := st tgshare bareTenant true
theorem test_mma_stalls : (after (sgshare) (.mma hh 2 8 0)).map (·.waiting.length) = some 1 ∧
    (after (sgshare) (.mma hh 4 8 0)).map (·.waiting.length) = some 2 := by decide
theorem witness_GangWaits_shared : LaneReady (sgshare) (tgshare) gshare 0 fx hh ∧ gangSize gshare.gang ≠ 0 ∧
    (∀ n < 4, (tgshare).gangStranded n = false) ∧
    (∃ v ∈ regsFrom (2 : VReg) 2 ++ regsFrom ((8 : BitVec 11).setWidth 10) (mmaRegs fx.fmtr), ∃ e ∈ gshare.waiting, e.1 ≠ 0 ∧ v ∈ e.2.2) ∧
    (∀ v ∈ regsFrom (4 : VReg) 2 ++ regsFrom ((8 : BitVec 11).setWidth 10) (mmaRegs fx.fmtr), ∀ e ∈ gshare.waiting, e.1 ≠ 0 → v ∉ e.2.2) :=
  ⟨⟨rfl, rfl, rfl, rfl, rfl, rfl⟩, by decide, by decide, ⟨2, by decide, _, List.mem_cons_self, by decide, by decide⟩, by decide⟩

/-- A compare-and-swap of two lanes on one word of memory, and of one beyond the scratch; a smaxpk; a pld of two bytes. -/
def aCas : Access :=
  { newAccess (.atom .cas false true 4) with active := 5, items := [⟨0, 0x2000, true, 4, [1, 0, 0, 0], [0, 0, 0, 0]⟩, ⟨2, 0x2000, true, 4, [2, 0, 0, 0], [1, 0, 0, 0]⟩] }
def aPk : Access :=
  { newAccess (.smaxpk true 4) with scratch := true, active := 1, items := [⟨0, 0, false, 16, leBytes 8 5, []⟩] }
def aPld : Access := { newAccess (.pld 3 true) with active := 5, items := [⟨0, 0x2000, true, 1, [], []⟩, ⟨2, 0x2001, true, 1, [], []⟩] }
theorem witness_AtomicPerformed : (∀ a ∈ [aCas, aPk], (ln (ga a)).team? 0 = some (tm (ga a)) ∧ (ln (ga a)).group? ⟨0, 0⟩ = some (ga a) ∧
      (atomKind a.kind).isSome = true ∧ a.order = .plain ∧ a.promote = false ∧ a.shadow = false ∧ (a.items.map (·.lane)).Nodup ∧
      (ln (ga a)).mem.wf = true ∧ (tm (ga a)).scratch.wf = true ∧ keysRise ((ln (ga a)).cluster 0).dirty = true ∧
      (a.scratch = false → ∀ i ∈ a.items, i.live = true)) ∧
    atomKind aCas.kind = some (4, [4], true) ∧ (∀ i ∈ aCas.items, i.size = 4 ∧ i.lane < 96) ∧
    atomKind aPk.kind = some (16, [4, 5], true) ∧ (∀ i ∈ aPk.items, i.size = 16 ∧ i.lane < 96) ∧
    atomKind (.atom .fadd true true 4) = none := by decide
theorem test_cas_then_cas : let s := (ln (ga aCas)).perform ⟨0, 0⟩ aCas
    (memGetN s.mem 0x2000 1, (s.group? ⟨0, 0⟩).map fun g => ((g.vreg 4).tag.lane 0, (g.vreg 4).tag.lane 2)) =
      ([2], some (0, 1)) := by decide
theorem witness_PredicateLoaded : (ln (ga aPld)).team? 0 = some (tm (ga aPld)) ∧ (ln (ga aPld)).group? ⟨0, 0⟩ = some (ga aPld) ∧
    aPld.kind = .pld 3 true ∧ (3 : PReg) ≠ 0#4 ∧ aPld.order = .plain ∧ aPld.promote = false ∧ UniformParts aPld ∧ (ln (ga aPld)).mem.wf = true ∧
    keysRise ((ln (ga aPld)).cluster 0).dirty = true ∧ (∃ i ∈ aPld.items, aPld.active.getLsbD 2 = true ∧ i.lane = 2) ∧
    aPld.active.getLsbD 1 = false ∧ ((0 : Nat) = 31 / 32) :=
  ⟨rfl, rfl, rfl, by decide, rfl, rfl, ⟨by decide, by decide, .inr (by decide)⟩, by decide, by decide, by decide, by decide, by decide⟩
theorem witness_Selections : val32 0x7F800001 = .nan ∧ val32 0x80000000 ≠ .nan ∧ val32 0 ≠ .nan := by decide
-- R76: the largest and the smallest of −1 and 2, and all the bits.
theorem test_folds : reduceElement 0 1 [2 ^ 32 - 1, 2] = 2 ∧ reduceElement 0 2 [2 ^ 32 - 1, 2] = 2 ^ 32 - 1 ∧ reduceElement 0 3 [5, 2] = 7 := by decide
theorem witness_IntegerFolds : ([2 ^ 32 - 1, 2] : List Nat) ≠ [] ∧ (∀ x ∈ [2 ^ 32 - 1, 2], x < 2 ^ 32) ∧ ∀ x ∈ [2 ^ 64 - 1, 2], x < 2 ^ 64 := by decide
-- R76, R342: 1.0 and 2.0 give 3.0, as FP32 and as BF16.
theorem test_float_folds : reduceElement 2 0 [0x3F800000, 0x40000000] = 0x40400000 ∧ reduceElement 3 0 [0x3F80, 0x4000] = 0x4040 := by decide
theorem witness_FloatFolds : (0x3F800000 : Nat) < 2 ^ 32 ∧ ([0x3F800000] : List Nat) ≠ [] := by decide
/-- A launch record that breaks the rule in one byte that is to be zero. -/
theorem test_record_reserved : recordOk ((recBytes 1).set 0x16 1) = false := by decide

/-- The remote copy over communicator 0, whose link to the peer is up, or down. -/
def sre (up : BitVec 16) : State := let s := withMem (st (tc rdesc) (xc cm) false) 0x3000 [1, 2, 3, 4, 5, 6, 7, 8]
                                    { s with root := { s.root with fabup := up } }
theorem witness_RemoteLinks : LinkHolds (sre 1) (tc rdesc) (ecmd rdesc) ∧ ¬ LinkHolds (sre 0) (tc rdesc) (ecmd rdesc) ∧
    ¬ LinkHolds (se rdesc) (tc rdesc) (ecmd rdesc) ∧ (sre 1).team? 0 = some (tc rdesc) ∧ (tc rdesc).command 0 1 = some (ecmd rdesc) ∧
    Places (sre 1) (tc rdesc) .user 2 false 0x4000 8 (locs 0x4000) ∧ Places (sre 0) (tc rdesc) .user 2 false 0x4000 8 (locs 0x4000) := by
  refine ⟨⟨xc cm, cm, rfl, rfl, by decide, by decide⟩, ?_, ?_, rfl, rfl, ⟨[(0x4000, 8)], ok_of (by decide), rfl⟩, [(0x4000, 8)], ok_of (by decide), rfl⟩
  · rintro ⟨x, m, h, h1, _, h2⟩
    cases h
    cases h1
    exact absurd h2 (by decide)
  · rintro ⟨x, m, h, h1, _⟩
    cases h
    cases h1
-- R79, R316: over a link that is down it does not complete.
theorem test_rcopy_down : (match exec (.engineCommandComplete 0 0 1) (sre 0) with
    | .next s => (s.team? 0).map fun t => t.ctxs.map (·.timeline)
    | _ => none) = some (List.replicate 9 0) := by decide

/-- An armed copy of a team that a pre-emption has saved, whose issuing group 0 has exited and whose group 1 has not. -/
def tsv : Team := { tm { g0 with exited := true } with groups := [(0, { g0 with exited := true }), (1, { g0 with slot := 1 })] }
def lsv : Launch := { la1 with saved := [(5, tsv)] }
def asv : Armed := { arm true with team := some 5, group := 0 }
def ssv : State := { st (tm g0) (xa true) false with launches := [(0, lsv)] }
theorem test_armed_saved : ((ssv.armedFault 0 0 asv 0x500000).launch? 0).map (fun l => l.saved.map fun e => e.2.groups.map fun g => g.2.fault.isSome) =
    some [[false, true]] := by decide
theorem witness_FaultOfSaved : ssv.armedTeam asv = none ∧ ssv.armedSaved asv = some (0, 5) ∧ ssv.launch? 0 = some lsv ∧ aget lsv.saved 5 = some tsv ∧
    keysRise tsv.groups = true ∧ aget tsv.groups 1 = some { g0 with slot := 1 } ∧ (∀ h, aget tsv.groups asv.group = some h → h.exited = true) ∧
    (∀ j h, aget tsv.groups j = some h → h.exited = false → 1 ≤ j) := by
  refine ⟨by decide, by decide, rfl, rfl, by decide, rfl, fun h e => by cases e; rfl, fun j h e x => ?_⟩
  cases j with
  | zero => cases e; exact absurd x (by decide)
  | succ n => omega
/-- A team of a bound launch of two teams to a bit: it exits last, or the other has not exited. -/
def ltile (tiled : List Nat) : Launch := { la1 with coll := some { seq := 1, bitbase := 4, tpb := 2, chunks := [] }, tiled := tiled, next := 2 }
def stile (tiled : List Nat) : State := { st tdone bareTenant false with launches := [(0, ltile tiled)] }
theorem test_tile : (((stile [0, 1]).tileExit 0).tenant? 0).map (fun x => (x.board.getLsbD 4, x.board.getLsbD 5)) = some (true, false) ∧
    (((stile [1, 0]).tileExit 0).tenant? 0).map (fun x => x.board.getLsbD 4) = some false := by decide
theorem witness_TileBits : (stile [0, 1]).team? 0 = some tdone ∧ tdone.launch = some 0 ∧ (stile [0, 1]).launch? 0 = some (ltile [0, 1]) ∧
    (stile [0, 1]).tenant? (ltile [0, 1]).tenant = some bareTenant ∧ (∀ e ∈ tdone.groups, e.2.exited = true ∧ e.2.drained = true) ∧
    0 ∉ (ltile [0, 1]).bits ∧ (∀ i < 2, 0 * 2 + i < la1.gx * la1.gy * la1.gz → 0 * 2 + i ∈ [0, 1]) ∧
    ([0, 1].find? fun i => i / 2 == 0) = some tdone.tid ∧ ([1, 0].find? fun i => i / 2 == 0) ≠ some tdone.tid := by decide
theorem witness_DeviceSignatures : (List.replicate 64 (0 : Byte)).length = 64 := by decide
/-- An error in a group while another waits at a timeline, or at a Grove port with a kdrain. -/
def ttw : Team := { tpart g0 with groups := [(0, g0), (1, { g0 with slot := 1, blocked := some (0, false) }), (2, { g0 with slot := 2 })] }
def stw : State := { st ttw bareTenant false with cores := [(0, { cyc := 0, parts := [(7,
    { part0 with tokens := [{ g := ⟨0, 2⟩, stream := .scalar, instr := .kdrain 5, counted := false, record := [] }] })] })] }
-- R194, R232: both stop, and the kdrain is withdrawn.
theorem test_halt_stops : let s := stw.takeScalarTrap ⟨0, 0⟩ { cause := .misaligned, lane := none, info := 0, bad := 0x2001, set := none }
    ((s.team? 0).map fun t => (t.halt.isSome, t.groups.map (·.2.stopped)), (s.core 0).parts.map fun e => e.2.tokens.length) =
      (some (true, [false, true, true]), [0]) := by decide
theorem witness_ScalarTrapEntry_others : stw.team? 0 = some ttw ∧ stw.group? ⟨0, 0⟩ = some g0 ∧ g0.freeFrame = some 0 ∧
    Cause.misaligned ∉ [Cause.syscall, .hcall, .brk] ∧ ttw.halt = none ∧ aget ttw.groups 1 = some { g0 with slot := 1, blocked := some (0, false) } ∧
    ({ g0 with slot := 1, blocked := some (0, false) } : Group).waits = true ∧ aget ttw.groups 2 = some { g0 with slot := 2 } ∧
    (stw.core 0).scalarWaits ⟨0, 2⟩ = true ∧ (∃ e ∈ (stw.core 0).parts, ∃ x ∈ e.2.tokens, x.g.team = 0) := by decide
-- R110, R385: the taken part of a split goes on where it holds the lower lane. R343: the sum goes by the lanes of W in a beat.
theorem test_lbr_rank : ((after (ln gp) (.lbr hh false 1 4)).map (·.running)) = some (some 1) ∧
    ((after (ln gp) (.lbr hh true 1 4)).map (·.running)) = some (some 0) := by decide
theorem test_plx_beat : let g := { vs [.uniform 1] with frags := [(0, { f0 with mask := 0x300000001#96, span := 0x300000001#96 })] }
    (laneAfter (ln g) (.plx hh 7 3 (.v 1)) 3 0, laneAfter (ln g) (.plx hh 7 3 (.v 1)) 3 32) = (some 1, some 3) := by decide

end Sys2Proof.Tests
end

section
/-! SUPPORT. Traps and returns of the scalar stream: what the shared operations of a trap's entry, of a return and of a team's end do to the
group in focus, each once. -/

namespace Sys2Proof.Machine

variable {s : State} {t : Team} {g : Group} {r : GRef}

/-! ## A trap of a call -/

/-- Changes of groups that leave every group they meet as it is. -/
theorem State.group?_foldl_updGroup_id {α : Type} {l : List α} {k : α → GRef} {f : α → Group → Group} (h : ∀ x ∈ l, ∀ g, f x g = g)
    (s : State) (q : GRef) : (l.foldl (fun s x => s.updGroup (k x) (f x)) s).group? q = s.group? q := by
  induction l generalizing s with
  | nil => rfl
  | cons x l ih =>
    rw [List.foldl_cons, ih fun y hy => h y (List.mem_cons_of_mem _ hy)]
    by_cases hq : k x = q
    · subst hq
      rw [State.group?_updGroup_self, funext (h x List.mem_cons_self), Option.map_id']
    · exact State.group?_updGroup_ne s _ hq

/-- Withdrawing operations of scalar streams alone changes no group: only a lane fragment has a place among a group's waiting
instructions (R159, R194). -/
theorem State.group?_withdraw_scalar {core : Nat} {p : GRef → StreamRef → Bool} (h : ∀ g x, p g x = true → x = .scalar) (s : State)
    (q : GRef) : (s.withdraw core p).group? q = s.group? q := by
  unfold State.withdraw
  dsimp only
  split
  · rfl
  next l _ =>
    rw [State.group?_foldl_updGroup_id (fun x hx g => ?_)]
    · rfl
    · rw [List.mem_flatten] at hx
      obtain ⟨m, hm, hx⟩ := hx
      obtain ⟨e, -, rfl⟩ := List.mem_map.1 hm
      rw [h _ _ (List.mem_filter.1 hx).2]

/-- The frame that a scalar trap saves (R228). -/
def Group.scalarFrame (g : Group) (i : TrapInfo) : TrapFrame :=
  { cause := i.cause, causeWord := causeWord i.cause i.info true g.mode 0x1FF,
    epc := addr48 (if i.cause = .syscall ∨ i.cause = .hcall then g.pc + 4 else g.pc), badaddr := addr48 i.bad, callmask := 0, frag := none,
    pmode := g.mode, prop := g.proposal, fin := false, fmtr := 0, prev := g.trap }

/-- The group after the trap of a call: nothing halts, so the entry of the trap is all that happens to it. -/
theorem State.group?_takeScalarTrap_call {i : TrapInfo} {pos : Nat} (ht : s.team? r.team = some t) (hg : s.group? r = some g)
    (hp : g.freeFrame = some pos) (hc : i.cause.isCall = true) :
    (s.takeScalarTrap r i).group? r = some
      { g with traps := aset g.traps pos (g.scalarFrame i), trap := some pos,
               pc := s.vector t.tenant (handlerMode i.cause i.info g.mode), mode := handlerMode i.cause i.info g.mode, syncing := false,
               blocked := none, mwait := none, held := false, ordered := g.ordered.filter (·.stream != .scalar) } := by
  simp only [State.takeScalarTrap, ht, hg, hp, State.haltFor, State.team?_updGroup_self, Option.map_some, hc, if_true]
  rw [State.group?_withdraw_scalar (fun _ _ h => eq_of_beq (Bool.and_eq_true_iff.1 h).2), State.group?_updGroup_self, hg]
  rfl

/-! ## The calls (R321) -/

section Calls

variable {c : Cause} {allowed : Mode → Bool} {a : SReg}

/-- A call in a mode that may make it traps with its number. -/
theorem scalarCall_trap (h : ScalarReady s t g) (ha : g.sregPending a = false) (hm : allowed g.mode = true)
    (hh : g.mode ≠ .user ∨ t.halt = none) : scalarCall c allowed a s = .next (s.takeScalarTrap s.focus
      { cause := c, lane := none, info := ((g.sreg a).extractLsb' 0 21).setWidth 32, bad := 0, set := none }) := by
  have hgo : (g.mode != .user || t.halt.isNone) = true := by simpa using hh
  exact runScalar_trap h.team h.group h.issue (by simp [hm, callMayIssue, hereT_some h.team, hgo, readS_ready h.group ha])

/-- One that a stream reaches in user mode while its team halts is not executed (R232). -/
theorem scalarCall_halted (h : ScalarReady s t g) (hm : allowed g.mode = true) (hu : g.mode = .user) (hh : t.halt ≠ none) :
    scalarCall c allowed a s = .next s := by
  have hno : (g.mode != .user || t.halt.isNone) = false := by simp [hu, Option.isSome_iff_ne_none, hh]
  exact runScalarTo_stall h.team h.group h.issue (by simp [hm, callMayIssue, hereT_some h.team, hno])

/-- One in a mode that may not make it. -/
theorem scalarCall_refused (h : ScalarReady s t g) (hm : allowed g.mode = false) : scalarCall c allowed a s =
    .next (s.takeScalarTrap s.focus { cause := .privInstruction, lane := none, info := 0, bad := 0, set := none }) :=
  runScalar_trap h.team h.group h.issue (by simp [hm])

end Calls

/-! ## A group replaced -/

section WithGroup

variable {u : Bool}

@[simp] theorem withGroup_focus : (withGroup s t g u).focus = s.focus := rfl

@[simp] theorem withGroup_team? :
    (withGroup s t g u).team? s.focus.team = some { t with quantum := t.quantum + one u, groups := aset t.groups s.focus.group g } :=
  aget_aset_self ..

@[simp] theorem withGroup_group? : (withGroup s t g u).group? s.focus = some g := by
  simp [State.group?]

@[simp] theorem withGroup_updGroup (f : Group → Group) : (withGroup s t g u).updGroup s.focus f = withGroup s t (f g) u := by
  simp [withGroup, State.updGroup, State.updTeam, aupd_eq (aget_aset_self ..)]

/-- A change of the group in focus. -/
theorem updGroup_eq_withGroup (ht : s.team? s.focus.team = some t) (hg : s.group? s.focus = some g) (f : Group → Group) :
    s.updGroup s.focus f = withGroup s t (f g) false := by
  have hg' : aget t.groups s.focus.group = some g := by simpa [State.group?, ht] using hg
  simp [withGroup, State.updGroup, State.updTeam, aupd_eq (show aget s.teams s.focus.team = some t from ht), aupd_eq hg', one]

/-- A count of one more instruction in user mode (R106, R112). -/
theorem withGroup_tick : (withGroup s t g false).tick s.focus 1 =
    withGroup s t { g with lclock := g.lclock + BitVec.ofNat 64 1 } true := by
  rw [State.tick, withGroup_updGroup]
  simp [withGroup, State.updTeam, aupd_eq (aget_aset_self ..), one]

/-- The halt of the group's team changed. -/
theorem withGroup_setHalt (x : Option Halt) : (withGroup s t g u).updTeam s.focus.team (fun t => { t with halt := x }) =
    withGroup s { t with halt := x } g u := by
  simp [withGroup, State.updTeam, aupd_eq (aget_aset_self ..)]

/-- An instruction of a privileged mode retires. -/
theorem withGroup_retire (pc : W64) : (withGroup s t g u).retireScalar s.focus false pc =
    withGroup s t { g with pc := pc, syncing := false, held := false, ordered := g.ordered.filter (·.stream != .scalar) } u := by
  simp [State.retireScalar]

end WithGroup

/-- The team after an instruction of a privileged mode retires: its group's address and marks of a wait have changed, and no count. -/
theorem team?_retireScalar_privileged (pc : W64) : (s.retireScalar r false pc).team? r.team = (s.team? r.team).map fun t =>
    { t with groups := aupd t.groups r.group fun g =>
      { g with pc := pc, syncing := false, held := false, ordered := g.ordered.filter (·.stream != .scalar) } } :=
  State.team?_updGroup_self ..

/-! ## The end of a team (R233) -/

/-- The team that has ended. -/
def Team.over (t : Team) : Team :=
  { t with groups := amap t.groups fun _ g => g.ended, halt := none, ended := true, attach := [], parts := [], latches := [] }

@[simp] theorem State.noteExit_teams (s : State) (k : Nat) : (s.noteExit k).teams = s.teams := by
  unfold State.noteExit
  split
  · rfl
  · split <;> rfl

@[simp] theorem State.noteExit_focus (s : State) (k : Nat) : (s.noteExit k).focus = s.focus := by
  unfold State.noteExit
  split
  · rfl
  · split <;> rfl

@[simp] theorem State.reportBreak_teams (s : State) (k ci st : Nat) : (s.reportBreak k ci st).teams = s.teams := (reportBreak_same ..).teams

@[simp] theorem State.reportBreak_focus (s : State) (k ci st : Nat) : (s.reportBreak k ci st).focus = s.focus := (reportBreak_same ..).focus

/-- Of the teams, a team's end changes that one alone. -/
theorem State.endTeam_teams {k : Nat} (h : s.team? k = some t) (b : Bool) : (s.endTeam k b).teams = aset s.teams k t.over := by
  simp only [State.endTeam, h]
  split <;> split_ifs <;> simp [Team.over]

theorem State.endTeam_focus (s : State) (k : Nat) (b : Bool) : (s.endTeam k b).focus = s.focus := by
  unfold State.endTeam
  split
  · rfl
  · dsimp only
    split <;> split_ifs <;> simp

theorem State.team?_endTeam {k : Nat} (h : s.team? k = some t) (b : Bool) : (s.endTeam k b).team? k = some t.over := by
  rw [State.team?, State.endTeam_teams h, aget_aset_self]

theorem State.group?_endTeam (ht : s.team? r.team = some t) (hg : s.group? r = some g) (b : Bool) :
    (s.endTeam r.team b).group? r = some g.ended := by
  have hg : aget t.groups r.group = some g := by simpa [State.group?, ht] using hg
  simp [State.group?, State.team?_endTeam ht, Team.over, aget_amap, hg]

/-- The groups of a team that has ended have exited, and stay so where one of them changes otherwise. -/
theorem Team.over_exited (t : Team) (k : Nat) {f : Group → Group} (hf : ∀ g, (f g).exited = g.exited) :
    ∀ e ∈ aupd t.over.groups k f, e.2.exited = true := by
  have h0 : ∀ e ∈ t.over.groups, e.2.exited = true := by
    intro e he
    obtain ⟨e, -, rfl⟩ := List.mem_map.1 he
    rfl
  unfold aupd
  split
  next v hv =>
    intro e he
    rcases mem_aset he with rfl | he
    · rw [Team.over, aget_amap] at hv
      obtain ⟨w, -, rfl⟩ := Option.map_eq_some_iff.1 hv
      exact hf _
    · exact h0 e he
  · exact h0

/-! ## tret (R229, R322) -/

/-- The causes that are no errors (R225). -/
theorem Cause.isError_eq_false_iff (c : Cause) : c.isError = false ↔ c ∈ [.syscall, .hcall, .brk, .xlate] := by
  cases c <;> decide

/-- The group with its current frame popped; `halted` says that its stream is back in user mode under a halt. -/
def Group.popScalar (g : Group) (p : Nat) (fr : TrapFrame) (halted : Bool) : Group :=
  { g with traps := adel g.traps p, trap := fr.prev, pc := fr.epc, mode := fr.pmode, stopped := g.stopped || halted }

section Return

variable {p : Nat} {fr : TrapFrame}

/-- Every return pops the current frame; the frame's END and cause say what follows. -/
theorem scalarReturn_eq (h : ScalarReady s t g) (hp : g.trap = some p) (hf : aget g.traps p = some fr) :
    s.scalarReturn s.focus =
      let s' := withGroup s t (g.popScalar p fr (t.halt.isSome && fr.pmode == .user)) false
      if fr.fin || fr.cause.isError then s'.popEnd s.focus true (fr.cause == .hcall)
      else if fr.cause = .syscall then s'.tick s.focus 1 else s' := by
  simp only [State.scalarReturn, h.group, hp, hf, h.team, Option.bind_some, Option.map_some, updGroup_eq_withGroup h.team h.group]
  rfl

/-- A frame of a call or of a translation fault, without END: a SYSCALL counts now. -/
theorem scalarReturn_goesOn (h : ScalarReady s t g) (hp : g.trap = some p) (hf : aget g.traps p = some fr) (hfin : fr.fin = false)
    (hc : fr.cause ∈ [.syscall, .hcall, .brk, .xlate]) : s.scalarReturn s.focus =
      withGroup s t { g.popScalar p fr (t.halt.isSome && fr.pmode == .user) with
        lclock := g.lclock + BitVec.ofNat 64 (one (fr.cause == .syscall)) } (fr.cause == .syscall) := by
  have he : (fr.fin || fr.cause.isError) = false := by simp [hfin, (Cause.isError_eq_false_iff _).2 hc]
  rw [scalarReturn_eq h hp hf]
  simp only [he, Bool.false_eq_true, if_false]
  by_cases hs : fr.cause = .syscall
  · rw [if_pos hs, withGroup_tick, hs]
    rfl
  · rw [if_neg hs, beq_false_of_ne hs]
    simp [one, Group.popScalar]

/-- Any other frame ends the team. -/
theorem ends_of_fin_or_error (h : fr.fin = true ∨ fr.cause ∉ [.syscall, .hcall, .brk, .xlate]) :
    (fr.fin || fr.cause.isError) = true := by
  rw [← Cause.isError_eq_false_iff, Bool.not_eq_false] at h
  simpa using h

/-- Under a halt the team will end as the halt does (R233). -/
theorem scalarReturn_ends_halted (h : ScalarReady s t g) (hp : g.trap = some p) (hf : aget g.traps p = some fr)
    (he : fr.fin = true ∨ fr.cause ∉ [.syscall, .hcall, .brk, .xlate]) {hl : Halt} (hh : t.halt = some hl) :
    s.scalarReturn s.focus = withGroup s { t with halt := some (hl.pop (fr.cause == .hcall)) }
      (g.popScalar p fr (fr.pmode == .user)).dropScalarFrames false := by
  rw [scalarReturn_eq h hp hf]
  simp only [ends_of_fin_or_error he, if_true, State.popEnd, withGroup_team?, hh, withGroup_updGroup, Option.isSome_some, Bool.true_and]
  exact withGroup_setHalt _

/-- Without a halt it ends at once (R233). -/
theorem scalarReturn_ends_now (h : ScalarReady s t g) (hp : g.trap = some p) (hf : aget g.traps p = some fr)
    (he : fr.fin = true ∨ fr.cause ∉ [.syscall, .hcall, .brk, .xlate]) (hh : t.halt = none) :
    s.scalarReturn s.focus = (withGroup s t (g.popScalar p fr false) false).endTeam s.focus.team (fr.cause == .hcall) := by
  rw [scalarReturn_eq h hp hf]
  simp [ends_of_fin_or_error he, State.popEnd, hh]

/-- A tret in user mode traps before anything else. -/
theorem execScalarTret_user (h : ScalarReady s t g) (hm : g.mode = .user) : execScalarTret s =
    .next (s.takeScalarTrap s.focus { cause := .privInstruction, lane := none, info := 0, bad := 0, set := none }) :=
  runScalarTo_trap h.team h.group h.issue (by simp [hm])

/-- So does one of a stream without a frame. -/
theorem execScalarTret_unbalanced (h : ScalarReady s t g) (hm : g.mode ≠ .user) (hp : g.trap = none) : execScalarTret s =
    .next (s.takeScalarTrap s.focus { cause := .tretUnbalanced, lane := none, info := 0, bad := 0, set := none }) :=
  runScalarTo_trap h.team h.group h.issue (by simp [bne_iff_ne.2 hm, hp])

/-- Else it retires at the address at which the return has left the stream. -/
theorem execScalarTret_retires {s' : State} {g' : Group} (h : ScalarReady s t g) (hm : g.mode ≠ .user) (hp : g.trap = some p)
    (hs : s.scalarReturn s.focus = s') (hfocus : s'.focus = s.focus) (hg : s'.group? s.focus = some g') :
    execScalarTret s = .next (s'.retireScalar s.focus false g'.pc) := by
  have hb : (g.mode == Mode.user) = false := beq_false_of_ne hm
  rw [execScalarTret, runScalarTo_ok h.team h.group h.issue (pc := g'.pc) (s' := s'), hb]
  simp [bne_iff_ne.2 hm, hp, hs, hereG_some (hfocus ▸ hg)]

/-- The same where the return changes the group and its team alone. -/
theorem execScalarTret_withGroup {t' : Team} {g' : Group} {u : Bool} (h : ScalarReady s t g) (hm : g.mode ≠ .user) (hp : g.trap = some p)
    (hs : s.scalarReturn s.focus = withGroup s t' g' u) : execScalarTret s = .next
      (withGroup s t' { g' with syncing := false, held := false, ordered := g'.ordered.filter (·.stream != .scalar) } u) := by
  rw [execScalarTret_retires h hm hp hs rfl withGroup_group?, withGroup_retire]

/-- A tret that ends the team at once leaves every group of it exited: the retirement touches no such mark. -/
theorem execScalarTret_ends_now (h : ScalarReady s t g) (hm : g.mode ≠ .user) (hp : g.trap = some p) (hf : aget g.traps p = some fr)
    (he : fr.fin = true ∨ fr.cause ∉ [.syscall, .hcall, .brk, .xlate]) (hh : t.halt = none) :
    ∃ s' t', execScalarTret s = .next s' ∧ s'.team? s.focus.team = some t' ∧ t'.ended = true ∧ ∀ e ∈ t'.groups, e.2.exited = true := by
  have hretires := execScalarTret_retires h hm hp (scalarReturn_ends_now h hp hf he hh) (State.endTeam_focus ..)
    (State.group?_endTeam withGroup_team? withGroup_group? _)
  have hteam := team?_retireScalar_privileged
    (s := (withGroup s t (g.popScalar p fr false) false).endTeam s.focus.team (fr.cause == .hcall)) (r := s.focus)
    (g.popScalar p fr false).ended.pc
  rw [State.team?_endTeam withGroup_team?] at hteam
  exact ⟨_, _, hretires, hteam, rfl, Team.over_exited _ _ fun _ => rfl⟩

end Return

end Sys2Proof.Machine

namespace Sys2Proof

/-! ## The words of OP 0x38 without sD (R321) -/

/-- The word of an instruction of OP 0x38 that names sA alone. -/
theorem packS_sys (a : SReg) (sel : BitVec 14) : packS (sx 0x38#6 0 a sel) = BitVec.ofNat 32 (0xE0000000 + sel.toNat + a.toNat * 2 ^ 14) := by
  have hop : 0x38#6 ++ 0#6 = 0xE00#12 := by decide
  apply BitVec.eq_of_toNat_eq
  show (0x38#6 ++ 0#6 ++ a ++ sel).toNat = _
  have ha := a.isLt
  have hs := sel.isLt
  simp only [hop, BitVec.toNat_append, BitVec.toNat_ofNat]
  rw [← Nat.shiftLeft_add_eq_or_of_lt hs, ← Nat.shiftLeft_add_eq_or_of_lt ha]
  simp only [Nat.shiftLeft_eq]
  omega

/-- Such a word decodes to its instruction. -/
theorem decodeTableWord_sys {i : Instr} {a : SReg} {sel : BitVec 14} (he : encode i = some [packS (sx 0x38#6 0 a sel)])
    (hr : Laws.RoundTrip.Statement i) (hw : i.wellFormed = true) (hf : i.wordForm = i) :
    decodeTableWord 32 (0xE0000000 + sel.toNat + a.toNat * 2 ^ 14) = some i := by
  have h := hr _ hw he
  rwa [hf, packS_sys] at h

end Sys2Proof

namespace Sys2Proof.Claims
open Machine

/-- A call is its form of scalarCall, with the modes that R321 allows it. -/
theorem exec_callForm {i : Instr} {c : Cause} {a : SReg} (h : callForm i = some (c, a)) :
    ∃ allowed : Mode → Bool, (∀ s, exec i s = scalarCall c allowed a s) ∧ ∀ m, allowed m = true ↔ CallAllowed c m := by
  unfold callForm at h
  split at h <;> cases h
  · exact ⟨(· == .user), fun _ => rfl, fun m => by simp [CallAllowed]⟩
  · exact ⟨(· == .supervisor), fun _ => rfl, fun m => by simp [CallAllowed]⟩
  · exact ⟨fun _ => true, fun _ => rfl, fun m => by simp [CallAllowed]⟩

/-- A cause that some mode may call with is a call. -/
theorem CallAllowed.isCall {c : Cause} {m : Mode} (h : CallAllowed c m) : c.isCall = true := by
  rcases h with rfl | ⟨rfl, -⟩ | ⟨rfl, -⟩ <;> rfl

/-- Only SYSCALL and HCALL resume at the next instruction (R228). -/
theorem CallAllowed.resume {c : Cause} {m : Mode} (h : CallAllowed c m) (x y : W64) :
    (if c = .syscall ∨ c = .hcall then x else y) = if c = .brk then y else x := by
  rcases h with rfl | ⟨rfl, -⟩ | ⟨rfl, -⟩ <;> rfl

/-- Settles O18: the words by the round trip, the outcomes by those of scalarCall, and the frame by that of a call's trap. -/
theorem scalarCalls : Obligations.ScalarCalls := by
  have words : ∀ a : SReg, decodeTableWord 32 (0xE0000000 + a.toNat * 2 ^ 14) = some (.scalarSysc a) ∧
      decodeTableWord 32 (0xE0000001 + a.toNat * 2 ^ 14) = some (.scalarHcall a) ∧
      decodeTableWord 32 (0xE000000B + a.toNat * 2 ^ 14) = some (.scalarBrk a) := fun a =>
    ⟨decodeTableWord_sys (sel := 0#14) rfl (Laws.RoundTrip.scalarSysc a) rfl rfl,
     decodeTableWord_sys (sel := 1#14) rfl (Laws.RoundTrip.scalarHcall a) rfl rfl,
     decodeTableWord_sys (sel := 11#14) rfl (Laws.RoundTrip.scalarBrk a) rfl rfl⟩
  refine ⟨words, (words 5#6).1, fun s t g i c a h ha hi => ?_⟩
  obtain ⟨allowed, hexec, hallowed⟩ := exec_callForm hi
  have ha : g.sregPending a = false := ha a List.mem_cons_self
  rw [hexec]
  have traps (hm : CallAllowed c g.mode) (hh : g.mode ≠ .user ∨ t.halt = none) := scalarCall_trap (c := c) h ha ((hallowed _).2 hm) hh
  refine ⟨traps, fun hm hu hh => scalarCall_halted h ((hallowed _).2 hm) hu hh,
    fun hm => scalarCall_refused h (by rwa [← hallowed, Bool.not_eq_true] at hm), fun hm hh pos hp => ?_⟩
  refine ⟨_, _, _, traps hm hh, State.group?_takeScalarTrap_call h.team h.group hp hm.isCall, rfl, aget_aset_self .., rfl, rfl, ?_, rfl⟩
  exact congrArg addr48 (hm.resume _ _)

/-- Settles O20, by what follows the pop of the current frame. -/
theorem scalarReturn : Obligations.ScalarReturn := by
  intro s t g h
  refine ⟨execScalarTret_user h, execScalarTret_unbalanced h, fun p fr hm hp hf => ⟨?_, ?_, ?_⟩⟩
  · rintro ⟨hfin, hc⟩
    exact execScalarTret_withGroup h hm hp (scalarReturn_goesOn h hp hf hfin hc)
  · exact fun he hh => execScalarTret_ends_now h hm hp hf he hh
  · intro he hl hh
    exact execScalarTret_withGroup h hm hp (scalarReturn_ends_halted h hp hf he hh)

end Sys2Proof.Claims
end
